-- ==== Sys2Proof/Word.lean ====
section
/-!
DEFINITION. The words of the quay link and the index types of the quay tables and records.

An index that the manual counts from 1 (unloader 1 to 6, belt 1 to 8, lot 1 to 16 ...) is a `Fin`:
the value k stands for the number k + 1, which is what `num` gives. A station address is counted
from 0 in the manual, and is its own value.
-/

namespace Sys2Proof

/-- An octet of the line (R160). -/
abbrev Octet := BitVec 8

/-- A payload word of 16 bits (scope: telegram payloads are counted in 16-bit words). -/
abbrev Word := BitVec 16

/-- A belt position, or a mark on a belt: 32 bits, wrapping (R76, R79). -/
abbrev Mark := BitVec 32

/-- A station address, 0 to 63 (scope, Units and ranges). -/
abbrev Addr := Fin 64

/-- An unloader index 1 to 6, which is also a leg number (R3, R25). -/
abbrev UnloaderIx := Fin 6

/-- A belt index 1 to 8 (R3). -/
abbrev BeltIx := Fin 8

/-- A diverter index 1 to 8 (R3). -/
abbrev DiverterIx := Fin 8

/-- A route id 1 to 32 (section 1.1). -/
abbrev RouteIx := Fin 32

/-- A lot id 1 to 16 (section 1.1). The UNKNOWN lot, id 0, is no value of this type. -/
abbrev LotIx := Fin 16

/-- A hold entry number 1 to 18 (section 1.1). -/
abbrev HoldIx := Fin 18

/-- A bin number 1 to 48 (section 1.1). -/
abbrev BinIx := Fin 48

/-- A block of the account pool, 1 to 12 (R132). -/
abbrev BlockIx := Fin 12

/-- A calibration slot of an unloader index, 1 to 4 (R125). -/
abbrev SlotIx := Fin 4

/-- One of the six places of a slug queue (R82). The place a slug takes is the name by which a source
finds it again (R83); see assumption 18. -/
abbrev Place := Fin 6

/-- A diverter position 0 to 3 (R6). -/
abbrev PositionIx := Fin 4

/-- The broadcast address 63 (scope, Units and ranges). -/
def broadcast : Addr := 63

/-- The number by which the manual and the link name an index counted from 1. -/
def num {n : Nat} (i : Fin n) : Nat := i.val + 1

/-- The payload word that carries a number (R161). -/
def word (n : Nat) : Word := BitVec.ofNat 16 n

/-- Two fields of one payload word, the first in the more significant octet (R161). -/
def word2 (hi lo : Nat) : Word := BitVec.ofNat 16 (hi * 256 + lo)

/-- The value of an entry of a vector with one entry changed. -/
def put {α : Type} {n : Nat} (v : Vector α n) (i : Fin n) (x : α) : Vector α n :=
  v.set i.val x i.isLt

/-- All indices of a kind, in index order. -/
def allIx (n : Nat) : List (Fin n) := List.finRange n

end Sys2Proof
end

