-- ==== Sys2Proof/Syntax.lean ====
section
/-!
DEFINITION. The commands of the part: one constructor for each row of spec/opcode_table.json.

A command is an event that reaches the part from outside: a telegram that arrives whole at a port, an
expiry, the completion of a nonvolatile write, the beginning or end of a transmission, the power. A
telegram's command carries the header and the payload words that its row leaves open, so that every
form the manual gives a telegram (too short, with further words, broadcast, with an absent claimed
ring) is an operand of it.
-/

namespace Sys2Proof

/-- The two link ports (scope, Place in the quay link). -/
inductive Port where
  | a   -- faces the supervisory side
  | b   -- faces the field side
  deriving DecidableEq, Repr

/-- The header of a telegram, without its kind, and its payload words, without those that the
command's row fixes (R160). -/
structure Message where
  dest   : Addr
  source : Addr
  seq    : Octet
  words  : List Word
  deriving DecidableEq, Repr

/-- The commands. In the comments, 'words' are those of the message. -/
inductive Instr where
  /-- Power is applied (R176). -/
  | powerOn
  /-- A run of octets between two idle intervals of a port's line (R160, R163). -/
  | receiveTelegram (port : Port) (octets : List Octet)
  /-- A SAMPLE arrives on port B; words: the whole payload (R148). -/
  | unloaderSample (m : Message)
  /-- A SAMPLE arrives on port B; words: the whole payload (R77). -/
  | beltSample (m : Message)
  /-- A SAMPLE arrives on port B; words: the whole payload (R106). -/
  | diverterSample (m : Message)
  /-- An ORDER of subkind FEED arrives on port A; words: the payload after the subkind (R68). -/
  | feedOrder (m : Message)
  /-- An ORDER of subkind DIVERT arrives on port A; words: the payload after the subkind (R108). -/
  | divertOrder (m : Message)
  /-- The allocation period timer expires (R55). -/
  | allocationPeriodExpiry
  /-- The silence timer of the station at an address expires (R151). -/
  | silenceTimerExpiry (address : Addr)
  /-- The hold timer of a diverter reaches its timeout (R112). -/
  | holdTimerExpiry (diverter : DiverterIx)
  /-- The idle timer of the bulk cursor reaches 30 s (R186). -/
  | cursorIdleExpiry
  /-- A calibration write completes (R141). -/
  | calibrationWriteCompletion
  /-- The nonvolatile writer starts a grand-total write (R143). -/
  | grandTotalWriteStart
  /-- A grand-total write completes (R143). -/
  | grandTotalWriteCompletion
  /-- A commissioning write completes (R191). -/
  | commissioningWriteCompletion
  /-- The transmitter of a port begins a transmission (R173). -/
  | transmissionBegin (port : Port)
  /-- A transmission of a port ends (R173). -/
  | transmissionEnd (port : Port)
  /-- A REQUEST with no code or an unknown code arrives; words: the whole payload (R179). -/
  | unknownRequest (port : Port) (m : Message)
  /-- The REQUESTs of the twenty codes; words: the payload after the code, so the claimed ring and
  then the parameters (R161, R179). -/
  | status (port : Port) (m : Message)
  | tableRead (port : Port) (m : Message)
  | tableWrite (port : Port) (m : Message)
  | legRead (port : Port) (m : Message)
  | legStart (port : Port) (m : Message)
  | legStop (port : Port) (m : Message)
  | legClear (port : Port) (m : Message)
  | setAllocator (port : Port) (m : Message)
  | binReset (port : Port) (m : Message)
  | readAccounts (port : Port) (m : Message)
  | snapshotLot (port : Port) (m : Message)
  | readSnapshot (port : Port) (m : Message)
  | calibrate (port : Port) (m : Message)
  | flagsRead (port : Port) (m : Message)
  | flagsClear (port : Port) (m : Message)
  | noticeMask (port : Port) (m : Message)
  | bulkOpen (port : Port) (m : Message)
  | bulkData (port : Port) (m : Message)
  | commission (port : Port) (m : Message)
  | restart (port : Port) (m : Message)
  /-- The supply is lost (R143). -/
  | powerLoss
  deriving DecidableEq, Repr

end Sys2Proof
end

