-- ==== Sys2Proof/Decode.lean ====
section
/-!
DEFINITION. The command that a word of spec/opcode_table.json spells. No row of that table gives bits
(its fields are all empty): the part takes telegrams and events, which Machine/Telegram.lean reads
from octets. So no word spells a command.
-/

namespace Sys2Proof

/-- The command that the table's bits spell: the table gives no row any bits, so none. -/
def decodeTableWord (_nbits _w : Nat) : Option Instr := none

end Sys2Proof
end

