-- ==== Sys2Proof/Config.lean ====
section
/-!
DEFINITION. The constants of the part, and the one free value of the model.
-/

namespace Sys2Proof.Config

/-- A value the manual leaves open, one for each use (assumption 6). It has no body on purpose: nothing
can evaluate it, so what is proved holds whatever value the part puts there. -/
opaque freeWord : Nat → Word

/-- Entries of the port A egress queue (R170). -/
def egressPlaces : Nat := 16

/-- Entries of the port B forward queue (R171). -/
def forwardPlaces : Nat := 16

/-- Entries of a slug queue (R82). -/
def slugPlaces : Nat := 6

/-- The most belts that one cascade sends UNSURE (R98), and the most of a route (R10). -/
def cascadeBelts : Nat := 6

/-- The largest setpoint that is taken as it stands (R37, R68), in t/h. -/
def maxFeed : Nat := 1200

/-- The largest travel between two belt samples that is no glitch (R77, R78). -/
def maxTravel : Nat := 30000

/-- The most kilograms of one sample that are no weigher glitch (R126, R127). -/
def maxSampleKg : Nat := 5000

/-- The most sources of a slug that another source may still join (R86). -/
def maxSources : Nat := 7

/-- The maximum of a kilogram amount (R13, R16, R20, R136). -/
def maxKg : Nat := 2 ^ 48 - 1

/-- The maximum of a stored grand total and of the pending tonnes (R125, R142). -/
def maxTonnes : Nat := 999999999

/-- The maximum of a 16-bit diagnostic counter (R198). -/
def maxCount16 : Nat := 65535

/-- The maximum of an 8-bit diagnostic counter (R198). -/
def maxCount8 : Nat := 255

/-- The largest power budget, in kW (R53). -/
def maxBudget : Nat := 20000

/-- The period of the allocator after power-on, in ms (R52, R74). -/
def firstPeriod : Nat := 500

/-- The four allocation periods, in ms (R50). -/
def periods : List Nat := [100, 200, 500, 1000]

/-- The idle time after which the bulk cursor closes, in ms (R186). -/
def cursorIdle : Nat := 30000

/-- Line places of one account block (R132). -/
def blockLines : Nat := 8

/-- The most words of a payload (R160, R163). -/
def maxWords : Nat := 12

/-- The words of a part of a read, after the word that gives the number of parts (R183). -/
def partWords : Nat := 9

/-- The largest part number of a read in parts (R183). -/
def maxPart : Nat := 32

/-- The own address of a part that has never been commissioned (R189). -/
def defaultOwn : Addr := 62

/-- The commissioning station address of a part that has never been commissioned (R189). -/
def defaultStation : Addr := 1

end Sys2Proof.Config
end

