-- ==== Sys2Proof/Machine/State.lean ====
section
/-!
DEFINITION. The state of the part, block by block as the manual names the blocks (scope, Block
overview), the reasons a command can stop, and the state right after reset.
-/

namespace Sys2Proof.Machine

/-! ### The quay tables (Chapter 1) -/

/-- Where an outlet leads (R5, R6). -/
inductive Outlet where
  | bin (n : BinIx)
  | belt (n : BeltIx)
  | diverter (n : DiverterIx)
  deriving DecidableEq, Repr

/-- The working data of an UNLOADER entry (R4). -/
structure UnloaderData where
  ratedCap         : Nat
  basePower        : Nat
  specificPower    : Nat
  rampStep         : Nat
  flowThreshold    : Nat
  chokeThreshold   : Nat
  releaseThreshold : Nat
  sweepPercent     : Nat
  deriving DecidableEq, Repr

/-- The data of a BELT entry (R5). -/
structure BeltData where
  length      : Nat
  capacity    : Nat
  purgeGap    : Nat
  guardLength : Nat
  outlet      : Outlet
  deriving DecidableEq, Repr

/-- The data of a DIVERTER entry (R6): the outlets of the positions used, from position 0 on. The
positions used are the length of that list. -/
structure DiverterData where
  outlets     : List Outlet
  holdTimeout : Nat
  deriving DecidableEq, Repr

/-- The kind of a station with what an entry of the kind holds (R3 to R6). Kind NONE is an absent entry. -/
inductive StationKind where
  | unloader (ix : UnloaderIx) (d : UnloaderData)
  | belt (ix : BeltIx) (d : BeltData)
  | diverter (ix : DiverterIx) (d : DiverterData)
  | supervisor
  | panel
  deriving DecidableEq, Repr

/-- A station table entry of a kind other than NONE (R3). -/
structure StationEntry where
  ringCeiling  : Nat
  silenceLimit : Nat
  kind         : StationKind
  deriving DecidableEq, Repr

/-- One pair of a route's diverter settings (R9). -/
structure Setting where
  diverter : DiverterIx
  position : PositionIx
  deriving DecidableEq, Repr

/-- A route entry (R9). -/
structure Route where
  unloader  : UnloaderIx
  firstBelt : BeltIx
  settings  : List Setting
  bin       : BinIx
  belts     : List BeltIx
  users     : Nat
  deriving DecidableEq, Repr

/-- A lot entry (R13). Bit n - 1 of `permitted` stands for bin n. -/
structure Lot where
  cargoClass   : Nat
  group        : Nat
  permitted    : BitVec 48
  chain        : List BlockIx
  total        : Nat
  unattributed : Nat
  deriving DecidableEq, Repr

/-- The phase of a hold (R16). -/
inductive Phase where
  | undeclared
  | freeDig
  | sweep
  | empty
  deriving DecidableEq, Repr

/-- A hold entry (R16). -/
structure Hold where
  vessel     : Nat
  number     : Nat
  lot        : Option LotIx
  declared   : Nat
  threshold  : Nat
  phase      : Phase
  discharged : Nat
  deriving DecidableEq, Repr

/-- A bin entry (R20). -/
structure Bin where
  capacity : Nat
  margin   : Nat
  isOpen   : Bool
  lot      : Option LotIx
  fill     : Nat
  deriving DecidableEq, Repr

/-- The five quay tables (section 1.1). -/
structure Tables where
  stations : Vector (Option StationEntry) 64
  routes   : Vector (Option Route) 32
  lots     : Vector (Option Lot) 16
  holds    : Vector (Option Hold) 18
  bins     : Vector (Option Bin) 48
  deriving DecidableEq, Repr

/-- The tables by name, as a request's table selector names them (R161, R184). -/
inductive Table where
  | station
  | route
  | lot
  | hold
  | bin
  deriving DecidableEq, Repr

/-! ### The leg controller (Chapter 2) -/

/-- The state of a leg (R25, R26). -/
inductive LegState where
  | idle
  | active
  | ended
  deriving DecidableEq, Repr

/-- Why a leg ended (R25). -/
inductive EndReason where
  | ordered
  | holdEmpty
  | breach
  | silent
  deriving DecidableEq, Repr

/-- The grant condition of an ACTIVE leg (R25, R41). -/
inductive GrantCondition where
  | flowing
  | choked
  | waitBelt
  | waitDiverter
  | binFull
  | waitGap
  deriving DecidableEq, Repr

/-- A leg record (R25). The belt list is absent exactly when it is empty. -/
structure Leg where
  state         : LegState
  hold          : Option HoldIx
  route         : Option RouteIx
  belts         : List BeltIx
  lot           : Option LotIx
  bin           : Option BinIx
  r             : Nat
  g             : Nat
  f             : Nat
  pendingFeed   : Option Nat
  endReason     : Option EndReason
  condition     : Option GrantCondition
  powerShort    : Bool
  noticeDisable : Bool
  deriving DecidableEq, Repr

/-- A leg record at power-on (R48). -/
def Leg.atRest : Leg where
  state := .idle
  hold := none
  route := none
  belts := []
  lot := none
  bin := none
  r := 0
  g := 0
  f := 0
  pendingFeed := none
  endReason := none
  condition := none
  powerShort := false
  noticeDisable := false

/-! ### The feed allocator (Chapter 3) -/

/-- The allocator's own state (R50): kilowatts and milliseconds. -/
structure Allocator where
  budgetInUse : Nat
  budgetSet   : Nat
  periodInUse : Nat
  periodSet   : Nat
  timeLeft    : Nat
  deriving DecidableEq, Repr

/-! ### The belt tracker (Chapter 4) -/

/-- What a slug of a lot 1 to 16 carries, and what a source opens with (R79, R84): its lot, the route id
and the path of its leg, and the bin it is bound for. -/
structure Grain where
  lot   : LotIx
  route : RouteIx
  path  : List BeltIx
  bin   : BinIx
  deriving DecidableEq, Repr

/-- The stage of a slug (R79, R80). -/
inductive Stage where
  | travelling
  | approaching
  | crossing
  deriving DecidableEq, Repr

/-- The hand-over of a slug (R79). BELT n carries the place of the slug on belt n that its source feeds
(R83); `nowhere` is NONE. -/
inductive HandOver where
  | absent
  | belt (n : BeltIx) (place : Place)
  | bin (n : BinIx)
  | nowhere
  deriving DecidableEq, Repr

/-- A slug record (R79). A slug without grain is of the UNKNOWN lot. -/
structure Slug where
  place    : Place
  grain    : Option Grain
  front    : Mark
  rear     : Option Mark
  sources  : Nat
  stage    : Stage
  handOver : HandOver
  deriving DecidableEq, Repr

/-- The condition of a belt (R76). -/
inductive Condition where
  | sure
  | unsure
  deriving DecidableEq, Repr

/-- A belt record (R76). The running indication is absent while not reported. -/
structure BeltRecord where
  position   : Mark
  lastTravel : Option Word
  running    : Option Bool
  condition  : Condition
  queue      : List Slug
  deriving DecidableEq, Repr

/-- The slug a source feeds: a belt and a place of its queue (R83). -/
structure SourceRef where
  belt  : BeltIx
  place : Place
  deriving DecidableEq, Repr

/-- The belt tracker: the belt records (R76) and the unloader sources (R83). -/
structure Tracker where
  belts   : Vector (Option BeltRecord) 8
  sources : Vector (Option SourceRef) 6
  deriving DecidableEq, Repr

/-! ### Telegrams (Chapter 8) -/

/-- The telegram kinds (R160). -/
inductive Kind where
  | sample
  | order
  | answer
  | request
  | reply
  | notice
  deriving DecidableEq, Repr

/-- A telegram that has passed reception, or is being sent (R160). -/
structure Telegram where
  dest    : Addr
  source  : Addr
  kind    : Kind
  seq     : Octet
  payload : List Word
  deriving DecidableEq, Repr

/-- The two addresses of a commissioning record (R189). -/
structure Addresses where
  own     : Addr
  station : Addr
  deriving DecidableEq, Repr

/-- A telegram waiting in the port A egress queue or the port B forward queue. One that the part
originates has no source and no sequence number before its transmission begins (R169, R189); a
COMMISSION reply carries the addresses that come into force when it leaves its queue for good (R191). -/
inductive Queued where
  | forwarded (t : Telegram)
  | own (dest : Addr) (kind : Kind) (payload : List Word) (takesForce : Option Addresses)
  deriving DecidableEq, Repr

/-- A guard FEED order waiting in the port B guard queue (R172). -/
structure Guard where
  unloader : UnloaderIx
  dest     : Addr
  setpoint : Nat
  deriving DecidableEq, Repr

/-- A telegram in transmission (R173). -/
structure Sending where
  telegram   : Telegram
  takesForce : Option Addresses
  deriving DecidableEq, Repr

/-- The link ports and the telegram path: queues, transmitters, the origin count and the counters
(R163, R164, R169 to R173). A transmitter is idle when it sends nothing. -/
structure Path where
  egressA      : List Queued
  forwardB     : List Queued
  guardB       : List Guard
  sendingA     : Option Sending
  sendingB     : Option Sending
  originCount  : Octet
  checkErrorsA : Nat
  checkErrorsB : Nat
  dropsA       : Nat
  dropsB       : Nat
  misuse       : Nat
  deriving DecidableEq, Repr

/-! ### Diverters and segregation (Chapter 5) -/

/-- The hold timer of a diverter while it runs (R104), in milliseconds. -/
structure HoldTimer where
  elapsed : Nat
  timeout : Nat
  deriving DecidableEq, Repr

/-- A diverter record (R104). The reported position is absent while UNKNOWN. The pending divert is the
whole held order, which is forwarded as received (R110, R168). -/
structure DiverterRecord where
  position  : Option PositionIx
  pending   : Option Telegram
  holdTimer : Option HoldTimer
  deriving DecidableEq, Repr

/-- The kind of a breach (R119). -/
inductive BreachKind where
  | divert
  | binMix
  | gap
  deriving DecidableEq, Repr

/-- The other lot of a breach record (R119). -/
inductive OtherLot where
  | absent
  | unknown
  | lot (n : LotIx)
  deriving DecidableEq, Repr

/-- The breach record (R119). -/
structure Breach where
  kind     : BreachKind
  belt     : BeltIx
  diverter : Option DiverterIx
  bin      : Option BinIx
  slugLot  : LotIx
  otherLot : OtherLot
  deriving DecidableEq, Repr

/-- The diverter and segregation block. -/
structure Segregation where
  diverters   : Vector (Option DiverterRecord) 8
  breach      : Option Breach
  breachCount : Nat
  deriving DecidableEq, Repr

/-! ### Weighing and lot accounts (Chapter 6) -/

/-- The volatile part of a weighing record (R125). -/
structure Weigher where
  lastCount     : Option Word
  remainder     : Nat
  glitches      : Nat
  pendingTonnes : Nat
  residue       : Nat
  deriving DecidableEq, Repr

/-- An account line (R132). -/
structure Line where
  vessel : Nat
  number : Nat
  bin    : BinIx
  kg     : Nat
  deriving DecidableEq, Repr

/-- A snapshot (R137). -/
structure Snapshot where
  number       : Octet
  lot          : LotIx
  total        : Nat
  unattributed : Nat
  lines        : List Line
  deriving DecidableEq, Repr

/-- Weighing and accounts, less what is nonvolatile. The lines of each block of the account pool stand
in the order they were created (R132); a block is free when no lot's chain holds it. -/
structure Weighing where
  weighers       : Vector Weigher 6
  pool           : Vector (List Line) 12
  unassigned     : Nat
  snapshotNumber : Octet
  snapshot       : Option Snapshot
  lastServed     : UnloaderIx
  deriving DecidableEq, Repr

/-- The nonvolatile writer (R140, R143). -/
inductive Writer where
  | idle
  | calibration (unloader : UnloaderIx) (slot : SlotIx) (value : Nat) (requester : Addr) (port : Port)
  | grandTotal (unloader : UnloaderIx) (batch : Nat)
  deriving DecidableEq, Repr

/-- What survives power loss: the calibration slots (an ERASED slot is absent), the stored grand totals
(R125) and the commissioning record (R189). -/
structure Nonvolatile where
  slots  : Vector (Vector (Option Nat) 4) 6
  totals : Vector Nat 6
  record : Addresses
  deriving DecidableEq, Repr

/-! ### Station watch (Chapter 7) -/

/-- The watch state of a station (R147). -/
inductive WatchState where
  | unwatched
  | heard
  | silent
  deriving DecidableEq, Repr

/-- A persistence filter: SET or CLEAR, and whether one agreeing sample has been seen (section 7.4). -/
structure Filter where
  isSet : Bool
  seen  : Bool
  deriving DecidableEq, Repr

/-- A filter that is CLEAR with no agreeing sample seen. -/
def Filter.clear : Filter := ⟨false, false⟩

/-- A watch record (R147). The silence timer is absent while stopped, and counts 100 ms steps. -/
structure WatchRecord where
  state      : WatchState
  timer      : Option Nat
  returnDue  : Bool
  lastSeq    : Option Octet
  duplicates : Nat
  choke      : Filter
  sweep      : Filter
  deriving DecidableEq, Repr

/-! ### Management and notices (Chapters 9 and 10) -/

/-- An open bulk cursor (R185). Indices are numbers as the link carries them; the idle timer is in
milliseconds. -/
structure Cursor where
  owner     : Addr
  table     : Table
  next      : Nat
  remaining : Nat
  idle      : Nat
  deriving DecidableEq, Repr

/-- A commissioning write in progress (R190). -/
structure CommissionWrite where
  addresses : Addresses
  requester : Addr
  port      : Port
  deriving DecidableEq, Repr

/-- Management: the addresses in force (R191), a commissioning write in progress (R190), the bulk cursor
(R185). -/
structure Management where
  inForce : Addresses
  writing : Option CommissionWrite
  cursor  : Option Cursor
  deriving DecidableEq, Repr

/-- The causes of notice (R194). -/
inductive Cause where
  | legEnded
  | breach
  | stationSilent
  | stationBack
  | divertTimeout
  | weigherGlitch
  | poolExhausted
  | trackerFull
  | powerShort
  | cursorExpired
  deriving DecidableEq, Repr

/-- The fifteen flags (R194), set when true. -/
structure Flags where
  legEnded      : Vector Bool 6
  breach        : Bool
  stationSilent : Bool
  stationBack   : Bool
  divertTimeout : Bool
  weigherGlitch : Bool
  poolExhausted : Bool
  trackerFull   : Bool
  powerShort    : Bool
  cursorExpired : Bool
  deriving DecidableEq, Repr

/-- Notices: the flags and the notice mask, whose bit n - 1 enables cause n (R161, R197). -/
structure Notices where
  flags : Flags
  mask  : BitVec 10
  deriving DecidableEq, Repr

/-- Whether the part has its supply (R176, R143). -/
inductive Power where
  | off
  | on
  deriving DecidableEq, Repr

/-! ### The whole part -/

/-- The state of the part. The last three fields are the model's own: the 100 ms step in which the
silence timers count (assumption 4), how many free values have been used (assumption 6), and the
commands that wait, first in first out (assumption 1). -/
structure State where
  power      : Power
  tables     : Tables
  legs       : Vector Leg 6
  alloc      : Allocator
  tracker    : Tracker
  seg        : Segregation
  weighing   : Weighing
  writer     : Writer
  nv         : Nonvolatile
  watch      : Vector (Option WatchRecord) 64
  path       : Path
  mgmt       : Management
  notices    : Notices
  clock      : Nat
  freeUsed   : Nat
  pending    : List Instr
  deriving DecidableEq, Repr

/-- The reasons for which the part stops. It has none: the manual gives every command an effect in every
state, so the type has no constructor, and no step of the model faults (safe). -/
inductive Fault where
  deriving DecidableEq, Repr

/-- The reasons for which a command has no meaning. -/
inductive Refusal where
  /-- Raised by an arm of `exec` for a command that is not modelled yet, by its mnemonic (safe). No arm
  raises it. -/
  | notModelled (mnemonic : String)
  deriving DecidableEq, Repr

/-! ### Values at power-on -/

/-- Every table is empty (R23). -/
def Tables.empty : Tables where
  stations := Vector.replicate 64 none
  routes := Vector.replicate 32 none
  lots := Vector.replicate 16 none
  holds := Vector.replicate 18 none
  bins := Vector.replicate 48 none

/-- The allocator at power-on (R74). -/
def Allocator.atPowerOn : Allocator where
  budgetInUse := 0
  budgetSet := 0
  periodInUse := Config.firstPeriod
  periodSet := Config.firstPeriod
  timeLeft := Config.firstPeriod

/-- A weighing record at power-on, less what is nonvolatile (R145). -/
def Weigher.atPowerOn : Weigher where
  lastCount := none
  remainder := 0
  glitches := 0
  pendingTonnes := 0
  residue := 0

/-- Weighing at power-on (R145). The index last served is taken as 6 (R143). -/
def Weighing.atPowerOn : Weighing where
  weighers := Vector.replicate 6 Weigher.atPowerOn
  pool := Vector.replicate 12 []
  unassigned := 0
  snapshotNumber := 0
  snapshot := none
  lastServed := 5

/-- The telegram path at power-on (R176). -/
def Path.atPowerOn : Path where
  egressA := []
  forwardB := []
  guardB := []
  sendingA := none
  sendingB := none
  originCount := 0
  checkErrorsA := 0
  checkErrorsB := 0
  dropsA := 0
  dropsB := 0
  misuse := 0

/-- Every flag clear (R199). -/
def Flags.allClear : Flags where
  legEnded := Vector.replicate 6 false
  breach := false
  stationSilent := false
  stationBack := false
  divertTimeout := false
  weigherGlitch := false
  poolExhausted := false
  trackerFull := false
  powerShort := false
  cursorExpired := false

/-- The nonvolatile records of a blank part (R189; assumption 5). -/
def Nonvolatile.blank : Nonvolatile where
  slots := Vector.replicate 6 (Vector.replicate 4 none)
  totals := Vector.replicate 6 0
  record := ⟨Config.defaultOwn, Config.defaultStation⟩

/-- The part with its volatile state at the values of power-on, over the nonvolatile records it has, the
free values used so far and the commands that wait (R23, R48, R74, R102, R123, R145, R159, R176, R185, R199). -/
def State.volatileReset (power : Power) (nv : Nonvolatile) (freeUsed : Nat) (pending : List Instr) :
    State where
  power := power
  tables := Tables.empty
  legs := Vector.replicate 6 Leg.atRest
  alloc := Allocator.atPowerOn
  tracker := ⟨Vector.replicate 8 none, Vector.replicate 6 none⟩
  seg := ⟨Vector.replicate 8 none, none, 0⟩
  weighing := Weighing.atPowerOn
  writer := .idle
  nv := nv
  watch := Vector.replicate 64 none
  path := Path.atPowerOn
  mgmt := ⟨nv.record, none, none⟩
  notices := ⟨Flags.allClear, BitVec.allOnes 10⟩
  clock := 0
  freeUsed := freeUsed
  pending := pending

/-- The part right after power-on of a blank part, with no command waiting (assumption 5). -/
def State.reset : State := State.volatileReset .on Nonvolatile.blank 0 []

end Sys2Proof.Machine
end

