-- ==== Sys2Proof/Machine/Flags.lean ====
section
/-!
DEFINITION. The fifteen flags and the notice mask: their codes, reading, setting and clearing
(Chapter 10), and the words that carry them (R161).
-/

namespace Sys2Proof.Machine

/-- One of the fifteen flags (R194). -/
inductive Flag where
  | legEnded (leg : UnloaderIx)
  | breach
  | stationSilent
  | stationBack
  | divertTimeout
  | weigherGlitch
  | poolExhausted
  | trackerFull
  | powerShort
  | cursorExpired
  deriving DecidableEq, Repr

/-- The code of a cause of notice (R194). -/
def Cause.code : Cause → Nat
  | .legEnded => 1
  | .breach => 2
  | .stationSilent => 3
  | .stationBack => 4
  | .divertTimeout => 5
  | .weigherGlitch => 6
  | .poolExhausted => 7
  | .trackerFull => 8
  | .powerShort => 9
  | .cursorExpired => 10

/-- The cause that a flag belongs to (R194). -/
def Flag.cause : Flag → Cause
  | .legEnded _ => .legEnded
  | .breach => .breach
  | .stationSilent => .stationSilent
  | .stationBack => .stationBack
  | .divertTimeout => .divertTimeout
  | .weigherGlitch => .weigherGlitch
  | .poolExhausted => .poolExhausted
  | .trackerFull => .trackerFull
  | .powerShort => .powerShort
  | .cursorExpired => .cursorExpired

/-- Whether a flag is set. -/
def Flags.get (x : Flags) : Flag → Bool
  | .legEnded i => x.legEnded[i]
  | .breach => x.breach
  | .stationSilent => x.stationSilent
  | .stationBack => x.stationBack
  | .divertTimeout => x.divertTimeout
  | .weigherGlitch => x.weigherGlitch
  | .poolExhausted => x.poolExhausted
  | .trackerFull => x.trackerFull
  | .powerShort => x.powerShort
  | .cursorExpired => x.cursorExpired

/-- The flags with one flag set. -/
def Flags.setFlag (x : Flags) : Flag → Flags
  | .legEnded i => { x with legEnded := put x.legEnded i true }
  | .breach => { x with breach := true }
  | .stationSilent => { x with stationSilent := true }
  | .stationBack => { x with stationBack := true }
  | .divertTimeout => { x with divertTimeout := true }
  | .weigherGlitch => { x with weigherGlitch := true }
  | .poolExhausted => { x with poolExhausted := true }
  | .trackerFull => { x with trackerFull := true }
  | .powerShort => { x with powerShort := true }
  | .cursorExpired => { x with cursorExpired := true }

/-- Whether the notice mask enables a cause (R197). -/
def maskEnables (mask : BitVec 10) (c : Cause) : Bool := mask.getLsbD (c.code - 1)

/-- Whether a word that carries a set of causes names a cause (R161). -/
def causesName (causes : Word) (c : Cause) : Bool := causes.getLsbD (c.code - 1)

/-- A set of causes is in range when no bit from 10 to 15 is set (R161). -/
def causesInRange (causes : Word) : Bool := causes.toNat < 2 ^ 10

/-- A set of legs is in range when no bit from 6 to 15 is set (R161). -/
def legsInRange (legs : Word) : Bool := legs.toNat < 2 ^ 6

/-- FLAGS CLEAR: each named flag becomes clear, LEG_ENDED only for the legs named (R196). -/
def Flags.clearNamed (x : Flags) (causes legs : Word) : Flags where
  legEnded := Vector.ofFn fun i => x.legEnded[i] && !(causesName causes .legEnded && legs.getLsbD i.val)
  breach := x.breach && !causesName causes .breach
  stationSilent := x.stationSilent && !causesName causes .stationSilent
  stationBack := x.stationBack && !causesName causes .stationBack
  divertTimeout := x.divertTimeout && !causesName causes .divertTimeout
  weigherGlitch := x.weigherGlitch && !causesName causes .weigherGlitch
  poolExhausted := x.poolExhausted && !causesName causes .poolExhausted
  trackerFull := x.trackerFull && !causesName causes .trackerFull
  powerShort := x.powerShort && !causesName causes .powerShort
  cursorExpired := x.cursorExpired && !causesName causes .cursorExpired

/-- The bit n as a number when a condition holds. -/
def bitOf (n : Nat) (b : Bool) : Nat := if b then 2 ^ n else 0

/-- The legs whose LEG_ENDED flag is set, as a set of legs (R161). -/
def Flags.legsWord (x : Flags) : Word :=
  word (((allIx 6).map fun i => bitOf i.val x.legEnded[i]).sum)

/-- The causes whose flag is set, as a set of causes (R161); LEG_ENDED when it is set for any leg
(assumption 10). -/
def Flags.causesWord (x : Flags) : Word :=
  word (bitOf 0 ((allIx 6).any fun i => x.legEnded[i]) + bitOf 1 x.breach + bitOf 2 x.stationSilent
    + bitOf 3 x.stationBack + bitOf 4 x.divertTimeout + bitOf 5 x.weigherGlitch
    + bitOf 6 x.poolExhausted + bitOf 7 x.trackerFull + bitOf 8 x.powerShort
    + bitOf 9 x.cursorExpired)

/-- The state of the fifteen flags in a reply: the set of causes and the set of legs (assumption 10). -/
def Flags.words (x : Flags) : List Word := [x.causesWord, x.legsWord]

end Sys2Proof.Machine
end

