-- ==== Sys2Proof/Machine/Ops.lean ====
section
/-!
DEFINITION. The shared operations over the records, the port queues and the flags: reading the tables,
changing one record, joining a queue, answering an order, raising a flag with its notice, handing over
a guard FEED order.
-/

namespace Sys2Proof.Machine

/-! ### Changing one record -/

/-- The state with one leg record changed. -/
def State.setLeg (s : State) (i : UnloaderIx) (l : Leg) : State :=
  { s with legs := put s.legs i l }

/-- The state with one station table entry changed. -/
def State.setStation (s : State) (a : Addr) (e : Option StationEntry) : State :=
  { s with tables := { s.tables with stations := put s.tables.stations a e } }

/-- The state with one route entry changed. -/
def State.setRoute (s : State) (i : RouteIx) (e : Option Route) : State :=
  { s with tables := { s.tables with routes := put s.tables.routes i e } }

/-- The state with one lot entry changed. -/
def State.setLot (s : State) (i : LotIx) (e : Option Lot) : State :=
  { s with tables := { s.tables with lots := put s.tables.lots i e } }

/-- The state with one hold entry changed. -/
def State.setHold (s : State) (i : HoldIx) (e : Option Hold) : State :=
  { s with tables := { s.tables with holds := put s.tables.holds i e } }

/-- The state with one bin entry changed. -/
def State.setBin (s : State) (i : BinIx) (e : Option Bin) : State :=
  { s with tables := { s.tables with bins := put s.tables.bins i e } }

/-- The state with one belt record changed. -/
def State.setBelt (s : State) (i : BeltIx) (r : Option BeltRecord) : State :=
  { s with tracker := { s.tracker with belts := put s.tracker.belts i r } }

/-- The state with one unloader source changed. -/
def State.setSource (s : State) (i : UnloaderIx) (r : Option SourceRef) : State :=
  { s with tracker := { s.tracker with sources := put s.tracker.sources i r } }

/-- The state with one diverter record changed. -/
def State.setDiverter (s : State) (i : DiverterIx) (r : Option DiverterRecord) : State :=
  { s with seg := { s.seg with diverters := put s.seg.diverters i r } }

/-- The state with one weighing record changed. -/
def State.setWeigher (s : State) (i : UnloaderIx) (w : Weigher) : State :=
  { s with weighing := { s.weighing with weighers := put s.weighing.weighers i w } }

/-- The state with one watch record changed. -/
def State.setWatch (s : State) (a : Addr) (w : Option WatchRecord) : State :=
  { s with watch := put s.watch a w }

/-! ### Reading the tables -/

/-- The kind index and the data of an UNLOADER entry. -/
def StationEntry.unloader? (e : StationEntry) : Option (UnloaderIx × UnloaderData) :=
  match e.kind with
  | .unloader i d => some (i, d)
  | _ => none

/-- The kind index and the data of a BELT entry. -/
def StationEntry.belt? (e : StationEntry) : Option (BeltIx × BeltData) :=
  match e.kind with
  | .belt i d => some (i, d)
  | _ => none

/-- The kind index and the data of a DIVERTER entry. -/
def StationEntry.diverter? (e : StationEntry) : Option (DiverterIx × DiverterData) :=
  match e.kind with
  | .diverter i d => some (i, d)
  | _ => none

/-- The first address whose entry gives what is looked for. No two addresses hold one kind index of one
kind (R7), so at most one does. -/
def State.findStation {α : Type} (s : State) (look : StationEntry → Option α) : Option (Addr × α) :=
  (allIx 64).findSome? fun a =>
    match s.tables.stations[a] with
    | some e => (look e).map fun x => (a, x)
    | none => none

/-- The address and the data of the UNLOADER entry of an unloader index. -/
def State.unloaderStation (s : State) (i : UnloaderIx) : Option (Addr × UnloaderData) :=
  s.findStation fun e =>
    match e.kind with
    | .unloader j d => if j = i then some d else none
    | _ => none

/-- The address and the data of the BELT entry of a belt index. -/
def State.beltStation (s : State) (i : BeltIx) : Option (Addr × BeltData) :=
  s.findStation fun e =>
    match e.kind with
    | .belt j d => if j = i then some d else none
    | _ => none

/-- The address and the data of the DIVERTER entry of a diverter index. -/
def State.diverterStation (s : State) (i : DiverterIx) : Option (Addr × DiverterData) :=
  s.findStation fun e =>
    match e.kind with
    | .diverter j d => if j = i then some d else none
    | _ => none

/-- The data of the UNLOADER entry of an unloader index. -/
def State.unloaderData (s : State) (i : UnloaderIx) : Option UnloaderData :=
  (s.unloaderStation i).map (·.2)

/-- The data of the BELT entry of a belt index. -/
def State.beltData (s : State) (i : BeltIx) : Option BeltData := (s.beltStation i).map (·.2)

/-- The data of the DIVERTER entry of a diverter index. -/
def State.diverterData (s : State) (i : DiverterIx) : Option DiverterData :=
  (s.diverterStation i).map (·.2)

/-- The belt a diverter serves: the belt whose entry names it as its outlet (R5, R104). -/
def State.servedBelt (s : State) (d : DiverterIx) : Option BeltIx :=
  (s.findStation fun e =>
    match e.kind with
    | .belt j x => if x.outlet = .diverter d then some j else none
    | _ => none).map (·.2)

/-- Whether the station at an address is SILENT (R147). -/
def State.silentAt (s : State) (a : Addr) : Bool :=
  match s.watch[a] with
  | some w => w.state == .silent
  | none => false

/-- Two lots are compatible (R14). -/
def State.compatible (s : State) (x y : LotIx) : Bool :=
  x == y ||
    match s.tables.lots[x], s.tables.lots[y] with
    | some p, some q => p.group == q.group && p.group != 0
    | _, _ => false

/-- The route that a leg names, where it is defined. -/
def State.legRoute (s : State) (l : Leg) : Option Route :=
  match l.route with
  | some r => s.tables.routes[r]
  | none => none

/-- The ACTIVE legs, in leg number order. -/
def State.activeLegs (s : State) : List UnloaderIx :=
  (allIx 6).filter fun i => s.legs[i].state == .active

/-! ### The port queues (R170 to R172) -/

/-- A count that saturates. -/
def bump (max n : Nat) : Nat := min (n + 1) max

/-- The addresses of a COMMISSION reply come into force (R191). -/
def State.takeForce (s : State) (x : Option Addresses) : State :=
  match x with
  | some a => { s with mgmt := { s.mgmt with inForce := a } }
  | none => s

/-- The addresses that come into force when a waiting telegram leaves its queue for good (R191). -/
def Queued.takesForce : Queued → Option Addresses
  | .forwarded _ => none
  | .own _ _ _ x => x

/-- A telegram is to join the port A egress queue (R170). -/
def joinEgress (q : Queued) (s : State) : State :=
  if s.path.egressA.length < Config.egressPlaces then
    { s with path := { s.path with egressA := s.path.egressA ++ [q] } }
  else
    State.takeForce
      { s with path := { s.path with dropsA := bump Config.maxCount16 s.path.dropsA } } q.takesForce

/-- Whether the port B forward queue has a place (R171). -/
def State.forwardHasPlace (s : State) : Bool := s.path.forwardB.length < Config.forwardPlaces

/-- A telegram is to join the port B forward queue (R171). -/
def joinForward (q : Queued) (s : State) : State :=
  if s.forwardHasPlace then
    { s with path := { s.path with forwardB := s.path.forwardB ++ [q] } }
  else
    State.takeForce
      { s with path := { s.path with dropsB := bump Config.maxCount16 s.path.dropsB } } q.takesForce

/-- The other port. -/
def otherPort : Port → Port
  | .a => .b
  | .b => .a

/-- A telegram is to join the queue of a port: the egress queue of port A, the forward queue of
port B. -/
def joinPort (port : Port) (q : Queued) (s : State) : State :=
  match port with
  | .a => joinEgress q s
  | .b => joinForward q s

/-- A telegram that arrived on a port is forwarded (R165). -/
def forward (arrival : Port) (t : Telegram) (s : State) : State :=
  joinPort (otherPort arrival) (.forwarded t) s

/-- The check-error counter of a port is incremented (R163, R166). -/
def countCheckError (port : Port) (s : State) : State :=
  match port with
  | .a => { s with path := { s.path with checkErrorsA := bump Config.maxCount16 s.path.checkErrorsA } }
  | .b => { s with path := { s.path with checkErrorsB := bump Config.maxCount16 s.path.checkErrorsB } }

/-- The own-address misuse counter is incremented (R164). -/
def countMisuse (s : State) : State :=
  { s with path := { s.path with misuse := bump Config.maxCount16 s.path.misuse } }

/-! ### Orders and answers (R160, R168) -/

/-- The subkind word of a FEED order (R160). -/
def feedWord : Word := 1

/-- The subkind word of a DIVERT order (R160). -/
def divertWord : Word := 2

/-- The answer codes (R160). -/
inductive AnswerCode where
  | clamped
  | pended
  | noLeg
  | held
  | superseded
  | tooLate
  | routeInUse
  | cancelled
  deriving DecidableEq, Repr

/-- Word 3 of an ANSWER (R160). -/
def AnswerCode.code : AnswerCode → Nat
  | .clamped => 1
  | .pended => 2
  | .noLeg => 3
  | .held => 4
  | .superseded => 5
  | .tooLate => 6
  | .routeInUse => 7
  | .cancelled => 8

/-- The ANSWER about an order, addressed to the order's source (R69, R107, R168). -/
def answerTo (order : Telegram) (subkind : Word) (c : AnswerCode) (value : Word) : Queued :=
  .own order.source .answer [word order.dest.val, subkind, word c.code, value] none

/-- The part answers an order on the port A egress queue. -/
def answer (order : Telegram) (subkind : Word) (c : AnswerCode) (value : Word) (s : State) : State :=
  joinEgress (answerTo order subkind c value) s

/-- The position that a DIVERT order carries, as carried (R107). -/
def Telegram.divertPosition (t : Telegram) : Word := t.payload.getD 1 0

/-- The next free value (assumption 6). -/
def State.free (s : State) : Word := Config.freeWord s.freeUsed

/-- The state after a free value has been used. -/
def State.useFree (s : State) : State := { s with freeUsed := s.freeUsed + 1 }

/-! ### Flags and notices (R194, R195) -/

/-- The NOTICE of a cause (R194). -/
def noticeOf (c : Cause) (subject value : Nat) : Queued :=
  .own broadcast .notice [word c.code, word subject, word value] none

/-- A cause occurs: its flag is set, and when the flag was clear, the cause is enabled and the notice is
not disabled for a leg, one NOTICE is queued (R194, R195). -/
def raiseFlag (f : Flag) (subject value : Nat) (disabled : Bool) (s : State) : State :=
  if s.notices.flags.get f then s
  else
    let t := { s with notices := { s.notices with flags := s.notices.flags.setFlag f } }
    if maskEnables s.notices.mask f.cause && !disabled then joinEgress (noticeOf f.cause subject value) t
    else t

/-! ### Timers at their end -/

/-- The allocation period timer has run out (R52). -/
def State.periodOut (s : State) : Bool := s.alloc.timeLeft == 0

/-- The silence timer of a station has run out (R150, R151). -/
def State.silenceOut (s : State) (a : Addr) : Bool := s.watch[a].any fun w => w.timer == some 0

/-- The hold timer of a diverter has reached its timeout (R112). -/
def State.holdOut (s : State) (d : DiverterIx) : Bool :=
  s.seg.diverters[d].any fun r => r.holdTimer.any fun x => x.timeout ≤ x.elapsed

/-- The idle timer of the open cursor has reached 30 s (R186). -/
def State.cursorOut (s : State) : Bool := s.mgmt.cursor.any fun x => Config.cursorIdle ≤ x.idle

/-- The effect of an expiry: none while its timer is not at its end, as when another event that was taken
first has started the timer again or stopped it (R113, R154, R186; assumption 2). -/
def whenOut (out : Bool) (act : State → State) (s : State) : State := if out then act s else s

/-! ### The guard queue (R67, R172) -/

/-- Whether a waiting telegram is a FEED order to an address. -/
def Queued.isFeedTo (a : Addr) : Queued → Bool
  | .forwarded t => t.kind == .order && t.payload.head? == some feedWord && t.dest == a
  | .own _ _ _ _ => false

/-- The guard queue after a guard order has been handed to it: replaced in place, or joined at the tail
(R172). -/
def guardsWith (q : List Guard) (g : Guard) : List Guard :=
  if q.any fun x => x.unloader == g.unloader then
    q.map fun x => if x.unloader = g.unloader then g else x
  else q ++ [g]

/-- A guard FEED order for an unloader is handed to the guard queue, and the FEED orders for its address
leave the forward queue (R67, R171, R172). An unloader index without an entry has no address to send
to (assumption 19). -/
def handGuard (i : UnloaderIx) (setpoint : Nat) (s : State) : State :=
  match s.unloaderStation i with
  | none => s
  | some (a, _) =>
    { s with path := { s.path with
        guardB := guardsWith s.path.guardB ⟨i, a, setpoint⟩
        forwardB := s.path.forwardB.filter fun q => !q.isFeedTo a } }

/-- The setpoint of a guard FEED order that waits for an unloader. -/
def State.guardSetpoint (s : State) (i : UnloaderIx) : Option Nat :=
  (s.path.guardB.find? fun x => x.unloader == i).map (·.setpoint)

end Sys2Proof.Machine
end

