-- ==== Sys2Proof/Machine/Clock.lean ====
section
/-!
DEFINITION. The running of the timers while no command waits: one millisecond, at the end of which the expiry
of every timer that has run out waits to be taken (assumptions 1 and 4).
-/

namespace Sys2Proof.Machine

/-- The milliseconds of one step in which the silence timers count (scope, Units and ranges). -/
def watchStep : Nat := 100

/-- A silence timer after one of its 100 ms steps (R150). -/
def WatchRecord.counted (w : WatchRecord) : WatchRecord :=
  { w with timer := w.timer.map fun n => n - 1 }

/-- A hold timer a millisecond later, up to its timeout (R104). -/
def HoldTimer.later (t : HoldTimer) : HoldTimer := { t with elapsed := min (t.elapsed + 1) t.timeout }

/-- A diverter record a millisecond later. -/
def DiverterRecord.later (r : DiverterRecord) : DiverterRecord :=
  { r with holdTimer := r.holdTimer.map HoldTimer.later }

/-- A bulk cursor a millisecond later, its idle timer up to 30 s (R185). -/
def Cursor.later (x : Cursor) : Cursor := { x with idle := min (x.idle + 1) Config.cursorIdle }

/-- Every timer a millisecond later: the period timer, the hold timers and the cursor's idle timer run, and
at the end of a 100 ms step the silence timers count (R50, R104, R150, R185). -/
def runTimers (s : State) : State :=
  let wraps : Bool := watchStep ≤ s.clock + 1
  { s with
    alloc := { s.alloc with timeLeft := s.alloc.timeLeft - 1 }
    seg := { s.seg with diverters := s.seg.diverters.map fun x => x.map DiverterRecord.later }
    watch := if wraps then s.watch.map fun x => x.map WatchRecord.counted else s.watch
    mgmt := { s.mgmt with cursor := s.mgmt.cursor.map Cursor.later }
    clock := if wraps then 0 else s.clock + 1 }

/-- The expiries of the timers that have run out (R52, R112, R151, R186), in an order that the manual leaves
open (assumption 1): the period, then the silences by address, the holds by diverter, and the cursor. -/
def State.expiries (s : State) : List Instr :=
  (if s.periodOut then [Instr.allocationPeriodExpiry] else [])
    ++ ((allIx 64).filter s.silenceOut).map Instr.silenceTimerExpiry
    ++ ((allIx 8).filter s.holdOut).map Instr.holdTimerExpiry
    ++ (if s.cursorOut then [Instr.cursorIdleExpiry] else [])

/-- A millisecond in which no command is taken: the timers run, and the expiries of those that have run out
wait to be taken. A part without its supply stands still (assumption 3). -/
def tick (s : State) : State :=
  match s.power with
  | .off => s
  | .on =>
    let t := runTimers s
    { t with pending := t.pending ++ t.expiries }

end Sys2Proof.Machine
end

