-- ==== Sys2Proof/Machine/Telegram.lean ====
section
/-!
DEFINITION. The quay link telegram in octets: its layout, its check, its reception (R160, R162, R163),
and the telegrams that commands carry.
-/

namespace Sys2Proof.Machine

/-! ### Words and octets, most significant octet first (R160) -/

/-- The more significant octet of a word. -/
def hiOctet (w : Word) : Octet := BitVec.ofNat 8 (w.toNat / 256)

/-- The less significant octet of a word. -/
def loOctet (w : Word) : Octet := BitVec.ofNat 8 (w.toNat % 256)

/-- The word of two octets. -/
def wordOf (hi lo : Octet) : Word := BitVec.ofNat 16 (hi.toNat * 256 + lo.toNat)

/-- The octets of payload words. -/
def octetsOf : List Word → List Octet
  | [] => []
  | w :: ws => hiOctet w :: loOctet w :: octetsOf ws

/-- The payload words of octets. -/
def wordsOf : List Octet → List Word
  | hi :: lo :: os => wordOf hi lo :: wordsOf os
  | _ => []

/-! ### The check (R162) -/

/-- One bit of the check register: shifted left, and the generator x^16 + x^12 + x^5 + 1 taken off when
the bit shifted out is set. -/
def crcBit (r : Word) : Word :=
  if r.getLsbD 15 then (r <<< 1) ^^^ 0x1021#16 else r <<< 1

/-- The check register after one octet, its most significant bit first. -/
def crcOctet (r : Word) (o : Octet) : Word :=
  let x := r ^^^ (BitVec.ofNat 16 (o.toNat * 256))
  crcBit (crcBit (crcBit (crcBit (crcBit (crcBit (crcBit (crcBit x)))))))

/-- The check over octets, from a register of all ones (R162). -/
def check (os : List Octet) : Word := os.foldl crcOctet 0xFFFF#16

/-! ### The telegram (R160) -/

/-- The kind octet (R160). -/
def Kind.code : Kind → Nat
  | .sample => 1
  | .order => 2
  | .answer => 3
  | .request => 4
  | .reply => 5
  | .notice => 6

/-- The kind that a kind octet names. -/
def kindOf (n : Nat) : Option Kind :=
  match n with
  | 1 => some .sample
  | 2 => some .order
  | 3 => some .answer
  | 4 => some .request
  | 5 => some .reply
  | 6 => some .notice
  | _ => none

/-- The octets of a telegram before its check (R160). -/
def Telegram.body (t : Telegram) : List Octet :=
  BitVec.ofNat 8 t.dest.val :: BitVec.ofNat 8 t.source.val :: BitVec.ofNat 8 t.kind.code :: t.seq
    :: BitVec.ofNat 8 t.payload.length :: octetsOf t.payload

/-- The octets of a telegram on the line: its body, and the check computed afresh over it (R160, R162). -/
def Telegram.wire (t : Telegram) : List Octet :=
  t.body ++ octetsOf [check t.body]

/-- A telegram's length is 12 or less and its source is 1 to 62 (R163, check 3; the other two bounds
are those of its type). -/
def Telegram.inRange (t : Telegram) : Bool :=
  t.payload.length ≤ Config.maxWords && (1 ≤ t.source.val && t.source.val ≤ 62)

/-- The three checks of reception, on a run of octets (R163): none when the run is discarded. -/
def received (os : List Octet) : Option Telegram :=
  match os with
  | d :: src :: k :: q :: len :: rest =>
    if rest.length = 2 * len.toNat + 2 then
      let payload := wordsOf (rest.take (2 * len.toNat))
      if wordsOf (rest.drop (2 * len.toNat)) = [check (os.take (5 + 2 * len.toNat))] then
        match kindOf k.toNat with
        | some kind =>
          if h : d.toNat < 64 ∧ src.toNat < 64 then
            let t : Telegram := ⟨⟨d.toNat, h.1⟩, ⟨src.toNat, h.2⟩, kind, q, payload⟩
            if t.inRange then some t else none
          else none
        | none => none
      else none
    else none
  | _ => none

/-! ### The telegrams of commands -/

/-- The telegram of a kind that a message is the rest of, after the words its command gives. -/
def messageTelegram (m : Message) (kind : Kind) (first : List Word) : Telegram :=
  ⟨m.dest, m.source, kind, m.seq, first ++ m.words⟩

/-- The telegram a waiting telegram becomes when its transmission begins: the part fills in its own
address and its sequence number for those it originates (R169, R189). -/
def Queued.begin (own : Addr) (count : Octet) : Queued → Sending
  | .forwarded t => ⟨t, none⟩
  | .own dest kind payload x => ⟨⟨dest, own, kind, count, payload⟩, x⟩

/-- Whether a waiting telegram is one the part originates, which takes a number (R169). -/
def Queued.takesNumber : Queued → Bool
  | .forwarded _ => false
  | .own _ _ _ _ => true

/-- The telegram of a guard FEED order (R67). -/
def Guard.queued (g : Guard) : Queued := .own g.dest .order [feedWord, word g.setpoint] none

end Sys2Proof.Machine
end

