-- ==== Sys2Proof/Machine/Operands.lean ====
section
/-!
DEFINITION. How requests and replies carry values: the result codes, the ring of a request, the order
and presence of parameters, and the coding of every field (R161, R179 to R181).
-/

namespace Sys2Proof.Machine

/-! ### Results (R179) -/

/-- The result of a REPLY (R179). -/
inductive Result where
  | done
  | noEffect
  | ring
  | range
  | notFound
  | inUse
  | busy
  | notCleared
  | uncalibrated
  | holdEmpty
  | routeInvalid
  | notPermitted
  | binClosed
  | binLot
  | lotConflict
  | routeConflict
  | exhausted
  | noCursor
  | cursorAt
  | unknownRequest
  deriving DecidableEq, Repr

/-- The result word (R179). -/
def Result.code : Result → Nat
  | .done => 0
  | .noEffect => 1
  | .ring => 2
  | .range => 3
  | .notFound => 4
  | .inUse => 5
  | .busy => 6
  | .notCleared => 7
  | .uncalibrated => 8
  | .holdEmpty => 9
  | .routeInvalid => 10
  | .notPermitted => 11
  | .binClosed => 12
  | .binLot => 13
  | .lotConflict => 14
  | .routeConflict => 15
  | .exhausted => 16
  | .noCursor => 17
  | .cursorAt => 18
  | .unknownRequest => 19

/-! ### A request and its reply (R178) -/

/-- A request as management takes it: the port it arrived on, its source, its code, and the payload words
after the code. -/
structure Request where
  port   : Port
  source : Addr
  code   : Word
  args   : List Word
  deriving DecidableEq, Repr

/-- The claimed ring: 0, 1 or 3 as given, anything else and an absent word read as 3 (R179, R180). -/
def Request.claimedRing (q : Request) : Nat :=
  match q.args.head? with
  | some w => if w = 0 ∨ w = 1 then w.toNat else 3
  | none => 3

/-- The words of the parameters, which follow the claimed ring (R179). -/
def Request.params (q : Request) : List Word := q.args.drop 1

/-- The parameter word number k, counted from 0. -/
def Request.at (q : Request) (k : Nat) : Word := q.params.getD k 0

/-- The ring ceiling of an address: 0 for the commissioning station in force, else that of its station
table entry, and 3 without an entry (R3, R180). -/
def State.ringCeiling (s : State) (a : Addr) : Nat :=
  if a = s.mgmt.inForce.station then 0
  else
    match s.tables.stations[a] with
    | some e => e.ringCeiling
    | none => 3

/-- The effective ring of a request (R180). -/
def State.effectiveRing (s : State) (q : Request) : Nat := max q.claimedRing (s.ringCeiling q.source)

/-- The REPLY to a request (R178). -/
def replyTo (q : Request) (r : Result) (data : List Word) (x : Option Addresses) : Queued :=
  .own q.source .reply (q.code :: word r.code :: data) x

/-- The reply joins the queue of the port on which the request arrived (R178, R168). -/
def reply (q : Request) (r : Result) (data : List Word) (s : State) : State :=
  joinPort q.port (replyTo q r data none) s

/-! ### Presence of parameters (R161, R179) -/

/-- A run of parameter words that hold fields together: how many words, how many fields. -/
structure Group where
  words  : Nat
  fields : Nat
  deriving DecidableEq, Repr

/-- A field of its own word. -/
def oneField : Group := ⟨1, 1⟩

/-- Two fields in one word. -/
def twoFields : Group := ⟨1, 2⟩

/-- The table word: the table selector, the action and the entry index. -/
def tableWordGroup : Group := ⟨1, 3⟩

/-- The position of the first field that a payload of so many parameter words lacks, counting fields
from `position`. -/
def firstMissing : List Group → Nat → Nat → Option Nat
  | [], _, _ => none
  | x :: xs, available, position =>
    if available < x.words then some position
    else firstMissing xs (available - x.words) (position + x.fields)

/-- The first two checks of a request with a known code: the ring it needs (R180), then the presence of
its parameters (R179); the refusal and its reply data when one fails (R181). -/
def refusal (q : Request) (needed : Nat) (layout : List Group) (s : State) :
    Option (Result × List Word) :=
  if needed < s.effectiveRing q then some (.ring, [word (s.effectiveRing q), word needed])
  else
    match firstMissing layout q.params.length 1 with
    | some position => some (.range, [word position])
    | none => none

/-! ### Fields of words (R161) -/

/-- The more significant octet of a word, as a number. -/
def hi (w : Word) : Nat := w.toNat / 256

/-- The less significant octet of a word, as a number. -/
def lo (w : Word) : Nat := w.toNat % 256

/-- A number of two words, the more significant first. -/
def ofTwo (a b : Word) : Nat := a.toNat * 65536 + b.toNat

/-- A number in two words, the more significant first. -/
def twoWords (n : Nat) : List Word := [word (n / 65536), word n]

/-- A kilogram amount in three words, the more significant first. -/
def kgWords (n : Nat) : List Word := [word (n / 4294967296), word (n / 65536), word n]

/-- The index that a number names, for indices 1 to n. -/
def ixOf (n k : Nat) : Option (Fin n) :=
  if h : 1 ≤ k ∧ k ≤ n then some ⟨k - 1, by omega⟩ else none

/-- A number within bounds. -/
def within (low high n : Nat) : Option Nat := if low ≤ n ∧ n ≤ high then some n else none

/-- A yes-or-no parameter (R161). -/
def yesNo (w : Word) : Option Bool :=
  if w = 1 then some true else if w = 0 then some false else none

/-- Yes and no (R161). -/
def boolWord (b : Bool) : Word := if b then 1 else 0

/-- The code of an absent value where 0 lies in the range of its field (R161). -/
def absentWord : Word := 0xFFFF#16

/-- A value that may be absent, 0 standing for absent. -/
def orZero {α : Type} (code : α → Nat) : Option α → Word
  | some x => word (code x)
  | none => 0

/-- A value that may be absent, in a field whose range holds 0. -/
def orAbsent {α : Type} (code : α → Nat) : Option α → Word
  | some x => word (code x)
  | none => absentWord

/-- The table selectors (R161). -/
def tableOf (n : Nat) : Option Table :=
  match n with
  | 1 => some .station
  | 2 => some .route
  | 3 => some .lot
  | 4 => some .hold
  | 5 => some .bin
  | _ => none

/-- The code of a table selector. -/
def Table.code : Table → Nat
  | .station => 1
  | .route => 2
  | .lot => 3
  | .hold => 4
  | .bin => 5

/-- The first index of a table (section 1.1). -/
def Table.first : Table → Nat
  | .station => 0
  | _ => 1

/-- The last index of a table (section 1.1). -/
def Table.last : Table → Nat
  | .station => 63
  | .route => 32
  | .lot => 16
  | .hold => 18
  | .bin => 48

/-- The ring that writing a table needs (section 1.1, R181). -/
def Table.ring : Table → Nat
  | .station => 0
  | _ => 1

/-- The table selector of a table word: bits 15 to 12 (R161). -/
def selectorOf (w : Word) : Nat := w.toNat / 4096

/-- The action of a table word: bits 11 to 8 (R161). -/
def actionOf (w : Word) : Nat := w.toNat / 256 % 16

/-- The entry index of a table word: bits 7 to 0 (R161). -/
def indexOf (w : Word) : Nat := w.toNat % 256

/-- The word of an outlet (R161). -/
def Outlet.word : Outlet → Word
  | .bin n => word2 1 (num n)
  | .belt n => word2 2 (num n)
  | .diverter n => word2 3 (num n)

/-- The outlet that a word names (R161). -/
def outletOf (w : Word) : Option Outlet :=
  match hi w with
  | 1 => (ixOf 48 (lo w)).map .bin
  | 2 => (ixOf 8 (lo w)).map .belt
  | 3 => (ixOf 8 (lo w)).map .diverter
  | _ => none

/-- The place of a station kind in the list of R3. -/
def StationKind.code : StationKind → Nat
  | .unloader _ _ => 2
  | .belt _ _ => 3
  | .diverter _ _ => 4
  | .supervisor => 5
  | .panel => 6

/-- The kind index of a station, 0 where it is absent (R3, R161). -/
def StationKind.index : StationKind → Nat
  | .unloader i _ => num i
  | .belt i _ => num i
  | .diverter i _ => num i
  | .supervisor => 0
  | .panel => 0

/-- The places of the coded values in the lists of R16, R25, R76, R79, R119 and R147 (R161). -/
def Phase.code : Phase → Nat
  | .undeclared => 1
  | .freeDig => 2
  | .sweep => 3
  | .empty => 4

/-- See `Phase.code`. -/
def LegState.code : LegState → Nat
  | .idle => 1
  | .active => 2
  | .ended => 3

/-- See `Phase.code`; also the value of the LEG_ENDED notice (R194). -/
def EndReason.code : EndReason → Nat
  | .ordered => 1
  | .holdEmpty => 2
  | .breach => 3
  | .silent => 4

/-- See `Phase.code`. -/
def GrantCondition.code : GrantCondition → Nat
  | .flowing => 1
  | .choked => 2
  | .waitBelt => 3
  | .waitDiverter => 4
  | .binFull => 5
  | .waitGap => 6

/-- See `Phase.code`. -/
def Condition.code : Condition → Nat
  | .sure => 1
  | .unsure => 2

/-- See `Phase.code`. -/
def Stage.code : Stage → Nat
  | .travelling => 1
  | .approaching => 2
  | .crossing => 3

/-- See `Phase.code`. -/
def WatchState.code : WatchState → Nat
  | .unwatched => 1
  | .heard => 2
  | .silent => 3

/-- See `Phase.code`; also the value of the BREACH notice (R194). -/
def BreachKind.code : BreachKind → Nat
  | .divert => 1
  | .binMix => 2
  | .gap => 3

/-- A hand-over in one word, an outlet's coding (assumption 10). -/
def HandOver.word : HandOver → Word
  | .absent => absentWord
  | .belt n _ => word2 2 (num n)
  | .bin n => word2 1 (num n)
  | .nowhere => 0

/-- The other lot of a breach record (R119): UNKNOWN is 0. -/
def OtherLot.word : OtherLot → Word
  | .absent => absentWord
  | .unknown => 0
  | .lot n => Sys2Proof.word (num n)

/-- A belt list in six words, the places beyond its end 0 (assumption 10). -/
def beltListWords (l : List BeltIx) : List Word :=
  (List.range 6).map fun k => orZero num l[k]?

end Sys2Proof.Machine
end

