-- ==== Sys2Proof/Machine/Legs.lean ====
section
/-!
DEFINITION. The leg controller: the ending of a leg (R34), the grant condition (R40 to R44) and the
checks of LEG START (R27 to R30).
-/

namespace Sys2Proof.Machine

/-! ### Ending a leg (R34) -/

/-- A route's user count is decremented (R12). -/
def releaseRoute (r : Option RouteIx) (s : State) : State :=
  match r with
  | none => s
  | some k =>
    match s.tables.routes[k] with
    | some e => s.setRoute k (some { e with users := e.users - 1 })
    | none => s

/-- A route's user count is incremented (R12). -/
def occupyRoute (k : RouteIx) (s : State) : State :=
  match s.tables.routes[k] with
  | some e => s.setRoute k (some { e with users := e.users + 1 })
  | none => s

/-- The record of a leg that has ended (R34, steps 1 to 4). -/
def Leg.endedBy (l : Leg) (reason : EndReason) : Leg :=
  { l with
    state := .ended, endReason := some reason, g := 0, f := 0, condition := none, powerShort := false }

/-- A cause ends a leg; it has no effect on one that is not ACTIVE (R34, R35). Where f is already 0, the port
B queues are left as they are, a guard order of another value that waits included (assumption 28). -/
def endLeg (i : UnloaderIx) (reason : EndReason) (s : State) : State :=
  let l := s.legs[i]
  if l.state = .active then
    let s1 := s.setLeg i (l.endedBy reason)
    let s2 := if 0 < l.f then handGuard i 0 s1 else s1
    raiseFlag (.legEnded i) (num i) reason.code l.noticeDisable (releaseRoute l.route s2)
  else s

/-! ### The grant condition (R40 to R44) -/

/-- What a source of the leg opens with (R84): absent while the leg names no lot, route or bin. -/
def Leg.grain (l : Leg) : Option Grain :=
  match l.lot, l.route, l.bin with
  | some lot, some route, some bin => some ⟨lot, route, l.belts, bin⟩
  | _, _, _ => none

/-- A slug is incompatible with grain of a lot bound for a bin (R44, R87). -/
def State.incompatibleSlug (s : State) (y : Slug) (lot : LotIx) (bin : BinIx) : Bool :=
  match y.grain with
  | none => true
  | some h => !s.compatible h.lot lot || h.bin != bin

/-- A slug is open, or its rear distance is less than the belt's purge gap (R44, R86, R87). -/
def nearLoading (d : BeltData) (r : BeltRecord) (y : Slug) : Bool :=
  match y.rear with
  | none => true
  | some m => (r.position - m).toNat < d.purgeGap

/-- The youngest slug stands too close to grain of a lot bound for a bin (R44, R87): that slug. -/
def State.gapBlocker (s : State) (d : BeltData) (r : BeltRecord) (lot : LotIx) (bin : BinIx) :
    Option Slug :=
  match r.queue.getLast? with
  | none => none
  | some y => if s.incompatibleSlug y lot bin && nearLoading d r y then some y else none

/-- CHOKED: the unloader's choke filter is set (R42). -/
def State.choked (s : State) (i : UnloaderIx) : Bool :=
  match s.unloaderStation i with
  | none => false
  | some (a, _) =>
    match s.watch[a] with
    | some w => w.choke.isSet
    | none => false

/-- A belt holds its legs in WAIT_BELT: it is UNSURE, SILENT, or holds a slug of the UNKNOWN lot (R41,
R42). A belt without a record is not vouched for either (assumption 19). -/
def State.beltWaits (s : State) (b : BeltIx) : Bool :=
  match s.tracker.belts[b], s.beltStation b with
  | some r, some (a, _) =>
    r.condition == .unsure || s.silentAt a || r.queue.any fun y => y.grain.isNone
  | _, _ => true

/-- A diverter holds its legs in WAIT_DIVERTER: it does not report the listed position, or is SILENT
(R41, R43). -/
def State.diverterWaits (s : State) (x : Setting) : Bool :=
  match s.seg.diverters[x.diverter], s.diverterStation x.diverter with
  | some r, some (a, _) => r.position != some x.position || s.silentAt a
  | _, _ => true

/-- BIN_FULL: the booked fill is at or above the capacity less the stop margin (R41, R43). -/
def Bin.full (b : Bin) : Bool := b.capacity - b.margin ≤ b.fill

/-- The destination bin of a leg is full. -/
def State.binFull (s : State) (l : Leg) : Bool :=
  match l.bin with
  | none => false
  | some n =>
    match s.tables.bins[n] with
    | some b => b.full
    | none => false

/-- WAIT_GAP: on some belt of the list the youngest slug blocks the leg (R44). -/
def State.gapWaits (s : State) (l : Leg) : Bool :=
  match l.grain with
  | none => false
  | some g =>
    l.belts.any fun b =>
      match s.tracker.belts[b], s.beltData b with
      | some r, some d => (s.gapBlocker d r g.lot g.bin).isSome
      | _, _ => false

/-- The settings of the route that a leg names (R43, R108). -/
def State.legSettings (s : State) (l : Leg) : List Setting :=
  match s.legRoute l with
  | some e => e.settings
  | none => []

/-- The grant condition of a leg: the first cause that holds (R41). -/
def State.grantCondition (s : State) (i : UnloaderIx) : GrantCondition :=
  let l := s.legs[i]
  if s.choked i then .choked
  else if l.belts.any s.beltWaits then .waitBelt
  else if (s.legSettings l).any s.diverterWaits then .waitDiverter
  else if s.binFull l then .binFull
  else if s.gapWaits l then .waitGap
  else .flowing

/-- The grant condition of one leg is evaluated (R40). -/
def evaluateLeg (i : UnloaderIx) (s : State) : State :=
  s.setLeg i { s.legs[i] with condition := some (s.grantCondition i) }

/-- The grant condition of every ACTIVE leg is evaluated (R40, R55). -/
def evaluateLegs (s : State) : State :=
  { s with legs := Vector.ofFn fun i =>
      if s.legs[i].state = .active then { s.legs[i] with condition := some (s.grantCondition i) }
      else s.legs[i] }

/-! ### The checks of LEG START (R28 to R30) -/

/-- Whether an unloader index has a written calibration slot (R28, R139). -/
def State.calibrated (s : State) (i : UnloaderIx) : Bool :=
  (allIx 4).any fun k => (s.nv.slots[i])[k].isSome

/-- The belt lists share a belt. -/
def sharesBelt (xs ys : List BeltIx) : Bool := xs.any fun b => ys.contains b

/-- From the first shared belt on, both lists hold the same belts in the same order (R30). -/
def sameFromFirstShared (new old : List BeltIx) : Bool :=
  match new.find? fun b => old.contains b with
  | none => true
  | some b => new.dropWhile (· != b) == old.dropWhile (· != b)

/-- Some diverter is listed in both settings at different positions (R30). -/
def settingsDiffer (xs ys : List Setting) : Bool :=
  xs.any fun x => ys.any fun y => x.diverter == y.diverter && x.position != y.position

/-- Check 9 of LEG START against one ACTIVE leg: the lots are not compatible (R30). -/
def State.lotConflict (s : State) (lot : LotIx) (e : Route) (l : Leg) : Bool :=
  sharesBelt e.belts l.belts &&
    match l.lot with
    | some m => !s.compatible m lot
    | none => true

/-- Check 10 of LEG START against one ACTIVE leg: the paths do not merge cleanly (R30). -/
def State.routeConflict (s : State) (e : Route) (l : Leg) : Bool :=
  sharesBelt e.belts l.belts &&
    (!sameFromFirstShared e.belts l.belts || l.bin != some e.bin
      || settingsDiffer e.settings (s.legSettings l))

/-- The first check of R28 to R30 that fails, in their order. -/
def State.legStartRefusal (s : State) (i : UnloaderIx) (h : HoldIx) (k : RouteIx) : Option Result :=
  match s.legs[i].state with
  | .active => some .busy
  | .ended => some .notCleared
  | .idle =>
    if (s.unloaderStation i).isNone || !s.calibrated i then some .uncalibrated
    else
      match s.tables.holds[h] with
      | none => some .notFound
      | some hold =>
        match hold.lot with
        | none => some .notFound
        | some lot =>
          if hold.phase = .empty then some .holdEmpty
          else
            match s.tables.routes[k] with
            | none => some .routeInvalid
            | some e =>
              if e.unloader ≠ i then some .routeInvalid
              else
                match s.tables.lots[lot], s.tables.bins[e.bin] with
                | some x, some b =>
                  if !x.permitted.getLsbD e.bin.val then some .notPermitted
                  else if !b.isOpen then some .binClosed
                  else if b.lot.any fun m => !s.compatible m lot then some .binLot
                  else if s.activeLegs.any fun j => s.lotConflict lot e s.legs[j] then
                    some .lotConflict
                  else if s.activeLegs.any fun j => s.routeConflict e s.legs[j] then
                    some .routeConflict
                  else none
                | _, _ => some .notPermitted

end Sys2Proof.Machine
end

