-- ==== Sys2Proof/Machine/Allocator.lean ====
section
/-!
DEFINITION. The feed allocator: the five stages of an expiry (R55 to R66), the power recheck (R65) and
FEED orders (R37, R68 to R70, R167).
-/

namespace Sys2Proof.Machine

/-- The working ceilings of the legs, 0 for a leg that is not ACTIVE (R55). -/
abbrev Ceilings := Vector Nat 6

/-- A number read from the UNLOADER entry of an unloader index, 0 without one (assumption 19). -/
def State.unloaderNumber (s : State) (i : UnloaderIx) (f : UnloaderData → Nat) : Nat :=
  match s.unloaderData i with
  | some d => f d
  | none => 0

/-- The derated cap of an unloader (R57). -/
def UnloaderData.deratedCap (d : UnloaderData) : Nat := d.ratedCap * d.sweepPercent / 100

/-- The hold of a leg is in SWEEP or EMPTY (R57). -/
def State.legDerated (s : State) (l : Leg) : Bool :=
  match l.hold with
  | none => false
  | some n =>
    match s.tables.holds[n] with
    | some h => h.phase == .sweep || h.phase == .empty
    | none => false

/-- The effective cap of a leg (R56, R57). -/
def State.effectiveCap (s : State) (i : UnloaderIx) : Nat :=
  s.unloaderNumber i fun d => if s.legDerated s.legs[i] then d.deratedCap else d.ratedCap

/-- Stage 1: the ceiling (R56). -/
def stageCeiling (s : State) : Ceilings :=
  Vector.ofFn fun i =>
    if s.legs[i].state = .active ∧ s.legs[i].condition = some .flowing then
      min (s.effectiveCap i) s.legs[i].r
    else 0

/-- Stage 2: the ramp (R58). -/
def stageRamp (s : State) (top : Ceilings) : Ceilings :=
  Vector.ofFn fun i => min top[i] (s.legs[i].g + s.unloaderNumber i (·.rampStep))

/-- An ACTIVE leg's belt list contains a belt. -/
def State.crosses (s : State) (i : UnloaderIx) (b : BeltIx) : Bool :=
  s.legs[i].state == .active && s.legs[i].belts.contains b

/-- The sum of a quantity over the ACTIVE legs whose belt list contains a belt (R59, R60). -/
def State.beltSum (s : State) (b : BeltIx) (x : UnloaderIx → Nat) : Nat :=
  ((allIx 6).map fun i => if s.crosses i b then x i else 0).sum

/-- Stage 3 at one belt (R59). -/
def shareBelt (s : State) (top : Ceilings) (b : BeltIx) : Ceilings :=
  match s.beltData b with
  | none => top
  | some d =>
    let sum := s.beltSum b fun i => top[i]
    if d.capacity < sum then
      Vector.ofFn fun i => if s.crosses i b then top[i] * d.capacity / sum else top[i]
    else top

/-- Stage 3: the belts, in index order (R59). -/
def stageBelts (s : State) (top : Ceilings) : Ceilings := (allIx 8).foldl (shareBelt s) top

/-- The sum of a quantity over the ACTIVE legs. -/
def State.activeSum (s : State) (x : UnloaderIx → Nat) : Nat :=
  ((allIx 6).map fun i => if s.legs[i].state = .active then x i else 0).sum

/-- The base power B, in kW (R61). -/
def State.basePower (s : State) : Nat := s.activeSum fun i => s.unloaderNumber i (·.basePower)

/-- The headroom H, in watts; it may be negative (R61). -/
def State.headroom (s : State) : Int := ((s.alloc.budgetInUse : Int) - (s.basePower : Int)) * 1000

/-- The specific power demand V of feeds, in watts (R63). -/
def State.demand (s : State) (x : UnloaderIx → Nat) : Nat :=
  s.activeSum fun i => s.unloaderNumber i (·.specificPower) * x i

/-- Feeds scaled to the headroom (R62, R63). -/
def scaleToPower (s : State) (x : Ceilings) : Ceilings :=
  let h := s.headroom
  if h ≤ 0 then Vector.replicate 6 0
  else
    let v := s.demand fun i => x[i]
    if v ≤ h.toNat then x else Vector.ofFn fun i => x[i] * h.toNat / v

/-- Whether stage 4 cuts a leg, given its ceiling when the stage begins (R62). -/
def cutByPower (s : State) (top : Ceilings) (i : UnloaderIx) : Bool :=
  decide (s.headroom ≤ 0) && s.legs[i].state == .active && decide (0 < top[i])

/-- The power-short marks after an expiry (R64). -/
def markPowerShort (top : Ceilings) (s : State) : State :=
  { s with legs := Vector.ofFn fun i =>
      if s.legs[i].state = .active then { s.legs[i] with powerShort := cutByPower s top i }
      else s.legs[i] }

/-- The POWER_SHORT flag after stage 4 (R64): its notice gives the number of legs cut (R194). -/
def raisePowerShort (top : Ceilings) (s : State) : State :=
  let cut := (allIx 6).countP fun i => cutByPower s top i
  if 0 < cut then raiseFlag .powerShort 0 cut false s else s

/-- A leg's grant is published: a guard FEED order is handed over when the smaller of r and the grant
differs from f or from the setpoint of a guard order that waits (R66). -/
def publish (i : UnloaderIx) (grant : Nat) (s : State) : State :=
  let l := s.legs[i]
  let value := min l.r grant
  let waiting := (s.guardSetpoint i).any fun x => x != value
  if value ≠ l.f ∨ waiting then handGuard i value (s.setLeg i { l with g := grant, f := value })
  else s.setLeg i { l with g := grant }

/-- Stage 5: the ceilings become grants, in leg number order (R66). -/
def stagePublish (top : Ceilings) (s : State) : State :=
  (allIx 6).foldl (fun t i => if t.legs[i].state = .active then publish i top[i] t else t) s

/-- The ceilings as stage 4 finds them. -/
def ceilingsBeforePower (s : State) : Ceilings := stageBelts s (stageRamp s (stageCeiling s))

/-- Stages 1 to 5 over the ACTIVE legs (R55). -/
def runStages (s : State) : State :=
  let top := ceilingsBeforePower s
  stagePublish (scaleToPower s top) (raisePowerShort top (markPowerShort top s))

/-- An expiry of the period timer (R52, R55): the budget set and the period set are taken up, the next
period starts, the grant conditions are evaluated and the stages run. -/
def takeExpiry (s : State) : State :=
  runStages (evaluateLegs { s with alloc := { s.alloc with
    budgetInUse := s.alloc.budgetSet
    periodInUse := s.alloc.periodSet
    timeLeft := s.alloc.periodSet } })

/-- The period timer expires, where it has run out (R52). -/
def periodExpires (s : State) : State := whenOut s.periodOut takeExpiry s

/-- The power recheck of an accepted LEG START (R65). -/
def powerRecheck (s : State) : State :=
  let now : Ceilings := Vector.ofFn fun i => if s.legs[i].state = .active then s.legs[i].g else 0
  let next := scaleToPower s now
  (allIx 6).foldl (fun t i =>
    if t.legs[i].state = .active ∧ next[i] ≠ now[i] then publish i next[i] t else t) s

/-! ### FEED orders -/

/-- The setpoint of a FEED order as it arrived (R160). -/
def Telegram.setpoint (t : Telegram) : Word := t.payload.getD 1 0

/-- The setpoint of a FEED order as read: 1200 when it is above 1200 (R37, R68). -/
def Telegram.setpointRead (t : Telegram) : Nat := min t.setpoint.toNat Config.maxFeed

/-- A FEED order with its setpoint replaced (R68, R168). -/
def Telegram.withSetpoint (t : Telegram) (n : Nat) : Telegram :=
  { t with payload := t.payload.set 1 (word n) }

/-- A FEED order for an ACTIVE leg (R68 to R70). -/
def feedActive (t : Telegram) (i : UnloaderIx) (s : State) : State :=
  let l := s.legs[i]
  let v := t.setpointRead
  let value := min v l.g
  let sent := joinForward (.forwarded (t.withSetpoint value)) s
  if s.forwardHasPlace then
    let taken := sent.setLeg i { l with r := v, f := value }
    if value < t.setpoint.toNat then answer t feedWord .clamped (word value) taken else taken
  else sent

/-- A FEED order for an IDLE or ENDED leg: it becomes the pending feed (R37). -/
def feedPended (t : Telegram) (i : UnloaderIx) (s : State) : State :=
  answer t feedWord .pended (word t.setpointRead)
    (s.setLeg i { s.legs[i] with pendingFeed := some t.setpointRead })

/-- A FEED order for an unloader index (R37, R68). -/
def takeFeed (t : Telegram) (i : UnloaderIx) (s : State) : State :=
  if s.legs[i].state = .active then feedActive t i s else feedPended t i s

/-- A FEED order to an address that holds no UNLOADER entry (R37). The manual gives the answer no value
there (assumption 6). -/
def feedNoLeg (t : Telegram) (s : State) : State :=
  answer t feedWord .noLeg s.free s.useFree

end Sys2Proof.Machine
end

