-- ==== Sys2Proof/Machine/Segregation.lean ====
section
/-!
DEFINITION. Diverters and segregation: breaches and their response (R119, R120), arrivals at a diverter
and at a bin (R115 to R117), and the admission, holding and release of DIVERT orders (R107 to R112).
-/

namespace Sys2Proof.Machine

/-! ### Breaches (R119, R120) -/

/-- The breach record is replaced, the count incremented and the BREACH flag set (R119). -/
def recordBreach (b : Breach) (s : State) : State :=
  raiseFlag .breach (num b.belt) b.kind.code false
    { s with seg := { s.seg with
        breach := some b
        breachCount := bump Config.maxCount8 s.seg.breachCount } }

/-- Every ACTIVE leg whose belt list holds a belt ends with reason BREACH, in leg number order (R120). -/
def endLegsOn (b : BeltIx) (s : State) : State :=
  (allIx 6).foldl (fun t i => if t.legs[i].belts.contains b then endLeg i .breach t else t) s

/-- A breach is raised: recorded, and then answered (R119, R120). -/
def raiseBreach (b : Breach) (s : State) : State := endLegsOn b.belt (recordBreach b s)

/-! ### Arrivals (R115 to R117) -/

/-- The next step of grain that leaves a belt: the belt that follows in its path, or its bin from the
last belt of the path (R116). -/
def Grain.nextStep (g : Grain) (b : BeltIx) : Option Outlet :=
  match g.path.dropWhile (· != b) with
  | [] => none
  | [_] => some (.bin g.bin)
  | _ :: n :: _ => some (.belt n)

/-- An arrival at a bin that has an entry (R117, R21). -/
def arriveAtBin (n : BinIx) (b : BeltIx) (via : Option DiverterIx) (g : Grain) (s : State) : State :=
  match s.tables.bins[n] with
  | none => s
  | some x =>
    let other : OtherLot :=
      match x.lot with
      | some m => .lot m
      | none => .absent
    let mix : Breach := ⟨.binMix, b, via, some n, g.lot, other⟩
    if !x.isOpen then raiseBreach mix s
    else
      match x.lot with
      | none => s.setBin n (some { x with lot := some g.lot })
      | some m => if s.compatible m g.lot then s else raiseBreach mix s

/-- The outlet of a reported position (R6, R115): absent when the position is at or above the positions
used. -/
def DiverterData.outletAt (d : DiverterData) (p : PositionIx) : Option Outlet := d.outlets[p.val]?

/-- An arrival at a diverter: the breaches it raises, and the outlet returned to the tracker (R115). -/
def arriveAtDiverter (d : DiverterIx) (b : BeltIx) (g : Grain) (s : State) :
    State × Option Outlet :=
  let stray (bin : Option BinIx) : Breach := ⟨.divert, b, some d, bin, g.lot, .absent⟩
  match s.diverterData d, s.seg.diverters[d] with
  | some e, some r =>
    match r.position with
    | none => (raiseBreach (stray none) s, none)
    | some p =>
      match e.outletAt p with
      | none => (raiseBreach (stray none) s, none)
      | some out =>
        let bin : Option BinIx :=
          match out with
          | .bin n => some n
          | _ => none
        let s1 := if g.nextStep b = some out then s else raiseBreach (stray bin) s
        match out with
        | .bin n =>
          if s1.tables.bins[n].isSome then (arriveAtBin n b (some d) g s1, some (.bin n)) else (s1, none)
        | .belt n => if (s1.beltStation n).isSome then (s1, some (.belt n)) else (s1, none)
        | .diverter _ => (s1, none)
  | _, _ => (raiseBreach (stray none) s, none)

/-! ### DIVERT orders (R105 to R112) -/

/-- The head of a belt is clear: no slug of its queue is APPROACHING or CROSSING (R95). -/
def State.beltHeadClear (s : State) (b : BeltIx) : Bool :=
  match s.tracker.belts[b] with
  | none => true
  | some r => r.queue.all fun y => y.stage == .travelling

/-- The head of a diverter is clear (R105). -/
def State.headClear (s : State) (d : DiverterIx) : Bool :=
  match s.servedBelt d with
  | none => true
  | some b => s.beltHeadClear b

/-- A position conflicts with one that an ACTIVE leg requires of a diverter (R108, step 1). -/
def State.divertConflict (s : State) (d : DiverterIx) (p : Word) : Bool :=
  s.activeLegs.any fun i =>
    (s.legSettings s.legs[i]).any fun x => x.diverter == d && x.position.val != p.toNat

/-- An answer about a DIVERT order: its value is the position that order carried (R107). -/
def answerDivert (t : Telegram) (c : AnswerCode) (s : State) : State :=
  answer t divertWord c t.divertPosition s

/-- A DIVERT order is forwarded to port B (R110). -/
def forwardDivert (t : Telegram) (s : State) : State := joinForward (.forwarded t) s

/-- A DIVERT order becomes the pending divert (R109). -/
def holdDivert (t : Telegram) (d : DiverterIx) (e : DiverterData) (r : DiverterRecord) (s : State) :
    State :=
  let s1 :=
    match r.pending with
    | some old => answerDivert old .superseded s
    | none => s
  answerDivert t .held
    (s1.setDiverter d (some { r with pending := some t, holdTimer := some ⟨0, 1000 * e.holdTimeout⟩ }))

/-- A DIVERT order for a defined diverter is refused, forwarded or held (R108). -/
def takeDivert (t : Telegram) (d : DiverterIx) (e : DiverterData) (s : State) : State :=
  if s.divertConflict d t.divertPosition then answerDivert t .routeInUse s
  else
    match s.seg.diverters[d] with
    | none => forwardDivert t s
    | some r =>
      if s.headClear d && r.pending.isNone then forwardDivert t s else holdDivert t d e r s

/-- The tracker reports a diverter's head clear (R111). -/
def headClearReport (d : DiverterIx) (s : State) : State :=
  match s.seg.diverters[d] with
  | none => s
  | some r =>
    match r.pending with
    | none => s
    | some t =>
      let s1 := s.setDiverter d (some { r with pending := none, holdTimer := none })
      if s.divertConflict d t.divertPosition then answerDivert t .routeInUse s1 else forwardDivert t s1

/-- The pending divert of a diverter has waited too long: it is answered and discarded (R112). -/
def giveUpDivert (d : DiverterIx) (s : State) : State :=
  match s.seg.diverters[d] with
  | none => s
  | some r =>
    match r.pending with
    | none => s
    | some t =>
      raiseFlag .divertTimeout (num d) t.divertPosition.toNat false
        ((answerDivert t .tooLate s).setDiverter d (some { r with pending := none, holdTimer := none }))

/-- The hold timer of a diverter expires, where it has reached its timeout (R112, R113). -/
def holdTimerExpires (d : DiverterIx) (s : State) : State := whenOut (s.holdOut d) (giveUpDivert d) s

end Sys2Proof.Machine
end

