-- ==== Sys2Proof/Machine/Tracker.lean ====
section
/-!
DEFINITION. The belt tracker: slugs and their stages (R79 to R82), sources (R83 to R89), hand-over and
retirement (R90 to R95), the UNSURE condition (R96 to R100).
-/

namespace Sys2Proof.Machine

/-! ### Distances and stages (R80) -/

/-- The front distance of a slug. -/
def frontDistance (r : BeltRecord) (y : Slug) : Nat := (r.position - y.front).toNat

/-- The stage that a front distance has reached. -/
def stageAt (d : BeltData) (distance : Nat) : Stage :=
  if d.length ≤ distance then .crossing
  else if d.length - d.guardLength ≤ distance then .approaching
  else .travelling

/-- The further of two stages: a slug's stage only advances. -/
def Stage.max (x y : Stage) : Stage := if x.code ≤ y.code then y else x

/-- A slug is due to retire: its rear mark is present and its rear distance is at least the length. -/
def dueToRetire (d : BeltData) (r : BeltRecord) (y : Slug) : Bool :=
  match y.rear with
  | none => false
  | some m => d.length ≤ (r.position - m).toNat

/-! ### Slugs of a queue -/

/-- The slug at a place of a queue. -/
def slugAt (q : List Slug) (p : Place) : Option Slug := q.find? fun y => y.place == p

/-- A queue with the slug at a place changed. -/
def mapSlug (q : List Slug) (p : Place) (f : Slug → Slug) : List Slug :=
  q.map fun y => if y.place = p then f y else y

/-- The first place of a queue that no slug takes (assumption 18). -/
def freePlace (q : List Slug) : Place :=
  ((allIx 6).find? fun p => !(q.any fun y => y.place == p)).getD 0

/-- The state with the slug at a place of a belt's queue changed. -/
def State.mapSlugOn (s : State) (b : BeltIx) (p : Place) (f : Slug → Slug) : State :=
  match s.tracker.belts[b] with
  | none => s
  | some r => s.setBelt b (some { r with queue := mapSlug r.queue p f })

/-! ### Closing a source (R89) -/

/-- A slug after one of its sources has closed at a belt position. -/
def Slug.lessOne (y : Slug) (position : Mark) : Slug :=
  if y.sources = 0 then y
  else if y.sources = 1 then { y with sources := 0, rear := some position }
  else { y with sources := y.sources - 1 }

/-- The source that feeds the slug at a place of a belt closes (R89). -/
def closeSource (b : BeltIx) (p : Place) (s : State) : State :=
  match s.tracker.belts[b] with
  | none => s
  | some r => s.setBelt b (some { r with queue := mapSlug r.queue p fun y => y.lessOne r.position })

/-- The source that a slug holds on the belt downstream closes, if it holds one (R94, R96). -/
def closeHandOver (h : HandOver) (s : State) : State :=
  match h with
  | .belt n p => closeSource n p s
  | _ => s

/-! ### Entering UNSURE (R96 to R98) -/

/-- The sources that the slugs of a belt hold downstream are closed (R96, step 1). -/
def closeDownstream (b : BeltIx) (s : State) : State :=
  match s.tracker.belts[b] with
  | none => s
  | some r => r.queue.foldl (fun t y => closeHandOver y.handOver t) s

/-- A hand-over whose source is dropped when a belt enters UNSURE or is deleted (R83). -/
def HandOver.dropOn (b : BeltIx) : HandOver → HandOver
  | .belt n p => if n = b then .absent else .belt n p
  | h => h

/-- The sources held on a belt are dropped (R96, step 2; R83). -/
def dropSources (b : BeltIx) (s : State) : State :=
  { s with tracker :=
    { belts := s.tracker.belts.map fun x => x.map fun r =>
        { r with queue := r.queue.map fun y => { y with handOver := y.handOver.dropOn b } }
      sources := s.tracker.sources.map fun x => x.filter fun ref => ref.belt != b } }

/-- The UNKNOWN slug of an entry into UNSURE (R96, step 3). -/
def unknownSlug (position : Mark) : Slug where
  place := 0
  grain := none
  front := position
  rear := some position
  sources := 0
  stage := .crossing
  handOver := .nowhere

/-- A belt enters UNSURE, without what follows downstream (R96). -/
def enterUnsure (b : BeltIx) (s : State) : State :=
  let t := dropSources b (closeDownstream b s)
  match t.tracker.belts[b] with
  | none => t
  | some r => t.setBelt b (some { r with queue := [unknownSlug r.position], condition := .unsure })

/-- The next belt of a cascade: by the outlet in force (R98). -/
def State.cascadeNext (s : State) (b : BeltIx) : Option BeltIx :=
  let defined (out : Option Outlet) : Option BeltIx :=
    match out with
    | some (.belt n) => if (s.beltStation n).isSome then some n else none
    | _ => none
  match s.beltData b with
  | none => none
  | some x =>
    match x.outlet with
    | .diverter d =>
      match s.diverterData d, s.seg.diverters[d] with
      | some e, some r => defined (r.position.bind e.outletAt)
      | _, _ => none
    | out => defined (some out)

/-- A cascade goes on from a belt: the belts it has sent UNSURE so far, the newest first (R98). -/
def cascadeFrom : Nat → BeltIx → List BeltIx → State → State × List BeltIx
  | 0, _, done, s => (s, done)
  | k + 1, b, done, s =>
    match s.cascadeNext b with
    | none => (s, done)
    | some n =>
      if done.contains n then (s, done)
      else cascadeFrom k n (n :: done) (enterUnsure n s)

/-- A belt enters UNSURE for a cause that cascades: six belts at most, counting itself (R97, R98). -/
def unsureCascade (b : BeltIx) (s : State) : State × List BeltIx :=
  cascadeFrom (Config.cascadeBelts - 1) b [b] (enterUnsure b s)

/-! ### Opening a source (R86 to R88) -/

/-- What came of an opening: the state, the place of the slug that the source feeds (absent when the
opening was not made), and the belts that entered UNSURE by it. -/
structure Opening where
  state : State
  place : Option Place
  upset : List BeltIx

/-- A source joins the youngest slug (R86). -/
def State.joins (s : State) (d : BeltData) (r : BeltRecord) (g : Grain) (y : Slug) : Bool :=
  match y.grain with
  | none => false
  | some h =>
    s.compatible h.lot g.lot && h.bin == g.bin && nearLoading d r y && y.sources < Config.maxSources

/-- A slug that has taken one more source (R86). -/
def Slug.plusOne (y : Slug) : Slug := { y with sources := y.sources + 1, rear := none }

/-- The slug that an opening appends (R87). -/
def newSlug (d : BeltData) (r : BeltRecord) (g : Grain) : Slug where
  place := freePlace r.queue
  grain := some g
  front := r.position
  rear := none
  sources := 1
  stage := stageAt d 0
  handOver := .absent

/-- The GAP breach of an append behind a slug (R87, R118). -/
def gapBreach (b : BeltIx) (g : Grain) (y : Slug) : Breach :=
  ⟨.gap, b, none, none, g.lot,
    match y.grain with
    | some h => .lot h.lot
    | none => .unknown⟩

/-- The GAP test of an append (R87, R88). -/
def gapTest (d : BeltData) (r : BeltRecord) (b : BeltIx) (g : Grain) (s : State) : State :=
  match s.gapBlocker d r g.lot g.bin with
  | some y => raiseBreach (gapBreach b g y) s
  | none => s

/-- An opening that does not join: it appends a slug, or overflows the queue (R87, R88). -/
def appendSource (d : BeltData) (r : BeltRecord) (b : BeltIx) (g : Grain) (s : State) : Opening :=
  let s1 := gapTest d r b g s
  if r.queue.length < Config.slugPlaces then
    let y := newSlug d r g
    ⟨s1.setBelt b (some { r with queue := r.queue ++ [y] }), some y.place, []⟩
  else
    let s2 := raiseFlag .trackerFull (num b) (num g.lot) false s1
    let c := unsureCascade b s2
    ⟨c.1, none, c.2⟩

/-- A source opens on a belt (R86 to R88). A belt without an entry and a record takes none. -/
def openSource (b : BeltIx) (g : Grain) (s : State) : Opening :=
  match s.beltData b, s.tracker.belts[b] with
  | some d, some r =>
    match r.queue.getLast? with
    | some y =>
      if s.joins d r g y then
        ⟨s.setBelt b (some { r with queue := mapSlug r.queue y.place Slug.plusOne }), some y.place, []⟩
      else appendSource d r b g s
    | none => appendSource d r b g s
  | _, _ => ⟨s, none, []⟩

/-! ### The unloader's source (R84, R85) -/

/-- The tracker reads an unloader's feed actual: it opens the unloader source, or closes it. -/
def readFeed (i : UnloaderIx) (d : UnloaderData) (feed : Nat) (s : State) : State :=
  match s.tracker.sources[i] with
  | some ref =>
    if feed < d.flowThreshold then (closeSource ref.belt ref.place s).setSource i none else s
  | none =>
    let l := s.legs[i]
    if d.flowThreshold ≤ feed ∧ l.state ≠ .idle then
      match l.grain, l.belts.head? with
      | some g, some b =>
        if (s.beltStation b).isSome then
          let o := openSource b g s
          o.state.setSource i (o.place.map fun p => ⟨b, p⟩)
        else s
      | _, _ => s
    else s

/-! ### Hand-over (R90 to R93) -/

/-- What came of a hand-over: the state, the slug's hand-over, and the belts that entered UNSURE by it. -/
structure HandedOver where
  state    : State
  handOver : HandOver
  upset    : List BeltIx

/-- A slug's grain goes onto a belt (R90). -/
def handToBelt (n : BeltIx) (g : Grain) (s : State) : HandedOver :=
  if (s.beltStation n).isSome then
    let o := openSource n g s
    ⟨o.state,
      match o.place with
      | some p => .belt n p
      | none => .absent,
      o.upset⟩
  else ⟨s, .nowhere, []⟩

/-- A slug of a lot 1 to 16 on a belt is handed over to what lies beyond the head (R90 to R92). -/
def makeHandOver (b : BeltIx) (d : BeltData) (g : Grain) (s : State) : HandedOver :=
  match d.outlet with
  | .belt n => handToBelt n g s
  | .bin n =>
    if s.tables.bins[n].isSome then ⟨arriveAtBin n b none g s, .bin n, []⟩ else ⟨s, .nowhere, []⟩
  | .diverter n =>
    let a := arriveAtDiverter n b g s
    match a.2 with
    | some (.belt m) => handToBelt m g a.1
    | some (.bin m) => ⟨a.1, .bin m, []⟩
    | _ => ⟨a.1, .nowhere, []⟩

/-! ### Re-evaluation (R81, R94, R95, R99) -/

/-- A slug that is due to retire leaves its queue, and the source it holds downstream closes; the belt
becomes SURE when it is the UNKNOWN slug (R94, R99). -/
def retire (b : BeltIx) (y : Slug) (s : State) : State :=
  match s.tracker.belts[b] with
  | none => s
  | some r =>
    closeHandOver y.handOver
      (s.setBelt b (some { r with
        queue := r.queue.filter fun x => x.place != y.place
        condition := if y.grain.isNone then .sure else r.condition }))

/-- Step 4 of a slug's re-evaluation: it retires when it is due (R81). -/
def retireIfDue (b : BeltIx) (d : BeltData) (p : Place) (s : State) : State :=
  match s.tracker.belts[b] with
  | none => s
  | some r =>
    match slugAt r.queue p with
    | none => s
    | some y => if dueToRetire d r y then retire b y s else s

/-- The re-evaluation of one slug of a queue (R81, steps 1 to 4); false when the queue it was taking has
been replaced, and the re-evaluation stops. -/
def reevaluateSlug (b : BeltIx) (d : BeltData) (p : Place) (s : State) : State × Bool :=
  match s.tracker.belts[b] with
  | none => (s, false)
  | some r =>
    match slugAt r.queue p with
    | none => (s, true)
    | some y =>
      let stage := y.stage.max (stageAt d (frontDistance r y))
      let s1 := s.mapSlugOn b p fun x => { x with stage := stage }
      let entered := stage == .crossing && y.stage != .crossing
      let again := y.stage == .crossing && y.handOver == .absent && !dueToRetire d r y
      match y.grain with
      | some g =>
        if entered || again then
          let h := makeHandOver b d g s1
          if h.upset.contains b then (h.state, false)
          else
            (retireIfDue b d p (h.state.mapSlugOn b p fun x => { x with handOver := h.handOver }), true)
        else (retireIfDue b d p s1, true)
      | none => (retireIfDue b d p s1, true)

/-- The slugs at the places given are re-evaluated in turn, until one replaces the queue. -/
def reevaluateSlugs (b : BeltIx) (d : BeltData) : List Place → State → State × Bool
  | [], s => (s, true)
  | p :: ps, s =>
    match reevaluateSlug b d p s with
    | (t, true) => reevaluateSlugs b d ps t
    | (t, false) => (t, false)

/-- The head clear report of an event that may have cleared the head of a belt: it is made when the
head was not clear before and is clear after (R95). -/
def reportHead (outlet : Outlet) (clearBefore clearAfter : Bool) (s : State) : State :=
  match outlet with
  | .diverter n => if !clearBefore && clearAfter then headClearReport n s else s
  | _ => s

/-- A belt's queue is re-evaluated: the slugs it holds when this begins, oldest first, then the head
clear report (R81, R95). -/
def reevaluate (b : BeltIx) (s : State) : State :=
  match s.beltData b, s.tracker.belts[b] with
  | some d, some r =>
    let t := reevaluateSlugs b d (r.queue.map (·.place)) s
    if t.2 then reportHead d.outlet (s.beltHeadClear b) (t.1.beltHeadClear b) t.1 else t.1
  | _, _ => s

/-! ### Belt samples (R77, R78, R100) -/

/-- The travel between two travel counts (R77). -/
def travelOf (last count : Word) : Nat := (count - last).toNat

/-- A belt sample is applied as a travel (R77, R78). -/
def takeTravel (b : BeltIx) (count : Word) (running : Bool) (s : State) : State :=
  match s.tracker.belts[b] with
  | none => s
  | some r =>
    let r1 := { r with lastTravel := some count, running := some running }
    match r.lastTravel with
    | none => reevaluate b (s.setBelt b (some r1))
    | some last =>
      if Config.maxTravel < travelOf last count then
        (unsureCascade b (s.setBelt b (some r1))).1
      else
        reevaluate b (s.setBelt b (some
          { r1 with position := r.position + BitVec.ofNat 32 (travelOf last count) }))

/-- A belt sample is applied as a return (R100). -/
def takeBeltReturn (b : BeltIx) (count : Word) (running : Bool) (s : State) : State :=
  match s.tracker.belts[b] with
  | none => s
  | some r =>
    (unsureCascade b (s.setBelt b (some
      { r with lastTravel := some count, running := some running }))).1

/-! ### Belt records and the station table (R8, R102) -/

/-- The record of a belt whose entry is first defined (R102). -/
def BeltRecord.fresh : BeltRecord where
  position := 0
  lastTravel := none
  running := none
  condition := .unsure
  queue := [unknownSlug 0]

/-- A belt whose entry is deleted: its downstream sources close, the sources on it are dropped, its
record is discarded, and the head clear is reported (R102, R95). The outlet and the clearness of the
head are those before the write. -/
def deleteBelt (b : BeltIx) (outlet : Outlet) (clearBefore : Bool) (s : State) : State :=
  reportHead outlet clearBefore true
    ((dropSources b (closeDownstream b s)).setBelt b none)

/-- A belt whose entry is rewritten enters UNSURE; when the entry names another outlet, the head clear is
reported for the diverter it served (R102, R95). -/
def rewriteBelt (b : BeltIx) (old new : Outlet) (clearBefore : Bool) (s : State) : State :=
  let s1 := enterUnsure b s
  if old = new then s1 else reportHead old clearBefore true s1

/-- RESTART acts on the tracker (R103). -/
def restartTracker (s : State) : State :=
  let t := (allIx 8).foldl (fun t b => enterUnsure b t) s
  { t with tracker :=
    { belts := t.tracker.belts.map fun x => x.map fun r => { r with lastTravel := none }
      sources := Vector.replicate 6 none } }

end Sys2Proof.Machine
end

