-- ==== Sys2Proof/Machine/Weighing.lean ====
section
/-!
DEFINITION. Weighing and lot accounts: increments (R126 to R128), booking (R129, R130), the account pool
(R132, R133, R135), calibration slots (R139), tonnes and the nonvolatile writer (R141 to R143), the
snapshot (R137).
-/

namespace Sys2Proof.Machine

/-! ### The account pool (R132, R133) -/

/-- An account line stands for a hold's place in the ship and a bin (R132, R133). -/
def Line.isFor (x : Line) (vessel number : Nat) (bin : BinIx) : Bool :=
  x.vessel == vessel && x.number == number && x.bin == bin

/-- The lines of a chain, in chain order (R132). -/
def State.linesOf (s : State) (chain : List BlockIx) : List Line :=
  chain.flatMap fun k => s.weighing.pool[k]

/-- A block is free: it is in no lot's chain (R132). -/
def State.blockFree (s : State) (k : BlockIx) : Bool :=
  (allIx 16).all fun i =>
    match s.tables.lots[i] with
    | some l => !l.chain.contains k
    | none => true

/-- The lowest-numbered free block (R133). -/
def State.freeBlock (s : State) : Option BlockIx := (allIx 12).find? s.blockFree

/-- The state with the lines of one block changed. -/
def State.setBlock (s : State) (k : BlockIx) (lines : List Line) : State :=
  { s with weighing := { s.weighing with pool := put s.weighing.pool k lines } }

/-- A line for a lot, a hold and a bin is found or created; false when the pool is exhausted (R133). -/
def ensureLine (i : LotIx) (vessel number : Nat) (bin : BinIx) (s : State) : State × Bool :=
  match s.tables.lots[i] with
  | none => (s, false)
  | some l =>
    let line : Line := ⟨vessel, number, bin, 0⟩
    if (s.linesOf l.chain).any fun x => x.isFor vessel number bin then (s, true)
    else
      match l.chain.getLast?.filter fun k => s.weighing.pool[k].length < Config.blockLines with
      | some k => (s.setBlock k (s.weighing.pool[k] ++ [line]), true)
      | none =>
        match s.freeBlock with
        | some k => ((s.setLot i (some { l with chain := l.chain ++ [k] })).setBlock k [line], true)
        | none => (raiseFlag .poolExhausted (num i) l.chain.length false s, false)

/-- The lines of a block after a booking to the line of a hold and a bin. -/
def growLine (vessel number : Nat) (bin : BinIx) (a : Nat) (lines : List Line) : List Line :=
  lines.map fun x => if x.isFor vessel number bin then { x with kg := x.kg + a } else x

/-- The line of a chain for a hold and a bin grows (R129). -/
def growChain (chain : List BlockIx) (vessel number : Nat) (bin : BinIx) (a : Nat) (s : State) :
    State :=
  chain.foldl (fun t k => t.setBlock k (growLine vessel number bin a t.weighing.pool[k])) s

/-! ### Booking (R129, R130, R142) -/

/-- A kilogram amount grows, and stays at its maximum once there. -/
def addKg (x k : Nat) : Nat := min (x + k) Config.maxKg

/-- Kilograms are added to an unloader's tonne residue, and whole tonnes go to its pending tonnes
(R142). -/
def addTonnes (i : UnloaderIx) (k : Nat) (s : State) : State :=
  let x := s.weighing.weighers[i]
  s.setWeigher i { x with
    residue := (x.residue + k) % 1000
    pendingTonnes := min (x.pendingTonnes + (x.residue + k) / 1000) Config.maxTonnes }

/-- The lot's share of a booking: what its total can still take (R129). -/
def lotShare (l : Lot) (k : Nat) : Nat := min k (Config.maxKg - l.total)

/-- A booking to a lot: its total, and its line or its unattributed amount (R129, steps 1 and 2). -/
def bookLot (i : LotIx) (vessel number : Nat) (bin : BinIx) (k : Nat) (s : State) : State :=
  let p := ensureLine i vessel number bin s
  match p.1.tables.lots[i] with
  | none => p.1
  | some l =>
    let a := lotShare l k
    if p.2 then
      growChain l.chain vessel number bin a (p.1.setLot i (some { l with total := l.total + a }))
    else
      p.1.setLot i (some { l with total := l.total + a, unattributed := l.unattributed + a })

/-- The sweep point of a hold (R18). -/
def Hold.sweepPoint (h : Hold) : Nat := h.declared * h.threshold / 1000

/-- The phase of a hold after a booking has raised its discharged amount: the sweep-point test (R18). -/
def Hold.sweepTest (h : Hold) : Hold :=
  if h.phase = .freeDig ∧ 0 < h.declared ∧ h.sweepPoint ≤ h.discharged then { h with phase := .sweep }
  else h

/-- A booking to a hold, followed by the sweep-point test when it raises the amount (R129, step 3; R18,
R19). -/
def bookHold (n : HoldIx) (k : Nat) (s : State) : State :=
  match s.tables.holds[n] with
  | none => s
  | some h =>
    let grown := { h with discharged := addKg h.discharged k }
    s.setHold n (some (if h.discharged < grown.discharged then grown.sweepTest else grown))

/-- A booking to a bin (R129, step 4). -/
def bookBin (n : BinIx) (k : Nat) (s : State) : State :=
  match s.tables.bins[n] with
  | none => s
  | some b => s.setBin n (some { b with fill := addKg b.fill k })

/-- A booking for an unloader whose leg is ACTIVE or ENDED (R129). -/
def bookLeg (i : UnloaderIx) (k : Nat) (s : State) : State :=
  let l := s.legs[i]
  match l.lot, l.hold, l.bin with
  | some lot, some hold, some bin =>
    match s.tables.holds[hold] with
    | some h => addTonnes i k (bookBin bin k (bookHold hold k (bookLot lot h.vessel h.number bin k s)))
    | none => addTonnes i k s
  | _, _, _ => addTonnes i k s

/-- A booking for an unloader whose leg is IDLE (R130). -/
def bookUnassigned (i : UnloaderIx) (k : Nat) (s : State) : State :=
  addTonnes i k
    { s with weighing := { s.weighing with unassigned := addKg s.weighing.unassigned k } }

/-- The kilograms of a sample are booked by the leg's state (R126, R129, R130). -/
def book (i : UnloaderIx) (k : Nat) (s : State) : State :=
  if k = 0 then s
  else if s.legs[i].state = .idle then bookUnassigned i k s
  else bookLeg i k s

/-! ### Increments (R126 to R128) -/

/-- The active slot of an unloader index: its highest-numbered written slot (R139). -/
def State.activeSlot (s : State) (i : UnloaderIx) : Option SlotIx :=
  (allIx 4).reverse.find? fun k => (s.nv.slots[i])[k].isSome

/-- The grams per pulse of the active slot (R126). -/
def State.gramsPerPulse (s : State) (i : UnloaderIx) : Option Nat :=
  (s.activeSlot i).bind fun k => (s.nv.slots[i])[k]

/-- The pulses between two weigher counts (R126). -/
def pulses (last count : Word) : Nat := (count - last).toNat

/-- An unloader's weigher count is taken (R126 to R128). -/
def weigh (i : UnloaderIx) (count : Word) (s : State) : State :=
  let x := s.weighing.weighers[i]
  let counted := { x with lastCount := some count }
  match x.lastCount, s.gramsPerPulse i with
  | some last, some grams =>
    let mass := pulses last count * grams + x.remainder
    if mass / 1000 ≤ Config.maxSampleKg then
      book i (mass / 1000) (s.setWeigher i { counted with remainder := mass % 1000 })
    else
      raiseFlag .weigherGlitch (num i) (bump Config.maxCount8 x.glitches) false
        (s.setWeigher i { counted with glitches := bump Config.maxCount8 x.glitches })
  | _, _ => s.setWeigher i counted

/-! ### The nonvolatile writer (R140 to R143) -/

/-- The lowest ERASED slot of an unloader index (R140). -/
def State.erasedSlot (s : State) (i : UnloaderIx) : Option SlotIx :=
  (allIx 4).find? fun k => (s.nv.slots[i])[k].isNone

/-- A calibration write completes: the slot takes its value, the writer goes idle and the reply is
queued (R141). -/
def completeCalibration (s : State) : State :=
  match s.writer with
  | .calibration i k value requester port =>
    joinPort port
      (.own requester .reply [13, word Result.done.code, word (num i), word (num k), word value] none)
      { s with
        writer := .idle
        nv := { s.nv with slots := put s.nv.slots i (put s.nv.slots[i] k (some value)) } }
  | _ => s

/-- The unloader indices in the order in which the writer serves them: from the one after the index it
served last, wrapping from 6 to 1 (R143). -/
def servingOrder (last : UnloaderIx) : List UnloaderIx :=
  (allIx 6).map fun k => last + 1 + k

/-- The index the writer serves next (R143). -/
def State.nextServed (s : State) : Option UnloaderIx :=
  (servingOrder s.weighing.lastServed).find? fun i => 0 < s.weighing.weighers[i].pendingTonnes

/-- The idle writer starts a grand-total write of the next index's batch (R143). -/
def startGrandTotal (s : State) : State :=
  match s.writer, s.nextServed with
  | .idle, some i =>
    let x := s.weighing.weighers[i]
    let t := s.setWeigher i { x with pendingTonnes := 0 }
    { t with
      writer := .grandTotal i x.pendingTonnes
      weighing := { t.weighing with lastServed := i } }
  | _, _ => s

/-- A grand-total write completes: the stored grand total takes the new value and the writer goes idle
(R143). -/
def completeGrandTotal (s : State) : State :=
  match s.writer with
  | .grandTotal i batch =>
    { s with
      writer := .idle
      nv := { s.nv with totals := put s.nv.totals i (min (s.nv.totals[i] + batch) Config.maxTonnes) } }
  | _ => s

/-- The batch that a write in progress is adding for an unloader index (R142). -/
def State.batchOf (s : State) (i : UnloaderIx) : Nat :=
  match s.writer with
  | .grandTotal j batch => if j = i then batch else 0
  | _ => 0

/-- The grand total that the part reports (R142). -/
def State.reportedTotal (s : State) (i : UnloaderIx) : Nat :=
  min (s.nv.totals[i] + s.batchOf i + s.weighing.weighers[i].pendingTonnes) Config.maxTonnes

/-! ### Snapshots and resets -/

/-- A copy of a lot's account replaces the snapshot buffer (R137). -/
def takeSnapshot (i : LotIx) (l : Lot) (s : State) : State :=
  let n := s.weighing.snapshotNumber + 1
  { s with weighing := { s.weighing with
      snapshotNumber := n
      snapshot := some ⟨n, i, l.total, l.unattributed, s.linesOf l.chain⟩ } }

/-- The blocks of a deleted lot's chain hold no lines (R135). -/
def freeBlocks (chain : List BlockIx) (s : State) : State :=
  chain.foldl (fun t k => t.setBlock k []) s

/-- RESTART acts on weighing, glitch counts aside (R146). -/
def restartWeighing (s : State) : State :=
  { s with weighing := { s.weighing with
      weighers := s.weighing.weighers.map fun x => { x with lastCount := none }
      snapshotNumber := 0
      snapshot := none } }

end Sys2Proof.Machine
end

