-- ==== Sys2Proof/Machine/Watch.lean ====
section
/-!
DEFINITION. Station watch: the watch record (R147), the handling of a sample (R148 to R153), the silence
timer (R150 to R152) and the persistence filters (R155 to R157).
-/

namespace Sys2Proof.Machine

/-! ### The watch record (R147, R150) -/

/-- A newly created watch record, for a silence limit (R147). -/
def WatchRecord.fresh (limit : Nat) : WatchRecord where
  state := if limit = 0 then .unwatched else .heard
  timer := if limit = 0 then none else some limit
  returnDue := false
  lastSeq := none
  duplicates := 0
  choke := Filter.clear
  sweep := Filter.clear

/-- A watch record after a rewrite of its entry that keeps the kind and the kind index (R150). -/
def WatchRecord.rewritten (w : WatchRecord) (limit : Nat) : WatchRecord :=
  if limit = 0 then { w with state := .unwatched, timer := none }
  else { w with state := if w.state = .unwatched then .heard else w.state, timer := some limit }

/-- A watch record whose filters are clear (R157). -/
def WatchRecord.clearFilters (w : WatchRecord) : WatchRecord :=
  { w with choke := Filter.clear, sweep := Filter.clear }

/-- A watch record after RESTART, for its entry's silence limit (R159). -/
def WatchRecord.restarted (w : WatchRecord) (limit : Nat) : WatchRecord :=
  { w with
    state := if limit = 0 then .unwatched else .heard
    timer := if limit = 0 then none else some limit
    returnDue := false
    lastSeq := none
    duplicates := 0
    choke := Filter.clear
    sweep := Filter.clear }

/-- The silence limit of an address: 0 where there is no entry (R3). -/
def State.limitAt (s : State) (a : Addr) : Nat :=
  match s.tables.stations[a] with
  | some e => e.silenceLimit
  | none => 0

/-- RESTART acts on station watch (R159). -/
def restartWatch (s : State) : State :=
  { s with watch := Vector.ofFn fun a => s.watch[a].map fun w => w.restarted (s.limitAt a) }

/-! ### Persistence filters (R155, R156) -/

/-- A filter takes a sample that agrees with a change of its state, or does not (section 7.4). -/
def Filter.take (x : Filter) (agrees : Bool) : Filter :=
  if agrees then
    if x.seen then ⟨!x.isSet, false⟩ else ⟨x.isSet, true⟩
  else ⟨x.isSet, false⟩

/-- The choke filter takes a vacuum (R155). -/
def Filter.takeVacuum (x : Filter) (d : UnloaderData) (vacuum : Nat) : Filter :=
  x.take (if x.isSet then vacuum ≤ d.releaseThreshold else d.chokeThreshold ≤ vacuum)

/-- The sweep filter takes a sweep-selected field (R156). -/
def Filter.takeSelected (x : Filter) (selected : Bool) : Filter := x.take (x.isSet != selected)

/-- A hold in FREE_DIG goes to SWEEP (R18). -/
def sweepHold (n : HoldIx) (s : State) : State :=
  match s.tables.holds[n] with
  | some h => if h.phase = .freeDig then s.setHold n (some { h with phase := .sweep }) else s
  | none => s

/-- The sweep filter of an unloader has become SET: the hold of its ACTIVE leg goes to SWEEP (R156). -/
def sweepFilterSets (i : UnloaderIx) (s : State) : State :=
  if s.legs[i].state = .active then
    match s.legs[i].hold with
    | some n => sweepHold n s
    | none => s
  else s

/-- The filters of an unloader's watch record take a sample (R148, step 5). -/
def takeFilters (a : Addr) (i : UnloaderIx) (d : UnloaderData) (vacuum : Nat) (selected : Bool)
    (s : State) : State :=
  match s.watch[a] with
  | none => s
  | some w =>
    let sweep := w.sweep.takeSelected selected
    let t := s.setWatch a (some { w with choke := w.choke.takeVacuum d vacuum, sweep := sweep })
    if sweep.isSet && !w.sweep.isSet then sweepFilterSets i t else t

/-! ### Samples (R148, R149, R153) -/

/-- A payload word of a telegram, counted from 0. -/
def Telegram.at (t : Telegram) (k : Nat) : Word := t.payload.getD k 0

/-- The words that a SAMPLE from a station of a kind needs (R166). -/
def StationKind.wordsNeeded : StationKind → Nat
  | .unloader _ _ => 4
  | .belt _ _ => 2
  | .diverter _ _ => 1
  | .supervisor => 0
  | .panel => 0

/-- The owners of an unloader's sample: the filters, weighing, then the tracker (R148, steps 5 and 6). -/
def applyUnloader (a : Addr) (i : UnloaderIx) (d : UnloaderData) (t : Telegram) (s : State) : State :=
  readFeed i d (t.at 0).toNat
    (weigh i (t.at 2) (takeFilters a i d (t.at 1).toNat (t.at 3 != 0) s))

/-- The position that a diverter sample reports: UNKNOWN above 3 (R106, R166). -/
def reportedPosition (w : Word) : Option PositionIx :=
  if h : w.toNat < 4 then some ⟨w.toNat, h⟩ else none

/-- A diverter's reported position is set (R106). -/
def setPosition (d : DiverterIx) (p : Option PositionIx) (s : State) : State :=
  match s.seg.diverters[d] with
  | some r => s.setDiverter d (some { r with position := p })
  | none => s

/-- An unloader's last weigher count becomes absent (R125, R153). -/
def forgetCount (i : UnloaderIx) (s : State) : State :=
  s.setWeigher i { s.weighing.weighers[i] with lastCount := none }

/-- The watch record after it has accepted a sample: sequence, return and reload (R148, steps 2 to 4). -/
def WatchRecord.accepting (w : WatchRecord) (seq : Octet) (limit : Nat) : WatchRecord :=
  let state : WatchState := if w.returnDue ∧ w.state = .silent then .heard else w.state
  { w with
    lastSeq := some seq
    returnDue := false
    state := state
    timer := if state = .heard then some limit else w.timer }

/-- The owners take an accepted sample, as a return when one was due (R148, R153). -/
def applySample (a : Addr) (k : StationKind) (returning : Bool) (t : Telegram) (s : State) : State :=
  match k with
  | .unloader i d => applyUnloader a i d t (if returning then forgetCount i s else s)
  | .belt b _ =>
    if returning then takeBeltReturn b (t.at 0) (t.at 1 != 0) s
    else takeTravel b (t.at 0) (t.at 1 != 0) s
  | .diverter d _ => setPosition d (reportedPosition (t.at 0)) s
  | .supervisor => s
  | .panel => s

/-- A sample is accepted (R148, steps 2 to 6; R153). -/
def acceptSample (a : Addr) (e : StationEntry) (w : WatchRecord) (t : Telegram) (s : State) : State :=
  let s1 := s.setWatch a (some (w.accepting t.seq e.silenceLimit))
  let s2 :=
    if w.returnDue && w.state == .silent then
      raiseFlag .stationBack a.val e.kind.index false s1
    else s1
  applySample a e.kind w.returnDue t s2

/-- Station watch takes a sample from an address that holds a watch record: a duplicate is counted, any
other is accepted (R148, R149). -/
def takeSample (a : Addr) (e : StationEntry) (t : Telegram) (s : State) : State :=
  match s.watch[a] with
  | none => s
  | some w =>
    if w.lastSeq = some t.seq then
      s.setWatch a (some { w with duplicates := bump Config.maxCount8 w.duplicates })
    else acceptSample a e w t s

/-! ### The silence timer (R151, R152) -/

/-- The effects of silence for a station's kind (R152). -/
def silenceEffects (k : StationKind) (s : State) : State :=
  match k with
  | .unloader i _ => endLeg i .silent s
  | .belt _ _ => s
  | .diverter d _ => setPosition d none s
  | .supervisor => s
  | .panel => s

/-- The watch record of a station that is declared SILENT (R151, R152). -/
def WatchRecord.silenced (w : WatchRecord) : WatchRecord :=
  { w.clearFilters with state := .silent, timer := none, returnDue := true, lastSeq := none }

/-- A station is declared SILENT (R151). -/
def fallSilent (a : Addr) (s : State) : State :=
  match s.watch[a], s.tables.stations[a] with
  | some w, some e =>
    raiseFlag .stationSilent a.val e.kind.index false
      (silenceEffects e.kind (s.setWatch a (some w.silenced)))
  | _, _ => s

/-- A station's silence timer expires, where it has run out (R150, R151, R154). -/
def silenceExpires (a : Addr) (s : State) : State := whenOut (s.silenceOut a) (fallSilent a) s

end Sys2Proof.Machine
end

