-- ==== Sys2Proof/Machine/Tables.lean ====
section
/-!
DEFINITION. Writing the quay tables: the coding and ranges of the contents (R3 to R6, R9, R13, R16, R20,
R161), when an entry is in use (R7, R11, R13, R15, R16, R20), the route walk (R10), and what an accepted
write does to the other blocks (R8, R17, R135).
-/

namespace Sys2Proof.Machine

/-- What came of a write: its result, its reply data, and the state. -/
structure Written where
  result : Result
  data   : List Word
  state  : State

/-- A refused write leaves everything as it was (R1). -/
def refused (r : Result) (s : State) : Written := ⟨r, [], s⟩

/-- A write refused RANGE gives the position of the first field out of range (R1). -/
def refusedAt (position : Nat) (s : State) : Written := ⟨.range, [word position], s⟩

/-- An accepted write. -/
def written (s : State) : Written := ⟨.done, [], s⟩

/-- A field at a position, which is out of range when it has no value. -/
def need {α : Type} (position : Nat) (x : Option α) : Except Nat α :=
  match x with
  | some v => .ok v
  | none => .error position

/-! ### Presence of the contents (R161, R179) -/

/-- The words of a station's contents after its kind, by the kind word's more significant octet. -/
def stationLayout (kind : Nat) : List Group :=
  match kind with
  | 1 => []
  | 2 => [twoFields, oneField, oneField, oneField, oneField, oneField, oneField, twoFields]
  | 3 => [twoFields, oneField, oneField, oneField, oneField, oneField]
  | 4 => [twoFields, twoFields]
  | _ => [twoFields]

/-- The pairs of a route's settings that its pair count says it has; a count out of range has none
(assumption 11). -/
def pairsNeeded (count : Nat) : Nat := if count ≤ 4 then count else 0

/-- The words of the contents of a DEFINE that a write needs (R161). -/
def contentsLayout (t : Table) (ws : List Word) : List Group :=
  match t with
  | .station => twoFields :: stationLayout (hi (ws.getD 0 0))
  | .route => twoFields :: twoFields :: List.replicate (pairsNeeded (hi (ws.getD 1 0))) twoFields
  | .lot => [twoFields, ⟨3, 1⟩]
  | .hold => [twoFields, oneField, ⟨2, 1⟩, oneField]
  | .bin => [⟨2, 1⟩, ⟨2, 1⟩, oneField]

/-- The words that a write of a table needs: the table word, and for a DEFINE the contents; where there is no table
to say what the contents are, the table word alone (assumption 34). -/
def writeLayout (t : Option Table) (params : List Word) : List Group :=
  match t with
  | none => [tableWordGroup]
  | some x =>
    if actionOf (params.getD 0 0) = 1 then tableWordGroup :: contentsLayout x (params.drop 1)
    else [tableWordGroup]

/-! ### The contents of a station table entry (R3 to R6) -/

/-- The working data of an UNLOADER, from the words of its contents (R4). -/
def parseUnloader (ws : List Word) : Except Nat UnloaderData := do
  let cap ← need 8 (within 50 1200 (ws.getD 2 0).toNat)
  let base ← need 9 (within 0 400 (ws.getD 3 0).toNat)
  let specific ← need 10 (within 0 2000 (ws.getD 4 0).toNat)
  let ramp ← need 11 (within 5 500 (ws.getD 5 0).toNat)
  let choke ← need 12 (within 200 850 (ws.getD 6 0).toNat)
  let release ← need 13 (within 100 (choke - 50) (ws.getD 7 0).toNat)
  let flow ← need 14 (within 5 100 (hi (ws.getD 8 0)))
  let sweep ← need 15 (within 20 60 (lo (ws.getD 8 0)))
  return ⟨cap, base, specific, ramp, flow, choke, release, sweep⟩

/-- The data of a BELT of an index, from the words of its contents (R5). -/
def parseBelt (b : BeltIx) (ws : List Word) : Except Nat BeltData := do
  let length ← need 8 (within 10 12000 (ws.getD 2 0).toNat)
  let capacity ← need 9 (within 100 3000 (ws.getD 3 0).toNat)
  let gap ← need 10 (within 0 2000 (ws.getD 4 0).toNat)
  let guard ← need 11 (within 0 (min 2000 length) (ws.getD 5 0).toNat)
  let outlet ← need 12 ((outletOf (ws.getD 6 0)).filter fun out => out != .belt b)
  return ⟨length, capacity, gap, guard, outlet⟩

/-- The outlets of the positions of a diverter, from position k on: each used position names a bin or a
belt, and the others have no outlet (R6). For a position that is not used, only the whole word 0 is no
outlet: one of target 0 with a number is refused (assumption 27). -/
def parsePositions (ws : List Word) (used : Nat) : Nat → Nat → Except Nat (List Outlet)
  | 0, _ => .ok []
  | n + 1, k =>
    let w := ws.getD (3 + k) 0
    if k < used then
      match outletOf w with
      | some (.bin x) => (parsePositions ws used n (k + 1)).map fun l => .bin x :: l
      | some (.belt x) => (parsePositions ws used n (k + 1)).map fun l => .belt x :: l
      | _ => .error (10 + k)
    else if w = 0 then parsePositions ws used n (k + 1)
    else .error (10 + k)

/-- The data of a DIVERTER, from the words of its contents (R6). -/
def parseDiverter (ws : List Word) : Except Nat DiverterData := do
  let used ← need 8 (within 2 4 (hi (ws.getD 2 0)))
  let timeout ← need 9 (within 1 120 (lo (ws.getD 2 0)))
  let outlets ← parsePositions ws used 4 0
  return ⟨outlets, timeout⟩

/-- The ring ceiling of a station: 0, 1 or 3 (R3). -/
def ceilingOf (n : Nat) : Option Nat := if n = 0 ∨ n = 1 ∨ n = 3 then some n else none

/-- The silence limit of a station: 0, or 2 to 255 (R3). -/
def limitOf (n : Nat) : Option Nat := if n = 1 then none else some n

/-- The silence limit of a SUPERVISOR or PANEL entry, which must be 0 (R3). -/
def noLimitOf (n : Nat) : Option Nat := if n = 0 then some n else none

/-- A SUPERVISOR or PANEL entry, from the words of its contents (R3). -/
def parsePlain (k : StationKind) (ws : List Word) : Except Nat (Option StationEntry) := do
  let _ ← need 5 (within 0 0 (lo (ws.getD 0 0)))
  let ceiling ← need 6 (ceilingOf (hi (ws.getD 1 0)))
  let limit ← need 7 (noLimitOf (lo (ws.getD 1 0)))
  return some ⟨ceiling, limit, k⟩

/-- The contents of a station table write (R3 to R6): none for kind NONE. `taken` says that the address
may hold no entry: the position of the RANGE is then that of the entry index (assumption 29). -/
def parseStation (taken : Bool) (ws : List Word) : Except Nat (Option StationEntry) := do
  let kind := hi (ws.getD 0 0)
  let index := lo (ws.getD 0 0)
  let _ ← need 3 (if taken ∧ 2 ≤ kind ∧ kind ≤ 6 then none else some ())
  match kind with
  | 1 =>
    let _ ← need 5 (within 0 0 index)
    return none
  | 2 =>
    let i ← need 5 (ixOf 6 index)
    let ceiling ← need 6 (ceilingOf (hi (ws.getD 1 0)))
    let limit ← need 7 (limitOf (lo (ws.getD 1 0)))
    let d ← parseUnloader ws
    return some ⟨ceiling, limit, .unloader i d⟩
  | 3 =>
    let i ← need 5 (ixOf 8 index)
    let ceiling ← need 6 (ceilingOf (hi (ws.getD 1 0)))
    let limit ← need 7 (limitOf (lo (ws.getD 1 0)))
    let d ← parseBelt i ws
    return some ⟨ceiling, limit, .belt i d⟩
  | 4 =>
    let i ← need 5 (ixOf 8 index)
    let ceiling ← need 6 (ceilingOf (hi (ws.getD 1 0)))
    let limit ← need 7 (limitOf (lo (ws.getD 1 0)))
    let d ← parseDiverter ws
    return some ⟨ceiling, limit, .diverter i d⟩
  | 5 => parsePlain .supervisor ws
  | 6 => parsePlain .panel ws
  | _ => .error 4

/-! ### When a station table entry is in use (R5, R7) -/

/-- Two stations are of one kind and hold one kind index. -/
def StationKind.sameIndex : StationKind → StationKind → Bool
  | .unloader i _, .unloader j _ => i == j
  | .belt i _, .belt j _ => i == j
  | .diverter i _, .diverter j _ => i == j
  | _, _ => false

/-- A route references a station (R7). -/
def Route.references (e : Route) : StationKind → Bool
  | .unloader i _ => e.unloader == i
  | .belt b _ => e.belts.contains b
  | .diverter d _ => e.settings.any fun x => x.diverter == d
  | .supervisor => false
  | .panel => false

/-- A defined route references a station (R7). -/
def State.routeReferences (s : State) (k : StationKind) : Bool :=
  (allIx 32).any fun r =>
    match s.tables.routes[r] with
    | some e => e.references k
    | none => false

/-- A station is the unloader of an ACTIVE leg, or its route references it (R7). -/
def State.activeReferences (s : State) (k : StationKind) : Bool :=
  s.activeLegs.any fun i =>
    match k with
    | .unloader j _ => i == j
    | _ =>
      match s.legRoute s.legs[i] with
      | some e => e.references k
      | none => false

/-- Another address holds the kind index for the same kind (R7). -/
def State.indexTaken (s : State) (a : Addr) (k : StationKind) : Bool :=
  (allIx 64).any fun b =>
    b != a &&
      match s.tables.stations[b] with
      | some e => e.kind.sameIndex k
      | none => false

/-- The diverter that a station's outlet names, for a BELT. -/
def StationKind.outletDiverter : StationKind → Option DiverterIx
  | .belt _ d =>
    match d.outlet with
    | .diverter n => some n
    | _ => none
  | _ => none

/-- A BELT's outlet names a diverter that another belt already serves (R5, R7). -/
def State.alreadyServed (s : State) (a : Addr) (k : StationKind) : Bool :=
  match k.outletDiverter with
  | none => false
  | some n =>
    (allIx 64).any fun b =>
      b != a &&
        match s.tables.stations[b] with
        | some e => e.kind.outletDiverter == some n
        | none => false

/-- A station table write is refused IN_USE (R7). -/
def State.stationInUse (s : State) (a : Addr) (new : Option StationEntry) : Bool :=
  (match s.tables.stations[a] with
    | some e => s.routeReferences e.kind || s.activeReferences e.kind
    | none => false)
  || (match new with
    | some e => s.indexTaken a e.kind || s.alreadyServed a e.kind
    | none => false)

/-- A station table write is refused BUSY: it changes or deletes a DIVERTER entry while the diverter holds
a pending divert (R7). -/
def State.stationBusy (s : State) (a : Addr) : Bool :=
  match s.tables.stations[a] with
  | some e =>
    match e.kind with
    | .diverter d _ => (s.seg.diverters[d]).any fun r => r.pending.isSome
    | _ => false
  | none => false

/-- A waiting telegram carries an own address that is about to come into force. -/
def Queued.bringsOwn (a : Addr) (q : Queued) : Bool := q.takesForce.any fun x => x.own == a

/-- A telegram in transmission carries an own address that is about to come into force. -/
def bringsOwnSending (a : Addr) (x : Option Sending) : Bool :=
  x.any fun y => y.takesForce.any fun z => z.own == a

/-- An address is the part's own, in force or in the record, or about to become so (R3, R184;
assumption 9). -/
def State.ownAddress (s : State) (a : Addr) : Bool :=
  s.mgmt.inForce.own == a || s.nv.record.own == a
    || (s.mgmt.writing.any fun w => w.addresses.own == a)
    || s.path.egressA.any (Queued.bringsOwn a) || s.path.forwardB.any (Queued.bringsOwn a)
    || bringsOwnSending a s.path.sendingA || bringsOwnSending a s.path.sendingB

/-- An address that may hold no station entry (R3, R184). -/
def State.addressTaken (s : State) (a : Addr) : Bool :=
  a.val == 0 || a == broadcast || s.ownAddress a

/-! ### What an accepted station table write does (R8) -/

/-- The state that the other blocks keep ends for a station that is deleted (R8, R147). `old` is the state
before the write. -/
def deleteStation (old : State) (a : Addr) (k : StationKind) (s : State) : State :=
  let t := s.setWatch a none
  match k with
  | .unloader i _ =>
    let closed :=
      match t.tracker.sources[i] with
      | some ref => (closeSource ref.belt ref.place t).setSource i none
      | none => t
    closed.setWeigher i { closed.weighing.weighers[i] with lastCount := none, remainder := 0 }
  | .belt b d => deleteBelt b d.outlet (old.beltHeadClear b) t
  | .diverter d _ => t.setDiverter d none
  | .supervisor => t
  | .panel => t

/-- The state that the other blocks keep starts for a station that is first defined (R8, R102, R123,
R147). -/
def defineStation (a : Addr) (e : StationEntry) (s : State) : State :=
  let t := s.setWatch a (some (WatchRecord.fresh e.silenceLimit))
  match e.kind with
  | .unloader i _ =>
    t.setWeigher i { t.weighing.weighers[i] with lastCount := none, remainder := 0 }
  | .belt b _ => t.setBelt b (some BeltRecord.fresh)
  | .diverter d _ => t.setDiverter d (some ⟨none, none, none⟩)
  | .supervisor => s
  | .panel => s

/-- A rewrite that keeps the kind and the kind index (R8, R150). -/
def rewriteStation (old : State) (a : Addr) (before after : StationEntry) (s : State) : State :=
  let t := s.setWatch a (s.watch[a].map fun w => w.rewritten after.silenceLimit)
  match before.kind, after.kind with
  | .belt b x, .belt _ y => rewriteBelt b x.outlet y.outlet (old.beltHeadClear b) t
  | _, _ => t

/-- An accepted station table write (R8): a rewrite, or a deletion of the old station and a first definition
of the new one, each where there is one. -/
def storeStation (a : Addr) (new : Option StationEntry) (s : State) : State :=
  let t := s.setStation a new
  match s.tables.stations[a], new with
  | some x, some y =>
    if x.kind.sameIndex y.kind then rewriteStation s a x y t
    else defineStation a y (deleteStation s a x.kind t)
  | some x, none => deleteStation s a x.kind t
  | none, some y => defineStation a y t
  | none, none => t

/-- A station table write whose contents are in range (R1, R7, R8). -/
def writeStation (a : Addr) (new : Option StationEntry) (s : State) : Written :=
  if s.tables.stations[a].isNone && new.isNone then refused .noEffect s
  else if s.stationInUse a new then refused .inUse s
  else if s.stationBusy a then refused .busy s
  else written (storeStation a new s)

/-! ### Routes (R9 to R11) -/

/-- The written fields of a route. -/
structure RouteWrite where
  unloader  : UnloaderIx
  firstBelt : BeltIx
  settings  : List Setting
  bin       : BinIx
  deriving DecidableEq, Repr

/-- The pairs of diverter settings, from a position on; `seen` holds those before (R9). Where a diverter is named
twice, the RANGE is at the diverter index of its second pair (assumption 30). -/
def parseSettings : Nat → Nat → List Word → List Setting → Except Nat (List Setting)
  | 0, _, _, seen => .ok seen
  | n + 1, position, ws, seen => do
    let w := ws.getD 0 0
    let d ← need position ((ixOf 8 (hi w)).filter fun d => !(seen.any fun x => x.diverter == d))
    let p ← need (position + 1) (if h : lo w < 4 then some (⟨lo w, h⟩ : PositionIx) else none)
    parseSettings n (position + 2) (ws.drop 1) (seen ++ [⟨d, p⟩])

/-- The contents of a route write (R9). -/
def parseRoute (ws : List Word) : Except Nat RouteWrite := do
  let i ← need 4 (ixOf 6 (hi (ws.getD 0 0)))
  let b ← need 5 (ixOf 8 (lo (ws.getD 0 0)))
  let n ← need 6 (within 0 4 (hi (ws.getD 1 0)))
  let bin ← need 7 (ixOf 48 (lo (ws.getD 1 0)))
  let settings ← parseSettings n 8 (ws.drop 2) []
  return ⟨i, b, settings, bin⟩

/-- Where a route walk has ended: the belts in order of travel, the diverters visited, the bin. -/
structure Walk where
  belts     : List BeltIx
  diverters : List DiverterIx
  bin       : BinIx
  deriving DecidableEq, Repr

/-- The route walk from a current belt (R10), for at most so many belts more. -/
def walkFrom (s : State) (settings : List Setting) :
    Nat → BeltIx → List BeltIx → List DiverterIx → Option Walk
  | 0, _, _, _ => none
  | n + 1, b, seen, visited =>
    match s.beltData b with
    | none => none
    | some d =>
      if seen.contains b then none
      else
        match d.outlet with
        | .bin k => some ⟨seen ++ [b], visited, k⟩
        | .belt k => walkFrom s settings n k (seen ++ [b]) visited
        | .diverter x =>
          match s.diverterData x, settings.find? fun y => y.diverter == x with
          | some e, some y =>
            match e.outletAt y.position with
            | some (.bin k) => some ⟨seen ++ [b], x :: visited, k⟩
            | some (.belt k) => walkFrom s settings n k (seen ++ [b]) (x :: visited)
            | _ => none
          | _, _ => none

/-- The derived belt list of a route, where the walk does not fail (R10). -/
def State.deriveBelts (s : State) (x : RouteWrite) : Option (List BeltIx) :=
  match walkFrom s x.settings Config.cascadeBelts x.firstBelt [] [] with
  | none => none
  | some w =>
    if w.bin = x.bin ∧ s.tables.bins[x.bin].isSome ∧ (s.unloaderStation x.unloader).isSome
        ∧ x.settings.all (fun y => w.diverters.contains y.diverter) then
      some w.belts
    else none

/-- A route's user count is above 0 (R11). -/
def State.routeUsed (s : State) (k : RouteIx) : Bool :=
  match s.tables.routes[k] with
  | some e => 0 < e.users
  | none => false

/-- A route write whose contents are in range (R11). -/
def writeRoute (k : RouteIx) (x : RouteWrite) (s : State) : Written :=
  if s.routeUsed k then refused .inUse s
  else
    match s.deriveBelts x with
    | none => refused .routeInvalid s
    | some belts =>
      ⟨.done, beltListWords belts,
        s.setRoute k (some ⟨x.unloader, x.firstBelt, x.settings, x.bin, belts, 0⟩)⟩

/-- A route deletion (R1, R11). -/
def deleteRoute (k : RouteIx) (s : State) : Written :=
  match s.tables.routes[k] with
  | none => refused .noEffect s
  | some e => if 0 < e.users then refused .inUse s else written (s.setRoute k none)

/-! ### Lots (R13, R15) -/

/-- The written fields of a lot. -/
structure LotWrite where
  cargoClass : Nat
  group      : Nat
  permitted  : BitVec 48
  deriving DecidableEq, Repr

/-- The contents of a lot write (R13, R161). -/
def parseLot (ws : List Word) : Except Nat LotWrite := do
  let group ← need 5 (within 0 15 (lo (ws.getD 0 0)))
  return ⟨hi (ws.getD 0 0), group, (ws.getD 3 0 ++ ws.getD 2 0 ++ ws.getD 1 0 : BitVec 48)⟩

/-- A slug that satisfies a condition on its grain lies on some belt. -/
def State.anyGrain (s : State) (p : Grain → Bool) : Bool :=
  (allIx 8).any fun b =>
    match s.tracker.belts[b] with
    | some r => r.queue.any fun y => y.grain.any p
    | none => false

/-- A leg that is ACTIVE or ENDED satisfies a condition. -/
def State.anyWorking (s : State) (p : Leg → Bool) : Bool :=
  (allIx 6).any fun i => s.legs[i].state != .idle && p s.legs[i]

/-- A hold, a bin, a slug, or an ACTIVE or ENDED leg refers to a lot (R13, R15). -/
def State.lotReferred (s : State) (i : LotIx) : Bool :=
  ((allIx 18).any fun n =>
    match s.tables.holds[n] with
    | some h => h.lot == some i
    | none => false)
  || ((allIx 48).any fun n =>
    match s.tables.bins[n] with
    | some b => b.lot == some i
    | none => false)
  || (s.anyGrain fun g => g.lot == i)
  || (s.anyWorking fun l => l.lot == some i)

/-- A lot write whose contents are in range (R13). -/
def writeLot (i : LotIx) (x : LotWrite) (s : State) : Written :=
  match s.tables.lots[i] with
  | none => written (s.setLot i (some ⟨x.cargoClass, x.group, x.permitted, [], 0, 0⟩))
  | some l =>
    if l.group ≠ x.group ∧ s.lotReferred i then refused .inUse s
    else written (s.setLot i (some
      { l with cargoClass := x.cargoClass, group := x.group, permitted := x.permitted }))

/-- A lot deletion (R15, R135). -/
def deleteLot (i : LotIx) (s : State) : Written :=
  match s.tables.lots[i] with
  | none => refused .noEffect s
  | some l =>
    if s.lotReferred i then refused .inUse s
    else written (freeBlocks l.chain (s.setLot i none))

/-! ### Holds (R16, R17) -/

/-- The written fields of a hold. -/
structure HoldWrite where
  vessel    : Nat
  number    : Nat
  lot       : Option LotIx
  declared  : Nat
  threshold : Nat
  deriving DecidableEq, Repr

/-- The lot of a hold: 0 when it is absent (R16, R161). -/
def holdLotOf (n : Nat) : Option (Option LotIx) :=
  if n = 0 then some none else (ixOf 16 n).map some

/-- The contents of a hold write (R16). -/
def parseHold (ws : List Word) : Except Nat HoldWrite := do
  let vessel ← need 4 (within 1 2 (hi (ws.getD 0 0)))
  let number ← need 5 (within 1 9 (lo (ws.getD 0 0)))
  let lot ← need 6 (holdLotOf (ws.getD 1 0).toNat)
  let declared ← need 7 (within 0 99999999 (ofTwo (ws.getD 2 0) (ws.getD 3 0)))
  let threshold ← need 8 (within 800 990 (ws.getD 4 0).toNat)
  return ⟨vessel, number, lot, declared, threshold⟩

/-- A leg that is ACTIVE or ENDED names a hold (R16). -/
def State.holdInUse (s : State) (n : HoldIx) : Bool := s.anyWorking fun l => l.hold == some n

/-- Another entry holds the vessel and hold number (R16). -/
def State.holdPairTaken (s : State) (n : HoldIx) (vessel number : Nat) : Bool :=
  (allIx 18).any fun m =>
    m != n &&
      match s.tables.holds[m] with
      | some h => h.vessel == vessel && h.number == number
      | none => false

/-- The discharged amount after a write: kept by a rewrite of the same vessel and hold number (R17). -/
def keptDischarged (old : Option Hold) (x : HoldWrite) : Nat :=
  match old with
  | some h => if h.vessel = x.vessel ∧ h.number = x.number then h.discharged else 0
  | none => 0

/-- A hold write whose contents are in range (R16, R17). -/
def writeHold (n : HoldIx) (x : HoldWrite) (s : State) : Written :=
  if s.holdInUse n || s.holdPairTaken n x.vessel x.number then refused .inUse s
  else if x.lot.any fun i => s.tables.lots[i].isNone then refused .notFound s
  else
    written (s.setHold n (some
      { vessel := x.vessel, number := x.number, lot := x.lot, declared := x.declared,
        threshold := x.threshold, phase := if x.lot.isSome then .freeDig else .undeclared,
        discharged := keptDischarged s.tables.holds[n] x }))

/-- A hold deletion (R16, R17). -/
def deleteHold (n : HoldIx) (s : State) : Written :=
  if s.tables.holds[n].isNone then refused .noEffect s
  else if s.holdInUse n then refused .inUse s
  else written (s.setHold n none)

/-! ### Bins (R20) -/

/-- The written fields of a bin. -/
structure BinWrite where
  capacity : Nat
  margin   : Nat
  isOpen   : Bool
  deriving DecidableEq, Repr

/-- The state of a bin: OPEN 1, CLOSED 2 (R161). -/
def binStateOf (n : Nat) : Option Bool :=
  if n = 1 then some true else if n = 2 then some false else none

/-- The contents of a bin write (R20). -/
def parseBin (ws : List Word) : Except Nat BinWrite := do
  let capacity ← need 4 (within 1000 99999999 (ofTwo (ws.getD 0 0) (ws.getD 1 0)))
  let margin ← need 5 (within 0 capacity (ofTwo (ws.getD 2 0) (ws.getD 3 0)))
  let isOpen ← need 6 (binStateOf (ws.getD 4 0).toNat)
  return ⟨capacity, margin, isOpen⟩

/-- An ACTIVE leg's route ends at a bin, or a slug is destined for it (R20, R22). -/
def State.binBusy (s : State) (n : BinIx) : Bool :=
  (s.activeLegs.any fun i => s.legs[i].bin == some n) || s.anyGrain fun g => g.bin == n

/-- A bin write whose contents are in range (R20). A rewrite with the state CLOSED sets the state to CLOSED
whatever it was before (assumption 26). -/
def writeBin (n : BinIx) (x : BinWrite) (s : State) : Written :=
  match s.tables.bins[n] with
  | none => written (s.setBin n (some ⟨x.capacity, x.margin, x.isOpen, none, 0⟩))
  | some b =>
    if !x.isOpen && s.binBusy n then refused .inUse s
    else written (s.setBin n (some
      { b with capacity := x.capacity, margin := x.margin, isOpen := x.isOpen }))

/-- A bin may not be deleted: a defined route ends at it, an ACTIVE or ENDED leg has it as its
destination, or a slug is destined for it (R20). -/
def State.binInUse (s : State) (n : BinIx) : Bool :=
  ((allIx 32).any fun r =>
    match s.tables.routes[r] with
    | some e => e.bin == n
    | none => false)
  || (s.anyWorking fun l => l.bin == some n)
  || s.anyGrain fun g => g.bin == n

/-- A bin deletion (R20). -/
def deleteBin (n : BinIx) (s : State) : Written :=
  if s.tables.bins[n].isNone then refused .noEffect s
  else if s.binInUse n then refused .inUse s
  else written (s.setBin n none)

/-! ### A write of any table (R1, R184) -/

/-- A write with contents, or its refusal RANGE. -/
def parsedWrite {α : Type} (x : Except Nat α) (write : α → State → Written) (s : State) : Written :=
  match x with
  | .ok v => write v s
  | .error position => refusedAt position s

/-- A write of an entry whose index is in range (R1): a DEFINE with its contents, or a DELETE. -/
def writeAt (t : Table) (index : Nat) (define : Bool) (ws : List Word) (s : State) : Written :=
  match t with
  | .station =>
    if h : index < 64 then
      let a : Addr := ⟨index, h⟩
      if define then parsedWrite (parseStation (s.addressTaken a) ws) (writeStation a) s
      else writeStation a none s
    else refusedAt 3 s
  | .route =>
    match ixOf 32 index with
    | some k => if define then parsedWrite (parseRoute ws) (writeRoute k) s else deleteRoute k s
    | none => refusedAt 3 s
  | .lot =>
    match ixOf 16 index with
    | some k => if define then parsedWrite (parseLot ws) (writeLot k) s else deleteLot k s
    | none => refusedAt 3 s
  | .hold =>
    match ixOf 18 index with
    | some k => if define then parsedWrite (parseHold ws) (writeHold k) s else deleteHold k s
    | none => refusedAt 3 s
  | .bin =>
    match ixOf 48 index with
    | some k => if define then parsedWrite (parseBin ws) (writeBin k) s else deleteBin k s
    | none => refusedAt 3 s

/-- A write of one table entry: its action and index, then as R1 gives (R184). -/
def writeEntry (t : Table) (index action : Nat) (ws : List Word) (s : State) : Written :=
  match action with
  | 1 => writeAt t index true ws s
  | 2 => writeAt t index false ws s
  | _ => refusedAt 2 s

end Sys2Proof.Machine
end

