-- ==== Sys2Proof/Machine/Reads.lean ====
section
/-!
DEFINITION. The data that replies return: the words of table entries, of the records beside them, of a
leg, of the STATUS sections and of the accounts (R2, R46, R101, R122, R138, R144, R158, R182), in the
coding of R161, and their division into parts (R183). Assumption 10 lists the layouts that R161 leaves to
inference. No reading changes the state.
-/

namespace Sys2Proof.Machine

/-! ### Parts (R183) -/

/-- The number of parts of a read: one for data that fit nine words (R183). -/
def partCount (data : List Word) : Nat := max 1 ((data.length + (Config.partWords - 1)) / Config.partWords)

/-- The words of one part of a read, counted from 1; none above the number of parts (R183). -/
def partOf (k : Nat) (data : List Word) : List Word :=
  (data.drop ((k - 1) * Config.partWords)).take Config.partWords

/-- The reply data of a read in parts: the number of parts, then the part (R183). -/
def inParts (k : Nat) (data : List Word) : List Word := word (partCount data) :: partOf k data

/-- A part number of a read in parts (R183). -/
def partNumberOf (w : Word) : Option Nat := within 1 Config.maxPart w.toNat

/-! ### Table entries, in the words of their DEFINE (R161, R2) -/

/-- The first two words of a station table entry's contents. -/
def StationEntry.headWords (e : StationEntry) : List Word :=
  [word2 e.kind.code e.kind.index, word2 e.ringCeiling e.silenceLimit]

/-- The words of an UNLOADER's working data (R4, R161). -/
def UnloaderData.words (d : UnloaderData) : List Word :=
  [word d.ratedCap, word d.basePower, word d.specificPower, word d.rampStep, word d.chokeThreshold,
    word d.releaseThreshold, word2 d.flowThreshold d.sweepPercent]

/-- The words of a BELT's data (R5, R161). -/
def BeltData.words (d : BeltData) : List Word :=
  [word d.length, word d.capacity, word d.purgeGap, word d.guardLength, d.outlet.word]

/-- The words of a DIVERTER's data: its four outlets, no outlet for a position not used (R6, R161). -/
def DiverterData.words (d : DiverterData) : List Word :=
  word2 d.outlets.length d.holdTimeout ::
    (List.range 4).map fun k =>
      match d.outlets[k]? with
      | some out => out.word
      | none => 0

/-- The words of a station kind's own data. -/
def StationKind.words : StationKind → List Word
  | .unloader _ d => d.words
  | .belt _ d => d.words
  | .diverter _ d => d.words
  | .supervisor => []
  | .panel => []

/-- The words of a station table entry; kind NONE is one word (R2, R3, R161). -/
def stationWords : Option StationEntry → List Word
  | none => [word2 1 0]
  | some e => e.headWords ++ e.kind.words

/-- The words of a route: its DEFINE, then the derived belt list and the user count (R2, R161). -/
def Route.words (e : Route) : List Word :=
  [word2 (num e.unloader) (num e.firstBelt), word2 e.settings.length (num e.bin)]
    ++ e.settings.map (fun x => word2 (num x.diverter) x.position.val)
    ++ beltListWords e.belts ++ [word e.users]

/-- The words of the permitted bins (R161). -/
def permittedWords (p : BitVec 48) : List Word :=
  [p.extractLsb' 0 16, p.extractLsb' 16 16, p.extractLsb' 32 16]

/-- The words of a lot: its DEFINE, then the number of blocks, the total and the unattributed amount
(R2, R161). -/
def Lot.words (l : Lot) : List Word :=
  word2 l.cargoClass l.group :: permittedWords l.permitted ++ [word l.chain.length]
    ++ kgWords l.total ++ kgWords l.unattributed

/-- The words of a hold: its DEFINE, then the phase and the discharged amount (R2, R161). -/
def Hold.words (h : Hold) : List Word :=
  [word2 h.vessel h.number, orZero num h.lot] ++ twoWords h.declared
    ++ [word h.threshold, word h.phase.code] ++ kgWords h.discharged

/-- The word of a bin's state (R161). -/
def binStateWord (isOpen : Bool) : Word := if isOpen then 1 else 2

/-- The words of a bin: its DEFINE, its state among them, then its lot and booked fill (R2, R161). -/
def Bin.words (b : Bin) : List Word :=
  twoWords b.capacity ++ twoWords b.margin ++ [binStateWord b.isOpen, orZero num b.lot]
    ++ kgWords b.fill

/-! ### The records beside a station table entry (R101, R122, R158) -/

/-- The word of a running indication (R76, R161). -/
def runningWord : Option Bool → Word
  | some b => boolWord b
  | none => absentWord

/-- The two words of a rear distance; the largest value while the slug is open (R101, R161). -/
def rearWords (r : BeltRecord) (y : Slug) : List Word :=
  match y.rear with
  | some m => twoWords (r.position - m).toNat
  | none => [absentWord, absentWord]

/-- The words of a slug (R101). -/
def slugWords (r : BeltRecord) (y : Slug) : List Word :=
  [orZero num (y.grain.map (·.lot)), orZero num (y.grain.map (·.route)), orZero num (y.grain.map (·.bin))]
    ++ twoWords (frontDistance r y) ++ rearWords r y
    ++ [word y.sources, word y.stage.code, y.handOver.word]

/-- The words of a belt record (R101). -/
def BeltRecord.words (r : BeltRecord) : List Word :=
  twoWords r.position.toNat
    ++ [r.lastTravel.getD absentWord, runningWord r.running, word r.condition.code]
    ++ r.queue.flatMap (slugWords r)

/-- The word of a reported position: 7 for UNKNOWN (R161). -/
def positionWord : Option PositionIx → Word
  | some p => word p.val
  | none => 7

/-- The seconds left before a hold timer expires (R122). -/
def HoldTimer.secondsLeft (t : HoldTimer) : Nat := (t.timeout - t.elapsed) / 1000

/-- The words of a pending divert: its position, requester and sequence (R122). -/
def pendingWords : Option Telegram → List Word
  | some t => [t.divertPosition, word t.source.val, word t.seq.toNat]
  | none => [absentWord, 0, absentWord]

/-- The words of a diverter record (R122). -/
def State.diverterWords (s : State) (d : DiverterIx) (r : DiverterRecord) : List Word :=
  [positionWord r.position, orZero num (s.servedBelt d), boolWord (s.headClear d)]
    ++ pendingWords r.pending ++ [orAbsent HoldTimer.secondsLeft r.holdTimer]

/-- The words of a filter: CLEAR 1 or SET 2, and whether one agreeing sample has been seen (R158). -/
def Filter.words (x : Filter) : List Word := [if x.isSet then 2 else 1, boolWord x.seen]

/-- The words of a watch record, without its filters (R158). -/
def WatchRecord.words (w : WatchRecord) : List Word :=
  [word w.state.code, orAbsent id w.timer, boolWord w.returnDue, orAbsent BitVec.toNat w.lastSeq,
    word w.duplicates]

/-- The words of a watch record for a kind of station: with the filters for an UNLOADER (R158). -/
def WatchRecord.wordsFor (w : WatchRecord) (k : StationKind) : List Word :=
  match k with
  | .unloader _ _ => w.words ++ w.choke.words ++ w.sweep.words
  | _ => w.words

/-- The words of what the owner of a station's kind keeps for it (R101, R122). -/
def State.ownerWords (s : State) (k : StationKind) : List Word :=
  match k with
  | .belt b _ =>
    match s.tracker.belts[b] with
    | some r => r.words
    | none => []
  | .diverter d _ =>
    match s.seg.diverters[d] with
    | some r => s.diverterWords d r
    | none => []
  | _ => []

/-- The words of the records beside a station table entry: its owner's, then station watch's. -/
def State.besideWords (s : State) (a : Addr) : List Word :=
  match s.tables.stations[a] with
  | none => []
  | some e =>
    s.ownerWords e.kind ++
      match s.watch[a] with
      | some w => w.wordsFor e.kind
      | none => []

/-- The data of a TABLE READ of a table at an index in range: none where the entry is undefined (R2). -/
def State.entryWords (s : State) (t : Table) (index : Nat) : Option (List Word) :=
  match t with
  | .station =>
    if h : index < 64 then
      let a : Addr := ⟨index, h⟩
      some (stationWords s.tables.stations[a] ++ s.besideWords a)
    else none
  | .route => (ixOf 32 index).bind fun k => s.tables.routes[k].map Route.words
  | .lot => (ixOf 16 index).bind fun k => s.tables.lots[k].map Lot.words
  | .hold => (ixOf 18 index).bind fun k => s.tables.holds[k].map Hold.words
  | .bin => (ixOf 48 index).bind fun k => s.tables.bins[k].map Bin.words

/-! ### LEG READ (R46) -/

/-- The user count of a leg's route while the route is defined (R46). -/
def State.legUsers (s : State) (l : Leg) : Option Nat := (s.legRoute l).map (·.users)

/-- Whether the station of an unloader index is SILENT (R46). -/
def State.unloaderSilent (s : State) (i : UnloaderIx) : Bool :=
  match s.unloaderStation i with
  | some (a, _) => s.silentAt a
  | none => false

/-- The data of a LEG READ (R46). -/
def State.legWords (s : State) (i : UnloaderIx) : List Word :=
  let l := s.legs[i]
  [word l.state.code, orZero num l.hold, orZero num l.route] ++ beltListWords l.belts
    ++ [orZero num l.lot, orZero num l.bin, word l.r, word l.g, word l.f, orAbsent id l.pendingFeed,
      orZero EndReason.code l.endReason, orZero GrantCondition.code l.condition,
      boolWord l.powerShort, boolWord l.noticeDisable, orAbsent id (s.legUsers l),
      boolWord (s.unloaderSilent i)]

/-! ### STATUS (R182) -/

/-- The sections of STATUS (R182). -/
inductive Section where
  | part
  | allocator
  | legs
  | belts
  | diverters
  | watch
  | ports
  | counters
  deriving DecidableEq, Repr

/-- The section that a word names (R161). -/
def sectionOf (w : Word) : Option Section :=
  match w.toNat with
  | 1 => some .part
  | 2 => some .allocator
  | 3 => some .legs
  | 4 => some .belts
  | 5 => some .diverters
  | 6 => some .watch
  | 7 => some .ports
  | 8 => some .counters
  | _ => none

/-- The unloader index for which the nonvolatile writer is writing. -/
def Writer.unloader : Writer → Option UnloaderIx
  | .idle => none
  | .calibration i _ _ _ _ => some i
  | .grandTotal i _ => some i

/-- The words of a commissioning write in progress, with the values being written (R182). -/
def writingWords : Option CommissionWrite → List Word
  | some w => [1, word w.addresses.own.val, word w.addresses.station.val]
  | none => [0, 0, 0]

/-- The words of the bulk cursor: its owner, table, next index and remaining count (R182). -/
def cursorWords : Option Cursor → List Word
  | some x => [word x.owner.val, word x.table.code, word x.next, word x.remaining]
  | none => [0, 0, absentWord, absentWord]

/-- Section PART. -/
def State.partWords (s : State) : List Word :=
  [word s.mgmt.inForce.own.val, word s.mgmt.inForce.station.val] ++ writingWords s.mgmt.writing
    ++ [boolWord s.writer.unloader.isSome, orZero num s.writer.unloader] ++ cursorWords s.mgmt.cursor
    ++ [word s.weighing.snapshotNumber.toNat]

/-- Section ALLOCATOR (R73). -/
def State.allocatorWords (s : State) : List Word :=
  [word s.alloc.budgetInUse, word s.alloc.budgetSet, word s.alloc.periodInUse, word s.alloc.periodSet]

/-- A leg in section LEGS: its state, and its grant condition while ACTIVE or its end reason while
ENDED. -/
def Leg.statusWords (l : Leg) : List Word :=
  [word l.state.code,
    match l.state with
    | .idle => 0
    | .active => orZero GrantCondition.code l.condition
    | .ended => orZero EndReason.code l.endReason]

/-- A belt index in section BELTS: whether a record exists, its condition, its number of slugs. -/
def beltStatusWords : Option BeltRecord → List Word
  | some r => [1, word r.condition.code, word r.queue.length]
  | none => [0, 0, absentWord]

/-- A diverter index in section DIVERTERS: whether a record exists, its position, whether a divert is
pending. -/
def diverterStatusWords : Option DiverterRecord → List Word
  | some r => [1, positionWord r.position, boolWord r.pending.isSome]
  | none => [0, absentWord, 0]

/-- Section WATCH: the address and the watch state of each watch record. -/
def State.watchWords (s : State) : List Word :=
  (allIx 64).flatMap fun a =>
    match s.watch[a] with
    | some w => [word a.val, word w.state.code]
    | none => []

/-- Section PORTS (R175). -/
def State.portWords (s : State) : List Word :=
  [word s.path.checkErrorsA, word s.path.dropsA, word s.path.egressA.length, word s.path.checkErrorsB,
    word s.path.dropsB, word s.path.forwardB.length, word s.path.guardB.length, word s.path.misuse,
    word s.path.originCount.toNat]

/-- Section COUNTERS, in the order of R198. -/
def State.counterWords (s : State) : List Word :=
  [word s.path.checkErrorsA, word s.path.checkErrorsB, word s.path.dropsA, word s.path.dropsB,
    word s.path.misuse]
    ++ ((allIx 64).flatMap fun a =>
      match s.watch[a] with
      | some w => [word w.duplicates]
      | none => [])
    ++ ((allIx 6).map fun i => word s.weighing.weighers[i].glitches) ++ [word s.seg.breachCount]

/-- The data of a STATUS section (R182). -/
def State.sectionWords (s : State) : Section → List Word
  | .part => s.partWords
  | .allocator => s.allocatorWords
  | .legs => (allIx 6).flatMap fun i => s.legs[i].statusWords
  | .belts => (allIx 8).flatMap fun b => beltStatusWords s.tracker.belts[b]
  | .diverters => (allIx 8).flatMap fun d => diverterStatusWords s.seg.diverters[d]
  | .watch => s.watchWords
  | .ports => s.portWords
  | .counters => s.counterWords

/-! ### READ ACCOUNTS (R144) -/

/-- The accounts that READ ACCOUNTS names. -/
inductive Account where
  | unassigned
  | grandTotal (unloader : UnloaderIx)
  | breach
  deriving DecidableEq, Repr

/-- The account that a selector and an unloader index name; the index is read for GRAND TOTAL only
(R144, R161). -/
def accountOf (selector unloader : Word) : Option Account :=
  match selector.toNat with
  | 1 => some .unassigned
  | 2 => (ixOf 6 unloader.toNat).map .grandTotal
  | 3 => some .breach
  | _ => none

/-- A calibration write for an unloader index is in progress (R144). -/
def Writer.calibrates (i : UnloaderIx) : Writer → Bool
  | .calibration j _ _ _ _ => j == i
  | _ => false

/-- The word of a calibration slot: its grams per pulse, or ERASED, which is the first of its values (R139,
R161). -/
def slotWord : Option Nat → Word
  | some grams => word grams
  | none => 1

/-- The data of the GRAND TOTAL account (R144). -/
def State.grandTotalWords (s : State) (i : UnloaderIx) : List Word :=
  twoWords (s.reportedTotal i) ++ twoWords s.nv.totals[i]
    ++ twoWords s.weighing.weighers[i].pendingTonnes ++ twoWords (s.batchOf i)
    ++ [word s.weighing.weighers[i].residue, orZero num (s.activeSlot i)]
    ++ ((allIx 4).map fun k => slotWord (s.nv.slots[i])[k])
    ++ [boolWord (s.writer.calibrates i), word s.weighing.weighers[i].glitches]

/-- The words of a breach record (R119). -/
def breachWords : Option Breach → List Word
  | some b => [word b.kind.code, word (num b.belt), orZero num b.diverter, orZero num b.bin,
      word (num b.slugLot), b.otherLot.word]
  | none => [0, 0, 0, 0, 0, absentWord]

/-- The data of an account (R144). -/
def State.accountWords (s : State) : Account → List Word
  | .unassigned => kgWords s.weighing.unassigned
  | .grandTotal i => s.grandTotalWords i
  | .breach => breachWords s.seg.breach ++ [word s.seg.breachCount]

/-! ### Snapshots (R137, R138) -/

/-- The reply data of SNAPSHOT LOT (R137). -/
def Snapshot.headWords (x : Snapshot) : List Word :=
  [word x.number.toNat, word (num x.lot), word x.lines.length] ++ kgWords x.total
    ++ kgWords x.unattributed

/-- The four words of a line in a READ SNAPSHOT reply (R138). -/
def Line.words (x : Line) : List Word :=
  word (x.vessel * 4096 + x.number * 256 + num x.bin) :: kgWords x.kg

/-- The reply data of READ SNAPSHOT part k: the lines numbered 2k - 1 and 2k (R138). -/
def Snapshot.partWords (x : Snapshot) (k : Nat) : List Word :=
  [word2 x.number.toNat (num x.lot), word x.lines.length]
    ++ ((x.lines.drop (2 * (k - 1))).take 2).flatMap Line.words

end Sys2Proof.Machine
end

