-- ==== Sys2Proof/Machine/LegRequests.lean ====
section
/-!
DEFINITION. Requests about legs and the allocator: LEG READ (R46), LEG START (R27 to R31, R65), LEG STOP
(R33), LEG CLEAR (R38) and SET ALLOCATOR (R53). Each is one step: its checks in the order of R181, its
effect, its reply (R178).
-/

namespace Sys2Proof.Machine

/-- A request with a known code is taken: refused at the ring or for a missing parameter, or else given
the checks and the effect of its own rule (R181). -/
def checked (q : Request) (needed : Nat) (layout : List Group) (act : State → State) (s : State) : State :=
  match refusal q needed layout s with
  | some (r, data) => reply q r data s
  | none => act s

/-! ### LEG READ -/

/-- LEG READ (R46). -/
def takeLegRead (q : Request) (s : State) : State :=
  checked q 3 [oneField, oneField] (fun s =>
    match ixOf 6 (q.at 0).toNat, partNumberOf (q.at 1) with
    | some i, some k => reply q .done (inParts k (s.legWords i)) s
    | _, _ => reply q .range [] s) s

/-! ### LEG START -/

/-- The parameters of a LEG START within range (R27). -/
structure StartOrder where
  leg           : UnloaderIx
  hold          : HoldIx
  route         : RouteIx
  noticeDisable : Bool
  deriving DecidableEq, Repr

/-- The parameters of a LEG START, or the position of the first out of range (R27). -/
def parseStart (q : Request) : Except Nat StartOrder := do
  let i ← need 1 (ixOf 6 (q.at 0).toNat)
  let h ← need 2 (ixOf 18 (q.at 1).toNat)
  let k ← need 3 (ixOf 32 (q.at 2).toNat)
  let d ← need 4 (yesNo (q.at 3))
  return ⟨i, h, k, d⟩

/-- The record of a leg that starts, before its grant condition is evaluated (R31). -/
def Leg.started (l : Leg) (x : StartOrder) (e : Route) (lot : LotIx) : Leg where
  state := .active
  hold := some x.hold
  route := some x.route
  belts := e.belts
  lot := some lot
  bin := some e.bin
  r := l.pendingFeed.getD 0
  g := 0
  f := 0
  pendingFeed := none
  endReason := none
  condition := none
  powerShort := false
  noticeDisable := x.noticeDisable

/-- The filters of the station of an unloader index become CLEAR (R157). -/
def clearFiltersOf (i : UnloaderIx) (s : State) : State :=
  match s.unloaderStation i with
  | none => s
  | some (a, _) => s.setWatch a (s.watch[a].map WatchRecord.clearFilters)

/-- What an accepted LEG START does before its reply (R31, R65): the record, the user count, the account
line, the filters, the grant condition, the power recheck. The condition reads the filters as the start
has cleared them (assumption 15). -/
def startLeg (x : StartOrder) (h : Hold) (lot : LotIx) (e : Route) (s : State) : State :=
  let s1 := occupyRoute x.route (s.setLeg x.leg (s.legs[x.leg].started x e lot))
  let s2 := (ensureLine lot h.vessel h.number e.bin s1).1
  powerRecheck (evaluateLeg x.leg (clearFiltersOf x.leg s2))

/-- The reply data of an accepted LEG START (R31). -/
def startWords (l : Leg) : List Word :=
  [orZero num l.lot, orZero num l.bin, word l.r, orZero GrantCondition.code l.condition]

/-- A LEG START within range (R28 to R31). The lookups that follow the checks find what the checks have
found (assumption 19). -/
def legStartInRange (q : Request) (x : StartOrder) (s : State) : State :=
  match s.legStartRefusal x.leg x.hold x.route with
  | some r => reply q r [] s
  | none =>
    match s.tables.holds[x.hold], s.tables.routes[x.route] with
    | some h, some e =>
      match h.lot with
      | some lot =>
        let t := startLeg x h lot e s
        reply q .done (startWords t.legs[x.leg]) t
      | none => reply q .notFound [] s
    | _, _ => reply q .notFound [] s

/-- LEG START (R27 to R31). -/
def takeLegStart (q : Request) (s : State) : State :=
  checked q 1 [oneField, oneField, oneField, oneField] (fun s =>
    match parseStart q with
    | .error position => reply q .range [word position] s
    | .ok x => legStartInRange q x s) s

/-! ### LEG STOP -/

/-- The reasons of a LEG STOP (R33, R161). -/
def stopReasonOf (w : Word) : Option EndReason :=
  match w.toNat with
  | 1 => some .ordered
  | 2 => some .holdEmpty
  | _ => none

/-- The hold of a leg goes to EMPTY (R18, R33). -/
def emptyHold (l : Leg) (s : State) : State :=
  match l.hold with
  | none => s
  | some n =>
    match s.tables.holds[n] with
    | some h => s.setHold n (some { h with phase := .empty })
    | none => s

/-- A LEG STOP of an ACTIVE leg, before its reply (R33). -/
def stopLeg (i : UnloaderIx) (reason : EndReason) (s : State) : State :=
  endLeg i reason (if reason = .holdEmpty then emptyHold s.legs[i] s else s)

/-- LEG STOP (R33). -/
def takeLegStop (q : Request) (s : State) : State :=
  checked q 1 [oneField, oneField] (fun s =>
    match ixOf 6 (q.at 0).toNat, stopReasonOf (q.at 1) with
    | some i, some reason =>
      if s.legs[i].state = .active then reply q .done [] (stopLeg i reason s)
      else reply q .noEffect [] s
    | _, _ => reply q .range [] s) s

/-! ### LEG CLEAR -/

/-- An ENDED leg's record after LEG CLEAR (R38). -/
def Leg.cleared (l : Leg) : Leg :=
  { l with
    state := .idle, endReason := none, hold := none, route := none, belts := [], lot := none, bin := none
    r := 0, g := 0, f := 0, pendingFeed := none, noticeDisable := false }

/-- LEG CLEAR (R38). -/
def takeLegClear (q : Request) (s : State) : State :=
  checked q 1 [oneField] (fun s =>
    match ixOf 6 (q.at 0).toNat with
    | none => reply q .range [] s
    | some i =>
      match s.legs[i].state with
      | .ended => reply q .done [] (s.setLeg i s.legs[i].cleared)
      | .idle => reply q .done [] (s.setLeg i { s.legs[i] with pendingFeed := none })
      | .active => reply q .busy [] s) s

/-! ### SET ALLOCATOR -/

/-- The budget of a SET ALLOCATOR as read (R53). -/
def budgetRead (w : Word) : Nat := min w.toNat Config.maxBudget

/-- The state after an accepted SET ALLOCATOR (R53). -/
def setAllocator (budget period : Nat) (s : State) : State :=
  { s with alloc := { s.alloc with budgetSet := budget, periodSet := period } }

/-- The reply data of SET ALLOCATOR (R53). -/
def allocatorReply (x : Allocator) : List Word :=
  [word x.budgetSet, word x.periodSet, word x.budgetInUse, word x.periodInUse]

/-- SET ALLOCATOR (R53). -/
def takeSetAllocator (q : Request) (s : State) : State :=
  checked q 1 [oneField, oneField] (fun s =>
    if (q.at 1).toNat ∈ Config.periods then
      let t := setAllocator (budgetRead (q.at 0)) (q.at 1).toNat s
      reply q .done (allocatorReply t.alloc) t
    else reply q .range [] s) s

end Sys2Proof.Machine
end

