-- ==== Sys2Proof/Machine/TableRequests.lean ====
section
/-!
DEFINITION. Requests about the quay tables: TABLE READ (R2), TABLE WRITE (R1, R184), BIN RESET (R22), and
the bulk cursor with BULK OPEN, BULK DATA and its idle expiry (R185 to R188).
-/

namespace Sys2Proof.Machine

/-! ### TABLE READ and TABLE WRITE -/

/-- An index lies in the range of a table. -/
def Table.holds (t : Table) (index : Nat) : Bool := t.first ≤ index && index ≤ t.last

/-- TABLE READ; RANGE comes before NOT_FOUND (R2; assumption 12). -/
def takeTableRead (q : Request) (s : State) : State :=
  checked q 3 [tableWordGroup, oneField] (fun s =>
    match tableOf (selectorOf (q.at 0)), partNumberOf (q.at 1) with
    | some t, some k =>
      if t.holds (indexOf (q.at 0)) then
        match s.entryWords t (indexOf (q.at 0)) with
        | some data => reply q .done (inParts k data) s
        | none => reply q .notFound [] s
      else reply q .range [] s
    | _, _ => reply q .range [] s) s

/-- The table that a TABLE WRITE names. -/
def Request.table (q : Request) : Option Table := tableOf (selectorOf (q.at 0))

/-- The ring that a write of a table needs: 1 where no table is named (R181), and so where the payload ends before
the table selector (assumption 33). -/
def ringOf (t : Option Table) : Nat :=
  match t with
  | some x => x.ring
  | none => 1

/-- The words of the contents of a write: those after the table word (R161). -/
def Request.contents (q : Request) : List Word := q.params.drop 1

/-- TABLE WRITE (R1, R184). -/
def takeTableWrite (q : Request) (s : State) : State :=
  checked q (ringOf q.table) (writeLayout q.table q.params) (fun s =>
    match q.table with
    | none => reply q .range [word 1] s
    | some t =>
      let w := writeEntry t (indexOf (q.at 0)) (actionOf (q.at 0)) q.contents s
      reply q w.result w.data w.state) s

/-! ### BIN RESET -/

/-- BIN RESET (R22). -/
def takeBinReset (q : Request) (s : State) : State :=
  checked q 1 [oneField] (fun s =>
    match ixOf 48 (q.at 0).toNat with
    | none => reply q .range [] s
    | some n =>
      match s.tables.bins[n] with
      | none => reply q .notFound [] s
      | some b =>
        if s.binBusy n then reply q .inUse [] s
        else reply q .done [] (s.setBin n (some { b with lot := none, fill := 0 }))) s

/-! ### The bulk cursor -/

/-- The state with the bulk cursor changed. -/
def State.setCursor (s : State) (x : Option Cursor) : State :=
  { s with mgmt := { s.mgmt with cursor := x } }

/-- A run of indices lies within a table (R187). -/
def Table.holdsRun (t : Table) (first count : Nat) : Bool :=
  t.holds first && (1 ≤ count && count ≤ 64) && first + count - 1 ≤ t.last

/-- The previous owner that BULK OPEN names: that of an open cursor of another station, or 0 (R187). -/
def previousOwner (x : Option Cursor) (requester : Addr) : Word :=
  match x with
  | some c => if c.owner = requester then 0 else word c.owner.val
  | none => 0

/-- The table that a BULK OPEN names: its selector has a word of its own (R161). -/
def Request.openTable (q : Request) : Option Table := tableOf (q.at 0).toNat

/-- BULK OPEN (R187). A refused one leaves the whole cursor as it was, its idle timer included (assumption 31). -/
def takeBulkOpen (q : Request) (s : State) : State :=
  checked q (ringOf q.openTable) [oneField, oneField, oneField] (fun s =>
    match q.openTable with
    | none => reply q .range [] s
    | some t =>
      if t.holdsRun (q.at 1).toNat (q.at 2).toNat then
        reply q .done [word t.code, q.at 1, q.at 2, previousOwner s.mgmt.cursor q.source]
          (s.setCursor (some ⟨q.source, t, (q.at 1).toNat, (q.at 2).toNat, 0⟩))
      else reply q .range [] s) s

/-- The cursor after one entry has been accepted (R188). -/
def Cursor.advanced (x : Cursor) : Cursor := { x with next := x.next + 1, remaining := x.remaining - 1 }

/-- The next index and the remaining count, as reply data (R188). -/
def Cursor.words (x : Cursor) : List Word := [word x.next, word x.remaining]

/-- Whether a result accepts an entry (R188). -/
def Result.accepts : Result → Bool
  | .done => true
  | .noEffect => true
  | _ => false

/-- The entry of a BULK DATA at the next index (R188, step 4): written, and the cursor moved on; or
refused as TABLE WRITE refuses it. -/
def bulkEntry (q : Request) (x : Cursor) (s : State) : State :=
  let w := writeEntry x.table (indexOf (q.at 0)) (actionOf (q.at 0)) q.contents s
  if w.result.accepts then
    reply q w.result (x.advanced.words ++ w.data) (w.state.setCursor (some x.advanced))
  else reply q w.result w.data w.state

/-- A BULK DATA that has passed the ownership check: the idle timer starts again, then the checks of the
run and the position are made (R185, R188). -/
def bulkStep (q : Request) (x : Cursor) (s : State) : State :=
  let fresh := { x with idle := 0 }
  let t := s.setCursor (some fresh)
  if x.remaining = 0 ∨ indexOf (q.at 0) ≠ x.next then reply q .cursorAt fresh.words t
  else bulkEntry q fresh t

/-- The table of the open cursor. -/
def State.cursorTable (s : State) : Option Table := s.mgmt.cursor.map (·.table)

/-- BULK DATA (R188). With a closed cursor it needs its table word alone (assumption 34). -/
def takeBulkData (q : Request) (s : State) : State :=
  checked q (ringOf s.cursorTable) (writeLayout s.cursorTable q.params) (fun s =>
    match s.mgmt.cursor with
    | none => reply q .noCursor [] s
    | some x => if x.owner = q.source then bulkStep q x s else reply q .noCursor [] s) s

/-- An open cursor closes for its idle timer (R186). -/
def closeCursor (s : State) : State :=
  match s.mgmt.cursor with
  | none => s
  | some x =>
    if 0 < x.remaining then raiseFlag .cursorExpired x.owner.val x.remaining false (s.setCursor none)
    else s.setCursor none

/-- The idle timer of the cursor expires, where it has reached 30 s (R186). -/
def cursorExpires (s : State) : State := whenOut s.cursorOut closeCursor s

end Sys2Proof.Machine
end

