-- ==== Sys2Proof/Machine/AccountRequests.lean ====
section
/-!
DEFINITION. Requests about weighing and accounts: READ ACCOUNTS (R144), SNAPSHOT LOT (R137), READ SNAPSHOT
(R138) and CALIBRATE (R140).
-/

namespace Sys2Proof.Machine

/-- READ ACCOUNTS (R144). The unloader index has to be there for every selector, though it is read for GRAND TOTAL
only (assumption 32). -/
def takeReadAccounts (q : Request) (s : State) : State :=
  checked q 3 [oneField, oneField, oneField] (fun s =>
    match accountOf (q.at 0) (q.at 1), partNumberOf (q.at 2) with
    | some x, some k => reply q .done (inParts k (s.accountWords x)) s
    | _, _ => reply q .range [] s) s

/-- The reply data of the snapshot that has just been taken (R137). -/
def snapshotHead (s : State) : List Word :=
  match s.weighing.snapshot with
  | some x => x.headWords
  | none => []

/-- SNAPSHOT LOT (R137). -/
def takeSnapshotLot (q : Request) (s : State) : State :=
  checked q 3 [oneField] (fun s =>
    match ixOf 16 (q.at 0).toNat with
    | none => reply q .range [] s
    | some i =>
      match s.tables.lots[i] with
      | none => reply q .notFound [] s
      | some l => reply q .done (snapshotHead (takeSnapshot i l s)) (takeSnapshot i l s)) s

/-- READ SNAPSHOT (R138). -/
def takeReadSnapshot (q : Request) (s : State) : State :=
  checked q 3 [oneField] (fun s =>
    match within 1 48 (q.at 0).toNat with
    | none => reply q .range [] s
    | some k =>
      match s.weighing.snapshot with
      | none => reply q .notFound [] s
      | some x => reply q .done (x.partWords k) s) s

/-- CALIBRATE: an accepted one starts the write and sends no reply (R140). -/
def takeCalibrate (q : Request) (s : State) : State :=
  checked q 0 [oneField, oneField] (fun s =>
    match ixOf 6 (q.at 0).toNat, within 100 60000 (q.at 1).toNat with
    | some i, some value =>
      if s.legs[i].state = .active then reply q .busy [] s
      else if s.writer ≠ .idle then reply q .busy [] s
      else
        match s.erasedSlot i with
        | none => reply q .exhausted [] s
        | some k => { s with writer := .calibration i k value q.source q.port }
    | _, _ => reply q .range [] s) s

end Sys2Proof.Machine
end

