-- ==== Sys2Proof/Machine/PartRequests.lean ====
section
/-!
DEFINITION. Requests about the whole part: STATUS (R182), FLAGS READ and FLAGS CLEAR (R196), NOTICE MASK
(R197), COMMISSION and its completion (R190, R191), RESTART (R192, R193 and the rules they name), and a
request without a known code (R179).
-/

namespace Sys2Proof.Machine

/-! ### STATUS, flags and mask -/

/-- STATUS (R182). -/
def takeStatus (q : Request) (s : State) : State :=
  checked q 3 [oneField, oneField] (fun s =>
    match sectionOf (q.at 0), partNumberOf (q.at 1) with
    | some x, some k => reply q .done (inParts k (s.sectionWords x)) s
    | _, _ => reply q .range [] s) s

/-- The word of the notice mask: a set of causes (R161). -/
def maskWord (m : BitVec 10) : Word := m.setWidth 16

/-- FLAGS READ (R196). -/
def takeFlagsRead (q : Request) (s : State) : State :=
  checked q 3 [] (fun s =>
    reply q .done (s.notices.flags.words ++ [maskWord s.notices.mask]) s) s

/-- Every counter of R198 becomes 0 (R196, R199). -/
def clearCounters (s : State) : State :=
  { s with
    path := { s.path with checkErrorsA := 0, checkErrorsB := 0, dropsA := 0, dropsB := 0, misuse := 0 }
    watch := s.watch.map fun x => x.map fun w => { w with duplicates := 0 }
    weighing := { s.weighing with weighers := s.weighing.weighers.map fun x => { x with glitches := 0 } }
    seg := { s.seg with breachCount := 0 } }

/-- The set of legs of a FLAGS CLEAR is read only when LEG_ENDED is named (R196). -/
def clearInRange (causes legs : Word) : Bool :=
  causesInRange causes && (!causesName causes .legEnded || legsInRange legs)

/-- The effect of an accepted FLAGS CLEAR (R196). -/
def clearFlags (causes legs : Word) (counters : Bool) (s : State) : State :=
  let t := { s with notices := { s.notices with flags := s.notices.flags.clearNamed causes legs } }
  if counters then clearCounters t else t

/-- FLAGS CLEAR (R196). The set of legs has to be there whether LEG_ENDED is named or not (assumption 32). -/
def takeFlagsClear (q : Request) (s : State) : State :=
  checked q 1 [oneField, oneField, oneField] (fun s =>
    match yesNo (q.at 2) with
    | none => reply q .range [] s
    | some counters =>
      if clearInRange (q.at 0) (q.at 1) then
        let t := clearFlags (q.at 0) (q.at 1) counters s
        reply q .done t.notices.flags.words t
      else reply q .range [] s) s

/-- NOTICE MASK (R197). -/
def takeNoticeMask (q : Request) (s : State) : State :=
  checked q 1 [oneField] (fun s =>
    if causesInRange (q.at 0) then
      reply q .done [q.at 0] { s with notices := { s.notices with mask := (q.at 0).setWidth 10 } }
    else reply q .range [] s) s

/-! ### COMMISSION (R190, R191) -/

/-- An address 1 to 62 (R189). -/
def stationAddress (w : Word) : Option Addr :=
  if h : 1 ≤ w.toNat ∧ w.toNat ≤ 62 then some ⟨w.toNat, by omega⟩ else none

/-- The two addresses of a COMMISSION, where they are in range and differ (R190, check 1). -/
def addressesOf (own station : Word) : Option Addresses :=
  match stationAddress own, stationAddress station with
  | some a, some b => if a = b then none else some ⟨a, b⟩
  | _, _ => none

/-- COMMISSION: an accepted one starts the write and sends no reply (R190). -/
def takeCommission (q : Request) (s : State) : State :=
  checked q 0 [oneField, oneField] (fun s =>
    match addressesOf (q.at 0) (q.at 1) with
    | none => reply q .range [] s
    | some x =>
      if s.tables.stations[x.own].isSome then reply q .inUse [] s
      else if s.mgmt.writing.isSome then reply q .busy [] s
      else { s with mgmt := { s.mgmt with writing := some ⟨x, q.source, q.port⟩ } }) s

/-- A commissioning write completes: the record takes both addresses and the reply is queued; they come
into force when it leaves its queue for good (R191). -/
def completeCommission (s : State) : State :=
  match s.mgmt.writing with
  | none => s
  | some w =>
    joinPort w.port
      (.own w.requester .reply
        [19, word Result.done.code, word w.addresses.own.val, word w.addresses.station.val]
        (some w.addresses))
      { s with
        nv := { s.nv with record := w.addresses }
        mgmt := { s.mgmt with writing := none } }

/-! ### RESTART (R192) -/

/-- Waiting telegrams are discarded: the COMMISSION replies among them bring their addresses into force
(R177, R191). -/
def discardAll (l : List Queued) (s : State) : State := l.foldl (fun t q => t.takeForce q.takesForce) s

/-- The emptying of the egress and the forward queue (R177, steps 1 and 2). -/
def emptyQueues (s : State) : State :=
  let t := discardAll s.path.forwardB (discardAll s.path.egressA s)
  { t with path := { t.path with egressA := [], forwardB := [] } }

/-- A telegram to be forwarded besides, when there is one. -/
def forwardCopy (port : Port) (copy : Option Telegram) (s : State) : State :=
  match copy with
  | some t => forward port t s
  | none => s

/-- The setpoint of a guard order becomes 0. -/
def Guard.zeroed (x : Guard) : Guard := { x with setpoint := 0 }

/-- Every guard order that waits carries 0, in its place (R177, step 3). -/
def zeroGuards (s : State) : State :=
  { s with path := { s.path with guardB := s.path.guardB.map Guard.zeroed } }

/-- A guard FEED of 0 for every leg whose forwarded feed is above 0, in leg number order (R49, step 1). An
order that waits for a leg whose forwarded feed is 0 carries 0 as well, as every order that waits after a
RESTART does (R177, step 3): the FEED of 0 that was to follow it has been discarded. -/
def guardZeros (s : State) : State :=
  zeroGuards ((allIx 6).foldl (fun t i => if 0 < s.legs[i].f then handGuard i 0 t else t) s)

/-- Every leg takes its power-on values and every user count becomes 0 (R49, steps 2 and 3). -/
def legsAtRest (s : State) : State :=
  { s with
    legs := Vector.replicate 6 Leg.atRest
    tables := { s.tables with routes := s.tables.routes.map fun x => x.map fun e => { e with users := 0 } } }

/-- Each pending divert is answered CANCELLED, in diverter index order (R124, step 1). -/
def cancelDiverts (s : State) : State :=
  (allIx 8).foldl (fun t d =>
    match s.seg.diverters[d].bind (·.pending) with
    | some x => answerDivert x .cancelled t
    | none => t) s

/-- RESTART acts on the diverter and segregation block, once the answers are queued (R124). -/
def restartSegregation (s : State) : State :=
  { s with seg :=
    { diverters := s.seg.diverters.map fun x => x.map fun _ => ⟨none, none, none⟩
      breach := none
      breachCount := 0 } }

/-- RESTART acts on every block, after the telegrams of its path have been placed (R192). -/
def restartBlocks (s : State) : State :=
  let t := restartWatch (restartWeighing (restartTracker (restartSegregation (legsAtRest s))))
  let u := (clearCounters t).setCursor none
  { u with notices := { u.notices with flags := Flags.allClear } }

/-- The effect of RESTART, its reply the first (R177, R192). -/
def restartPart (q : Request) (copy : Option Telegram) (s : State) : State :=
  restartBlocks (cancelDiverts (guardZeros (forwardCopy q.port copy
    (reply q .done [] (emptyQueues s)))))

/-- RESTART, with the copy of a broadcast one that is forwarded (R192, R193). A refused one is forwarded
after its reply. -/
def takeRestart (q : Request) (copy : Option Telegram) (s : State) : State :=
  match refusal q 0 [] s with
  | some (r, data) => forwardCopy q.port copy (reply q r data s)
  | none => restartPart q copy s

/-! ### A request without a known code (R179) -/

/-- A request whose code names none of the twenty, or that has none (R179). -/
def takeUnknown (q : Request) (s : State) : State := reply q .unknownRequest [] s

end Sys2Proof.Machine
end

