-- ==== Sys2Proof/Machine/Path.lean ====
section
/-!
DEFINITION. The telegram path: what is discarded on arrival (R163, R164), the handling of each kind of
telegram (R165 to R167), and transmission (R173).
-/

namespace Sys2Proof.Machine

/-! ### Arrival (R163, R164) -/

/-- A telegram is a misuse of the own address (R164). -/
def State.misused (s : State) (t : Telegram) : Bool :=
  t.source == s.mgmt.inForce.own || (t.dest == s.mgmt.inForce.own && t.kind != .request)

/-- A telegram arrives on a port: discarded and counted when a field is out of range or when it misuses the
own address, or else handled (R163, R164). -/
def arrive (port : Port) (t : Telegram) (handle : State → State) (s : State) : State :=
  if !t.inRange then countCheckError port s
  else if s.misused t then countMisuse s
  else handle s

/-! ### Samples (R165, R166) -/

/-- The words that a SAMPLE from an address needs: none where the address has no entry (R166). -/
def State.wordsNeededFrom (s : State) (a : Addr) : Nat :=
  match s.tables.stations[a] with
  | some e => e.kind.wordsNeeded
  | none => 0

/-- A SAMPLE from an address is handed to station watch, which takes it when the address holds a watch
record (R147, R165). -/
def handSample (t : Telegram) (s : State) : State :=
  match s.tables.stations[t.source] with
  | some e => takeSample t.source e t s
  | none => s

/-- A SAMPLE is handled: too short, it is counted; otherwise one from port B is applied; then it is forwarded
as it came (R165, R166; assumption 16). -/
def handleSample (port : Port) (t : Telegram) (s : State) : State :=
  forward port t
    (if t.payload.length < s.wordsNeededFrom t.source then countCheckError port s
    else
      match port with
      | .a => s
      | .b => handSample t s)

/-! ### Orders (R165 to R167) -/

/-- A FEED order for one station (R37, R68). -/
def handleFeed (t : Telegram) (s : State) : State :=
  match s.tables.stations[t.dest].bind StationEntry.unloader? with
  | some (i, _) => takeFeed t i s
  | none => feedNoLeg t s

/-- A DIVERT order for one station (R108, R165). -/
def handleDivert (t : Telegram) (s : State) : State :=
  match s.tables.stations[t.dest].bind StationEntry.diverter? with
  | some (d, e) => takeDivert t d e s
  | none => forward .a t s

/-- A FEED or DIVERT order that is long enough (R165, R167). -/
def handleGoverned (t : Telegram) (subkind : Word) (s : State) : State :=
  if subkind = feedWord then
    if t.dest = broadcast then answer t feedWord .noLeg (word t.setpointRead) s else handleFeed t s
  else
    if t.dest = broadcast then answer t divertWord .routeInUse t.divertPosition s else handleDivert t s

/-- An ORDER that arrives on port A is handled (R165, R166). -/
def handleOrderA (t : Telegram) (s : State) : State :=
  match t.payload with
  | [] => forward .a t s
  | subkind :: rest =>
    if subkind = feedWord ∨ subkind = divertWord then
      if rest = [] then countCheckError .a s else handleGoverned t subkind s
    else forward .a t s

/-- An ORDER is handled (R165). -/
def handleOrder (port : Port) (t : Telegram) (s : State) : State :=
  match port with
  | .a => handleOrderA t s
  | .b => forward .b t s

/-! ### Requests (R165, R178) -/

/-- How management serves a request, with the copy to forward when it was broadcast. -/
abbrev Service := Request → Option Telegram → State → State

/-- A request that is served and then forwarded when it was broadcast (R165; assumption 8). -/
def served (f : Request → State → State) : Service :=
  fun q copy s => forwardCopy q.port copy (f q s)

/-- A request as management takes it (R178, R179). -/
def requestOf (port : Port) (t : Telegram) : Request :=
  ⟨port, t.source, t.payload.headD 0, t.payload.drop 1⟩

/-- A REQUEST is handled: one for the part is served, one for every station is served and forwarded, any
other is forwarded (R165). -/
def handleRequest (serve : Service) (port : Port) (t : Telegram) (s : State) : State :=
  if t.dest = s.mgmt.inForce.own then serve (requestOf port t) none s
  else if t.dest = broadcast then serve (requestOf port t) (some t) s
  else forward port t s

/-- The service of a request by its code (R179). -/
def serveByCode : Service := fun q =>
  match q.code.toNat with
  | 1 => served takeStatus q
  | 2 => served takeTableRead q
  | 3 => served takeTableWrite q
  | 4 => served takeLegRead q
  | 5 => served takeLegStart q
  | 6 => served takeLegStop q
  | 7 => served takeLegClear q
  | 8 => served takeSetAllocator q
  | 9 => served takeBinReset q
  | 10 => served takeReadAccounts q
  | 11 => served takeSnapshotLot q
  | 12 => served takeReadSnapshot q
  | 13 => served takeCalibrate q
  | 14 => served takeFlagsRead q
  | 15 => served takeFlagsClear q
  | 16 => served takeNoticeMask q
  | 17 => served takeBulkOpen q
  | 18 => served takeBulkData q
  | 19 => served takeCommission q
  | 20 => takeRestart q
  | _ => served takeUnknown q

/-! ### Classification (R165) -/

/-- A telegram that has passed reception and is no misuse is handled by its kind and port (R165). -/
def classify (port : Port) (t : Telegram) (s : State) : State :=
  match t.kind with
  | .sample => handleSample port t s
  | .order => handleOrder port t s
  | .request => handleRequest serveByCode port t s
  | .answer => forward port t s
  | .reply => forward port t s
  | .notice => forward port t s

/-- A run of octets is received at a port (R163). -/
def receiveOctets (port : Port) (os : List Octet) (s : State) : State :=
  match received os with
  | some t => arrive port t (classify port t) s
  | none => countCheckError port s

/-- A REQUEST of a code arrives, whose words after the code are a message's. -/
def requestArrives (port : Port) (m : Message) (code : Nat) (serve : Service) (s : State) : State :=
  arrive port (messageTelegram m .request [word code])
    (handleRequest serve port (messageTelegram m .request [word code])) s

/-! ### Transmission (R169, R173) -/

/-- The origin count after a waiting telegram has begun (R169). -/
def Path.countAfter (p : Path) (q : Queued) : Octet :=
  if q.takesNumber then p.originCount + 1 else p.originCount

/-- What a waiting telegram becomes when its transmission begins now (R169, R189). -/
def State.sendingOf (s : State) (q : Queued) : Sending := q.begin s.mgmt.inForce.own s.path.originCount

/-- The port A transmitter, when it is idle, begins with the head of the egress queue (R173). -/
def beginA (s : State) : State :=
  match s.path.sendingA, s.path.egressA with
  | none, q :: rest =>
    { s with path := { s.path with
        egressA := rest, sendingA := some (s.sendingOf q), originCount := s.path.countAfter q } }
  | _, _ => s

/-- The port B transmitter, when it is idle, begins with the head of the guard queue, or else with that of
the forward queue (R173). -/
def beginB (s : State) : State :=
  match s.path.sendingB, s.path.guardB, s.path.forwardB with
  | none, x :: rest, _ =>
    { s with path := { s.path with
        guardB := rest, sendingB := some (s.sendingOf x.queued), originCount := s.path.countAfter x.queued } }
  | none, [], q :: rest =>
    { s with path := { s.path with
        forwardB := rest, sendingB := some (s.sendingOf q), originCount := s.path.countAfter q } }
  | _, _, _ => s

/-- The transmitter of a port begins a transmission (R173). -/
def beginSending (port : Port) (s : State) : State :=
  match port with
  | .a => beginA s
  | .b => beginB s

/-- The port A transmitter becomes idle. -/
def State.idleA (s : State) : State := { s with path := { s.path with sendingA := none } }

/-- The port B transmitter becomes idle. -/
def State.idleB (s : State) : State := { s with path := { s.path with sendingB := none } }

/-- A transmission of a port ends: the addresses of a COMMISSION reply come into force, and the next
transmission begins at once (R173, R191; assumption 7). -/
def endSending (port : Port) (s : State) : State :=
  match port with
  | .a =>
    match s.path.sendingA with
    | some x => beginA (s.idleA.takeForce x.takesForce)
    | none => s
  | .b =>
    match s.path.sendingB with
    | some x => beginB (s.idleB.takeForce x.takesForce)
    | none => s

/-! ### The supply -/

/-- A part without its supply takes nothing (assumption 3). -/
def whenOn (act : State → State) (s : State) : State :=
  match s.power with
  | .on => act s
  | .off => s

end Sys2Proof.Machine
end

