-- ==== Sys2Proof/Machine/Arrivals.lean ====
section
/-!
DEFINITION. The meanings of the commands by which a telegram arrives, REQUESTs aside: any run of octets,
the three kinds of SAMPLE, and the two governed kinds of ORDER.
-/

namespace Sys2Proof.Machine

/-- RECEIVE_TELEGRAM (R163 to R165). -/
def execReceiveTelegram (port : Port) (octets : List Octet) (s : State) :
    Host.Outcome State Fault Refusal :=
  .next (whenOn (receiveOctets port octets) s)

/-- UNLOADER_SAMPLE, on port B (R148). -/
def execUnloaderSample (m : Message) (s : State) : Host.Outcome State Fault Refusal :=
  .next (whenOn (arrive .b (messageTelegram m .sample [])
    (handleSample .b (messageTelegram m .sample []))) s)

/-- BELT_SAMPLE, on port B (R77, R148). -/
def execBeltSample (m : Message) (s : State) : Host.Outcome State Fault Refusal :=
  .next (whenOn (arrive .b (messageTelegram m .sample [])
    (handleSample .b (messageTelegram m .sample []))) s)

/-- DIVERTER_SAMPLE, on port B (R106, R148). -/
def execDiverterSample (m : Message) (s : State) : Host.Outcome State Fault Refusal :=
  .next (whenOn (arrive .b (messageTelegram m .sample [])
    (handleSample .b (messageTelegram m .sample []))) s)

/-- FEED_ORDER, on port A (R37, R68). -/
def execFeedOrder (m : Message) (s : State) : Host.Outcome State Fault Refusal :=
  .next (whenOn (arrive .a (messageTelegram m .order [feedWord])
    (handleOrderA (messageTelegram m .order [feedWord]))) s)

/-- DIVERT_ORDER, on port A (R108). -/
def execDivertOrder (m : Message) (s : State) : Host.Outcome State Fault Refusal :=
  .next (whenOn (arrive .a (messageTelegram m .order [divertWord])
    (handleOrderA (messageTelegram m .order [divertWord]))) s)

end Sys2Proof.Machine
end

