-- ==== Sys2Proof/Machine/Events.lean ====
section
/-!
DEFINITION. The meanings of the commands that are no arrival: the supply, the expiries of timers, the
nonvolatile writes, and transmission.
-/

namespace Sys2Proof.Machine

/-! ### The supply -/

/-- POWER_ON: every volatile piece of state takes its power-on value, the nonvolatile records are kept
(R23, R48, R74, R102, R123, R145, R159, R176, R185, R189, R199; assumption 3). -/
def execPowerOn (s : State) : Host.Outcome State Fault Refusal :=
  .next (State.volatileReset .on s.nv s.freeUsed s.pending)

/-- POWER_LOSS: what is volatile is lost, a write in progress with it (R141, R143, R190; assumption 3). -/
def execPowerLoss (s : State) : Host.Outcome State Fault Refusal :=
  .next (State.volatileReset .off s.nv s.freeUsed s.pending)

/-! ### Expiries -/

/-- ALLOCATION_PERIOD_EXPIRY (R52, R55). -/
def execAllocationPeriodExpiry (s : State) : Host.Outcome State Fault Refusal :=
  .next (whenOn periodExpires s)

/-- SILENCE_TIMER_EXPIRY (R151). -/
def execSilenceTimerExpiry (a : Addr) (s : State) : Host.Outcome State Fault Refusal :=
  .next (whenOn (silenceExpires a) s)

/-- HOLD_TIMER_EXPIRY (R112). -/
def execHoldTimerExpiry (d : DiverterIx) (s : State) : Host.Outcome State Fault Refusal :=
  .next (whenOn (holdTimerExpires d) s)

/-- CURSOR_IDLE_EXPIRY (R186). -/
def execCursorIdleExpiry (s : State) : Host.Outcome State Fault Refusal :=
  .next (whenOn cursorExpires s)

/-! ### Nonvolatile writes -/

/-- CALIBRATION_WRITE_COMPLETION (R141). -/
def execCalibrationWriteCompletion (s : State) : Host.Outcome State Fault Refusal :=
  .next (whenOn completeCalibration s)

/-- GRAND_TOTAL_WRITE_START (R143). -/
def execGrandTotalWriteStart (s : State) : Host.Outcome State Fault Refusal :=
  .next (whenOn startGrandTotal s)

/-- GRAND_TOTAL_WRITE_COMPLETION (R143). -/
def execGrandTotalWriteCompletion (s : State) : Host.Outcome State Fault Refusal :=
  .next (whenOn completeGrandTotal s)

/-- COMMISSIONING_WRITE_COMPLETION (R191). -/
def execCommissioningWriteCompletion (s : State) : Host.Outcome State Fault Refusal :=
  .next (whenOn completeCommission s)

/-! ### Transmission -/

/-- TRANSMISSION_BEGIN (R173). -/
def execTransmissionBegin (port : Port) (s : State) : Host.Outcome State Fault Refusal :=
  .next (whenOn (beginSending port) s)

/-- TRANSMISSION_END (R173, R191). -/
def execTransmissionEnd (port : Port) (s : State) : Host.Outcome State Fault Refusal :=
  .next (whenOn (endSending port) s)

end Sys2Proof.Machine
end

