-- ==== Sys2Proof/Machine/Requests.lean ====
section
/-!
DEFINITION. The meanings of the commands by which a REQUEST arrives: one with no known code, and one for each
of the twenty codes (R179). A request that is not for the part is forwarded, one that misuses an address or
cannot be carried is discarded and counted, and any other is served (R163 to R165, R178).
-/

namespace Sys2Proof.Machine

/-- UNKNOWN_REQUEST: no code, or one that names none of the twenty (R179). A message that does carry a known
code is handed on by its code (assumption 24). -/
def execUnknownRequest (port : Port) (m : Message) (s : State) : Host.Outcome State Fault Refusal :=
  .next (whenOn (arrive port (messageTelegram m .request [])
    (handleRequest serveByCode port (messageTelegram m .request []))) s)

/-- STATUS arrives (R182). -/
def execStatus (port : Port) (m : Message) (s : State) : Host.Outcome State Fault Refusal :=
  .next (whenOn (requestArrives port m 1 (served takeStatus)) s)

/-- TABLE READ arrives (R2). -/
def execTableRead (port : Port) (m : Message) (s : State) : Host.Outcome State Fault Refusal :=
  .next (whenOn (requestArrives port m 2 (served takeTableRead)) s)

/-- TABLE WRITE arrives (R1, R184). -/
def execTableWrite (port : Port) (m : Message) (s : State) : Host.Outcome State Fault Refusal :=
  .next (whenOn (requestArrives port m 3 (served takeTableWrite)) s)

/-- LEG READ arrives (R46). -/
def execLegRead (port : Port) (m : Message) (s : State) : Host.Outcome State Fault Refusal :=
  .next (whenOn (requestArrives port m 4 (served takeLegRead)) s)

/-- LEG START arrives (R27 to R31). -/
def execLegStart (port : Port) (m : Message) (s : State) : Host.Outcome State Fault Refusal :=
  .next (whenOn (requestArrives port m 5 (served takeLegStart)) s)

/-- LEG STOP arrives (R33). -/
def execLegStop (port : Port) (m : Message) (s : State) : Host.Outcome State Fault Refusal :=
  .next (whenOn (requestArrives port m 6 (served takeLegStop)) s)

/-- LEG CLEAR arrives (R38). -/
def execLegClear (port : Port) (m : Message) (s : State) : Host.Outcome State Fault Refusal :=
  .next (whenOn (requestArrives port m 7 (served takeLegClear)) s)

/-- SET ALLOCATOR arrives (R53). -/
def execSetAllocator (port : Port) (m : Message) (s : State) : Host.Outcome State Fault Refusal :=
  .next (whenOn (requestArrives port m 8 (served takeSetAllocator)) s)

/-- BIN RESET arrives (R22). -/
def execBinReset (port : Port) (m : Message) (s : State) : Host.Outcome State Fault Refusal :=
  .next (whenOn (requestArrives port m 9 (served takeBinReset)) s)

/-- READ ACCOUNTS arrives (R144). -/
def execReadAccounts (port : Port) (m : Message) (s : State) : Host.Outcome State Fault Refusal :=
  .next (whenOn (requestArrives port m 10 (served takeReadAccounts)) s)

/-- SNAPSHOT LOT arrives (R137). -/
def execSnapshotLot (port : Port) (m : Message) (s : State) : Host.Outcome State Fault Refusal :=
  .next (whenOn (requestArrives port m 11 (served takeSnapshotLot)) s)

/-- READ SNAPSHOT arrives (R138). -/
def execReadSnapshot (port : Port) (m : Message) (s : State) : Host.Outcome State Fault Refusal :=
  .next (whenOn (requestArrives port m 12 (served takeReadSnapshot)) s)

/-- CALIBRATE arrives (R140). -/
def execCalibrate (port : Port) (m : Message) (s : State) : Host.Outcome State Fault Refusal :=
  .next (whenOn (requestArrives port m 13 (served takeCalibrate)) s)

/-- FLAGS READ arrives (R196). -/
def execFlagsRead (port : Port) (m : Message) (s : State) : Host.Outcome State Fault Refusal :=
  .next (whenOn (requestArrives port m 14 (served takeFlagsRead)) s)

/-- FLAGS CLEAR arrives (R196). -/
def execFlagsClear (port : Port) (m : Message) (s : State) : Host.Outcome State Fault Refusal :=
  .next (whenOn (requestArrives port m 15 (served takeFlagsClear)) s)

/-- NOTICE MASK arrives (R197). -/
def execNoticeMask (port : Port) (m : Message) (s : State) : Host.Outcome State Fault Refusal :=
  .next (whenOn (requestArrives port m 16 (served takeNoticeMask)) s)

/-- BULK OPEN arrives (R187). -/
def execBulkOpen (port : Port) (m : Message) (s : State) : Host.Outcome State Fault Refusal :=
  .next (whenOn (requestArrives port m 17 (served takeBulkOpen)) s)

/-- BULK DATA arrives (R188). -/
def execBulkData (port : Port) (m : Message) (s : State) : Host.Outcome State Fault Refusal :=
  .next (whenOn (requestArrives port m 18 (served takeBulkData)) s)

/-- COMMISSION arrives (R190). -/
def execCommission (port : Port) (m : Message) (s : State) : Host.Outcome State Fault Refusal :=
  .next (whenOn (requestArrives port m 19 (served takeCommission)) s)

/-- RESTART arrives (R192). -/
def execRestart (port : Port) (m : Message) (s : State) : Host.Outcome State Fault Refusal :=
  .next (whenOn (requestArrives port m 20 takeRestart) s)

end Sys2Proof.Machine
end

