-- ==== Sys2Proof/Machine/Dispatch.lean ====
section
/-!
DEFINITION. The effect of every command: one arm for each constructor of `Instr`.
-/

namespace Sys2Proof.Machine

def exec (i : Instr) (s : State) : Host.Outcome State Fault Refusal :=
  match i with
  | .powerOn => Sys2Proof.Machine.execPowerOn s
  | .receiveTelegram port octets => Sys2Proof.Machine.execReceiveTelegram port octets s
  | .unloaderSample m => Sys2Proof.Machine.execUnloaderSample m s
  | .beltSample m => Sys2Proof.Machine.execBeltSample m s
  | .diverterSample m => Sys2Proof.Machine.execDiverterSample m s
  | .feedOrder m => Sys2Proof.Machine.execFeedOrder m s
  | .divertOrder m => Sys2Proof.Machine.execDivertOrder m s
  | .allocationPeriodExpiry => Sys2Proof.Machine.execAllocationPeriodExpiry s
  | .silenceTimerExpiry address => Sys2Proof.Machine.execSilenceTimerExpiry address s
  | .holdTimerExpiry diverter => Sys2Proof.Machine.execHoldTimerExpiry diverter s
  | .cursorIdleExpiry => Sys2Proof.Machine.execCursorIdleExpiry s
  | .calibrationWriteCompletion => Sys2Proof.Machine.execCalibrationWriteCompletion s
  | .grandTotalWriteStart => Sys2Proof.Machine.execGrandTotalWriteStart s
  | .grandTotalWriteCompletion => Sys2Proof.Machine.execGrandTotalWriteCompletion s
  | .commissioningWriteCompletion => Sys2Proof.Machine.execCommissioningWriteCompletion s
  | .transmissionBegin port => Sys2Proof.Machine.execTransmissionBegin port s
  | .transmissionEnd port => Sys2Proof.Machine.execTransmissionEnd port s
  | .unknownRequest port m => Sys2Proof.Machine.execUnknownRequest port m s
  | .status port m => Sys2Proof.Machine.execStatus port m s
  | .tableRead port m => Sys2Proof.Machine.execTableRead port m s
  | .tableWrite port m => Sys2Proof.Machine.execTableWrite port m s
  | .legRead port m => Sys2Proof.Machine.execLegRead port m s
  | .legStart port m => Sys2Proof.Machine.execLegStart port m s
  | .legStop port m => Sys2Proof.Machine.execLegStop port m s
  | .legClear port m => Sys2Proof.Machine.execLegClear port m s
  | .setAllocator port m => Sys2Proof.Machine.execSetAllocator port m s
  | .binReset port m => Sys2Proof.Machine.execBinReset port m s
  | .readAccounts port m => Sys2Proof.Machine.execReadAccounts port m s
  | .snapshotLot port m => Sys2Proof.Machine.execSnapshotLot port m s
  | .readSnapshot port m => Sys2Proof.Machine.execReadSnapshot port m s
  | .calibrate port m => Sys2Proof.Machine.execCalibrate port m s
  | .flagsRead port m => Sys2Proof.Machine.execFlagsRead port m s
  | .flagsClear port m => Sys2Proof.Machine.execFlagsClear port m s
  | .noticeMask port m => Sys2Proof.Machine.execNoticeMask port m s
  | .bulkOpen port m => Sys2Proof.Machine.execBulkOpen port m s
  | .bulkData port m => Sys2Proof.Machine.execBulkData port m s
  | .commission port m => Sys2Proof.Machine.execCommission port m s
  | .restart port m => Sys2Proof.Machine.execRestart port m s
  | .powerLoss => Sys2Proof.Machine.execPowerLoss s

end Sys2Proof.Machine
end

