-- ==== Sys2Proof/WellFormed.lean ====
section
/-!
DEFINITION. Which commands a link can carry. A command that is not well formed has a meaning all the
same: a port discards and counts a telegram whose fields are out of range (R163).
-/

namespace Sys2Proof

/-- A source address is 1 to 62, and the payload has at most 12 words, `fixed` of which the command's
row gives (R160, R163). -/
def Message.wellFormed (fixed : Nat) (m : Message) : Bool :=
  (1 ≤ m.source.val && m.source.val ≤ 62) && fixed + m.words.length ≤ Config.maxWords

/-- A request code names one of the twenty requests (R179). -/
def knownCode (code : Word) : Bool := 1 ≤ code.toNat && code.toNat ≤ 20

/-- The payload of an UNKNOWN_REQUEST has no code, or one that names none of the twenty (R179). -/
def Message.codeUnknown (m : Message) : Bool :=
  match m.words.head? with
  | some code => !knownCode code
  | none => true

/-- Which commands a link can carry. -/
def Instr.wellFormed : Instr → Bool
  | .powerOn => true
  | .receiveTelegram _ _ => true
  | .unloaderSample m => m.wellFormed 0
  | .beltSample m => m.wellFormed 0
  | .diverterSample m => m.wellFormed 0
  | .feedOrder m => m.wellFormed 1
  | .divertOrder m => m.wellFormed 1
  | .allocationPeriodExpiry => true
  | .silenceTimerExpiry _ => true
  | .holdTimerExpiry _ => true
  | .cursorIdleExpiry => true
  | .calibrationWriteCompletion => true
  | .grandTotalWriteStart => true
  | .grandTotalWriteCompletion => true
  | .commissioningWriteCompletion => true
  | .transmissionBegin _ => true
  | .transmissionEnd _ => true
  | .unknownRequest _ m => m.wellFormed 0 && m.codeUnknown
  | .status _ m => m.wellFormed 1
  | .tableRead _ m => m.wellFormed 1
  | .tableWrite _ m => m.wellFormed 1
  | .legRead _ m => m.wellFormed 1
  | .legStart _ m => m.wellFormed 1
  | .legStop _ m => m.wellFormed 1
  | .legClear _ m => m.wellFormed 1
  | .setAllocator _ m => m.wellFormed 1
  | .binReset _ m => m.wellFormed 1
  | .readAccounts _ m => m.wellFormed 1
  | .snapshotLot _ m => m.wellFormed 1
  | .readSnapshot _ m => m.wellFormed 1
  | .calibrate _ m => m.wellFormed 1
  | .flagsRead _ m => m.wellFormed 1
  | .flagsClear _ m => m.wellFormed 1
  | .noticeMask _ m => m.wellFormed 1
  | .bulkOpen _ m => m.wellFormed 1
  | .bulkData _ m => m.wellFormed 1
  | .commission _ m => m.wellFormed 1
  | .restart _ m => m.wellFormed 1
  | .powerLoss => true

end Sys2Proof
end

