-- ==== Sys2Proof/Safety.lean ====
section
/-!
DEFINITION. What a sound state of the part is: the laws of the device, each over the state alone, which hold
right after reset and which every step keeps. Then what a requester must bring for a request to be served,
and what a command leaves alone.
-/

namespace Sys2Proof.Machine

/-! ### Feeds (R25, R51) -/

/-- The forwarded feed never exceeds the granted or the requested feed, and no feed exceeds 1200 t/h (R25,
R51). -/
abbrev Leg.FeedLaw (l : Leg) : Prop :=
  l.f ≤ l.g ∧ l.f ≤ l.r ∧ l.r ≤ Config.maxFeed ∧ l.g ≤ Config.maxFeed
    ∧ ∀ x ∈ l.pendingFeed, x ≤ Config.maxFeed

/-- The law of the three feeds, for every leg (R51). -/
abbrev State.FeedLaw (s : State) : Prop := ∀ i : UnloaderIx, s.legs[i].FeedLaw

/-! ### The ranges of station table entries (R3 to R6) -/

/-- The ranges of an UNLOADER's working data (R4). -/
abbrev UnloaderData.inRange (d : UnloaderData) : Prop :=
  (50 ≤ d.ratedCap ∧ d.ratedCap ≤ 1200) ∧ d.basePower ≤ 400 ∧ d.specificPower ≤ 2000
    ∧ (5 ≤ d.rampStep ∧ d.rampStep ≤ 500) ∧ (5 ≤ d.flowThreshold ∧ d.flowThreshold ≤ 100)
    ∧ (200 ≤ d.chokeThreshold ∧ d.chokeThreshold ≤ 850)
    ∧ (100 ≤ d.releaseThreshold ∧ d.releaseThreshold ≤ d.chokeThreshold - 50)
    ∧ (20 ≤ d.sweepPercent ∧ d.sweepPercent ≤ 60)

/-- The ranges of the data of a BELT of an index (R5). -/
abbrev BeltData.inRange (b : BeltIx) (d : BeltData) : Prop :=
  (10 ≤ d.length ∧ d.length ≤ 12000) ∧ (100 ≤ d.capacity ∧ d.capacity ≤ 3000) ∧ d.purgeGap ≤ 2000
    ∧ (d.guardLength ≤ 2000 ∧ d.guardLength ≤ d.length) ∧ d.outlet ≠ .belt b

/-- The ranges of a DIVERTER's data (R6). -/
abbrev DiverterData.inRange (d : DiverterData) : Prop :=
  (2 ≤ d.outlets.length ∧ d.outlets.length ≤ 4) ∧ (1 ≤ d.holdTimeout ∧ d.holdTimeout ≤ 120)
    ∧ ∀ x ∈ d.outlets, ∀ n, x ≠ .diverter n

/-- The ranges of what a kind of station holds (R3 to R6), given the entry's silence limit. -/
def StationKind.inRange (limit : Nat) : StationKind → Prop
  | .unloader _ d => d.inRange
  | .belt b d => d.inRange b
  | .diverter _ d => d.inRange
  | .supervisor => limit = 0
  | .panel => limit = 0

/-- A station table entry is in range (R3 to R6). -/
abbrev StationEntry.inRange (e : StationEntry) : Prop :=
  e.ringCeiling ∈ [0, 1, 3] ∧ e.silenceLimit ≠ 1 ∧ e.silenceLimit ≤ 255 ∧ e.kind.inRange e.silenceLimit

/-- Every station table entry is in range (R3 to R6). -/
abbrev State.RangeLaw (s : State) : Prop := ∀ a : Addr, ∀ e ∈ s.tables.stations[a], e.inRange

/-! ### Routes, grants, belts and power (R11, R12, R51, R60, R63) -/

/-- The number of ACTIVE legs on a route (R12). -/
def State.legsOn (s : State) (k : RouteIx) : Nat :=
  (allIx 6).countP fun i => s.legs[i].state == .active && s.legs[i].route == some k

/-- A route's user count is the number of ACTIVE legs on it, and the stations it references stand (R11, R12). An
ACTIVE leg's route is defined, and agrees with the copies the leg took from it (R25). -/
abbrev State.RouteLaw (s : State) : Prop :=
  (∀ k : RouteIx, ∀ e ∈ s.tables.routes[k], e.users = s.legsOn k ∧ (s.unloaderStation e.unloader).isSome
    ∧ ∀ b ∈ e.belts, (s.beltStation b).isSome)
  ∧ ∀ i : UnloaderIx, s.legs[i].state = .active → ∃ k, ∃ e ∈ s.tables.routes[k],
    s.legs[i].route = some k ∧ e.unloader = i ∧ s.legs[i].belts = e.belts ∧ s.legs[i].bin = some e.bin

/-- An ACTIVE leg is granted no more than its unloader's rated feed cap, any other leg nothing (R51). -/
abbrev State.GrantLaw (s : State) : Prop :=
  ∀ i : UnloaderIx,
    s.legs[i].g ≤ if s.legs[i].state = .active then s.unloaderNumber i (·.ratedCap) else 0

/-- No belt's capacity is exceeded by the granted feeds of the ACTIVE legs that cross it (R60). -/
abbrev State.CapacityLaw (s : State) : Prop :=
  ∀ b : BeltIx, ∀ d ∈ s.beltData b, s.beltSum b (fun i => s.legs[i].g) ≤ d.capacity

/-- The specific power of the granted feeds never exceeds the headroom, and every granted feed is zero when
there is none (R63). -/
abbrev State.PowerLaw (s : State) : Prop :=
  if s.headroom ≤ 0 then ∀ i : UnloaderIx, s.legs[i].state = .active → s.legs[i].g = 0
  else (s.demand fun i => s.legs[i].g) ≤ s.headroom.toNat

/-- The laws of the grants together, which are kept only with the help of one another: those of the stations and
of the routes, and the three of the feeds granted. -/
abbrev State.Grants (s : State) : Prop :=
  s.RangeLaw ∧ s.RouteLaw ∧ s.GrantLaw ∧ s.CapacityLaw ∧ s.PowerLaw

/-! ### The allocator (R50) -/

/-- The budgets, the periods and the period timer stay in the ranges of R50. -/
abbrev State.AllocatorLaw (s : State) : Prop :=
  s.alloc.budgetInUse ≤ Config.maxBudget ∧ s.alloc.budgetSet ≤ Config.maxBudget
    ∧ s.alloc.periodInUse ∈ Config.periods ∧ s.alloc.periodSet ∈ Config.periods
    ∧ s.alloc.timeLeft ≤ s.alloc.periodInUse

/-! ### Slug queues (R79, R82) -/

/-- A belt record keeps the law of the slug queues: at most six slugs, each in a place of its own, no more
than seven sources on one, and one UNKNOWN slug exactly while the belt is UNSURE (R79, R82, R99). -/
abbrev BeltRecord.QueueLaw (r : BeltRecord) : Prop :=
  r.queue.length ≤ Config.slugPlaces ∧ (r.queue.map (·.place)).Nodup
    ∧ (∀ y ∈ r.queue, y.sources ≤ Config.maxSources)
    ∧ (r.queue.filter fun y => y.grain.isNone).length = (if r.condition = .unsure then 1 else 0)

/-- The law of the slug queues, for every belt record (R82). -/
abbrev State.SlugLaw (s : State) : Prop :=
  ∀ b : BeltIx, ∀ r ∈ s.tracker.belts[b], r.QueueLaw

/-! ### Pending diverts (R104) -/

/-- The hold timer of a diverter runs exactly while a divert is pending, up to its timeout (R104). -/
abbrev DiverterRecord.TimerLaw (r : DiverterRecord) : Prop :=
  r.pending.isSome = r.holdTimer.isSome ∧ ∀ t ∈ r.holdTimer, t.elapsed ≤ t.timeout

/-- The law of the hold timers, for every diverter record (R104). -/
abbrev State.TimerLaw (s : State) : Prop :=
  ∀ d : DiverterIx, ∀ r ∈ s.seg.diverters[d], r.TimerLaw

/-! ### The port queues (R170 to R172) -/

/-- The egress and the forward queue hold at most 16 telegrams, and the guard queue at most one order for
each unloader index (R170 to R172). -/
abbrev State.QueueLaw (s : State) : Prop :=
  s.path.egressA.length ≤ Config.egressPlaces ∧ s.path.forwardB.length ≤ Config.forwardPlaces
    ∧ (s.path.guardB.map (·.unloader)).Nodup

/-! ### Nonvolatile storage (R125, R139, R142) -/

/-- The written slots of an unloader index are the first ones (R139). -/
abbrev writtenFirst (slots : Vector (Option Nat) 4) : Prop :=
  ∀ j k : SlotIx, j < k → slots[k].isSome → slots[j].isSome

/-- Every written slot holds 100 to 60 000 grams per pulse (R125). -/
abbrev slotsInRange (slots : Vector (Option Nat) 4) : Prop :=
  ∀ k : SlotIx, ∀ v ∈ slots[k], 100 ≤ v ∧ v ≤ 60000

/-- What the writer writes: a value in range, into the lowest ERASED slot of its index (R140). -/
abbrev State.writerSound (s : State) : Prop :=
  match s.writer with
  | .calibration i k v _ _ => s.erasedSlot i = some k ∧ 100 ≤ v ∧ v ≤ 60000
  | _ => True

/-- The law of calibration and grand totals (R139, R142). -/
abbrev State.CalibrationLaw (s : State) : Prop :=
  (∀ i : UnloaderIx, writtenFirst s.nv.slots[i] ∧ slotsInRange s.nv.slots[i]
    ∧ s.nv.totals[i] ≤ Config.maxTonnes)
  ∧ s.writerSound

/-- From one state to another, every written slot keeps its value and no stored grand total decreases (R139,
R142). -/
def keepsStorage (s t : State) : Prop :=
  ∀ i : UnloaderIx, s.nv.totals[i] ≤ t.nv.totals[i]
    ∧ ∀ k : SlotIx, ∀ v ∈ (s.nv.slots[i])[k], (t.nv.slots[i])[k] = some v

/-! ### Addresses (R3, R189 to R191) -/

/-- Two addresses that a commissioning record may hold (R189). -/
abbrev Addresses.valid (x : Addresses) : Prop :=
  1 ≤ x.own.val ∧ x.own.val ≤ 62 ∧ 1 ≤ x.station.val ∧ x.station.val ≤ 62 ∧ x.own ≠ x.station

/-- Every pair of addresses that the part holds, has in force, is writing, or has in a COMMISSION reply. -/
def State.addresses (s : State) : List Addresses :=
  s.mgmt.inForce :: s.nv.record :: (s.mgmt.writing.map (·.addresses)).toList
    ++ s.path.egressA.filterMap Queued.takesForce ++ s.path.forwardB.filterMap Queued.takesForce
    ++ (s.path.sendingA.bind (·.takesForce)).toList ++ (s.path.sendingB.bind (·.takesForce)).toList

/-- Every pair of addresses is valid, and no station table entry stands at an own address, in force or to
come (R3, R184, R189, R190). -/
abbrev State.AddressLaw (s : State) : Prop :=
  ∀ x ∈ s.addresses, x.valid ∧ s.tables.stations[x.own] = none

/-- No entry stands at address 0 or 63, and no two addresses hold one kind index of one kind (R3, R7). -/
abbrev State.StationLaw (s : State) : Prop :=
  s.tables.stations[(0 : Addr)] = none ∧ s.tables.stations[broadcast] = none
    ∧ ∀ a b : Addr, ∀ x ∈ s.tables.stations[a], ∀ y ∈ s.tables.stations[b],
      x.kind.sameIndex y.kind = true → a = b

/-! ### Lot accounts (R132, R134) -/

/-- The kilograms of some account lines. -/
def kgOf (lines : List Line) : Nat := (lines.map (·.kg)).sum

/-- What an account line is for (R132). -/
def Line.key (x : Line) : Nat × Nat × BinIx := (x.vessel, x.number, x.bin)

/-- A lot's account: its total is the sum of its lines and its unattributed amount, its chain holds no block
twice and no two lines with one hold and bin (R132, R134). -/
abbrev State.AccountOk (s : State) (l : Lot) : Prop :=
  l.total = kgOf (s.linesOf l.chain) + l.unattributed ∧ l.total ≤ Config.maxKg ∧ l.chain.Nodup
    ∧ ((s.linesOf l.chain).map Line.key).Nodup

/-- The law of the lot accounts and of the pool (R132, R134): every lot's account is sound, and no block is in
the chains of two lots. -/
abbrev State.AccountLaw (s : State) : Prop :=
  (∀ i : LotIx, ∀ l ∈ s.tables.lots[i], s.AccountOk l)
  ∧ ∀ i j : LotIx, ∀ l ∈ s.tables.lots[i], ∀ m ∈ s.tables.lots[j], i ≠ j →
    ∀ k ∈ l.chain, k ∉ m.chain

/-! ### Segregation (R10, R30) -/

/-- Two legs may run together: where their belt lists share a belt, their lots are compatible, their
destinations are one bin, and from the first shared belt of either on the lists are the same (R30). -/
abbrev State.runTogether (s : State) (x y : Leg) : Prop :=
  sharesBelt x.belts y.belts = true →
    (∃ p q, x.lot = some p ∧ y.lot = some q ∧ s.compatible p q = true) ∧ x.bin = y.bin
      ∧ sameFromFirstShared x.belts y.belts = true ∧ sameFromFirstShared y.belts x.belts = true

/-- The law that the checks of LEG START uphold (R30): any two ACTIVE legs may run together. A route's belt
list, and that of an ACTIVE leg, names no belt twice (R10). -/
abbrev State.MergeLaw (s : State) : Prop :=
  (∀ k : RouteIx, ∀ e ∈ s.tables.routes[k], e.belts.Nodup)
  ∧ (∀ i : UnloaderIx, s.legs[i].state = .active → s.legs[i].belts.Nodup)
  ∧ ∀ i j : UnloaderIx, i ≠ j → s.legs[i].state = .active → s.legs[j].state = .active →
    s.runTogether s.legs[i] s.legs[j]

/-! ### Requests that are served (R163 to R165, R180, R181) -/

/-- A telegram with a message's header arrives at a part with its supply, passes reception and is no misuse of
the own address (R163, R164). -/
abbrev State.passes (s : State) (fixed : Nat) (m : Message) : Prop :=
  s.power = .on ∧ m.wellFormed fixed = true ∧ m.source ≠ s.mgmt.inForce.own

/-- A REQUEST with a code arrives for the part itself (R165). -/
abbrev State.addressed (s : State) (m : Message) : Prop :=
  s.passes 1 m ∧ m.dest = s.mgmt.inForce.own

/-- The ring of a message with a code: the larger of the claimed ring, read as 3 unless it is 0 or 1, and the
ceiling of its source (R180). -/
def State.ringOfMessage (s : State) (m : Message) : Nat :=
  max
    (match m.words with
      | w :: _ => if w.toNat = 0 then 0 else if w.toNat = 1 then 1 else 3
      | [] => 3)
    (if m.source = s.mgmt.inForce.station then 0
     else
      match s.tables.stations[m.source] with
      | some e => e.ringCeiling
      | none => 3)

/-- A REQUEST arrives for the part from a source that has the ring it needs (R180, R181). -/
abbrev State.entitled (s : State) (m : Message) (needed : Nat) : Prop :=
  s.addressed m ∧ s.ringOfMessage m ≤ needed

/-- The REPLY to a message, with its code, result and data (R178). -/
def replyWords (m : Message) (code result : Nat) (data : List Word) : Queued :=
  .own m.source .reply (word code :: word result :: data) none

/-- The state with the REPLY to a message queued on the port on which the message came (R178). -/
def replied (port : Port) (m : Message) (code result : Nat) (data : List Word) (s : State) : State :=
  joinPort port (replyWords m code result data) s

/-- A parameter word of a request, counted from 0: the parameters follow the claimed ring (R161, R179). -/
def paramAt (m : Message) (k : Nat) : Word := m.words.getD (k + 1) 0

/-- A REQUEST arrives for the part from a source that has the ring it needs, with so many parameter words at
least (R179 to R181). -/
abbrev State.serves (s : State) (m : Message) (needed words : Nat) : Prop :=
  s.entitled m needed ∧ words + 1 ≤ m.words.length

/-- The request of a code 1 to 20 (R179). -/
def requestWith (code : Nat) (port : Port) (m : Message) : Instr :=
  match code with
  | 1 => .status port m
  | 2 => .tableRead port m
  | 3 => .tableWrite port m
  | 4 => .legRead port m
  | 5 => .legStart port m
  | 6 => .legStop port m
  | 7 => .legClear port m
  | 8 => .setAllocator port m
  | 9 => .binReset port m
  | 10 => .readAccounts port m
  | 11 => .snapshotLot port m
  | 12 => .readSnapshot port m
  | 13 => .calibrate port m
  | 14 => .flagsRead port m
  | 15 => .flagsClear port m
  | 16 => .noticeMask port m
  | 17 => .bulkOpen port m
  | 18 => .bulkData port m
  | 19 => .commission port m
  | 20 => .restart port m
  | _ => .unknownRequest port { m with words := word code :: m.words }

/-- The ring that the request of a code needs (R181). -/
def State.ringNeeded (s : State) (code : Nat) (m : Message) : Nat :=
  if code ∈ [1, 2, 4, 10, 11, 12, 14] then 3
  else if code ∈ [13, 19, 20] then 0
  else if code = 3 then (if selectorOf (paramAt m 0) = 1 then 0 else 1)
  else if code = 17 then (if paramAt m 0 = 1 then 0 else 1)
  else if code = 18 then
    match s.mgmt.cursor with
    | some x => if x.table = .station then 0 else 1
    | none => 1
  else 1

/-- The number of parameters of the requests whose parameters take one word each (R161). -/
def wordParams (code : Nat) : Nat :=
  if code ∈ [7, 9, 11, 12, 16] then 1
  else if code ∈ [1, 4, 6, 8, 13, 19] then 2
  else if code ∈ [10, 15, 17] then 3
  else if code = 5 then 4
  else 0

/-! ### The telegrams that commands carry -/

/-- The port and the telegram of a command by which one arrives (R160, R165). -/
def carriedBy : Instr → Option (Port × Telegram)
  | .unloaderSample m => some (.b, messageTelegram m .sample [])
  | .beltSample m => some (.b, messageTelegram m .sample [])
  | .diverterSample m => some (.b, messageTelegram m .sample [])
  | .feedOrder m => some (.a, messageTelegram m .order [1])
  | .divertOrder m => some (.a, messageTelegram m .order [2])
  | .unknownRequest p m => some (p, messageTelegram m .request [])
  | .status p m => some (p, messageTelegram m .request [1])
  | .tableRead p m => some (p, messageTelegram m .request [2])
  | .tableWrite p m => some (p, messageTelegram m .request [3])
  | .legRead p m => some (p, messageTelegram m .request [4])
  | .legStart p m => some (p, messageTelegram m .request [5])
  | .legStop p m => some (p, messageTelegram m .request [6])
  | .legClear p m => some (p, messageTelegram m .request [7])
  | .setAllocator p m => some (p, messageTelegram m .request [8])
  | .binReset p m => some (p, messageTelegram m .request [9])
  | .readAccounts p m => some (p, messageTelegram m .request [10])
  | .snapshotLot p m => some (p, messageTelegram m .request [11])
  | .readSnapshot p m => some (p, messageTelegram m .request [12])
  | .calibrate p m => some (p, messageTelegram m .request [13])
  | .flagsRead p m => some (p, messageTelegram m .request [14])
  | .flagsClear p m => some (p, messageTelegram m .request [15])
  | .noticeMask p m => some (p, messageTelegram m .request [16])
  | .bulkOpen p m => some (p, messageTelegram m .request [17])
  | .bulkData p m => some (p, messageTelegram m .request [18])
  | .commission p m => some (p, messageTelegram m .request [19])
  | .restart p m => some (p, messageTelegram m .request [20])
  | .powerOn => none
  | .receiveTelegram _ _ => none
  | .allocationPeriodExpiry => none
  | .silenceTimerExpiry _ => none
  | .holdTimerExpiry _ => none
  | .cursorIdleExpiry => none
  | .calibrationWriteCompletion => none
  | .grandTotalWriteStart => none
  | .grandTotalWriteCompletion => none
  | .commissioningWriteCompletion => none
  | .transmissionBegin _ => none
  | .transmissionEnd _ => none
  | .powerLoss => none

/-- The state with the check-error counter of a port one higher (R163, R166). -/
def checkErrorCounted (port : Port) (s : State) : State :=
  match port with
  | .a => { s with path := { s.path with checkErrorsA := min (s.path.checkErrorsA + 1) 65535 } }
  | .b => { s with path := { s.path with checkErrorsB := min (s.path.checkErrorsB + 1) 65535 } }

/-- A SAMPLE of a message arrives from a station with an entry and a watch record, and passes reception
(R163, R164, R165). -/
abbrev State.hears (s : State) (m : Message) (e : StationEntry) (w : WatchRecord) : Prop :=
  s.passes 0 m ∧ m.dest ≠ s.mgmt.inForce.own ∧ s.tables.stations[m.source] = some e
    ∧ s.watch[m.source] = some w

/-- An ORDER of a message arrives on port A for a station with an entry, and passes reception (R163, R164). -/
abbrev State.ordered (s : State) (m : Message) : Prop := s.passes 1 m ∧ m.dest ≠ s.mgmt.inForce.own

/-! ### The way along the belts (R10) -/

/-- With some diverter settings, grain that leaves a belt goes to a bin or a belt: by the belt's own outlet, or
by the outlet of the listed position of the diverter that the belt names (R10). -/
def State.leadsTo (s : State) (settings : List Setting) (b : BeltIx) (out : Outlet) : Prop :=
  ∃ d ∈ s.beltData b, (∀ x, out ≠ .diverter x) ∧
    (d.outlet = out ∨ ∃ y ∈ settings, d.outlet = .diverter y.diverter ∧
      ∃ e ∈ s.diverterData y.diverter, e.outletAt y.position = some out)

/-! ### Timers (R52, R112, R150, R186) -/

/-- The timer of an expiry has run out: the period timer stands at 0, a silence timer at 0, a hold timer at its
timeout, the idle timer of the cursor at 30 s. -/
def State.due (s : State) : Instr → Prop
  | .allocationPeriodExpiry => s.alloc.timeLeft = 0
  | .silenceTimerExpiry a => ∃ w ∈ s.watch[a], w.timer = some 0
  | .holdTimerExpiry d => ∃ r ∈ s.seg.diverters[d], ∃ x ∈ r.holdTimer, x.timeout ≤ x.elapsed
  | .cursorIdleExpiry => ∃ x ∈ s.mgmt.cursor, 30000 ≤ x.idle
  | _ => False

/-! ### Slugs that meet (R44, R80, R86, R87, R94) -/

/-- A slug is open, or its rear is less than the purge gap of its belt from the loading point (R44, R86). -/
def Slug.near (y : Slug) (d : BeltData) (position : Mark) : Prop :=
  ∀ m ∈ y.rear, (position - m).toNat < d.purgeGap

/-- A slug goes with grain of a lot bound for a bin: its lot is compatible, its destination the same (R44, R86). -/
def State.goesWith (s : State) (y : Slug) (lot : LotIx) (bin : BinIx) : Prop :=
  ∃ h ∈ y.grain, s.compatible h.lot lot = true ∧ h.bin = bin

/-- A slug is due to retire at a belt position (R80). -/
def Slug.due (y : Slug) (d : BeltData) (position : Mark) : Prop :=
  ∃ m ∈ y.rear, d.length ≤ (position - m).toNat

/-- The stage of a slug at a belt position: the furthest that it or its front distance has reached (R80). -/
def Slug.stageThere (y : Slug) (d : BeltData) (position : Mark) : Stage :=
  if y.stage = .crossing ∨ d.length ≤ (position - y.front).toNat then .crossing
  else if y.stage = .approaching ∨ d.length - d.guardLength ≤ (position - y.front).toNat then .approaching
  else .travelling

/-- Grain goes onto a belt from one state to another: a source opens on a defined belt, and an undefined belt
leads nowhere (R90). -/
def State.goesOnto (s : State) (n : BeltIx) (g : Grain) (t : State) (h : HandOver) (upset : List BeltIx) : Prop :=
  if (s.beltStation n).isSome then
    t = (openSource n g s).state ∧ upset = (openSource n g s).upset
      ∧ h = (match (openSource n g s).place with
        | some p => .belt n p
        | none => .absent)
  else t = s ∧ h = .nowhere ∧ upset = []

/-- The sources that the slugs of a queue hold at a place of a belt (R90). -/
def heldAt (q : List Slug) (c : BeltIx) (p : Place) : Nat := q.countP fun y => y.handOver == .belt c p

/-- A slug after so many of its sources have closed at a belt position, and its own source on a belt is dropped
(R83, R89). -/
def Slug.released (y : Slug) (closed : Nat) (position : Mark) (b : BeltIx) : Slug :=
  { y with
    sources := y.sources - closed
    rear := if 0 < y.sources ∧ y.sources ≤ closed then some position else y.rear
    handOver := match y.handOver with
      | .belt n p => if n = b then .absent else .belt n p
      | h => h }

/-- From one state to another, the slugs of a belt have closed the sources they held downstream, and the sources
held on the belt are dropped (R96, steps 1 and 2; R102). -/
def State.letsGo (s : State) (b : BeltIx) (t : State) : Prop :=
  (∀ i : UnloaderIx, t.tracker.sources[i] = s.tracker.sources[i].filter fun x => x.belt != b)
  ∧ ∀ c : BeltIx, c ≠ b → t.tracker.belts[c] = s.tracker.belts[c].map fun r =>
    { r with queue := r.queue.map fun y =>
        y.released (match s.tracker.belts[b] with
          | some x => heldAt x.queue c y.place
          | none => 0) r.position b }

/-- The outlet in force at a belt is another belt that is defined (R98). -/
def State.flowsTo (s : State) (b n : BeltIx) : Prop :=
  (s.beltStation n).isSome ∧ ∃ d ∈ s.beltData b, d.outlet = .belt n
    ∨ ∃ k, d.outlet = .diverter k ∧ ∃ e ∈ s.diverterData k, ∃ r ∈ s.seg.diverters[k], ∃ p ∈ r.position,
      e.outlets[p.val]? = some (.belt n)

/-- The step of a route path that follows a belt: the next belt, or the destination bin after the last one
(R116). -/
def Grain.leads (g : Grain) (b : BeltIx) (out : Outlet) : Prop :=
  ∃ before after, g.path = before ++ b :: after ∧ b ∉ before
    ∧ out = (match after with
      | c :: _ => .belt c
      | [] => .bin g.bin)

/-! ### Legs that meet, stations that are used (R7, R30) -/

/-- From the first belt of a new list that an old one holds, both lists go on alike (R30). -/
def joinsCleanly (new old : List BeltIx) : Prop :=
  ∃ before c after start, new = before ++ c :: after ∧ (∀ x ∈ before, x ∉ old)
    ∧ old = start ++ c :: after ∧ c ∉ start

/-- A route names a station: its unloader, a belt of its list, a diverter of its settings (R7). -/
def Route.names (e : Route) : StationKind → Prop
  | .unloader i _ => e.unloader = i
  | .belt b _ => b ∈ e.belts
  | .diverter d _ => ∃ x ∈ e.settings, x.diverter = d
  | .supervisor => False
  | .panel => False

/-- A write at an address meets what is in use (R5, R7): its entry is named by a defined route, or by an ACTIVE
leg as its unloader or by its route; another address holds the new kind index; or the new BELT names a diverter
that another BELT names. -/
def State.writeMeetsUse (s : State) (a : Addr) (new : Option StationEntry) : Prop :=
  (∃ x ∈ s.tables.stations[a],
    (∃ k : RouteIx, ∃ e ∈ s.tables.routes[k], e.names x.kind)
    ∨ ∃ i : UnloaderIx, s.legs[i].state = .active ∧ ((∃ d, x.kind = .unloader i d)
      ∨ (∀ j d, x.kind ≠ .unloader j d) ∧ ∃ e ∈ s.legRoute s.legs[i], e.names x.kind))
  ∨ ∃ y ∈ new, ∃ b : Addr, b ≠ a ∧ ∃ z ∈ s.tables.stations[b],
    z.kind.sameIndex y.kind = true
    ∨ ∃ i d j d' n, y.kind = .belt i d ∧ z.kind = .belt j d' ∧ d.outlet = .diverter n ∧ d'.outlet = .diverter n

/-- A slug of a belt carries grain of a kind (R13, R15, R20). -/
def State.carriesGrain (s : State) (p : Grain → Prop) : Prop :=
  ∃ b : BeltIx, ∃ r ∈ s.tracker.belts[b], ∃ y ∈ r.queue, ∃ g ∈ y.grain, p g

/-! ### What a command leaves alone -/

/-- The pieces of the state. -/
inductive Piece where
  | power | tables | legs | alloc | tracker | seg | weighing | writer | nv | watch | path | mgmt | notices
  | clock | freeUsed | pending
  deriving DecidableEq, Repr

/-- A piece is the same in two states. -/
def Piece.same (s t : State) : Piece → Prop
  | .power => t.power = s.power
  | .tables => t.tables = s.tables
  | .legs => t.legs = s.legs
  | .alloc => t.alloc = s.alloc
  | .tracker => t.tracker = s.tracker
  | .seg => t.seg = s.seg
  | .weighing => t.weighing = s.weighing
  | .writer => t.writer = s.writer
  | .nv => t.nv = s.nv
  | .watch => t.watch = s.watch
  | .path => t.path = s.path
  | .mgmt => t.mgmt = s.mgmt
  | .notices => t.notices = s.notices
  | .clock => t.clock = s.clock
  | .freeUsed => t.freeUsed = s.freeUsed
  | .pending => t.pending = s.pending

/-- Every piece but those listed is the same in two states. -/
def sameBut (changed : List Piece) (s t : State) : Prop := ∀ p : Piece, p ∉ changed → p.same s t

end Sys2Proof.Machine
end

