-- ==== Sys2Proof/Certificates/Slice0/Obligations.lean ====
section
/-!
DEFINITION. The statements for the provers, one `Prop` each, in the order of OBLIGATIONS.json. Each docstring
names the rules of spec/ it follows, and says which clause is the model's own choice.
-/

section

open Sys2Proof Sys2Proof.Machine

/-! ### Steps, the queue of commands and the supply -/

/-- A step runs the command at the front of the queue, on the state with the queue's rest. The queue of
commands is the model's own (log entry 1). -/
def Obligations.StepRunsFrontCommand : Prop :=
  ∀ (c : Instr) (rest : List Instr) (s : State), s.pending = c :: rest →
    step s = exec c { s with pending := rest }

/-- With no command waiting, a step is a millisecond of the running timers (R50, R104, R150, R185), at the end of
which the expiries of the timers that have run out wait, each once (R52, R112, R151, R186). That the empty queue's
step is a millisecond, that the silence timers share one 100 ms step, and that time passing changes nothing while
the supply is off, are the model's choice (log entries 1, 4 and 3). -/
def Obligations.IdleStepRunsTimers : Prop :=
  ∀ s : State, s.pending = [] →
    (s.power = .off → step s = .next s)
    ∧ (s.power = .on → ∃ t, step s = .next t
      ∧ sameBut [.alloc, .seg, .watch, .mgmt, .clock, .pending] s t
      ∧ (∀ c : Instr, c ∈ t.pending ↔ t.due c) ∧ t.pending.Nodup
      ∧ t.alloc = { s.alloc with timeLeft := s.alloc.timeLeft - 1 }
      ∧ t.seg = { s.seg with diverters := t.seg.diverters }
      ∧ (∀ d : DiverterIx, t.seg.diverters[d] = s.seg.diverters[d].map fun r =>
          { r with holdTimer := r.holdTimer.map fun x =>
              { x with elapsed := min (x.elapsed + 1) x.timeout } })
      ∧ t.mgmt = { s.mgmt with cursor := s.mgmt.cursor.map fun x =>
          { x with idle := min (x.idle + 1) 30000 } }
      ∧ t.clock = (if s.clock + 1 < 100 then s.clock + 1 else 0)
      ∧ ∀ a : Addr, t.watch[a] =
          if s.clock + 1 < 100 then s.watch[a]
          else s.watch[a].map fun w => { w with timer := w.timer.map fun n => n - 1 })

/-- Every command is taken in every state, and leaves the queue of waiting commands as it is (log entry 1). -/
def Obligations.EveryCommandIsTaken : Prop :=
  ∀ (c : Instr) (s : State), ∃ t, exec c s = .next t ∧ t.pending = s.pending

/-- POWER_ON: the legs and weighing at their power-on values, the nonvolatile records kept (R48, R145); a
write cut short by POWER_LOSS has written nothing. -/
def Obligations.PowerOnLegsAndWeighing : Prop :=
  ∀ s : State,
    (∃ t, exec .powerOn s = .next t
      ∧ (∀ i : UnloaderIx, t.legs[i] =
          { state := .idle, hold := none, route := none, belts := [], lot := none, bin := none
            r := 0, g := 0, f := 0, pendingFeed := none, endReason := none, condition := none
            powerShort := false, noticeDisable := false })
      ∧ (∀ i : UnloaderIx, t.notices.flags.get (.legEnded i) = false)
      ∧ (∀ k : RouteIx, t.tables.routes[k] = none)
      ∧ (∀ i : UnloaderIx, t.weighing.weighers[i] =
          { lastCount := none, remainder := 0, glitches := 0, pendingTonnes := 0, residue := 0 })
      ∧ t.writer = .idle ∧ t.nv = s.nv
      ∧ (∀ k : BlockIx, t.blockFree k = true ∧ t.weighing.pool[k] = [])
      ∧ (∀ i : LotIx, t.tables.lots[i] = none)
      ∧ t.weighing.unassigned = 0 ∧ t.weighing.snapshot = none ∧ t.weighing.snapshotNumber = 0
      ∧ t.notices.flags.get .weigherGlitch = false ∧ t.notices.flags.get .poolExhausted = false)
    ∧ ∃ u, exec .powerLoss s = .next u ∧ u.nv = s.nv

/-- POWER_ON: the other blocks at their power-on values (R23, R74, R102, R123, R159, R176, R185, R189, R199). The
phase of the 100 ms step is the model's own (log entry 4). -/
def Obligations.PowerOnOtherBlocks : Prop :=
  ∀ s : State, ∃ t, exec .powerOn s = .next t ∧ t.power = .on
    ∧ (∀ a : Addr, t.tables.stations[a] = none) ∧ (∀ n : HoldIx, t.tables.holds[n] = none)
    ∧ (∀ n : BinIx, t.tables.bins[n] = none)
    ∧ t.alloc = { budgetInUse := 0, budgetSet := 0, periodInUse := 500, periodSet := 500, timeLeft := 500 }
    ∧ (∀ b : BeltIx, t.tracker.belts[b] = none) ∧ (∀ i : UnloaderIx, t.tracker.sources[i] = none)
    ∧ (∀ d : DiverterIx, t.seg.diverters[d] = none) ∧ t.seg.breach = none ∧ t.seg.breachCount = 0
    ∧ (∀ a : Addr, t.watch[a] = none)
    ∧ t.path =
        { egressA := [], forwardB := [], guardB := [], sendingA := none, sendingB := none
          originCount := 0, checkErrorsA := 0, checkErrorsB := 0, dropsA := 0, dropsB := 0, misuse := 0 }
    ∧ t.mgmt = { inForce := s.nv.record, writing := none, cursor := none }
    ∧ (∀ f : Flag, t.notices.flags.get f = false) ∧ (∀ c : Cause, maskEnables t.notices.mask c = true)
    ∧ num t.weighing.lastServed = 6 ∧ t.clock = 0

/-- POWER_LOSS: the nonvolatile records stay (R139, R142, R189), a write in progress has written nothing (R141,
R143, R190), and every volatile piece of state is lost: what POWER_ON would leave is left already, without supply.
A part without its supply takes no command until POWER_ON. What the volatile state holds meanwhile, and that
nothing is taken, are the model's choice (log entry 3). -/
def Obligations.PowerLossKeepsNonvolatile : Prop :=
  (∀ s : State, ∃ t p, exec .powerLoss s = .next t ∧ exec .powerOn s = .next p ∧ t = { p with power := .off }
    ∧ t.power = .off ∧ t.nv = s.nv
    ∧ t.writer = .idle ∧ t.mgmt.writing = none ∧ t.mgmt.cursor = none
    ∧ (∀ i : UnloaderIx, t.legs[i] = Leg.atRest ∧ t.tracker.sources[i] = none)
    ∧ (∀ b : BeltIx, t.tracker.belts[b] = none) ∧ (∀ d : DiverterIx, t.seg.diverters[d] = none)
    ∧ (∀ a : Addr, t.tables.stations[a] = none ∧ t.watch[a] = none)
    ∧ t.path.egressA = [] ∧ t.path.forwardB = [] ∧ t.path.guardB = [] ∧ t.path.originCount = 0)
  ∧ ∀ (c : Instr) (s : State), s.power = .off → c ≠ .powerOn → c ≠ .powerLoss → exec c s = .next s

/-- The laws of the device hold right after reset. -/
def Obligations.ResetIsSound : Prop :=
  State.reset.FeedLaw ∧ State.reset.Grants ∧ State.reset.AllocatorLaw ∧ State.reset.SlugLaw
    ∧ State.reset.TimerLaw ∧ State.reset.QueueLaw ∧ State.reset.CalibrationLaw ∧ State.reset.AddressLaw
    ∧ State.reset.StationLaw ∧ State.reset.AccountLaw ∧ State.reset.MergeLaw

/-! ### Reception -/

/-- The octets that pass reception as a telegram are exactly its own octets, check included, for a telegram
whose fields are in range (R160, R162, R163). -/
def Obligations.WireRoundTrip : Prop :=
  ∀ (os : List Octet) (t : Telegram), received os = some t ↔ t.inRange = true ∧ os = t.wire

/-- A run of octets that is no telegram in range is discarded: its port counts a check error, and nothing else
changes (R163). -/
def Obligations.ReceptionDiscards : Prop :=
  ∀ (port : Port) (os : List Octet) (s : State), s.power = .on →
    (∀ t : Telegram, t.inRange = true → os ≠ t.wire) →
    exec (.receiveTelegram port os) s = .next (checkErrorCounted port s)

/-- A telegram in range, received as octets, does what the command of its kind does (R165, R178, R179). -/
def Obligations.ReceivedTelegramIsItsCommand : Prop :=
  ∀ (c : Instr) (port : Port) (t : Telegram) (s : State), carriedBy c = some (port, t) → t.inRange = true →
    exec (.receiveTelegram port t.wire) s = exec c s

/-- A telegram whose source is the own address, or that is sent to the own address and is no REQUEST, is
discarded and counted, whether it comes as octets or as the command of its kind; nothing else changes (R164). -/
def Obligations.OwnAddressMisuse : Prop :=
  ∀ (port : Port) (t : Telegram) (s : State), s.power = .on → t.inRange = true →
    (t.source = s.mgmt.inForce.own ∨ (t.dest = s.mgmt.inForce.own ∧ t.kind ≠ .request)) →
    (∀ c : Instr, c = .receiveTelegram port t.wire ∨ carriedBy c = some (port, t) →
      exec c s = .next { s with path := { s.path with misuse := min (s.path.misuse + 1) 65535 } })

/-- The telegrams that the part only hands on: ANSWER, REPLY and NOTICE, a REQUEST for another station, an ORDER
from port B, an ORDER of another subkind or with no payload, a DIVERT to a station that is no diverter, a SAMPLE
from port A, and one from port B whose address holds no watch record (R147). Each joins the queue of the other port
unchanged, and nothing else happens (R165, R166). -/
def Obligations.OtherTelegramsForwarded : Prop :=
  ∀ (port : Port) (t : Telegram) (s : State), s.power = .on → t.inRange = true →
    t.source ≠ s.mgmt.inForce.own → (t.dest = s.mgmt.inForce.own → t.kind = .request) →
    (t.kind ∈ [.answer, .reply, .notice]
      ∨ (t.kind = .request ∧ t.dest ≠ s.mgmt.inForce.own ∧ t.dest ≠ broadcast)
      ∨ (t.kind = .order ∧ port = .b)
      ∨ (t.kind = .order ∧ port = .a ∧ t.payload.head? ≠ some 1 ∧ t.payload.head? ≠ some 2)
      ∨ (t.kind = .order ∧ port = .a ∧ t.payload.head? = some 2 ∧ 2 ≤ t.payload.length ∧ t.dest ≠ broadcast
        ∧ ∀ e ∈ s.tables.stations[t.dest], e.diverter? = none)
      ∨ (t.kind = .sample ∧ (port = .a ∨ s.watch[t.source] = none)
        ∧ ∀ e ∈ s.tables.stations[t.source], e.kind.wordsNeeded ≤ t.payload.length)) →
    exec (.receiveTelegram port t.wire) s = .next (joinPort (otherPort port) (.forwarded t) s)

/-! ### The queues and the transmitters -/

/-- A telegram joins the egress queue of port A or the forward queue of port B at the tail, or is dropped and
counted where 16 wait, and the addresses of a COMMISSION reply that is dropped come into force (R191); a guard FEED
order joins the guard queue or takes the place of the one that waits for its unloader, and the FEED orders for its
unloader leave the forward queue (R67, R170, R171, R172). -/
def Obligations.QueuesTakeTelegrams : Prop :=
  (∀ (q : Queued) (s : State),
    (s.path.egressA.length < 16 →
      joinPort .a q s = { s with path := { s.path with egressA := s.path.egressA ++ [q] } })
    ∧ (16 ≤ s.path.egressA.length →
      joinPort .a q s = { s with
        path := { s.path with dropsA := min (s.path.dropsA + 1) 65535 }
        mgmt := { s.mgmt with inForce := q.takesForce.getD s.mgmt.inForce } })
    ∧ (s.path.forwardB.length < 16 →
      joinPort .b q s = { s with path := { s.path with forwardB := s.path.forwardB ++ [q] } })
    ∧ (16 ≤ s.path.forwardB.length →
      joinPort .b q s = { s with
        path := { s.path with dropsB := min (s.path.dropsB + 1) 65535 }
        mgmt := { s.mgmt with inForce := q.takesForce.getD s.mgmt.inForce } }))
  ∧ ∀ (i : UnloaderIx) (n : Nat) (s : State) (a : Addr) (d : UnloaderData),
    s.unloaderStation i = some (a, d) → (s.path.guardB.map (·.unloader)).Nodup →
    ∃ guards, handGuard i n s = { s with path := { s.path with
        guardB := guards
        forwardB := s.path.forwardB.filter fun q => !q.isFeedTo a } }
      ∧ (∀ before x after, s.path.guardB = before ++ x :: after → x.unloader = i →
        guards = before ++ ⟨i, a, n⟩ :: after)
      ∧ ((∀ x ∈ s.path.guardB, x.unloader ≠ i) → guards = s.path.guardB ++ [⟨i, a, n⟩])
      ∧ (guards.map (·.unloader)).Nodup ∧ guards.length ≤ 6

/-- An idle transmitter begins with the head of its queue, the guard queue first on port B; a telegram of the
part takes the own address as source and the next number of the origin count, a forwarded one keeps its own
(R169, R173, R189). At the end of a transmission the transmitter is idle, the addresses of a COMMISSION reply come
into force (R191), and the next transmission begins at once. That a port that is sending or has nothing to send does
not begin, that an idle one has nothing to end, and that the addresses come into force before the next telegram
begins, are the model's choice (log entries 2 and 7). -/
def Obligations.TransmissionsBeginAndEnd : Prop :=
  ∀ s : State, s.power = .on →
    (∀ q rest, s.path.sendingA = none → s.path.egressA = q :: rest →
      exec (.transmissionBegin .a) s = .next { s with path := { s.path with
        egressA := rest
        sendingA := some (s.sendingOf q)
        originCount := if q.takesNumber then s.path.originCount + 1 else s.path.originCount } })
    ∧ (∀ x rest, s.path.sendingB = none → s.path.guardB = x :: rest →
      exec (.transmissionBegin .b) s = .next { s with path := { s.path with
        guardB := rest
        sendingB := some ⟨⟨x.dest, s.mgmt.inForce.own, .order, s.path.originCount, [1, word x.setpoint]⟩, none⟩
        originCount := s.path.originCount + 1 } })
    ∧ (∀ q rest, s.path.sendingB = none → s.path.guardB = [] → s.path.forwardB = q :: rest →
      exec (.transmissionBegin .b) s = .next { s with path := { s.path with
        forwardB := rest
        sendingB := some (s.sendingOf q)
        originCount := if q.takesNumber then s.path.originCount + 1 else s.path.originCount } })
    ∧ (∀ t, s.sendingOf (.forwarded t) = ⟨t, none⟩)
    ∧ (∀ dest kind payload x, s.sendingOf (.own dest kind payload x)
      = ⟨⟨dest, s.mgmt.inForce.own, kind, s.path.originCount, payload⟩, x⟩)
    ∧ (s.path.sendingA ≠ none ∨ s.path.egressA = [] → exec (.transmissionBegin .a) s = .next s)
    ∧ (s.path.sendingB ≠ none ∨ (s.path.guardB = [] ∧ s.path.forwardB = []) →
      exec (.transmissionBegin .b) s = .next s)
    ∧ (∀ x, s.path.sendingA = some x → exec (.transmissionEnd .a) s = exec (.transmissionBegin .a)
      { s with
        path := { s.path with sendingA := none }
        mgmt := { s.mgmt with inForce := x.takesForce.getD s.mgmt.inForce } })
    ∧ (∀ x, s.path.sendingB = some x → exec (.transmissionEnd .b) s = exec (.transmissionBegin .b)
      { s with
        path := { s.path with sendingB := none }
        mgmt := { s.mgmt with inForce := x.takesForce.getD s.mgmt.inForce } })
    ∧ (s.path.sendingA = none → exec (.transmissionEnd .a) s = .next s)
    ∧ (s.path.sendingB = none → exec (.transmissionEnd .b) s = .next s)

/-! ### Samples -/

/-- The watch record of a station after it has accepted a sample (R148, steps 2 to 4; R153): the sequence taken,
no return due, HEARD where it was SILENT and a return was due, and the timer loaded where it is HEARD. -/
def Obligations.SampleAccepted : Prop :=
  ∀ (m : Message) (e : StationEntry) (w : WatchRecord) (s : State), s.hears m e w →
    w.lastSeq ≠ some m.seq → e.kind.wordsNeeded ≤ m.words.length →
    ∀ back s1 s2 : State,
      (∃ state timer, back = s.setWatch m.source (some
          { w with lastSeq := some m.seq, returnDue := false, state := state, timer := timer })
        ∧ state = (if w.returnDue = true ∧ w.state = .silent then .heard else w.state)
        ∧ timer = (if state = .heard then some e.silenceLimit else w.timer)) →
      s1 = (if w.returnDue = true ∧ w.state = .silent then
        raiseFlag .stationBack m.source.val e.kind.index false back else back) →
      (∀ i d, e.kind = .unloader i d →
        s2 = (if w.returnDue = true then
          s1.setWeigher i { s1.weighing.weighers[i] with lastCount := none } else s1) →
        exec (.unloaderSample m) s = .next (joinEgress (.forwarded (messageTelegram m .sample []))
          (readFeed i d (m.words.getD 0 0).toNat (weigh i (m.words.getD 2 0)
            (takeFilters m.source i d (m.words.getD 1 0).toNat (m.words.getD 3 0 != 0) s2)))))
      ∧ (∀ b d, e.kind = .belt b d →
        exec (.beltSample m) s = .next (joinEgress (.forwarded (messageTelegram m .sample []))
          (if w.returnDue = true then takeBeltReturn b (m.words.getD 0 0) (m.words.getD 1 0 != 0) s1
          else takeTravel b (m.words.getD 0 0) (m.words.getD 1 0 != 0) s1)))
      ∧ (∀ k d r, e.kind = .diverter k d → s.seg.diverters[k] = some r →
        exec (.diverterSample m) s = .next (joinEgress (.forwarded (messageTelegram m .sample []))
          (s1.setDiverter k (some { r with
            position := if h : (m.words.getD 0 0).toNat < 4 then some ⟨(m.words.getD 0 0).toNat, h⟩
              else none }))))

/-- A duplicate SAMPLE is counted and forwarded, and one too short for its station is counted as a check error
and forwarded; no field of either is applied (R149, R166). A FEED or DIVERT order of one word is counted as a
check error and discarded (R166). -/
def Obligations.DuplicateAndShortTelegrams : Prop :=
  (∀ (m : Message) (e : StationEntry) (w : WatchRecord) (s : State), s.hears m e w →
    ∀ c ∈ [Instr.unloaderSample m, .beltSample m, .diverterSample m],
      (w.lastSeq = some m.seq → e.kind.wordsNeeded ≤ m.words.length →
        exec c s = .next (joinEgress (.forwarded (messageTelegram m .sample []))
          (s.setWatch m.source (some { w with duplicates := min (w.duplicates + 1) 255 }))))
      ∧ (m.words.length < e.kind.wordsNeeded →
        exec c s = .next (joinEgress (.forwarded (messageTelegram m .sample []))
          (checkErrorCounted .b s))))
  ∧ ∀ (m : Message) (s : State), s.ordered m → m.words = [] →
    exec (.feedOrder m) s = .next (checkErrorCounted .a s)
      ∧ exec (.divertOrder m) s = .next (checkErrorCounted .a s)

/-- Weighing a sample (R126, R127, R128): with a last count and a written calibration slot, the mass is the pulses
times the grams per pulse plus the remainder, exactly; up to 5000 kg it is booked and its rest kept as the new
remainder, above that it is a glitch. Otherwise only the last count is set. -/
def Obligations.SampleIsWeighed : Prop :=
  ∀ (i : UnloaderIx) (count : Word) (s : State) (x : Weigher), s.weighing.weighers[i] = x →
    (∀ last grams mass, x.lastCount = some last → s.gramsPerPulse i = some grams →
      mass = (count - last).toNat * grams + x.remainder →
      (mass ≤ 5000999 → ∃ kg rest, kg * 1000 + rest = mass ∧ rest < 1000 ∧
        weigh i count s = book i kg (s.setWeigher i { x with lastCount := some count, remainder := rest }))
      ∧ (5000999 < mass → weigh i count s =
        raiseFlag .weigherGlitch (num i) (min (x.glitches + 1) 255) false
          (s.setWeigher i { x with lastCount := some count, glitches := min (x.glitches + 1) 255 })))
    ∧ (x.lastCount = none ∨ (∀ k : SlotIx, (s.nv.slots[i])[k] = none) →
      weigh i count s = s.setWeigher i { x with lastCount := some count })
    ∧ ∀ k : SlotIx, ∀ v, (s.nv.slots[i])[k] = some v → (∀ j : SlotIx, k < j → (s.nv.slots[i])[j] = none) →
      s.gramsPerPulse i = some v

/-- Booking (R18, R129, R130, R133, R142): for an ACTIVE or ENDED leg the lot takes its share, in the line for the
leg's hold and bin: the one that stands, or one created in the last block or in the lowest free block; as
unattributed only where there is neither a line nor a place for one, and then with the flag. The hold, the bin and
the unloader's tonnes take all of it. For an IDLE leg the unassigned account and the tonnes do. No leg, station or
route changes. -/
def Obligations.KilogramsAreBooked : Prop :=
  ∀ (i : UnloaderIx) (k : Nat) (s : State) (x : Weigher), 0 < k → s.weighing.weighers[i] = x →
    (s.legs[i].state = .idle →
      book i k s = { s with weighing := { s.weighing with
        unassigned := min (s.weighing.unassigned + k) (2 ^ 48 - 1)
        weighers := put s.weighing.weighers i { x with
          residue := (x.residue + k) % 1000
          pendingTonnes := min (x.pendingTonnes + (x.residue + k) / 1000) 999999999 } } })
    ∧ (∀ lot n b l h y, s.legs[i].state ≠ .idle → s.AccountLaw →
      s.legs[i].lot = some lot → s.legs[i].hold = some n → s.legs[i].bin = some b →
      s.tables.lots[lot] = some l → s.tables.holds[n] = some h → s.tables.bins[b] = some y →
      ∃ share chain inLine,
        share = min k (2 ^ 48 - 1 - l.total)
        ∧ (book i k s).tables.lots[lot] = some { l with
            chain := chain, total := l.total + share, unattributed := l.unattributed + (share - inLine) }
        ∧ inLine ≤ share ∧ (inLine = share ∨ inLine = 0)
        ∧ kgOf ((book i k s).linesOf chain) = kgOf (s.linesOf l.chain) + inLine
        ∧ (∀ (found room : Prop) (lines : List Line), lines = s.linesOf l.chain →
          (found ↔ ∃ z ∈ lines, z.vessel = h.vessel ∧ z.number = h.number ∧ z.bin = b) →
          (room ↔ ∃ q, l.chain.getLast? = some q ∧ s.weighing.pool[q].length < 8) →
          (found → chain = l.chain ∧ inLine = share ∧ (book i k s).linesOf chain = lines.map fun z =>
            if z.vessel = h.vessel ∧ z.number = h.number ∧ z.bin = b then { z with kg := z.kg + share } else z)
          ∧ (¬ found → room → chain = l.chain ∧ inLine = share
            ∧ (book i k s).linesOf chain = lines ++ [⟨h.vessel, h.number, b, share⟩])
          ∧ (∀ q : BlockIx, ¬ found → ¬ room → s.blockFree q = true → (∀ p : BlockIx, p < q → s.blockFree p = false) →
            chain = l.chain ++ [q] ∧ inLine = share
              ∧ (book i k s).linesOf chain = lines ++ [⟨h.vessel, h.number, b, share⟩])
          ∧ (found ∨ room ∨ (∃ q : BlockIx, s.blockFree q = true) → (book i k s).notices = s.notices)
          ∧ (¬ found → ¬ room → (∀ q : BlockIx, s.blockFree q = false) →
            chain = l.chain ∧ inLine = 0 ∧ (book i k s).linesOf chain = lines
              ∧ (book i k s).notices = (raiseFlag .poolExhausted (num lot) l.chain.length false s).notices))
        ∧ (inLine ≠ share → (book i k s).notices.flags.get .poolExhausted = true)
        ∧ (∀ j : LotIx, j ≠ lot → (book i k s).tables.lots[j] = s.tables.lots[j]
          ∧ ∀ z ∈ s.tables.lots[j], (book i k s).linesOf z.chain = s.linesOf z.chain)
        ∧ (book i k s).tables.holds = put s.tables.holds n (some { h with
            discharged := min (h.discharged + k) (2 ^ 48 - 1)
            phase := if h.phase = .freeDig ∧ 0 < h.declared
                ∧ h.declared * h.threshold / 1000 ≤ min (h.discharged + k) (2 ^ 48 - 1)
                ∧ h.discharged < 2 ^ 48 - 1
              then .sweep else h.phase })
        ∧ (book i k s).tables.bins = put s.tables.bins b (some { y with
            fill := min (y.fill + k) (2 ^ 48 - 1) })
        ∧ (book i k s).weighing = { s.weighing with
            pool := (book i k s).weighing.pool
            weighers := put s.weighing.weighers i { x with
              residue := (x.residue + k) % 1000
              pendingTonnes := min (x.pendingTonnes + (x.residue + k) / 1000) 999999999 } }
        ∧ (book i k s).tables.stations = s.tables.stations ∧ (book i k s).tables.routes = s.tables.routes
        ∧ sameBut [.tables, .weighing, .notices, .path] s (book i k s))

/-- The persistence filters (R155, R156): a filter changes on the second agreeing sample in a row, and a hold
in FREE_DIG goes to SWEEP when the sweep filter of its ACTIVE leg's unloader sets. -/
def Obligations.FiltersPersist : Prop :=
  (∀ (d : UnloaderData) (vacuum : Nat) (seen : Bool),
    (d.chokeThreshold ≤ vacuum →
      Filter.takeVacuum ⟨false, false⟩ d vacuum = ⟨false, true⟩
      ∧ Filter.takeVacuum ⟨false, true⟩ d vacuum = ⟨true, false⟩)
    ∧ (vacuum < d.chokeThreshold → Filter.takeVacuum ⟨false, seen⟩ d vacuum = ⟨false, false⟩)
    ∧ (vacuum ≤ d.releaseThreshold →
      Filter.takeVacuum ⟨true, false⟩ d vacuum = ⟨true, true⟩
      ∧ Filter.takeVacuum ⟨true, true⟩ d vacuum = ⟨false, false⟩)
    ∧ (d.releaseThreshold < vacuum → Filter.takeVacuum ⟨true, seen⟩ d vacuum = ⟨true, false⟩))
  ∧ (∀ state : Bool,
    Filter.takeSelected ⟨state, false⟩ (!state) = ⟨state, true⟩
    ∧ Filter.takeSelected ⟨state, true⟩ (!state) = ⟨!state, false⟩
    ∧ ∀ seen, Filter.takeSelected ⟨state, seen⟩ state = ⟨state, false⟩)
  ∧ ∀ (a : Addr) (i : UnloaderIx) (d : UnloaderData) (vacuum : Nat) (selected : Bool) (s : State)
      (w : WatchRecord), s.watch[a] = some w →
    ∃ holds, takeFilters a i d vacuum selected s = { s with
        watch := put s.watch a (some { w with
          choke := w.choke.takeVacuum d vacuum, sweep := w.sweep.takeSelected selected })
        tables := { s.tables with holds := holds } }
      ∧ (∀ n h, s.legs[i].state = .active → s.legs[i].hold = some n → s.tables.holds[n] = some h →
        h.phase = .freeDig → w.sweep = ⟨false, true⟩ → selected = true →
        holds = put s.tables.holds n (some { h with phase := .sweep }))
      ∧ (s.legs[i].state ≠ .active ∨ s.legs[i].hold = none
        ∨ (∃ n, s.legs[i].hold = some n ∧ ∀ h ∈ s.tables.holds[n], h.phase ≠ .freeDig)
        ∨ w.sweep ≠ ⟨false, true⟩ ∨ selected = false → holds = s.tables.holds)

/-- An unloader's source (R84, R85, R89): below the flow threshold an open source closes, and at the threshold or
above an absent one opens on the first belt of the leg's list. An opening (R86 to R88) joins the youngest slug
where that goes with its grain, is near the loading point and has less than seven sources; otherwise it appends a
slug, with a GAP breach behind a near slug that does not go with it; and where six slugs lie on the belt, it
overflows: the flag, and the belt and those downstream UNSURE. The places that name the slugs of a queue are the
model's own (log entry 18). -/
def Obligations.SourcesOpenAndClose : Prop :=
  (∀ (i : UnloaderIx) (d : UnloaderData) (feed : Nat) (s : State),
    (∀ ref r, s.tracker.sources[i] = some ref → feed < d.flowThreshold →
      s.tracker.belts[ref.belt] = some r →
      readFeed i d feed s = { s with tracker :=
        { belts := put s.tracker.belts ref.belt (some { r with queue := r.queue.map fun y =>
            if y.place = ref.place ∧ y.sources ≠ 0 then
              { y with
                sources := y.sources - 1
                rear := if y.sources = 1 then some r.position else y.rear }
            else y })
          sources := put s.tracker.sources i none } })
    ∧ ((s.tracker.sources[i] ≠ none ∧ d.flowThreshold ≤ feed
        ∨ s.tracker.sources[i] = none ∧ (feed < d.flowThreshold ∨ s.legs[i].state = .idle)) →
      readFeed i d feed s = s)
    ∧ ∀ g b rest, s.tracker.sources[i] = none → d.flowThreshold ≤ feed → s.legs[i].state ≠ .idle →
      s.legs[i].grain = some g → s.legs[i].belts = b :: rest → (s.beltStation b).isSome →
      readFeed i d feed s =
        (openSource b g s).state.setSource i ((openSource b g s).place.map fun p => ⟨b, p⟩))
  ∧ ∀ (b : BeltIx) (g : Grain) (s : State) (x : BeltData) (r : BeltRecord),
    s.beltData b = some x → s.tracker.belts[b] = some r → r.QueueLaw →
    (∀ y, r.queue.getLast? = some y → s.goesWith y g.lot g.bin → y.near x r.position → y.sources < 7 →
      openSource b g s = { state := s.setBelt b (some { r with queue := r.queue.dropLast ++
                             [{ y with sources := y.sources + 1, rear := none }] })
                           place := some y.place, upset := [] })
    ∧ ∀ s1 : State,
      (∀ y, r.queue.getLast? = some y →
        (¬ s.goesWith y g.lot g.bin ∨ ¬ y.near x r.position ∨ 7 ≤ y.sources)
        ∧ (¬ s.goesWith y g.lot g.bin → y.near x r.position → s1 = raiseBreach
          { kind := .gap, belt := b, diverter := none, bin := none, slugLot := g.lot
            otherLot := match y.grain with
              | some h => .lot h.lot
              | none => .unknown } s)
        ∧ (s.goesWith y g.lot g.bin ∨ ¬ y.near x r.position → s1 = s)) →
      (r.queue = [] → s1 = s) →
      (r.queue.length < 6 → ∃ p, (∀ y ∈ r.queue, y.place ≠ p)
        ∧ openSource b g s = { state := s1.setBelt b (some { r with queue := r.queue ++
            [{ place := p, grain := some g, front := r.position, rear := none, sources := 1
               stage := if x.length = 0 then .crossing else if x.length ≤ x.guardLength then .approaching
                 else .travelling
               handOver := .absent }] })
                               place := some p, upset := [] })
      ∧ (6 ≤ r.queue.length → ∀ t upset,
        (t, upset) = unsureCascade b (raiseFlag .trackerFull (num b) (num g.lot) false s1) →
        openSource b g s = { state := t, place := none, upset := upset })

/-- A BELT sample moves its belt by the travel since the last one (R77), or sends it UNSURE at a travel above 30
000 (R78) or at a return (R100); the last travel count and the running indication are those of the sample. A moved
belt is re-evaluated: its slugs in turn, oldest first (R81), each at the furthest stage (R80), one that enters
CROSSING or is CROSSING without a hand-over handed over by the outlet (R90 to R93), one that is due retired (R94),
the belt SURE with its UNKNOWN slug (R99); then the head is reported clear where it has become so (R95). A belt
that enters UNSURE lets its sources go and holds one UNKNOWN slug (R96), and a cascade follows the outlets in
force, each belt once and six at most (R98). That a hand-over takes place in the order of R81 is as log entry 20
reads it; the places that name the slugs are the model's own (log entry 18). -/
def Obligations.BeltSampleMovesBelt : Prop :=
  (∀ (m : Message) (e : StationEntry) (w : WatchRecord) (s : State) (b : BeltIx) (d : BeltData)
    (r : BeltRecord), s.hears m e w → w.lastSeq ≠ some m.seq → 2 ≤ m.words.length →
    e.kind = .belt b d → s.tracker.belts[b] = some r →
    ∃ t r', exec (.beltSample m) s = .next t ∧ t.tracker.belts[b] = some r'
      ∧ r'.lastTravel = some (m.words.getD 0 0) ∧ r'.running = some (m.words.getD 1 0 != 0)
      ∧ (∀ last, w.returnDue = false → r.lastTravel = some last →
        (m.words.getD 0 0 - last).toNat ≤ 30000 →
        r'.position = r.position + BitVec.ofNat 32 (m.words.getD 0 0 - last).toNat)
      ∧ (w.returnDue = false → r.lastTravel = none → r'.position = r.position)
      ∧ (w.returnDue = true ∨ (∃ last, r.lastTravel = some last ∧ 30000 < (m.words.getD 0 0 - last).toNat) →
        r'.position = r.position ∧ r'.condition = .unsure
          ∧ r'.queue = [{ place := 0, grain := none, front := r.position, rear := some r.position
                          sources := 0, stage := .crossing, handOver := .nowhere }]))
  ∧ (∀ (b : BeltIx) (count : Word) (running : Bool) (s : State) (r r1 : BeltRecord),
    s.tracker.belts[b] = some r → r1 = { r with lastTravel := some count, running := some running } →
    (r.lastTravel = none → takeTravel b count running s = reevaluate b (s.setBelt b (some r1)))
    ∧ (∀ last, r.lastTravel = some last → (count - last).toNat ≤ 30000 →
      takeTravel b count running s = reevaluate b (s.setBelt b (some
        { r1 with position := r.position + BitVec.ofNat 32 (count - last).toNat })))
    ∧ (∀ last, r.lastTravel = some last → 30000 < (count - last).toNat →
      takeTravel b count running s = (unsureCascade b (s.setBelt b (some r1))).1)
    ∧ takeBeltReturn b count running s = (unsureCascade b (s.setBelt b (some r1))).1)
  ∧ (∀ (b : BeltIx) (s : State) (d : BeltData) (r : BeltRecord) (t : State) (whole : Bool),
    s.beltData b = some d → s.tracker.belts[b] = some r →
    reevaluateSlugs b d (r.queue.map (·.place)) s = (t, whole) →
    (whole = false → reevaluate b s = t)
    ∧ (∀ n, whole = true → d.outlet = .diverter n → (∃ y ∈ r.queue, y.stage ≠ .travelling) →
      (∀ r' ∈ t.tracker.belts[b], ∀ y ∈ r'.queue, y.stage = .travelling) → reevaluate b s = headClearReport n t)
    ∧ (whole = true → (∀ n, d.outlet ≠ .diverter n) ∨ (∀ y ∈ r.queue, y.stage = .travelling)
        ∨ (∃ r' ∈ t.tracker.belts[b], ∃ y ∈ r'.queue, y.stage ≠ .travelling) → reevaluate b s = t)
    ∧ reevaluateSlugs b d [] s = (s, true)
    ∧ ∀ p ps, reevaluateSlugs b d (p :: ps) s = if (reevaluateSlug b d p s).2 = true then
        reevaluateSlugs b d ps (reevaluateSlug b d p s).1 else reevaluateSlug b d p s)
  ∧ (∀ (b : BeltIx) (s : State) (d : BeltData) (r : BeltRecord) (y : Slug) (s1 : State) (hands : Prop),
    s.beltData b = some d → s.tracker.belts[b] = some r → (r.queue.map (·.place)).Nodup → y ∈ r.queue →
    s1 = s.setBelt b (some { r with queue := r.queue.map fun z =>
      if z.place = y.place then { z with stage := y.stageThere d r.position } else z }) →
    (hands ↔ y.stageThere d r.position = .crossing
      ∧ (y.stage ≠ .crossing ∨ y.handOver = .absent ∧ ¬ y.due d r.position)) →
    (¬ hands ∨ y.grain = none → reevaluateSlug b d y.place s = (retireIfDue b d y.place s1, true))
    ∧ ∀ (g : Grain) (u : State) (h : HandOver) (upset : List BeltIx), hands → y.grain = some g →
      (match d.outlet with
        | .belt n => s1.goesOnto n g u h upset
        | .bin n => upset = [] ∧ if (s.tables.bins[n]).isSome then u = arriveAtBin n b none g s1 ∧ h = .bin n
            else u = s1 ∧ h = .nowhere
        | .diverter n =>
          match arriveAtDiverter n b g s1 with
          | (v, some (.belt k)) => v.goesOnto k g u h upset
          | (v, some (.bin k)) => u = v ∧ h = .bin k ∧ upset = []
          | (v, _) => u = v ∧ h = .nowhere ∧ upset = []) →
      (b ∈ upset → reevaluateSlug b d y.place s = (u, false))
      ∧ (b ∉ upset → reevaluateSlug b d y.place s =
        (retireIfDue b d y.place (u.mapSlugOn b y.place fun z => { z with handOver := h }), true)))
  ∧ (∀ (b : BeltIx) (s : State) (d : BeltData) (r : BeltRecord) (y : Slug) (s1 : State),
    s.tracker.belts[b] = some r → (r.queue.map (·.place)).Nodup → y ∈ r.queue →
    s1 = s.setBelt b (some { r with
      queue := r.queue.filter fun z => z.place != y.place
      condition := if y.grain = none then .sure else r.condition }) →
    (¬ y.due d r.position → retireIfDue b d y.place s = s)
    ∧ (y.due d r.position → (∀ n p, y.handOver = .belt n p → s1.tracker.belts[n] = none) →
      retireIfDue b d y.place s = s1)
    ∧ ∀ n p r2, y.due d r.position → y.handOver = .belt n p → s1.tracker.belts[n] = some r2 →
      retireIfDue b d y.place s = s1.setBelt n (some { r2 with queue := r2.queue.map fun z =>
        if z.place = p ∧ z.sources ≠ 0 then
          { z with
            sources := z.sources - 1
            rear := if z.sources = 1 then some r2.position else z.rear }
        else z }))
  ∧ (∀ (b : BeltIx) (s : State) (r : BeltRecord), s.tracker.belts[b] = some r →
    s.letsGo b (enterUnsure b s) ∧ sameBut [.tracker] s (enterUnsure b s)
    ∧ (enterUnsure b s).tracker.belts[b] = some { r with
        condition := .unsure
        queue := [{ place := 0, grain := none, front := r.position, rear := some r.position
                    sources := 0, stage := .crossing, handOver := .nowhere }] })
  ∧ ∀ (b : BeltIx) (s : State), ∃ belts : List BeltIx,
    (unsureCascade b s).1 = belts.foldl (fun t x => enterUnsure x t) s
    ∧ belts.head? = some b ∧ belts.Nodup ∧ belts.length ≤ 6
    ∧ (∀ x, x ∈ (unsureCascade b s).2 ↔ x ∈ belts)
    ∧ (∀ k x y, belts[k]? = some x → belts[k + 1]? = some y → s.flowsTo x y)
    ∧ ∀ x, belts.getLast? = some x → belts.length = 6 ∨ ∀ y, s.flowsTo x y → y ∈ belts

/-- A breach is recorded and counted, its flag set, and every ACTIVE leg whose belt list holds its belt ends with
reason BREACH; nothing on the belts and no diverter changes (R119, R120). An arrival at a bin that is CLOSED or
holds an incompatible lot raises BIN_MIX and leaves the bin its lot; an OPEN bin without a lot takes the slug's
(R117). An arrival at a diverter that is not defined, whose position is UNKNOWN or has no outlet, or whose outlet
is not the slug's next step, raises a DIVERT breach; the outlet of the position is the one the grain takes, where
it is defined (R115, R116). -/
def Obligations.BreachesAreAnswered : Prop :=
  (∀ (b : Breach) (s : State),
    (raiseBreach b s).seg = { s.seg with breach := some b, breachCount := min (s.seg.breachCount + 1) 255 }
    ∧ (raiseBreach b s).notices.flags.get .breach = true
    ∧ (∀ i : UnloaderIx, s.legs[i].state = .active → s.legs[i].belts.contains b.belt = true →
      (raiseBreach b s).legs[i] = { s.legs[i] with
        state := .ended, endReason := some .breach, g := 0, f := 0, condition := none, powerShort := false }
      ∧ (raiseBreach b s).notices.flags.get (.legEnded i) = true)
    ∧ (∀ i : UnloaderIx, s.legs[i].state ≠ .active ∨ s.legs[i].belts.contains b.belt = false →
      (raiseBreach b s).legs[i] = s.legs[i]
        ∧ (raiseBreach b s).notices.flags.get (.legEnded i) = s.notices.flags.get (.legEnded i))
    ∧ sameBut [.legs, .seg, .notices, .path, .tables] s (raiseBreach b s)
    ∧ (raiseBreach b s).tables = { s.tables with routes := (raiseBreach b s).tables.routes })
  ∧ (∀ (n : BinIx) (b : BeltIx) (via : Option DiverterIx) (g : Grain) (s : State) (x : Bin),
    s.tables.bins[n] = some x →
    (x.isOpen = false → arriveAtBin n b via g s = raiseBreach
      { kind := .binMix, belt := b, diverter := via, bin := some n, slugLot := g.lot
        otherLot := match x.lot with
          | some m => .lot m
          | none => .absent } s)
    ∧ (x.isOpen = true → x.lot = none →
      arriveAtBin n b via g s = s.setBin n (some { x with lot := some g.lot }))
    ∧ (∀ m, x.isOpen = true → x.lot = some m → s.compatible m g.lot = true → arriveAtBin n b via g s = s)
    ∧ (∀ m, x.isOpen = true → x.lot = some m → s.compatible m g.lot = false →
      arriveAtBin n b via g s = raiseBreach
        { kind := .binMix, belt := b, diverter := via, bin := some n, slugLot := g.lot, otherLot := .lot m } s)
    ∧ (arriveAtBin n b via g s).tables.bins[n] = some { x with
        lot := if x.isOpen = true ∧ x.lot = none then some g.lot else x.lot })
  ∧ ∀ (n : DiverterIx) (b : BeltIx) (g : Grain) (s : State) (stray : Option BinIx → State),
    (∀ bin, stray bin = raiseBreach { kind := .divert, belt := b, diverter := some n, bin := bin, slugLot := g.lot
                                      otherLot := .absent } s) →
    (s.diverterData n = none → arriveAtDiverter n b g s = (stray none, none))
    ∧ ∀ e r, s.diverterData n = some e → s.seg.diverters[n] = some r →
      (r.position = none → arriveAtDiverter n b g s = (stray none, none))
      ∧ (∀ p, r.position = some p → e.outlets[p.val]? = none → arriveAtDiverter n b g s = (stray none, none))
      ∧ (∀ p m s1, r.position = some p → e.outlets[p.val]? = some (.bin m) →
        (g.leads b (.bin m) → s1 = s) → (¬ g.leads b (.bin m) → s1 = stray (some m)) →
        ((s.tables.bins[m]).isSome → arriveAtDiverter n b g s = (arriveAtBin m b (some n) g s1, some (.bin m)))
        ∧ (s.tables.bins[m] = none → arriveAtDiverter n b g s = (s1, none)))
      ∧ ∀ p k s1, r.position = some p → e.outlets[p.val]? = some (.belt k) →
        (g.leads b (.belt k) → s1 = s) → (¬ g.leads b (.belt k) → s1 = stray none) →
        ((s.beltStation k).isSome → arriveAtDiverter n b g s = (s1, some (.belt k)))
        ∧ (s.beltStation k = none → arriveAtDiverter n b g s = (s1, none))

/-! ### Orders -/

/-- A FEED order for an ACTIVE leg is forwarded at the smaller of the setpoint, read as 1200 above 1200, and the
granted feed; r takes the setpoint and f the value, and a smaller value is answered CLAMPED (R68, R69). Where the
forward queue is full the order is dropped and counted, and nothing else changes (R70). -/
def Obligations.FeedOrderForActiveLeg : Prop :=
  ∀ (m : Message) (s : State) (e : StationEntry) (i : UnloaderIx) (d : UnloaderData) (w : Word)
    (rest : List Word) (value : Nat), s.ordered m → m.dest ≠ broadcast → m.words = w :: rest →
    s.tables.stations[m.dest] = some e → e.kind = .unloader i d → s.legs[i].state = .active →
    value = min (min w.toNat 1200) s.legs[i].g →
    (s.path.forwardB.length < 16 → ∀ u, u = { s with
        legs := put s.legs i { s.legs[i] with r := min w.toNat 1200, f := value }
        path := { s.path with forwardB := s.path.forwardB ++
          [.forwarded ⟨m.dest, m.source, .order, m.seq, 1 :: word value :: rest⟩] } } →
      exec (.feedOrder m) s = .next (if value < w.toNat then
        joinEgress (.own m.source .answer [word m.dest.val, 1, 1, word value] none) u else u))
    ∧ (16 ≤ s.path.forwardB.length →
      exec (.feedOrder m) s = .next { s with path := { s.path with
        dropsB := min (s.path.dropsB + 1) 65535 } })

/-- A FEED order for an IDLE or ENDED leg becomes its pending feed and is answered PENDED; one to a station that
is no unloader is answered NO_LEG. Neither is forwarded, and no other record changes (R37). The value of the
NO_LEG answer is free: the manual states none (log entry 6). -/
def Obligations.FeedOrderKeptOrWithoutLeg : Prop :=
  ∀ (m : Message) (s : State) (w : Word) (rest : List Word), s.ordered m → m.dest ≠ broadcast →
    m.words = w :: rest →
    (∀ e i d, s.tables.stations[m.dest] = some e → e.kind = .unloader i d → s.legs[i].state ≠ .active →
      exec (.feedOrder m) s = .next (joinEgress
        (.own m.source .answer [word m.dest.val, 1, 2, word (min w.toNat 1200)] none)
        (s.setLeg i { s.legs[i] with pendingFeed := some (min w.toNat 1200) })))
    ∧ ((∀ e ∈ s.tables.stations[m.dest], ∀ i d, e.kind ≠ .unloader i d) →
      ∃ v, exec (.feedOrder m) s = .next (joinEgress
        (.own m.source .answer [word m.dest.val, 1, 3, v] none) { s with freeUsed := s.freeUsed + 1 }))

/-- A DIVERT order for a defined diverter (R107 to R110): refused ROUTE_IN_USE where an ACTIVE leg requires another
position, forwarded where the head is clear and nothing is held, and otherwise held, the order it supersedes
answered first. Once the head is reported clear (R95, R111), the held order is rechecked against the legs as they
stand and is forwarded or refused, and its timer stops. That the pending divert is the whole telegram is the model's
choice (log entry 25). -/
def Obligations.DivertOrderAdmitted : Prop :=
  (∀ (m : Message) (s : State) (e : StationEntry) (k : DiverterIx) (d : DiverterData) (r : DiverterRecord)
    (w : Word) (rest : List Word) (t : Telegram) (conflict : Prop), s.ordered m → m.dest ≠ broadcast →
    m.words = w :: rest → s.tables.stations[m.dest] = some e → e.kind = .diverter k d →
    s.seg.diverters[k] = some r → t = messageTelegram m .order [2] →
    (conflict ↔ ∃ i : UnloaderIx, s.legs[i].state = .active ∧ ∃ x ∈ s.legSettings s.legs[i],
      x.diverter = k ∧ x.position.val ≠ w.toNat) →
    (conflict → exec (.divertOrder m) s = .next (joinEgress
      (.own m.source .answer [word m.dest.val, 2, 7, w] none) s))
    ∧ (¬ conflict → s.headClear k = true → r.pending = none →
      exec (.divertOrder m) s = .next (joinForward (.forwarded t) s))
    ∧ (¬ conflict → s.headClear k = false ∨ r.pending ≠ none → ∀ u,
      u = (match r.pending with
        | some old => joinEgress (.own old.source .answer
            [word old.dest.val, 2, 5, old.payload.getD 1 0] none) s
        | none => s) →
      exec (.divertOrder m) s = .next (joinEgress (.own m.source .answer [word m.dest.val, 2, 4, w] none)
        (u.setDiverter k (some { r with
          pending := some t, holdTimer := some ⟨0, 1000 * d.holdTimeout⟩ })))))
  ∧ ∀ (k : DiverterIx) (s : State) (r : DiverterRecord), s.seg.diverters[k] = some r →
    (r.pending = none → headClearReport k s = s)
    ∧ ∀ (t : Telegram) (conflict : Prop) (u : State), r.pending = some t →
      (conflict ↔ ∃ i : UnloaderIx, s.legs[i].state = .active ∧ ∃ x ∈ s.legSettings s.legs[i],
        x.diverter = k ∧ x.position.val ≠ (t.payload.getD 1 0).toNat) →
      u = s.setDiverter k (some { r with pending := none, holdTimer := none }) →
      (conflict → headClearReport k s = joinEgress
        (.own t.source .answer [word t.dest.val, 2, 7, t.payload.getD 1 0] none) u)
      ∧ (¬ conflict → headClearReport k s = joinForward (.forwarded t) u)

/-- A broadcast FEED is answered NO_LEG with its setpoint as read, and a broadcast DIVERT ROUTE_IN_USE with its
position as carried; neither is forwarded and no record changes. A broadcast order of another subkind is forwarded
(R167). -/
def Obligations.BroadcastOrdersAnswered : Prop :=
  ∀ (m : Message) (s : State) (w : Word) (rest : List Word), s.ordered m → m.dest = broadcast →
    m.words = w :: rest →
    exec (.feedOrder m) s = .next (joinEgress
      (.own m.source .answer [63, 1, 3, word (min w.toNat 1200)] none) s)
    ∧ exec (.divertOrder m) s = .next (joinEgress (.own m.source .answer [63, 2, 7, w] none) s)
    ∧ ∀ sub : Word, sub ≠ 1 → sub ≠ 2 →
      exec (.receiveTelegram .a (messageTelegram m .order [sub]).wire) s =
        .next (joinForward (.forwarded (messageTelegram m .order [sub])) s)

/-! ### Expiries -/

/-- An expiry of the period timer (R52, R55): the budget set and the period set are taken up, every ACTIVE leg's
condition is evaluated by the first cause that holds (R41 to R44), and the five stages give its grant: its
effective cap and its requested feed where it is FLOWING and otherwise nothing (R56, R57), at most a ramp step
above the grant before (R58), the belts in index order shared out in proportion (R59), and the power shared out in
proportion, or nothing without headroom (R61 to R63). The leg is power-short where the power alone took its grant,
with the flag (R64). The grant is the forwarded feed, and a guard order carries a new one (R66). A timer that has
not run out does not expire. Every ACTIVE leg's unloader has its entry, as R7 keeps it. -/
def Obligations.PeriodExpiryGrants : Prop :=
  (∀ s : State, s.power = .on → s.alloc.timeLeft ≠ 0 → exec .allocationPeriodExpiry s = .next s)
  ∧ (∀ (s : State) (a : UnloaderIx → Addr) (d : UnloaderIx → UnloaderData) (derated : UnloaderIx → Bool)
      (total : (UnloaderIx → Bool) → (UnloaderIx → Nat) → Nat) (top : Nat → UnloaderIx → Nat) (headroom : Int)
      (demand : Nat) (grant : UnloaderIx → Nat) (short : UnloaderIx → Bool),
    s.power = .on → s.alloc.timeLeft = 0 →
    (∀ i : UnloaderIx, s.legs[i].state = .active → s.unloaderStation i = some (a i, d i)) →
    (∀ i : UnloaderIx, derated i = true ↔ ∃ n ∈ s.legs[i].hold, ∃ h ∈ s.tables.holds[n],
      h.phase = .sweep ∨ h.phase = .empty) →
    (∀ p x, total p x = ((List.finRange 6).map fun i =>
      if s.legs[i].state = .active ∧ p i = true then x i else 0).sum) →
    (∀ i : UnloaderIx, top 0 i = min (s.legs[i].g + (d i).rampStep)
      (if s.grantCondition i = .flowing then
        min (if derated i = true then (d i).ratedCap * (d i).sweepPercent / 100 else (d i).ratedCap) s.legs[i].r
      else 0)) →
    (∀ (b : BeltIx) (i : UnloaderIx), top (b.val + 1) i =
      match s.beltData b with
      | none => top b.val i
      | some x =>
        let sum := total (fun j => s.legs[j].belts.contains b) (top b.val)
        if x.capacity < sum ∧ s.legs[i].belts.contains b = true then top b.val i * x.capacity / sum
        else top b.val i) →
    headroom = ((s.alloc.budgetSet : Int) - total (fun _ => true) (fun i => (d i).basePower)) * 1000 →
    demand = total (fun _ => true) (fun i => (d i).specificPower * top 8 i) →
    (∀ i : UnloaderIx, grant i = if headroom ≤ 0 then 0 else if demand ≤ headroom.toNat then top 8 i
      else top 8 i * headroom.toNat / demand) →
    (∀ i : UnloaderIx, short i = decide (headroom ≤ 0 ∧ 0 < top 8 i)) →
    ∃ t, exec .allocationPeriodExpiry s = .next t
      ∧ t.alloc = { s.alloc with
          budgetInUse := s.alloc.budgetSet, periodInUse := s.alloc.periodSet, timeLeft := s.alloc.periodSet }
      ∧ sameBut [.legs, .alloc, .path, .notices] s t
      ∧ (∀ i : UnloaderIx, s.legs[i].state ≠ .active → t.legs[i] = s.legs[i]
        ∧ t.guardSetpoint i = s.guardSetpoint i)
      ∧ (∀ i : UnloaderIx, s.legs[i].state = .active →
        t.legs[i] = { s.legs[i] with
          g := grant i, f := grant i, condition := some (s.grantCondition i), powerShort := short i }
        ∧ (s.legs[i].f ≠ grant i → t.guardSetpoint i = some (grant i))
        ∧ (s.legs[i].f = grant i → t.guardSetpoint i = (s.guardSetpoint i).map fun _ => grant i))
      ∧ t.path.egressA = (if 0 < total short (fun _ => 1) then
          (raiseFlag .powerShort 0 (total short fun _ => 1) false s).path.egressA else s.path.egressA)
      ∧ t.notices = if 0 < total short (fun _ => 1) then
          (raiseFlag .powerShort 0 (total short fun _ => 1) false s).notices else s.notices)
  ∧ ∀ (s : State) (i : UnloaderIx) (l : Leg) (lot : LotIx) (k : RouteIx) (bin : BinIx) (x : Bin)
      (choked belt diverter full gap : Prop), l = s.legs[i] → l.lot = some lot → l.route = some k → l.bin = some bin →
    s.tables.bins[bin] = some x →
    (∀ b ∈ l.belts, (s.beltStation b).isSome ∧ (s.tracker.belts[b]).isSome) →
    (∀ y ∈ s.legSettings l, (s.diverterStation y.diverter).isSome ∧ (s.seg.diverters[y.diverter]).isSome) →
    (choked ↔ ∃ a d, s.unloaderStation i = some (a, d) ∧ ∃ w ∈ s.watch[a], w.choke.isSet = true) →
    (belt ↔ ∃ b ∈ l.belts, ∃ r ∈ s.tracker.belts[b], ∃ a d, s.beltStation b = some (a, d)
      ∧ (r.condition = .unsure ∨ (∃ w ∈ s.watch[a], w.state = .silent) ∨ ∃ y ∈ r.queue, y.grain = none)) →
    (diverter ↔ ∃ y ∈ s.legSettings l, ∃ r ∈ s.seg.diverters[y.diverter], ∃ a e,
      s.diverterStation y.diverter = some (a, e)
      ∧ (r.position ≠ some y.position ∨ ∃ w ∈ s.watch[a], w.state = .silent)) →
    (full ↔ x.capacity - x.margin ≤ x.fill) →
    (gap ↔ ∃ b ∈ l.belts, ∃ r ∈ s.tracker.belts[b], ∃ d ∈ s.beltData b, ∃ y ∈ r.queue.getLast?,
      ¬ s.goesWith y lot bin ∧ y.near d r.position) →
    (choked → s.grantCondition i = .choked)
    ∧ (¬ choked → belt → s.grantCondition i = .waitBelt)
    ∧ (¬ choked → ¬ belt → diverter → s.grantCondition i = .waitDiverter)
    ∧ (¬ choked → ¬ belt → ¬ diverter → full → s.grantCondition i = .binFull)
    ∧ (¬ choked → ¬ belt → ¬ diverter → ¬ full → gap → s.grantCondition i = .waitGap)
    ∧ (¬ choked → ¬ belt → ¬ diverter → ¬ full → ¬ gap → s.grantCondition i = .flowing)

/-- A silence timer that has run out expires (R150, R151, R152): the station is SILENT with a return due, its
sequence forgotten and its filters clear; an unloader's ACTIVE leg ends SILENT, and a diverter's position is
UNKNOWN; then the flag. A station whose timer is stopped, or has been loaded again, does not expire (R154). -/
def Obligations.SilenceExpiry : Prop :=
  ∀ (a : Addr) (s : State) (e : StationEntry) (w : WatchRecord), s.power = .on →
    s.tables.stations[a] = some e → s.watch[a] = some w →
    (w.timer = some 0 → ∀ u, u = s.setWatch a (some { w with
        state := .silent, timer := none, returnDue := true, lastSeq := none
        choke := ⟨false, false⟩, sweep := ⟨false, false⟩ }) →
      (∀ i d, e.kind = .unloader i d → exec (.silenceTimerExpiry a) s =
        .next (raiseFlag .stationSilent a.val (num i) false (endLeg i .silent u)))
      ∧ (∀ b d, e.kind = .belt b d → exec (.silenceTimerExpiry a) s =
        .next (raiseFlag .stationSilent a.val (num b) false u))
      ∧ (∀ k d r, e.kind = .diverter k d → s.seg.diverters[k] = some r → exec (.silenceTimerExpiry a) s =
        .next (raiseFlag .stationSilent a.val (num k) false
          (u.setDiverter k (some { r with position := none })))))
    ∧ (w.timer ≠ some 0 → exec (.silenceTimerExpiry a) s = .next s)

/-- A hold timer that has reached its timeout expires (R112): the pending divert is answered TOO_LATE and
discarded, the timer stops, and the flag is set, whatever the head and the legs are. One that is stopped, or has
started again for a newer order, does not expire (R113). -/
def Obligations.HoldTimerExpiry : Prop :=
  ∀ (k : DiverterIx) (s : State) (r : DiverterRecord), s.power = .on → s.seg.diverters[k] = some r →
    (∀ t x, r.pending = some t → r.holdTimer = some x → x.timeout ≤ x.elapsed →
      exec (.holdTimerExpiry k) s = .next (raiseFlag .divertTimeout (num k) (t.payload.getD 1 0).toNat false
        ((joinEgress (.own t.source .answer [word t.dest.val, 2, 6, t.payload.getD 1 0] none) s).setDiverter k
          (some { r with pending := none, holdTimer := none }))))
    ∧ ((∀ x, r.holdTimer = some x → x.elapsed < x.timeout) → exec (.holdTimerExpiry k) s = .next s)

/-! ### Nonvolatile writes -/

/-- A nonvolatile write completes: a calibration write puts its value in its slot and replies (R141), a grand-total
write adds its batch to the stored total, up to 999 999 999 (R143), and a commissioning write changes the record
and replies; the addresses in force are the same while the reply waits, and are those written where it is dropped
at a full queue (R191). A completion without its write does nothing (log entry 2). -/
def Obligations.NonvolatileWritesComplete : Prop :=
  ∀ s : State, s.power = .on →
    (∀ i k v a port, s.writer = .calibration i k v a port → exec .calibrationWriteCompletion s =
      .next (joinPort port (.own a .reply [13, 0, word (num i), word (num k), word v] none) { s with
        writer := .idle
        nv := { s.nv with slots := put s.nv.slots i (put s.nv.slots[i] k (some v)) } }))
    ∧ (∀ i batch, s.writer = .grandTotal i batch → exec .grandTotalWriteCompletion s =
      .next { s with
        writer := .idle
        nv := { s.nv with totals := put s.nv.totals i (min (s.nv.totals[i] + batch) 999999999) } })
    ∧ (∀ w, s.mgmt.writing = some w → exec .commissioningWriteCompletion s =
      .next (joinPort w.port (.own w.requester .reply
        [19, 0, word w.addresses.own.val, word w.addresses.station.val] (some w.addresses)) { s with
        nv := { s.nv with record := w.addresses }
        mgmt := { s.mgmt with writing := none } }))
    ∧ (∀ w t, s.mgmt.writing = some w → exec .commissioningWriteCompletion s = .next t →
      t.mgmt.inForce = if (match w.port with
          | .a => s.path.egressA.length
          | .b => s.path.forwardB.length) < 16 then s.mgmt.inForce else w.addresses)
    ∧ ((∀ i k v a port, s.writer ≠ .calibration i k v a port) → exec .calibrationWriteCompletion s = .next s)
    ∧ ((∀ i batch, s.writer ≠ .grandTotal i batch) → exec .grandTotalWriteCompletion s = .next s)
    ∧ (s.mgmt.writing = none → exec .commissioningWriteCompletion s = .next s)

/-- The idle writer starts a grand-total write (R143): of the first index after the one served last that has
pending tonnes, wrapping from 6 to 1; the batch is those tonnes. It starts none while it writes or where nothing
is pending. -/
def Obligations.GrandTotalWriteStarts : Prop :=
  ∀ s : State, s.power = .on →
    (∀ n : Nat, n < 6 → ∀ i : UnloaderIx, s.writer = .idle →
      i.val = (s.weighing.lastServed.val + 1 + n) % 6 → 0 < s.weighing.weighers[i].pendingTonnes →
      (∀ k < n, ∀ j : UnloaderIx, j.val = (s.weighing.lastServed.val + 1 + k) % 6 →
        s.weighing.weighers[j].pendingTonnes = 0) →
      exec .grandTotalWriteStart s = .next { s with
        writer := .grandTotal i s.weighing.weighers[i].pendingTonnes
        weighing := { s.weighing with
          weighers := put s.weighing.weighers i { s.weighing.weighers[i] with pendingTonnes := 0 }
          lastServed := i } })
    ∧ (s.writer ≠ .idle ∨ (∀ i : UnloaderIx, s.weighing.weighers[i].pendingTonnes = 0) →
      exec .grandTotalWriteStart s = .next s)

/-! ### Requests -/

/-- The first checks of every request (R179 to R181): no code or an unknown one, then the ring, then a missing
parameter, with its position. A refused request changes nothing but its reply's queue.That a parameter which is not
read has to be there, and that a TABLE WRITE or BULK OPEN without its selector needs ring 1, are the model's choice
(log entries 32 and 33). -/
def Obligations.RequestsAreChecked : Prop :=
  (∀ (port : Port) (m : Message) (s : State), s.passes 0 m → m.dest = s.mgmt.inForce.own →
    (m.words = [] ∨ ∃ w rest, m.words = w :: rest ∧ (w.toNat = 0 ∨ 20 < w.toNat)) →
    exec (.unknownRequest port m) s = .next (joinPort port (.own m.source .reply [m.words.getD 0 0, 19] none) s))
  ∧ ∀ (code : Nat) (port : Port) (m : Message) (s : State), 1 ≤ code → code ≤ 20 → s.addressed m →
    (s.ringNeeded code m < s.ringOfMessage m →
      exec (requestWith code port m) s =
        .next (replied port m code 2 [word (s.ringOfMessage m), word (s.ringNeeded code m)] s))
    ∧ (s.ringOfMessage m ≤ s.ringNeeded code m →
      (m.words.length - 1 < wordParams code →
        exec (requestWith code port m) s = .next (replied port m code 3 [word (m.words.length - 1 + 1)] s))
      ∧ (code ∈ [2, 3, 18] → m.words.length ≤ 1 →
        exec (requestWith code port m) s = .next (replied port m code 3 [1] s))
      ∧ (code = 2 → m.words.length = 2 →
        exec (requestWith code port m) s = .next (replied port m code 3 [4] s)))

/-- A REQUEST for another station is forwarded; a broadcast one is served as one for the part is, and then
forwarded, RESTART aside (R165). That its reply joins before the copy is the model's choice (log entry 8). -/
def Obligations.RequestsForOthersForwarded : Prop :=
  ∀ (code : Nat) (port : Port) (m : Message) (s : State), 1 ≤ code → code ≤ 20 → s.passes 1 m →
    m.dest ≠ s.mgmt.inForce.own →
    (m.dest ≠ broadcast → exec (requestWith code port m) s =
      .next (joinPort (otherPort port) (.forwarded (messageTelegram m .request [word code])) s))
    ∧ (m.dest = broadcast → code ≠ 20 → ∃ u,
      exec (requestWith code port { m with dest := s.mgmt.inForce.own }) s = .next u
        ∧ exec (requestWith code port m) s =
          .next (joinPort (otherPort port) (.forwarded (messageTelegram m .request [word code])) u))

/-- STATUS, TABLE READ, LEG READ and READ ACCOUNTS answer DONE with the number of parts and the words of the part
asked for, or refuse, and change nothing but their reply's queue (R2, R46, R144, R182, R183). The words of each
read are the model's layout of what R161 leaves to inference (log entry 10), and that a part number out of range is
answered RANGE for an entry that is not defined as well is the model's choice (log entry 12). -/
def Obligations.ReadsAnswerInParts : Prop :=
  ∀ (port : Port) (m : Message) (s : State) (part : Nat → List Word → List Word),
    (∀ k data, part k data = word (max 1 ((data.length + 8) / 9)) :: (data.drop (9 * (k - 1))).take 9) →
    (∀ x k, s.serves m 3 2 → sectionOf (paramAt m 0) = some x → (paramAt m 1).toNat = k → 1 ≤ k → k ≤ 32 →
      exec (.status port m) s = .next (replied port m 1 0 (part k (s.sectionWords x)) s))
    ∧ (∀ i : UnloaderIx, ∀ k, s.serves m 3 2 → (paramAt m 0).toNat = num i → (paramAt m 1).toNat = k →
      1 ≤ k → k ≤ 32 → exec (.legRead port m) s = .next (replied port m 4 0 (part k (s.legWords i)) s))
    ∧ (∀ x k, s.serves m 3 3 → accountOf (paramAt m 0) (paramAt m 1) = some x → (paramAt m 2).toNat = k →
      1 ≤ k → k ≤ 32 → exec (.readAccounts port m) s = .next (replied port m 10 0 (part k (s.accountWords x)) s))
    ∧ (∀ table k, s.serves m 3 2 → tableOf (selectorOf (paramAt m 0)) = some table →
      (paramAt m 1).toNat = k → 1 ≤ k → k ≤ 32 →
      table.first ≤ indexOf (paramAt m 0) → indexOf (paramAt m 0) ≤ table.last →
      (∀ data, s.entryWords table (indexOf (paramAt m 0)) = some data →
        exec (.tableRead port m) s = .next (replied port m 2 0 (part k data) s))
      ∧ (s.entryWords table (indexOf (paramAt m 0)) = none →
        exec (.tableRead port m) s = .next (replied port m 2 4 [] s)))
    ∧ ∀ bad : Nat → Prop, (∀ k, bad k ↔ k = 0 ∨ 32 < k) →
      (s.serves m 3 2 → sectionOf (paramAt m 0) = none ∨ bad (paramAt m 1).toNat →
        exec (.status port m) s = .next (replied port m 1 3 [] s))
      ∧ (s.serves m 3 2 → (paramAt m 0).toNat = 0 ∨ 6 < (paramAt m 0).toNat ∨ bad (paramAt m 1).toNat →
        exec (.legRead port m) s = .next (replied port m 4 3 [] s))
      ∧ (s.serves m 3 3 → accountOf (paramAt m 0) (paramAt m 1) = none ∨ bad (paramAt m 2).toNat →
        exec (.readAccounts port m) s = .next (replied port m 10 3 [] s))
      ∧ (s.serves m 3 2 → (∀ table, tableOf (selectorOf (paramAt m 0)) = some table →
          indexOf (paramAt m 0) < table.first ∨ table.last < indexOf (paramAt m 0))
          ∨ bad (paramAt m 1).toNat →
        exec (.tableRead port m) s = .next (replied port m 2 3 [] s))

/-- FLAGS READ answers the state of the fifteen flags and the mask, a bit for each cause and each leg (R161, R196),
and READ SNAPSHOT the head of the copy and its lines 2k - 1 and 2k (R138); neither changes anything but its reply's
queue. The two words of flags are the model's layout (log entry 10). -/
def Obligations.FlagsAndSnapshotAreRead : Prop :=
  ∀ (port : Port) (m : Message) (s : State),
    (s.entitled m 3 → ∃ causes legs mask : Word,
      exec (.flagsRead port m) s = .next (replied port m 14 0 [causes, legs, mask] s)
      ∧ (∀ i : UnloaderIx, legs.getLsbD i.val = s.notices.flags.get (.legEnded i))
      ∧ (∀ f : Flag, f.cause ≠ .legEnded → causes.getLsbD (f.cause.code - 1) = s.notices.flags.get f)
      ∧ (causes.getLsbD 0 = true ↔ ∃ i : UnloaderIx, s.notices.flags.get (.legEnded i) = true)
      ∧ ∀ c : Cause, mask.getLsbD (c.code - 1) = maskEnables s.notices.mask c)
    ∧ (∀ k, s.serves m 3 1 → (paramAt m 0).toNat = k →
      (k = 0 ∨ 48 < k → exec (.readSnapshot port m) s = .next (replied port m 12 3 [] s))
      ∧ (1 ≤ k → k ≤ 48 → s.weighing.snapshot = none →
        exec (.readSnapshot port m) s = .next (replied port m 12 4 [] s))
      ∧ ∀ x, 1 ≤ k → k ≤ 48 → s.weighing.snapshot = some x →
        exec (.readSnapshot port m) s = .next (replied port m 12 0
          (word2 x.number.toNat (num x.lot) :: word x.lines.length ::
            ((x.lines.drop (2 * k - 2)).take 2).flatMap fun l =>
              [word (l.vessel * 4096 + l.number * 256 + num l.bin), word (l.kg / 2 ^ 32),
                word (l.kg / 2 ^ 16), word l.kg]) s))

/-- A TABLE WRITE from a station with the ring it needs is answered; refused or without effect it leaves everything
as it was, and accepted it changes no leg, flag, calibration, stored grand total or address (R1, R8, R184). A lot
that is first defined has an empty chain and no kilograms, a rewrite keeps them, and a change of the group is
refused IN_USE while the lot is referred to (R13); so is a deletion, which frees the blocks of the chain and
discards the account (R15, R135). A bin is rewritten with its lot and fill kept, refused IN_USE for CLOSED while an
ACTIVE leg or a slug is bound for it, and deleted while nothing names it (R20). That a rewrite of a CLOSED bin with
CLOSED counts as such, is the model's choice (log entry 26). -/
def Obligations.TableWriteIsAnswered : Prop :=
  (∀ (port : Port) (m : Message) (s : State), s.addressed m → s.ringOfMessage m ≤ s.ringNeeded 3 m →
    ∃ result data u, exec (.tableWrite port m) s = .next (replied port m 3 result data u)
      ∧ (result ≠ 0 → u = s)
      ∧ sameBut [.tables, .watch, .tracker, .weighing, .seg, .path] s u)
  ∧ ∀ (port : Port) (m : Message) (s : State) (answer : Nat → State → Prop), s.addressed m → s.ringOfMessage m ≤ 1 →
    2 ≤ m.words.length →
    (∀ r u, answer r u ↔ exec (.tableWrite port m) s = .next (replied port m 3 r [] u)) →
    (∀ (n : LotIx) (referred : Prop), selectorOf (paramAt m 0) = 3 → indexOf (paramAt m 0) = num n →
      (referred ↔ (∃ k : HoldIx, ∃ h ∈ s.tables.holds[k], h.lot = some n)
        ∨ (∃ k : BinIx, ∃ b ∈ s.tables.bins[k], b.lot = some n) ∨ s.carriesGrain (fun g => g.lot = n)
        ∨ ∃ i : UnloaderIx, s.legs[i].state ≠ .idle ∧ s.legs[i].lot = some n) →
      (∀ x, actionOf (paramAt m 0) = 1 → 6 ≤ m.words.length → parseLot (m.words.drop 2) = .ok x →
        (s.tables.lots[n] = none → answer 0 (s.setLot n (some
          { cargoClass := x.cargoClass, group := x.group, permitted := x.permitted, chain := [], total := 0
            unattributed := 0 })))
        ∧ ∀ l, s.tables.lots[n] = some l →
          (l.group ≠ x.group → referred → answer 5 s)
          ∧ (l.group = x.group ∨ ¬ referred → answer 0 (s.setLot n (some
            { l with cargoClass := x.cargoClass, group := x.group, permitted := x.permitted }))))
      ∧ (actionOf (paramAt m 0) = 2 →
        (s.tables.lots[n] = none → answer 1 s)
        ∧ ∀ l, s.tables.lots[n] = some l →
          (referred → answer 5 s)
          ∧ (¬ referred → ∃ pool, answer 0 { s with
              tables := { s.tables with lots := put s.tables.lots n none }
              weighing := { s.weighing with pool := pool } }
            ∧ ∀ q : BlockIx, pool[q] = if q ∈ l.chain then [] else s.weighing.pool[q])))
    ∧ ∀ n : BinIx, selectorOf (paramAt m 0) = 5 → indexOf (paramAt m 0) = num n →
      (∀ (x : BinWrite) (busy : Prop), actionOf (paramAt m 0) = 1 → 7 ≤ m.words.length →
        parseBin (m.words.drop 2) = .ok x →
        (busy ↔ (∃ i : UnloaderIx, s.legs[i].state = .active ∧ s.legs[i].bin = some n)
          ∨ s.carriesGrain fun g => g.bin = n) →
        (s.tables.bins[n] = none → answer 0 (s.setBin n (some
          { capacity := x.capacity, margin := x.margin, isOpen := x.isOpen, lot := none, fill := 0 })))
        ∧ ∀ b, s.tables.bins[n] = some b →
          (x.isOpen = false → busy → answer 5 s)
          ∧ (x.isOpen = true ∨ ¬ busy → answer 0 (s.setBin n (some
            { b with capacity := x.capacity, margin := x.margin, isOpen := x.isOpen }))))
      ∧ ∀ used : Prop, actionOf (paramAt m 0) = 2 →
        (used ↔ (∃ k : RouteIx, ∃ e ∈ s.tables.routes[k], e.bin = n)
          ∨ (∃ i : UnloaderIx, s.legs[i].state ≠ .idle ∧ s.legs[i].bin = some n)
          ∨ s.carriesGrain fun g => g.bin = n) →
        (s.tables.bins[n] = none → answer 1 s)
        ∧ (s.tables.bins[n] ≠ none → used → answer 5 s)
        ∧ (s.tables.bins[n] ≠ none → ¬ used → answer 0 (s.setBin n none))

/-- A write of a hold that is not in use (R17): FREE_DIG with a lot and UNDECLARED without, whatever the phase was;
the discharged amount kept where the vessel and the hold number stay, and otherwise 0. A deletion discards the
entry. -/
def Obligations.HoldWriteSetsPhase : Prop :=
  ∀ (port : Port) (m : Message) (s : State) (n : HoldIx), s.addressed m → s.ringOfMessage m ≤ 1 →
    selectorOf (paramAt m 0) = 4 → indexOf (paramAt m 0) = num n → s.holdInUse n = false →
    (∀ x, 7 ≤ m.words.length → actionOf (paramAt m 0) = 1 → parseHold (m.words.drop 2) = .ok x →
      (∀ k : HoldIx, k ≠ n → ∀ h ∈ s.tables.holds[k], ¬ (h.vessel = x.vessel ∧ h.number = x.number)) →
      (∀ lot ∈ x.lot, (s.tables.lots[lot]).isSome) → ∀ discharged,
      (∀ h, s.tables.holds[n] = some h → h.vessel = x.vessel ∧ h.number = x.number →
        discharged = h.discharged) →
      ((∀ h ∈ s.tables.holds[n], ¬ (h.vessel = x.vessel ∧ h.number = x.number)) → discharged = 0) →
      exec (.tableWrite port m) s = .next (replied port m 3 0 [] (s.setHold n (some
        { vessel := x.vessel, number := x.number, lot := x.lot, declared := x.declared
          threshold := x.threshold, phase := if x.lot = none then .undeclared else .freeDig
          discharged := discharged }))))
    ∧ (2 ≤ m.words.length → actionOf (paramAt m 0) = 2 → (s.tables.holds[n]).isSome →
      exec (.tableWrite port m) s = .next (replied port m 3 0 [] (s.setHold n none)))

/-- The route walk (R10): it gives a belt list exactly where the belts lead, each once and at most six, from the
first belt of the route to its destination bin, by the listed positions; the bin and the unloader are defined, and
every listed diverter is met. -/
def Obligations.RouteWalkFollowsTheBelts : Prop :=
  ∀ (s : State) (x : RouteWrite) (belts : List BeltIx), (x.settings.map (·.diverter)).Nodup →
    (s.deriveBelts x = some belts ↔
      belts.head? = some x.firstBelt ∧ belts.Nodup ∧ belts.length ≤ 6
      ∧ (∀ k b c, belts[k]? = some b → belts[k + 1]? = some c → s.leadsTo x.settings b (.belt c))
      ∧ (∀ b, belts.getLast? = some b → s.leadsTo x.settings b (.bin x.bin))
      ∧ (s.tables.bins[x.bin]).isSome ∧ (s.unloaderStation x.unloader).isSome
      ∧ ∀ y ∈ x.settings, ∃ b ∈ belts, ∃ d ∈ s.beltData b, d.outlet = .diverter y.diverter)

/-- A write of a route (R11, R12): refused where the walk fails or a leg uses the route, and otherwise stored with
its belt list and no user; a route without users is deleted. The words in which the reply carries the belt list are
the model's layout (log entry 10). -/
def Obligations.RouteWriteStoresTheWalk : Prop :=
  ∀ (port : Port) (m : Message) (s : State) (k : RouteIx), s.addressed m → s.ringOfMessage m ≤ 1 →
    selectorOf (paramAt m 0) = 2 → indexOf (paramAt m 0) = num k →
    (∀ x, actionOf (paramAt m 0) = 1 → parseRoute (m.words.drop 2) = .ok x →
      4 + x.settings.length ≤ m.words.length →
      ((∃ e ∈ s.tables.routes[k], 0 < e.users) →
        exec (.tableWrite port m) s = .next (replied port m 3 5 [] s))
      ∧ ((∀ e ∈ s.tables.routes[k], e.users = 0) → s.deriveBelts x = none →
        exec (.tableWrite port m) s = .next (replied port m 3 10 [] s))
      ∧ ∀ belts, (∀ e ∈ s.tables.routes[k], e.users = 0) → s.deriveBelts x = some belts →
        exec (.tableWrite port m) s = .next (replied port m 3 0 (beltListWords belts)
          (s.setRoute k (some { unloader := x.unloader, firstBelt := x.firstBelt, settings := x.settings
                                bin := x.bin, belts := belts, users := 0 }))))
    ∧ ∀ e, actionOf (paramAt m 0) = 2 → 2 ≤ m.words.length → s.tables.routes[k] = some e →
      (e.users = 0 → exec (.tableWrite port m) s = .next (replied port m 3 0 [] (s.setRoute k none)))
      ∧ (0 < e.users → exec (.tableWrite port m) s = .next (replied port m 3 5 [] s))

/-- A station that is first defined (R8, R102, R123, R147): its watch record is new and, with a silence limit, its
timer loaded; a belt starts at position 0 and UNSURE, a diverter UNKNOWN with nothing pending, and an unloader's
weigher without a last count and with no remainder. A SUPERVISOR or PANEL has no record. Any write of a station is
answered NO_EFFECT where it deletes nothing, refused IN_USE where it meets what is in use and BUSY where it touches
a diverter with a pending divert (R1, R7), and is otherwise stored: a rewrite of the same kind and index keeps what
the other blocks hold, its timer loaded or stopped (R150), a belt UNSURE afresh (R8, R102); a deletion ends it; and
a change of the kind or the index is the deletion and then the first definition (R7). That IN_USE comes before
BUSY, that a write which changes nothing is refused like any other, and that the effects of the deletion come
first, with the clear head read before the write, are the model's choice (log entries 13 and 14). -/
def Obligations.StationIsDefined : Prop :=
  (∀ (port : Port) (m : Message) (s : State) (a : Addr) (e : StationEntry), s.addressed m →
    s.ringOfMessage m = 0 → selectorOf (paramAt m 0) = 1 → actionOf (paramAt m 0) = 1 →
    indexOf (paramAt m 0) = a.val → parseStation (s.addressTaken a) (m.words.drop 2) = .ok (some e) →
    (match e.kind with
      | .unloader _ _ => 11
      | .belt _ _ => 9
      | .diverter _ _ => 5
      | _ => 4) ≤ m.words.length →
    s.tables.stations[a] = none → s.stationInUse a (some e) = false →
    ∃ u, exec (.tableWrite port m) s = .next (replied port m 3 0 [] u)
      ∧ u.tables = { s.tables with stations := put s.tables.stations a (some e) }
      ∧ sameBut [.tables, .watch, .tracker, .weighing, .seg] s u
      ∧ (∀ i d, e.kind = .unloader i d → u.weighing = { s.weighing with
          weighers := put s.weighing.weighers i { s.weighing.weighers[i] with lastCount := none, remainder := 0 } }
        ∧ u.tracker = s.tracker ∧ u.seg = s.seg)
      ∧ (∀ b d, e.kind = .belt b d → u.tracker = { s.tracker with
          belts := put s.tracker.belts b (some
            { position := 0, lastTravel := none, running := none, condition := .unsure
              queue := [{ place := 0, grain := none, front := 0, rear := some 0, sources := 0
                          stage := .crossing, handOver := .nowhere }] }) }
        ∧ u.weighing = s.weighing ∧ u.seg = s.seg)
      ∧ (∀ k d, e.kind = .diverter k d → u.seg = { s.seg with
          diverters := put s.seg.diverters k (some { position := none, pending := none, holdTimer := none }) }
        ∧ u.weighing = s.weighing ∧ u.tracker = s.tracker)
      ∧ (e.kind = .supervisor ∨ e.kind = .panel → u = { s with tables := u.tables })
      ∧ ((∀ c, c = e.kind → c ≠ .supervisor ∧ c ≠ .panel) → u.watch = put s.watch a (some
          { state := if e.silenceLimit = 0 then .unwatched else .heard
            timer := if e.silenceLimit = 0 then none else some e.silenceLimit
            returnDue := false, lastSeq := none, duplicates := 0
            choke := ⟨false, false⟩, sweep := ⟨false, false⟩ })))
  ∧ (∀ (port : Port) (m : Message) (s : State) (a : Addr) (new : Option StationEntry) (busy : Prop),
    s.addressed m → s.ringOfMessage m = 0 → selectorOf (paramAt m 0) = 1 → indexOf (paramAt m 0) = a.val →
    (actionOf (paramAt m 0) = 2 ∧ new = none ∧ 2 ≤ m.words.length
      ∨ actionOf (paramAt m 0) = 1 ∧ parseStation (s.addressTaken a) (m.words.drop 2) = .ok new
        ∧ (match new.map (·.kind) with
          | some (.unloader _ _) => 11
          | some (.belt _ _) => 9
          | some (.diverter _ _) => 5
          | some _ => 4
          | none => 3) ≤ m.words.length) →
    (busy ↔ ∃ e ∈ s.tables.stations[a], ∃ k d, e.kind = .diverter k d
      ∧ ∃ r ∈ s.seg.diverters[k], r.pending ≠ none) →
    (s.tables.stations[a] = none → new = none → exec (.tableWrite port m) s = .next (replied port m 3 1 [] s))
    ∧ (s.tables.stations[a] ≠ none ∨ new ≠ none →
      (s.writeMeetsUse a new → exec (.tableWrite port m) s = .next (replied port m 3 5 [] s))
      ∧ (¬ s.writeMeetsUse a new → busy → exec (.tableWrite port m) s = .next (replied port m 3 6 [] s))
      ∧ (¬ s.writeMeetsUse a new → ¬ busy →
        exec (.tableWrite port m) s = .next (replied port m 3 0 [] (storeStation a new s)))))
  ∧ (∀ (s : State) (a : Addr) (x y : StationEntry) (kept : State), s.tables.stations[a] = some x →
    x.kind.sameIndex y.kind = true →
    kept = { s with
      tables := { s.tables with stations := put s.tables.stations a (some y) }
      watch := put s.watch a (s.watch[a].map fun w =>
        { w with
          state := if y.silenceLimit = 0 then .unwatched else if w.state = .unwatched then .heard else w.state
          timer := if y.silenceLimit = 0 then none else some y.silenceLimit }) } →
    ((∀ b d, x.kind ≠ .belt b d) → storeStation a (some y) s = kept)
    ∧ ∀ b d d', x.kind = .belt b d → y.kind = .belt b d' → ∀ clear : Prop,
      (clear ↔ ∀ r ∈ s.tracker.belts[b], ∀ z ∈ r.queue, z.stage = .travelling) →
      (∀ n, d.outlet = .diverter n → d'.outlet ≠ .diverter n → ¬ clear →
        storeStation a (some y) s = headClearReport n (enterUnsure b kept))
      ∧ ((∀ n, d.outlet = .diverter n → d'.outlet = .diverter n ∨ clear) →
        storeStation a (some y) s = enterUnsure b kept))
  ∧ (∀ (s : State) (a : Addr) (x : StationEntry) (gone : State), s.tables.stations[a] = some x →
    gone = { s with
      tables := { s.tables with stations := put s.tables.stations a none }
      watch := put s.watch a none } →
    (∀ i d, x.kind = .unloader i d → ∀ v : State,
      (∀ ref, s.tracker.sources[i] = some ref → v = (closeSource ref.belt ref.place gone).setSource i none) →
      (s.tracker.sources[i] = none → v = gone) →
      storeStation a none s = v.setWeigher i { s.weighing.weighers[i] with lastCount := none, remainder := 0 })
    ∧ (∀ k d, x.kind = .diverter k d → storeStation a none s = gone.setDiverter k none)
    ∧ (x.kind = .supervisor ∨ x.kind = .panel → storeStation a none s = gone)
    ∧ ∀ b d, x.kind = .belt b d → ∀ clear : Prop,
      (clear ↔ ∀ r ∈ s.tracker.belts[b], ∀ z ∈ r.queue, z.stage = .travelling) →
      ∃ v : State, s.letsGo b v ∧ v.tracker.belts[b] = none ∧ sameBut [.tracker] gone v
        ∧ (∀ n, d.outlet = .diverter n → ¬ clear → storeStation a none s = headClearReport n v)
        ∧ ((∀ n, d.outlet ≠ .diverter n) ∨ clear → storeStation a none s = v))
  ∧ ∀ (s : State) (a : Addr) (x y : StationEntry), s.tables.stations[a] = some x →
    x.kind.sameIndex y.kind = false →
    storeStation a (some y) s = storeStation a (some y) (storeStation a none s)

/-- A LEG START with a parameter out of range is refused RANGE with the position of the first one (R27); within
range, an ACTIVE leg is BUSY, an ENDED one NOT_CLEARED, and one without an UNLOADER entry or without a written
calibration slot UNCALIBRATED (R28). Then the hold, the route and the bin (R29): NOT_FOUND without a hold or its
lot, HOLD_EMPTY, ROUTE_INVALID, NOT_PERMITTED, BIN_CLOSED, BIN_LOT; and the ACTIVE legs that share a belt (R30):
LOT_CONFLICT with any of them before ROUTE_CONFLICT. Two lots are compatible where they are one lot or of one group
above 0 (R14). Each refusal changes nothing. -/
def Obligations.LegStartIsChecked : Prop :=
  ∀ (port : Port) (m : Message) (s : State) (leg hold route disable : Nat), s.serves m 1 4 →
    leg = (paramAt m 0).toNat → hold = (paramAt m 1).toNat → route = (paramAt m 2).toNat →
    disable = (paramAt m 3).toNat → ∀ answer : Nat → List Word → Prop,
    (∀ r data, answer r data ↔ exec (.legStart port m) s = .next (replied port m 5 r data s)) →
    (leg < 1 ∨ 6 < leg → answer 3 [1])
    ∧ (1 ≤ leg ∧ leg ≤ 6 → hold < 1 ∨ 18 < hold → answer 3 [2])
    ∧ (1 ≤ leg ∧ leg ≤ 6 → 1 ≤ hold ∧ hold ≤ 18 → route < 1 ∨ 32 < route → answer 3 [3])
    ∧ (1 ≤ leg ∧ leg ≤ 6 → 1 ≤ hold ∧ hold ≤ 18 → 1 ≤ route ∧ route ≤ 32 → 1 < disable → answer 3 [4])
    ∧ (1 ≤ hold ∧ hold ≤ 18 → 1 ≤ route ∧ route ≤ 32 → disable ≤ 1 → ∀ i : UnloaderIx, leg = num i →
      (s.legs[i].state = .active → answer 6 [])
      ∧ (s.legs[i].state = .ended → answer 7 [])
      ∧ (s.legs[i].state = .idle → s.unloaderStation i = none ∨ (∀ k : SlotIx, (s.nv.slots[i])[k] = none) →
        answer 8 []))
    ∧ (∀ p q : LotIx, s.compatible p q = true ↔ p = q ∨ ∃ x ∈ s.tables.lots[p], ∃ y ∈ s.tables.lots[q],
      x.group = y.group ∧ x.group ≠ 0)
    ∧ ∀ (i : UnloaderIx) (n : HoldIx) (k : RouteIx), leg = num i → hold = num n → route = num k → disable ≤ 1 →
      s.legs[i].state = .idle → s.unloaderStation i ≠ none → (∃ j : SlotIx, (s.nv.slots[i])[j] ≠ none) →
      ((∀ h, s.tables.holds[n] = some h → h.lot = none) → answer 4 [])
      ∧ ∀ h lot, s.tables.holds[n] = some h → h.lot = some lot →
        (h.phase = .empty → answer 9 [])
        ∧ (h.phase ≠ .empty → (∀ e, s.tables.routes[k] = some e → e.unloader ≠ i) → answer 10 [])
        ∧ ∀ e l b, h.phase ≠ .empty → s.tables.routes[k] = some e → e.unloader = i →
          s.tables.lots[lot] = some l → s.tables.bins[e.bin] = some b →
          (l.permitted.getLsbD e.bin.val = false → answer 11 [])
          ∧ (l.permitted.getLsbD e.bin.val = true → b.isOpen = false → answer 12 [])
          ∧ (l.permitted.getLsbD e.bin.val = true → b.isOpen = true →
            (∃ x ∈ b.lot, s.compatible x lot = false) → answer 13 [])
          ∧ ∀ shares : UnloaderIx → Prop, l.permitted.getLsbD e.bin.val = true → b.isOpen = true →
            (∀ x ∈ b.lot, s.compatible x lot = true) →
            (∀ j, shares j ↔ s.legs[j].state = .active ∧ ∃ c ∈ e.belts, c ∈ s.legs[j].belts) →
            ((∃ j, shares j ∧ ∃ x, s.legs[j].lot = some x ∧ s.compatible x lot = false) → answer 14 [])
            ∧ ((∀ j, shares j → ∃ x, s.legs[j].lot = some x ∧ s.compatible x lot = true) →
              (∃ j, shares j ∧ (¬ joinsCleanly e.belts s.legs[j].belts ∨ s.legs[j].bin ≠ some e.bin
                ∨ ∃ x ∈ e.settings, ∃ y ∈ s.legSettings s.legs[j],
                  x.diverter = y.diverter ∧ x.position ≠ y.position)) → answer 15 [])

/-- An accepted LEG START (R28 to R31, R65): the leg is ACTIVE with what the hold and the route give it, its
requested feed the pending feed or 0, and g and f at 0; its route has one user more, its lot has the account line
of its hold and bin, one created with 0 kilograms where it had none, or POOL_EXHAUSTED is raised where there is no
place for one (R133); its filters are clear, and the other ACTIVE legs are granted no more than before. That the
condition reads the filters as the start has cleared them is the model's choice (log entry 15). -/
def Obligations.LegStartAccepted : Prop :=
  ∀ (port : Port) (m : Message) (s : State) (i : UnloaderIx) (n : HoldIx) (k : RouteIx) (h : Hold) (e : Route)
    (lot : LotIx) (l : Lot) (b : Bin) (a : Addr) (d : UnloaderData),
    s.serves m 1 4 → (paramAt m 0).toNat = num i → (paramAt m 1).toNat = num n →
    (paramAt m 2).toNat = num k → (paramAt m 3).toNat ≤ 1 →
    s.legs[i].state = .idle → s.unloaderStation i = some (a, d) →
    (∃ j : SlotIx, (s.nv.slots[i])[j] ≠ none) →
    s.tables.holds[n] = some h → h.lot = some lot → h.phase ≠ .empty →
    s.tables.routes[k] = some e → e.unloader = i →
    s.tables.lots[lot] = some l → s.tables.bins[e.bin] = some b → l.permitted.getLsbD e.bin.val = true →
    b.isOpen = true → (∀ x ∈ b.lot, s.compatible x lot = true) →
    (∀ j : UnloaderIx, s.legs[j].state = .active → sharesBelt e.belts s.legs[j].belts = true →
      (∃ x, s.legs[j].lot = some x ∧ s.compatible x lot = true) ∧ s.legs[j].bin = some e.bin
        ∧ sameFromFirstShared e.belts s.legs[j].belts = true
        ∧ settingsDiffer e.settings (s.legSettings s.legs[j]) = false) →
    ∃ t c chain, exec (.legStart port m) s = .next (replied port m 5 0
        [word (num lot), word (num e.bin), word (s.legs[i].pendingFeed.getD 0), word c] t)
      ∧ t.legs[i] =
        { state := .active, hold := some n, route := some k, belts := e.belts, lot := some lot
          bin := some e.bin, r := s.legs[i].pendingFeed.getD 0, g := 0, f := 0, pendingFeed := none
          endReason := none, condition := some (t.grantCondition i), powerShort := false
          noticeDisable := decide ((paramAt m 3).toNat = 1) }
      ∧ c = (t.grantCondition i).code
      ∧ t.tables = { s.tables with
          routes := put s.tables.routes k (some { e with users := e.users + 1 })
          lots := put s.tables.lots lot (some { l with chain := chain }) }
      ∧ ((∃ y ∈ t.linesOf chain, y.vessel = h.vessel ∧ y.number = h.number ∧ y.bin = e.bin)
        ∨ t.notices.flags.get .poolExhausted = true)
      ∧ t.weighing = { s.weighing with pool := t.weighing.pool }
      ∧ (s.AccountLaw → ∀ (found room : Prop) (lines : List Line), lines = s.linesOf l.chain →
        (found ↔ ∃ z ∈ lines, z.vessel = h.vessel ∧ z.number = h.number ∧ z.bin = e.bin) →
        (room ↔ ∃ q, l.chain.getLast? = some q ∧ s.weighing.pool[q].length < 8) →
        (found → chain = l.chain ∧ t.linesOf chain = lines)
        ∧ (¬ found → room → chain = l.chain ∧ t.linesOf chain = lines ++ [⟨h.vessel, h.number, e.bin, 0⟩])
        ∧ (∀ q : BlockIx, ¬ found → ¬ room → s.blockFree q = true → (∀ p : BlockIx, p < q → s.blockFree p = false) →
          chain = l.chain ++ [q] ∧ t.linesOf chain = lines ++ [⟨h.vessel, h.number, e.bin, 0⟩])
        ∧ (found ∨ room ∨ (∃ q : BlockIx, s.blockFree q = true) → t.notices = s.notices)
        ∧ (¬ found → ¬ room → (∀ q : BlockIx, s.blockFree q = false) → chain = l.chain ∧ t.linesOf chain = lines
          ∧ t.notices = (raiseFlag .poolExhausted (num lot) l.chain.length false s).notices)
        ∧ ∀ j : LotIx, j ≠ lot → ∀ z ∈ s.tables.lots[j], t.linesOf z.chain = s.linesOf z.chain)
      ∧ t.watch = put s.watch a (s.watch[a].map fun w =>
          { w with choke := ⟨false, false⟩, sweep := ⟨false, false⟩ })
      ∧ (∀ j : UnloaderIx, j ≠ i → s.legs[j].state ≠ .active → t.legs[j] = s.legs[j])
      ∧ (∀ j : UnloaderIx, j ≠ i → s.legs[j].state = .active →
        t.legs[j] = { s.legs[j] with g := t.legs[j].g, f := t.legs[j].f }
        ∧ t.legs[j].g ≤ s.legs[j].g
        ∧ (t.legs[j].g ≠ s.legs[j].g → t.legs[j].f = min s.legs[j].r t.legs[j].g)
        ∧ (t.legs[j].g = s.legs[j].g → t.legs[j].f = s.legs[j].f))
      ∧ sameBut [.tables, .legs, .weighing, .watch, .path, .notices] s t

/-- LEG STOP (R33, R34, R35): an ACTIVE leg ends, with its hold EMPTY for HOLD_EMPTY, a guard FEED of 0 where its
forwarded feed was above 0, one user less on its route, and its flag; an IDLE or ENDED leg is answered NO_EFFECT,
and a leg or a reason out of range RANGE. That a guard order which still waits stays as it is where the forwarded
feed is 0 already, is the model's choice (log entry 28). -/
def Obligations.LegStopEndsTheLeg : Prop :=
  ∀ (port : Port) (m : Message) (s : State), s.serves m 1 2 →
    (∀ i : UnloaderIx, ∀ reason, (paramAt m 0).toNat = num i → s.legs[i].state = .active →
      ((paramAt m 1).toNat = 1 ∧ reason = EndReason.ordered
        ∨ (paramAt m 1).toNat = 2 ∧ reason = EndReason.holdEmpty) →
      ∀ s1 s2 s3 s4 : State,
      s1 = (match reason, s.legs[i].hold with
        | .holdEmpty, some n => s.setHold n (s.tables.holds[n].map fun h => { h with phase := .empty })
        | _, _ => s) →
      s2 = s1.setLeg i { s.legs[i] with
        state := .ended, endReason := some reason, g := 0, f := 0, condition := none, powerShort := false } →
      s3 = (if 0 < s.legs[i].f then handGuard i 0 s2 else s2) →
      s4 = (match s.legs[i].route with
        | some k => s3.setRoute k (s3.tables.routes[k].map fun e => { e with users := e.users - 1 })
        | none => s3) →
      exec (.legStop port m) s = .next (replied port m 6 0 []
        (raiseFlag (.legEnded i) (num i) ((paramAt m 1).toNat) s.legs[i].noticeDisable s4)))
    ∧ (∀ i : UnloaderIx, (paramAt m 0).toNat = num i → s.legs[i].state ≠ .active →
      1 ≤ (paramAt m 1).toNat ∧ (paramAt m 1).toNat ≤ 2 →
      exec (.legStop port m) s = .next (replied port m 6 1 [] s))
    ∧ ((paramAt m 0).toNat = 0 ∨ 6 < (paramAt m 0).toNat ∨ (paramAt m 1).toNat = 0 ∨ 2 < (paramAt m 1).toNat →
      exec (.legStop port m) s = .next (replied port m 6 3 [] s))

/-- LEG CLEAR (R38): an ENDED leg becomes IDLE and gives up what it held, an IDLE leg gives up its pending feed, an
ACTIVE leg is refused BUSY, and an index out of range RANGE. -/
def Obligations.LegClearEmptiesTheRecord : Prop :=
  ∀ (port : Port) (m : Message) (s : State), s.serves m 1 1 →
    (∀ i : UnloaderIx, (paramAt m 0).toNat = num i →
      (s.legs[i].state = .ended → exec (.legClear port m) s = .next (replied port m 7 0 [] (s.setLeg i
        { state := .idle, hold := none, route := none, belts := [], lot := none, bin := none
          r := 0, g := 0, f := 0, pendingFeed := none, endReason := none
          condition := s.legs[i].condition, powerShort := s.legs[i].powerShort, noticeDisable := false })))
      ∧ (s.legs[i].state = .idle → exec (.legClear port m) s =
        .next (replied port m 7 0 [] (s.setLeg i { s.legs[i] with pendingFeed := none })))
      ∧ (s.legs[i].state = .active → exec (.legClear port m) s = .next (replied port m 7 6 [] s)))
    ∧ ((paramAt m 0).toNat = 0 ∨ 6 < (paramAt m 0).toNat →
      exec (.legClear port m) s = .next (replied port m 7 3 [] s))

/-- SET ALLOCATOR (R53): the budget set takes the budget, read as 20 000 above that, and the period set one of the
four periods; what is in use stays. Another period is refused RANGE. -/
def Obligations.SetAllocatorSetsTheNext : Prop :=
  ∀ (port : Port) (m : Message) (s : State) (budget period : Nat), s.serves m 1 2 →
    budget = min (paramAt m 0).toNat 20000 → period = (paramAt m 1).toNat →
    (period = 100 ∨ period = 200 ∨ period = 500 ∨ period = 1000 →
      exec (.setAllocator port m) s = .next (replied port m 8 0
        [word budget, word period, word s.alloc.budgetInUse, word s.alloc.periodInUse]
        { s with alloc := { s.alloc with budgetSet := budget, periodSet := period } }))
    ∧ (period ≠ 100 → period ≠ 200 → period ≠ 500 → period ≠ 1000 →
      exec (.setAllocator port m) s = .next (replied port m 8 3 [] s))

/-- BIN RESET (R22): a bin that is not in use loses its lot and its fill; one in use is refused IN_USE, one that is
not defined NOT_FOUND, and a number out of range RANGE. -/
def Obligations.BinResetEmptiesTheBin : Prop :=
  ∀ (port : Port) (m : Message) (s : State), s.serves m 1 1 →
    (∀ (n : BinIx) (b : Bin) (used : Prop), (paramAt m 0).toNat = num n → s.tables.bins[n] = some b →
      (used ↔ (∃ i : UnloaderIx, s.legs[i].state = .active ∧ s.legs[i].bin = some n)
        ∨ ∃ k : BeltIx, ∃ r ∈ s.tracker.belts[k], ∃ y ∈ r.queue, ∃ g ∈ y.grain, g.bin = n) →
      (¬ used → exec (.binReset port m) s =
        .next (replied port m 9 0 [] (s.setBin n (some { b with lot := none, fill := 0 }))))
      ∧ (used → exec (.binReset port m) s = .next (replied port m 9 5 [] s)))
    ∧ (∀ n : BinIx, (paramAt m 0).toNat = num n → s.tables.bins[n] = none →
      exec (.binReset port m) s = .next (replied port m 9 4 [] s))
    ∧ ((paramAt m 0).toNat = 0 ∨ 48 < (paramAt m 0).toNat →
      exec (.binReset port m) s = .next (replied port m 9 3 [] s))

/-- SNAPSHOT LOT (R137): the snapshot number goes up by one, wrapping from 255 to 0, and the buffer becomes a copy
of the lot's account; a lot out of range is refused RANGE and one that is not defined NOT_FOUND. -/
def Obligations.SnapshotCopiesTheLot : Prop :=
  ∀ (port : Port) (m : Message) (s : State), s.serves m 3 1 →
    (∀ (i : LotIx) (l : Lot), (paramAt m 0).toNat = num i → s.tables.lots[i] = some l →
      exec (.snapshotLot port m) s = .next (replied port m 11 0
        ([word ((s.weighing.snapshotNumber.toNat + 1) % 256), word (num i), word (s.linesOf l.chain).length]
          ++ kgWords l.total ++ kgWords l.unattributed)
        { s with weighing := { s.weighing with
            snapshotNumber := s.weighing.snapshotNumber + 1
            snapshot := some
              { number := s.weighing.snapshotNumber + 1, lot := i, total := l.total
                unattributed := l.unattributed, lines := s.linesOf l.chain } } }))
    ∧ (∀ i : LotIx, (paramAt m 0).toNat = num i → s.tables.lots[i] = none →
      exec (.snapshotLot port m) s = .next (replied port m 11 4 [] s))
    ∧ ((paramAt m 0).toNat = 0 ∨ 16 < (paramAt m 0).toNat →
      exec (.snapshotLot port m) s = .next (replied port m 11 3 [] s))

/-- CALIBRATE (R140) and COMMISSION (R190): an accepted one starts its nonvolatile write and queues no reply; the
refusals stand in the order of their checks, and change nothing. -/
def Obligations.WritesAreStarted : Prop :=
  ∀ (port : Port) (m : Message) (s : State), s.serves m 0 2 →
    (∀ (i : UnloaderIx) (v : Nat), (paramAt m 0).toNat = num i → v = (paramAt m 1).toNat →
      100 ≤ v → v ≤ 60000 →
      (s.legs[i].state = .active ∨ s.writer ≠ .idle →
        exec (.calibrate port m) s = .next (replied port m 13 6 [] s))
      ∧ (s.legs[i].state ≠ .active → s.writer = .idle → (∀ k : SlotIx, (s.nv.slots[i])[k] ≠ none) →
        exec (.calibrate port m) s = .next (replied port m 13 16 [] s))
      ∧ ∀ k : SlotIx, s.legs[i].state ≠ .active → s.writer = .idle → (s.nv.slots[i])[k] = none →
        (∀ j : SlotIx, j < k → (s.nv.slots[i])[j] ≠ none) →
        exec (.calibrate port m) s = .next { s with writer := .calibration i k v m.source port })
    ∧ ((paramAt m 0).toNat = 0 ∨ 6 < (paramAt m 0).toNat ∨ (paramAt m 1).toNat < 100
        ∨ 60000 < (paramAt m 1).toNat →
      exec (.calibrate port m) s = .next (replied port m 13 3 [] s))
    ∧ (∀ own station : Addr, (paramAt m 0).toNat = own.val → (paramAt m 1).toNat = station.val →
      Addresses.valid ⟨own, station⟩ →
      ((s.tables.stations[own]).isSome → exec (.commission port m) s = .next (replied port m 19 5 [] s))
      ∧ (s.tables.stations[own] = none → s.mgmt.writing ≠ none →
        exec (.commission port m) s = .next (replied port m 19 6 [] s))
      ∧ (s.tables.stations[own] = none → s.mgmt.writing = none → exec (.commission port m) s =
        .next { s with mgmt := { s.mgmt with
          writing := some { addresses := ⟨own, station⟩, requester := m.source, port := port } } }))
    ∧ ((paramAt m 0).toNat = 0 ∨ 62 < (paramAt m 0).toNat ∨ (paramAt m 1).toNat = 0
        ∨ 62 < (paramAt m 1).toNat ∨ (paramAt m 0).toNat = (paramAt m 1).toNat →
      exec (.commission port m) s = .next (replied port m 19 3 [] s))

/-- FLAGS CLEAR (R196): each named flag becomes clear, LEG_ENDED only for the legs named, and with the counter
option every counter of R198 becomes 0; the reply gives the flags. A cause, a leg or an option out of range is
refused RANGE. NOTICE MASK (R197): the mask becomes the set given, and no flag changes; a set with a cause outside
1 to 10 is refused RANGE. The words in which the reply carries the flags are the model's layout (log entry 10). -/
def Obligations.FlagsAreClearedAndMasked : Prop :=
  (∀ (port : Port) (m : Message) (s : State) (causes legs option : Word), s.serves m 1 3 →
    causes = paramAt m 0 → legs = paramAt m 1 → option = paramAt m 2 → ∀ named : Flag → Bool,
    (∀ f, named f = (causes.getLsbD (f.cause.code - 1) && (match f with
      | .legEnded i => legs.getLsbD i.val
      | _ => true))) →
    (causes.toNat < 2 ^ 10 → (causes.getLsbD 0 = true → legs.toNat < 2 ^ 6) → option.toNat ≤ 1 →
      ∃ t data, exec (.flagsClear port m) s = .next (replied port m 15 0 data t)
        ∧ data = t.notices.flags.words
        ∧ (∀ f : Flag, t.notices.flags.get f = (s.notices.flags.get f && !named f))
        ∧ t.notices.mask = s.notices.mask
        ∧ (option = 0 → t = { s with notices := t.notices })
        ∧ (option = 1 → sameBut [.notices, .path, .watch, .weighing, .seg] s t
          ∧ t.path = { s.path with
              checkErrorsA := 0, checkErrorsB := 0, dropsA := 0, dropsB := 0, misuse := 0 }
          ∧ (∀ a : Addr, t.watch[a] = s.watch[a].map fun w => { w with duplicates := 0 })
          ∧ t.weighing = { s.weighing with weighers := t.weighing.weighers }
          ∧ (∀ i : UnloaderIx, t.weighing.weighers[i] = { s.weighing.weighers[i] with glitches := 0 })
          ∧ t.seg = { s.seg with breachCount := 0 }))
    ∧ (2 ^ 10 ≤ causes.toNat ∨ (causes.getLsbD 0 = true ∧ 2 ^ 6 ≤ legs.toNat) ∨ 1 < option.toNat →
      exec (.flagsClear port m) s = .next (replied port m 15 3 [] s)))
  ∧ ∀ (port : Port) (m : Message) (s : State), s.serves m 1 1 →
    ((paramAt m 0).toNat < 2 ^ 10 → ∃ mask,
      exec (.noticeMask port m) s = .next (replied port m 16 0 [paramAt m 0]
        { s with notices := { s.notices with mask := mask } })
      ∧ ∀ c : Cause, maskEnables mask c = (paramAt m 0).getLsbD (c.code - 1))
    ∧ (2 ^ 10 ≤ (paramAt m 0).toNat → exec (.noticeMask port m) s = .next (replied port m 16 3 [] s))

/-- BULK OPEN (R187): a run within its table opens the cursor anew, the previous owner named; any other is refused
RANGE, and leaves the cursor as it was. Its idle timer reaches 30 s (R186): the cursor closes, with the flag where
its run is unfinished. A closed cursor has no timer, and one whose timer has started again does not expire. That a
refused BULK OPEN leaves the idle timer running as well, is the model's choice (log entry 31). -/
def Obligations.CursorOpensAndExpires : Prop :=
  (∀ (port : Port) (m : Message) (s : State) (first count : Nat), s.addressed m →
    s.ringOfMessage m ≤ s.ringNeeded 17 m → 4 ≤ m.words.length → first = (paramAt m 1).toNat →
    count = (paramAt m 2).toNat →
    (∀ table previous, tableOf (paramAt m 0).toNat = some table →
      table.first ≤ first → first ≤ table.last → 1 ≤ count → count ≤ 64 → first + count - 1 ≤ table.last →
      previous = (match s.mgmt.cursor with
        | some x => if x.owner = m.source then 0 else x.owner.val
        | none => 0) →
      exec (.bulkOpen port m) s = .next (replied port m 17 0
        [paramAt m 0, paramAt m 1, paramAt m 2, word previous]
        { s with mgmt := { s.mgmt with cursor := some ⟨m.source, table, first, count, 0⟩ } }))
    ∧ ((∀ table, tableOf (paramAt m 0).toNat = some table →
        first < table.first ∨ table.last < first ∨ count < 1 ∨ 64 < count
          ∨ table.last < first + count - 1) →
      exec (.bulkOpen port m) s = .next (replied port m 17 3 [] s)))
  ∧ ∀ s : State, s.power = .on →
    (∀ x, s.mgmt.cursor = some x → 30000 ≤ x.idle → 0 < x.remaining → exec .cursorIdleExpiry s =
      .next (raiseFlag .cursorExpired x.owner.val x.remaining false
        { s with mgmt := { s.mgmt with cursor := none } }))
    ∧ (∀ x, s.mgmt.cursor = some x → 30000 ≤ x.idle → x.remaining = 0 → exec .cursorIdleExpiry s =
      .next { s with mgmt := { s.mgmt with cursor := none } })
    ∧ ((∀ x, s.mgmt.cursor = some x → x.idle < 30000) → exec .cursorIdleExpiry s = .next s)

/-- BULK DATA (R188): refused NO_CURSOR without an own cursor, CURSOR_AT at the end of the run or at another index;
otherwise the entry is taken as a TABLE WRITE of the cursor's table is, and an accepted one moves the cursor on. So
a bin in range that is not yet defined is defined, without a lot and with a booked fill of 0 (R20). The idle timer
starts again once the ownership check has passed (R185). -/
def Obligations.BulkDataWritesTheEntry : Prop :=
  ∀ (port : Port) (m : Message) (s : State), s.addressed m → s.ringOfMessage m ≤ s.ringNeeded 18 m →
    ((∀ x, s.mgmt.cursor = some x → x.owner ≠ m.source) →
      firstMissing (writeLayout s.cursorTable (m.words.drop 1)) (m.words.length - 1) 1 = none →
      exec (.bulkData port m) s = .next (replied port m 18 17 [] s))
    ∧ ∀ x t, s.mgmt.cursor = some x → x.owner = m.source →
      t = { s with mgmt := { s.mgmt with cursor := some { x with idle := 0 } } } →
      (x.remaining = 0 ∨ indexOf (paramAt m 0) ≠ x.next →
        firstMissing (writeLayout (some x.table) (m.words.drop 1)) (m.words.length - 1) 1 = none →
        exec (.bulkData port m) s = .next (replied port m 18 18 [word x.next, word x.remaining] t))
      ∧ (0 < x.remaining → indexOf (paramAt m 0) = x.next → selectorOf (paramAt m 0) = x.table.code →
        firstMissing (writeLayout (some x.table) (m.words.drop 1)) (m.words.length - 1) 1 = none →
        ∃ result data u, exec (.tableWrite port m) t = .next (replied port m 3 result data u)
          ∧ exec (.bulkData port m) s = .next (if result ≤ 1 then
              replied port m 18 result (word (x.next + 1) :: word (x.remaining - 1) :: data)
                (u.setCursor (some ⟨x.owner, x.table, x.next + 1, x.remaining - 1, 0⟩))
            else replied port m 18 result data u))
      ∧ ∀ (n : BinIx) (y : BinWrite), x.table = .bin → 0 < x.remaining → x.next = num n →
        indexOf (paramAt m 0) = num n → actionOf (paramAt m 0) = 1 → 7 ≤ m.words.length →
        parseBin (m.words.drop 2) = .ok y → s.tables.bins[n] = none →
        exec (.bulkData port m) s = .next (replied port m 18 0 [word (num n + 1), word (x.remaining - 1)]
          ((s.setBin n (some { capacity := y.capacity, margin := y.margin, isOpen := y.isOpen
                               lot := none, fill := 0 })).setCursor
            (some ⟨x.owner, .bin, num n + 1, x.remaining - 1, 0⟩)))

/-- RESTART (R24, R49, R75, R103, R124, R146, R159, R177, R185, R192, R199), sent to the part or broadcast: every
block gives up what is in flight and keeps what it has learned. The queues hold the reply at the head of its
port's, the copy of a broadcast one at the head of the other port's, and behind them the CANCELLED answers in
diverter order; the guard orders that wait stand in their places, those of 0 for the other feeding legs behind, and
all carry 0. The addresses of a discarded COMMISSION reply come into force (R191). That the copy joins before the
CANCELLED answers is the model's choice (log entry 8). -/
def Obligations.RestartGivesUpWhatIsInFlight : Prop :=
  ∀ (port : Port) (m : Message) (s : State) (copy : List Queued), s.passes 1 m → s.ringOfMessage m = 0 →
    (m.dest = s.mgmt.inForce.own ∧ copy = []
      ∨ m.dest ≠ s.mgmt.inForce.own ∧ m.dest = broadcast
        ∧ copy = [.forwarded (messageTelegram m .request [20])]) →
    ∃ t, exec (.restart port m) s = .next t
    ∧ t.power = s.power ∧ t.alloc = s.alloc ∧ t.nv = s.nv ∧ t.writer = s.writer ∧ t.clock = s.clock
    ∧ (∀ i : UnloaderIx, t.legs[i] = Leg.atRest)
    ∧ t.tables = { s.tables with routes := t.tables.routes }
    ∧ (∀ k : RouteIx, t.tables.routes[k] = s.tables.routes[k].map fun e => { e with users := 0 })
    ∧ (∀ b : BeltIx, t.tracker.belts[b] = s.tracker.belts[b].map fun r =>
        { r with
          lastTravel := none, condition := .unsure
          queue := [{ place := 0, grain := none, front := r.position, rear := some r.position
                      sources := 0, stage := .crossing, handOver := .nowhere }] })
    ∧ (∀ i : UnloaderIx, t.tracker.sources[i] = none)
    ∧ (∀ d : DiverterIx, t.seg.diverters[d] = s.seg.diverters[d].map fun _ =>
        { position := none, pending := none, holdTimer := none })
    ∧ t.seg.breach = none ∧ t.seg.breachCount = 0
    ∧ t.weighing = { s.weighing with
        weighers := t.weighing.weighers, snapshot := none, snapshotNumber := 0 }
    ∧ (∀ i : UnloaderIx, t.weighing.weighers[i] =
        { s.weighing.weighers[i] with lastCount := none, glitches := 0 })
    ∧ (∀ a : Addr, t.watch[a] = s.watch[a].map fun w =>
        { w with
          state := if s.limitAt a = 0 then .unwatched else .heard
          timer := if s.limitAt a = 0 then none else some (s.limitAt a)
          returnDue := false, lastSeq := none, duplicates := 0
          choke := ⟨false, false⟩, sweep := ⟨false, false⟩ })
    ∧ (∀ f : Flag, t.notices.flags.get f = false) ∧ t.notices.mask = s.notices.mask
    ∧ t.mgmt.cursor = none ∧ t.mgmt.writing = s.mgmt.writing
    ∧ (∀ dropped, dropped = (s.path.egressA ++ s.path.forwardB).filterMap Queued.takesForce →
      (dropped = [] → t.mgmt.inForce = s.mgmt.inForce) ∧ (dropped ≠ [] → t.mgmt.inForce ∈ dropped))
    ∧ (∀ i : UnloaderIx, 0 < s.legs[i].f → (s.unloaderStation i).isSome → t.guardSetpoint i = some 0)
    ∧ t.path.guardB.map (·.unloader) = s.path.guardB.map (·.unloader)
        ++ ((List.finRange 6).filter fun i => decide (0 < s.legs[i].f) && (s.unloaderStation i).isSome
          && !(s.path.guardB.any fun x => x.unloader == i))
    ∧ (∀ x ∈ t.path.guardB, x.setpoint = 0)
    ∧ (∀ cancelled, cancelled = (List.finRange 8).filterMap (fun d => s.seg.diverters[d].bind fun r =>
        r.pending.map fun x => Queued.own x.source .answer [word x.dest.val, 2, 8, x.payload.getD 1 0] none) →
      (port = .a → t.path.egressA = replyWords m 20 0 [] :: cancelled ∧ t.path.forwardB = copy)
      ∧ (port = .b → t.path.egressA = copy ++ cancelled ∧ t.path.forwardB = [replyWords m 20 0 []]))
    ∧ t.path.sendingA = s.path.sendingA ∧ t.path.sendingB = s.path.sendingB
    ∧ t.path.originCount = s.path.originCount
    ∧ t.path.checkErrorsA = 0 ∧ t.path.checkErrorsB = 0 ∧ t.path.dropsA = 0 ∧ t.path.dropsB = 0
    ∧ t.path.misuse = 0

/-- A cause occurs (R194, R195): its flag is set, no other flag and no mask changes, and one NOTICE goes to the
egress queue exactly where the flag was clear, the cause is enabled, and the notice is not disabled for the leg. -/
def Obligations.CausesSetFlagsAndSendNotices : Prop :=
  ∀ (f : Flag) (subject value : Nat) (disabled : Bool) (s : State),
    (raiseFlag f subject value disabled s).notices.flags.get f = true
    ∧ (∀ g : Flag, g ≠ f →
      (raiseFlag f subject value disabled s).notices.flags.get g = s.notices.flags.get g)
    ∧ (raiseFlag f subject value disabled s).notices.mask = s.notices.mask
    ∧ sameBut [.notices, .path] s (raiseFlag f subject value disabled s)
    ∧ (s.notices.flags.get f = false → maskEnables s.notices.mask f.cause = true → disabled = false →
      (raiseFlag f subject value disabled s).path = (joinEgress
        (.own broadcast .notice [word f.cause.code, word subject, word value] none) s).path)
    ∧ (s.notices.flags.get f = true ∨ maskEnables s.notices.mask f.cause = false ∨ disabled = true →
      (raiseFlag f subject value disabled s).path = s.path)

/-! ### The laws that every step keeps -/

/-- Every step keeps the law of the three feeds (R51) and the ranges of the allocator (R50). -/
def Obligations.StepKeepsFeedsInOrder : Prop :=
  ∀ s t : State, step s = .next t →
    (s.FeedLaw → t.FeedLaw) ∧ (s.AllocatorLaw → t.AllocatorLaw)

/-- Every step keeps the user counts of the routes (R12), the grants within the rated capacities (R51), the belts
within their capacities (R60), and the power within the budget in use (R63), together with the ranges of the
station table that they rest on (R3 to R6). -/
def Obligations.StepKeepsGrantsWithinLimits : Prop :=
  ∀ s t : State, step s = .next t → s.Grants → t.Grants

/-- Every step keeps what the law of the slug queues says of their number and of the UNKNOWN slug (R82), that of
the pending orders (R104), and the places of the port queues (R170 to R172). The order of the front marks, which
R82 names as well, is no part of it: the front distances are taken modulo 2^32, so that a state whose oldest slug
is almost that far along keeps the order in no step. That every slug has a place of its own is the model's (log
entry 18). -/
def Obligations.StepKeepsQueues : Prop :=
  ∀ s t : State, step s = .next t →
    (s.SlugLaw → t.SlugLaw) ∧ (s.TimerLaw → t.TimerLaw) ∧ (s.QueueLaw → t.QueueLaw)

/-- Every step keeps the law of the lot accounts and of the pool (R132, R134): each total is the sum of its lines
and its unattributed amount, no chain holds two lines for one hold and bin, and no block is in two chains. -/
def Obligations.StepKeepsLotAccounts : Prop :=
  ∀ s t : State, step s = .next t → s.AccountLaw → t.AccountLaw

/-- Every step keeps the written slots the first ones and in range, and leaves every written slot its value (R139);
no stored grand total decreases (R142). -/
def Obligations.StepKeepsCalibration : Prop :=
  ∀ s t : State, step s = .next t → s.CalibrationLaw → t.CalibrationLaw ∧ keepsStorage s t

/-- Every step keeps each pair of addresses valid and free of station entries (R3, R184, R189, R190), and each kind
index at one address (R7). That this covers the pairs of addresses in COMMISSION replies that wait or are being
sent, is the model's choice (log entries 9 and 21). -/
def Obligations.StepKeepsAddresses : Prop :=
  ∀ s t : State, step s = .next t → (s.AddressLaw → t.AddressLaw) ∧ (s.StationLaw → t.StationLaw)

/-- Every step keeps the law that the checks of LEG START uphold (R30): any two ACTIVE legs whose belt lists share a
belt have compatible lots, the same belts from the first shared one on, and one destination bin. -/
def Obligations.StepKeepsLegsApart : Prop :=
  ∀ s t : State, step s = .next t → s.MergeLaw → t.MergeLaw

end
end

