-- ==== Sys2Proof/Laws/State.lean ====
section
/-!
SUPPORT. The small lemmas of the state: reading an entry of a vector that has been changed, and one lemma for
each field and each update of one record.
-/

namespace Sys2Proof

/-! ### Changing one entry of a vector -/

theorem put_get {α : Type} {n : Nat} (v : Vector α n) (i j : Fin n) (x : α) :
    (put v i x)[j] = if j = i then x else v[j] := by
  by_cases h : j = i
  · subst h; simp [put]
  · have : i.val ≠ j.val := fun e => h (Fin.ext e.symm)
    simp [put, this, h]

/-- `put_get` in the form to which `simp` brings an index. -/
@[simp] theorem put_get_val {α : Type} {n : Nat} (v : Vector α n) (i j : Fin n) (x : α) :
    (put v i x)[j.val] = if j = i then x else v[j.val] := put_get v i j x

theorem put_get_same {α : Type} {n : Nat} (v : Vector α n) (i : Fin n) (x : α) : (put v i x)[i] = x := by
  simp

theorem put_get_other {α : Type} {n : Nat} (v : Vector α n) {i j : Fin n} (x : α) (h : j ≠ i) :
    (put v i x)[j] = v[j] := by
  simp [h]

theorem ofFn_get {α : Type} {n : Nat} (f : Fin n → α) (i : Fin n) : (Vector.ofFn f)[i] = f i := by simp

theorem replicate_get {α : Type} {n : Nat} (x : α) (i : Fin n) : (Vector.replicate n x)[i] = x := by simp

theorem map_get {α β : Type} {n : Nat} (f : α → β) (v : Vector α n) (i : Fin n) :
    (v.map f)[i] = f v[i] := by simp

theorem mem_allIx {n : Nat} (i : Fin n) : i ∈ allIx n := List.mem_finRange i

end Sys2Proof

namespace Sys2Proof.Machine

/-! ### setLeg -/

@[simp] theorem State.setLeg_power (s : State) (i : UnloaderIx) (l : Leg) :
    (s.setLeg i l).power = s.power := rfl
@[simp] theorem State.setLeg_tables (s : State) (i : UnloaderIx) (l : Leg) :
    (s.setLeg i l).tables = s.tables := rfl
@[simp] theorem State.setLeg_alloc (s : State) (i : UnloaderIx) (l : Leg) :
    (s.setLeg i l).alloc = s.alloc := rfl
@[simp] theorem State.setLeg_tracker (s : State) (i : UnloaderIx) (l : Leg) :
    (s.setLeg i l).tracker = s.tracker := rfl
@[simp] theorem State.setLeg_seg (s : State) (i : UnloaderIx) (l : Leg) :
    (s.setLeg i l).seg = s.seg := rfl
@[simp] theorem State.setLeg_weighing (s : State) (i : UnloaderIx) (l : Leg) :
    (s.setLeg i l).weighing = s.weighing := rfl
@[simp] theorem State.setLeg_writer (s : State) (i : UnloaderIx) (l : Leg) :
    (s.setLeg i l).writer = s.writer := rfl
@[simp] theorem State.setLeg_nv (s : State) (i : UnloaderIx) (l : Leg) :
    (s.setLeg i l).nv = s.nv := rfl
@[simp] theorem State.setLeg_watch (s : State) (i : UnloaderIx) (l : Leg) :
    (s.setLeg i l).watch = s.watch := rfl
@[simp] theorem State.setLeg_path (s : State) (i : UnloaderIx) (l : Leg) :
    (s.setLeg i l).path = s.path := rfl
@[simp] theorem State.setLeg_mgmt (s : State) (i : UnloaderIx) (l : Leg) :
    (s.setLeg i l).mgmt = s.mgmt := rfl
@[simp] theorem State.setLeg_notices (s : State) (i : UnloaderIx) (l : Leg) :
    (s.setLeg i l).notices = s.notices := rfl
@[simp] theorem State.setLeg_clock (s : State) (i : UnloaderIx) (l : Leg) :
    (s.setLeg i l).clock = s.clock := rfl
@[simp] theorem State.setLeg_freeUsed (s : State) (i : UnloaderIx) (l : Leg) :
    (s.setLeg i l).freeUsed = s.freeUsed := rfl
@[simp] theorem State.setLeg_pending (s : State) (i : UnloaderIx) (l : Leg) :
    (s.setLeg i l).pending = s.pending := rfl
@[simp] theorem State.setLeg_legs (s : State) (i : UnloaderIx) (l : Leg) :
    (s.setLeg i l).legs = put s.legs i l := rfl

/-! ### setStation -/

@[simp] theorem State.setStation_power (s : State) (a : Addr) (e : Option StationEntry) :
    (s.setStation a e).power = s.power := rfl
@[simp] theorem State.setStation_legs (s : State) (a : Addr) (e : Option StationEntry) :
    (s.setStation a e).legs = s.legs := rfl
@[simp] theorem State.setStation_alloc (s : State) (a : Addr) (e : Option StationEntry) :
    (s.setStation a e).alloc = s.alloc := rfl
@[simp] theorem State.setStation_tracker (s : State) (a : Addr) (e : Option StationEntry) :
    (s.setStation a e).tracker = s.tracker := rfl
@[simp] theorem State.setStation_seg (s : State) (a : Addr) (e : Option StationEntry) :
    (s.setStation a e).seg = s.seg := rfl
@[simp] theorem State.setStation_weighing (s : State) (a : Addr) (e : Option StationEntry) :
    (s.setStation a e).weighing = s.weighing := rfl
@[simp] theorem State.setStation_writer (s : State) (a : Addr) (e : Option StationEntry) :
    (s.setStation a e).writer = s.writer := rfl
@[simp] theorem State.setStation_nv (s : State) (a : Addr) (e : Option StationEntry) :
    (s.setStation a e).nv = s.nv := rfl
@[simp] theorem State.setStation_watch (s : State) (a : Addr) (e : Option StationEntry) :
    (s.setStation a e).watch = s.watch := rfl
@[simp] theorem State.setStation_path (s : State) (a : Addr) (e : Option StationEntry) :
    (s.setStation a e).path = s.path := rfl
@[simp] theorem State.setStation_mgmt (s : State) (a : Addr) (e : Option StationEntry) :
    (s.setStation a e).mgmt = s.mgmt := rfl
@[simp] theorem State.setStation_notices (s : State) (a : Addr) (e : Option StationEntry) :
    (s.setStation a e).notices = s.notices := rfl
@[simp] theorem State.setStation_clock (s : State) (a : Addr) (e : Option StationEntry) :
    (s.setStation a e).clock = s.clock := rfl
@[simp] theorem State.setStation_freeUsed (s : State) (a : Addr) (e : Option StationEntry) :
    (s.setStation a e).freeUsed = s.freeUsed := rfl
@[simp] theorem State.setStation_pending (s : State) (a : Addr) (e : Option StationEntry) :
    (s.setStation a e).pending = s.pending := rfl
@[simp] theorem State.setStation_stations (s : State) (a : Addr) (e : Option StationEntry) :
    (s.setStation a e).tables.stations = put s.tables.stations a e := rfl
@[simp] theorem State.setStation_routes (s : State) (a : Addr) (e : Option StationEntry) :
    (s.setStation a e).tables.routes = s.tables.routes := rfl
@[simp] theorem State.setStation_lots (s : State) (a : Addr) (e : Option StationEntry) :
    (s.setStation a e).tables.lots = s.tables.lots := rfl
@[simp] theorem State.setStation_holds (s : State) (a : Addr) (e : Option StationEntry) :
    (s.setStation a e).tables.holds = s.tables.holds := rfl
@[simp] theorem State.setStation_bins (s : State) (a : Addr) (e : Option StationEntry) :
    (s.setStation a e).tables.bins = s.tables.bins := rfl

/-! ### setRoute -/

@[simp] theorem State.setRoute_power (s : State) (i : RouteIx) (e : Option Route) :
    (s.setRoute i e).power = s.power := rfl
@[simp] theorem State.setRoute_legs (s : State) (i : RouteIx) (e : Option Route) :
    (s.setRoute i e).legs = s.legs := rfl
@[simp] theorem State.setRoute_alloc (s : State) (i : RouteIx) (e : Option Route) :
    (s.setRoute i e).alloc = s.alloc := rfl
@[simp] theorem State.setRoute_tracker (s : State) (i : RouteIx) (e : Option Route) :
    (s.setRoute i e).tracker = s.tracker := rfl
@[simp] theorem State.setRoute_seg (s : State) (i : RouteIx) (e : Option Route) :
    (s.setRoute i e).seg = s.seg := rfl
@[simp] theorem State.setRoute_weighing (s : State) (i : RouteIx) (e : Option Route) :
    (s.setRoute i e).weighing = s.weighing := rfl
@[simp] theorem State.setRoute_writer (s : State) (i : RouteIx) (e : Option Route) :
    (s.setRoute i e).writer = s.writer := rfl
@[simp] theorem State.setRoute_nv (s : State) (i : RouteIx) (e : Option Route) :
    (s.setRoute i e).nv = s.nv := rfl
@[simp] theorem State.setRoute_watch (s : State) (i : RouteIx) (e : Option Route) :
    (s.setRoute i e).watch = s.watch := rfl
@[simp] theorem State.setRoute_path (s : State) (i : RouteIx) (e : Option Route) :
    (s.setRoute i e).path = s.path := rfl
@[simp] theorem State.setRoute_mgmt (s : State) (i : RouteIx) (e : Option Route) :
    (s.setRoute i e).mgmt = s.mgmt := rfl
@[simp] theorem State.setRoute_notices (s : State) (i : RouteIx) (e : Option Route) :
    (s.setRoute i e).notices = s.notices := rfl
@[simp] theorem State.setRoute_clock (s : State) (i : RouteIx) (e : Option Route) :
    (s.setRoute i e).clock = s.clock := rfl
@[simp] theorem State.setRoute_freeUsed (s : State) (i : RouteIx) (e : Option Route) :
    (s.setRoute i e).freeUsed = s.freeUsed := rfl
@[simp] theorem State.setRoute_pending (s : State) (i : RouteIx) (e : Option Route) :
    (s.setRoute i e).pending = s.pending := rfl
@[simp] theorem State.setRoute_stations (s : State) (i : RouteIx) (e : Option Route) :
    (s.setRoute i e).tables.stations = s.tables.stations := rfl
@[simp] theorem State.setRoute_routes (s : State) (i : RouteIx) (e : Option Route) :
    (s.setRoute i e).tables.routes = put s.tables.routes i e := rfl
@[simp] theorem State.setRoute_lots (s : State) (i : RouteIx) (e : Option Route) :
    (s.setRoute i e).tables.lots = s.tables.lots := rfl
@[simp] theorem State.setRoute_holds (s : State) (i : RouteIx) (e : Option Route) :
    (s.setRoute i e).tables.holds = s.tables.holds := rfl
@[simp] theorem State.setRoute_bins (s : State) (i : RouteIx) (e : Option Route) :
    (s.setRoute i e).tables.bins = s.tables.bins := rfl

/-! ### setLot -/

@[simp] theorem State.setLot_power (s : State) (i : LotIx) (e : Option Lot) :
    (s.setLot i e).power = s.power := rfl
@[simp] theorem State.setLot_legs (s : State) (i : LotIx) (e : Option Lot) :
    (s.setLot i e).legs = s.legs := rfl
@[simp] theorem State.setLot_alloc (s : State) (i : LotIx) (e : Option Lot) :
    (s.setLot i e).alloc = s.alloc := rfl
@[simp] theorem State.setLot_tracker (s : State) (i : LotIx) (e : Option Lot) :
    (s.setLot i e).tracker = s.tracker := rfl
@[simp] theorem State.setLot_seg (s : State) (i : LotIx) (e : Option Lot) :
    (s.setLot i e).seg = s.seg := rfl
@[simp] theorem State.setLot_weighing (s : State) (i : LotIx) (e : Option Lot) :
    (s.setLot i e).weighing = s.weighing := rfl
@[simp] theorem State.setLot_writer (s : State) (i : LotIx) (e : Option Lot) :
    (s.setLot i e).writer = s.writer := rfl
@[simp] theorem State.setLot_nv (s : State) (i : LotIx) (e : Option Lot) :
    (s.setLot i e).nv = s.nv := rfl
@[simp] theorem State.setLot_watch (s : State) (i : LotIx) (e : Option Lot) :
    (s.setLot i e).watch = s.watch := rfl
@[simp] theorem State.setLot_path (s : State) (i : LotIx) (e : Option Lot) :
    (s.setLot i e).path = s.path := rfl
@[simp] theorem State.setLot_mgmt (s : State) (i : LotIx) (e : Option Lot) :
    (s.setLot i e).mgmt = s.mgmt := rfl
@[simp] theorem State.setLot_notices (s : State) (i : LotIx) (e : Option Lot) :
    (s.setLot i e).notices = s.notices := rfl
@[simp] theorem State.setLot_clock (s : State) (i : LotIx) (e : Option Lot) :
    (s.setLot i e).clock = s.clock := rfl
@[simp] theorem State.setLot_freeUsed (s : State) (i : LotIx) (e : Option Lot) :
    (s.setLot i e).freeUsed = s.freeUsed := rfl
@[simp] theorem State.setLot_pending (s : State) (i : LotIx) (e : Option Lot) :
    (s.setLot i e).pending = s.pending := rfl
@[simp] theorem State.setLot_stations (s : State) (i : LotIx) (e : Option Lot) :
    (s.setLot i e).tables.stations = s.tables.stations := rfl
@[simp] theorem State.setLot_routes (s : State) (i : LotIx) (e : Option Lot) :
    (s.setLot i e).tables.routes = s.tables.routes := rfl
@[simp] theorem State.setLot_lots (s : State) (i : LotIx) (e : Option Lot) :
    (s.setLot i e).tables.lots = put s.tables.lots i e := rfl
@[simp] theorem State.setLot_holds (s : State) (i : LotIx) (e : Option Lot) :
    (s.setLot i e).tables.holds = s.tables.holds := rfl
@[simp] theorem State.setLot_bins (s : State) (i : LotIx) (e : Option Lot) :
    (s.setLot i e).tables.bins = s.tables.bins := rfl

/-! ### setHold -/

@[simp] theorem State.setHold_power (s : State) (i : HoldIx) (e : Option Hold) :
    (s.setHold i e).power = s.power := rfl
@[simp] theorem State.setHold_legs (s : State) (i : HoldIx) (e : Option Hold) :
    (s.setHold i e).legs = s.legs := rfl
@[simp] theorem State.setHold_alloc (s : State) (i : HoldIx) (e : Option Hold) :
    (s.setHold i e).alloc = s.alloc := rfl
@[simp] theorem State.setHold_tracker (s : State) (i : HoldIx) (e : Option Hold) :
    (s.setHold i e).tracker = s.tracker := rfl
@[simp] theorem State.setHold_seg (s : State) (i : HoldIx) (e : Option Hold) :
    (s.setHold i e).seg = s.seg := rfl
@[simp] theorem State.setHold_weighing (s : State) (i : HoldIx) (e : Option Hold) :
    (s.setHold i e).weighing = s.weighing := rfl
@[simp] theorem State.setHold_writer (s : State) (i : HoldIx) (e : Option Hold) :
    (s.setHold i e).writer = s.writer := rfl
@[simp] theorem State.setHold_nv (s : State) (i : HoldIx) (e : Option Hold) :
    (s.setHold i e).nv = s.nv := rfl
@[simp] theorem State.setHold_watch (s : State) (i : HoldIx) (e : Option Hold) :
    (s.setHold i e).watch = s.watch := rfl
@[simp] theorem State.setHold_path (s : State) (i : HoldIx) (e : Option Hold) :
    (s.setHold i e).path = s.path := rfl
@[simp] theorem State.setHold_mgmt (s : State) (i : HoldIx) (e : Option Hold) :
    (s.setHold i e).mgmt = s.mgmt := rfl
@[simp] theorem State.setHold_notices (s : State) (i : HoldIx) (e : Option Hold) :
    (s.setHold i e).notices = s.notices := rfl
@[simp] theorem State.setHold_clock (s : State) (i : HoldIx) (e : Option Hold) :
    (s.setHold i e).clock = s.clock := rfl
@[simp] theorem State.setHold_freeUsed (s : State) (i : HoldIx) (e : Option Hold) :
    (s.setHold i e).freeUsed = s.freeUsed := rfl
@[simp] theorem State.setHold_pending (s : State) (i : HoldIx) (e : Option Hold) :
    (s.setHold i e).pending = s.pending := rfl
@[simp] theorem State.setHold_stations (s : State) (i : HoldIx) (e : Option Hold) :
    (s.setHold i e).tables.stations = s.tables.stations := rfl
@[simp] theorem State.setHold_routes (s : State) (i : HoldIx) (e : Option Hold) :
    (s.setHold i e).tables.routes = s.tables.routes := rfl
@[simp] theorem State.setHold_lots (s : State) (i : HoldIx) (e : Option Hold) :
    (s.setHold i e).tables.lots = s.tables.lots := rfl
@[simp] theorem State.setHold_holds (s : State) (i : HoldIx) (e : Option Hold) :
    (s.setHold i e).tables.holds = put s.tables.holds i e := rfl
@[simp] theorem State.setHold_bins (s : State) (i : HoldIx) (e : Option Hold) :
    (s.setHold i e).tables.bins = s.tables.bins := rfl

/-! ### setBin -/

@[simp] theorem State.setBin_power (s : State) (i : BinIx) (e : Option Bin) :
    (s.setBin i e).power = s.power := rfl
@[simp] theorem State.setBin_legs (s : State) (i : BinIx) (e : Option Bin) :
    (s.setBin i e).legs = s.legs := rfl
@[simp] theorem State.setBin_alloc (s : State) (i : BinIx) (e : Option Bin) :
    (s.setBin i e).alloc = s.alloc := rfl
@[simp] theorem State.setBin_tracker (s : State) (i : BinIx) (e : Option Bin) :
    (s.setBin i e).tracker = s.tracker := rfl
@[simp] theorem State.setBin_seg (s : State) (i : BinIx) (e : Option Bin) :
    (s.setBin i e).seg = s.seg := rfl
@[simp] theorem State.setBin_weighing (s : State) (i : BinIx) (e : Option Bin) :
    (s.setBin i e).weighing = s.weighing := rfl
@[simp] theorem State.setBin_writer (s : State) (i : BinIx) (e : Option Bin) :
    (s.setBin i e).writer = s.writer := rfl
@[simp] theorem State.setBin_nv (s : State) (i : BinIx) (e : Option Bin) :
    (s.setBin i e).nv = s.nv := rfl
@[simp] theorem State.setBin_watch (s : State) (i : BinIx) (e : Option Bin) :
    (s.setBin i e).watch = s.watch := rfl
@[simp] theorem State.setBin_path (s : State) (i : BinIx) (e : Option Bin) :
    (s.setBin i e).path = s.path := rfl
@[simp] theorem State.setBin_mgmt (s : State) (i : BinIx) (e : Option Bin) :
    (s.setBin i e).mgmt = s.mgmt := rfl
@[simp] theorem State.setBin_notices (s : State) (i : BinIx) (e : Option Bin) :
    (s.setBin i e).notices = s.notices := rfl
@[simp] theorem State.setBin_clock (s : State) (i : BinIx) (e : Option Bin) :
    (s.setBin i e).clock = s.clock := rfl
@[simp] theorem State.setBin_freeUsed (s : State) (i : BinIx) (e : Option Bin) :
    (s.setBin i e).freeUsed = s.freeUsed := rfl
@[simp] theorem State.setBin_pending (s : State) (i : BinIx) (e : Option Bin) :
    (s.setBin i e).pending = s.pending := rfl
@[simp] theorem State.setBin_stations (s : State) (i : BinIx) (e : Option Bin) :
    (s.setBin i e).tables.stations = s.tables.stations := rfl
@[simp] theorem State.setBin_routes (s : State) (i : BinIx) (e : Option Bin) :
    (s.setBin i e).tables.routes = s.tables.routes := rfl
@[simp] theorem State.setBin_lots (s : State) (i : BinIx) (e : Option Bin) :
    (s.setBin i e).tables.lots = s.tables.lots := rfl
@[simp] theorem State.setBin_holds (s : State) (i : BinIx) (e : Option Bin) :
    (s.setBin i e).tables.holds = s.tables.holds := rfl
@[simp] theorem State.setBin_bins (s : State) (i : BinIx) (e : Option Bin) :
    (s.setBin i e).tables.bins = put s.tables.bins i e := rfl

/-! ### setBelt -/

@[simp] theorem State.setBelt_power (s : State) (i : BeltIx) (r : Option BeltRecord) :
    (s.setBelt i r).power = s.power := rfl
@[simp] theorem State.setBelt_tables (s : State) (i : BeltIx) (r : Option BeltRecord) :
    (s.setBelt i r).tables = s.tables := rfl
@[simp] theorem State.setBelt_legs (s : State) (i : BeltIx) (r : Option BeltRecord) :
    (s.setBelt i r).legs = s.legs := rfl
@[simp] theorem State.setBelt_alloc (s : State) (i : BeltIx) (r : Option BeltRecord) :
    (s.setBelt i r).alloc = s.alloc := rfl
@[simp] theorem State.setBelt_seg (s : State) (i : BeltIx) (r : Option BeltRecord) :
    (s.setBelt i r).seg = s.seg := rfl
@[simp] theorem State.setBelt_weighing (s : State) (i : BeltIx) (r : Option BeltRecord) :
    (s.setBelt i r).weighing = s.weighing := rfl
@[simp] theorem State.setBelt_writer (s : State) (i : BeltIx) (r : Option BeltRecord) :
    (s.setBelt i r).writer = s.writer := rfl
@[simp] theorem State.setBelt_nv (s : State) (i : BeltIx) (r : Option BeltRecord) :
    (s.setBelt i r).nv = s.nv := rfl
@[simp] theorem State.setBelt_watch (s : State) (i : BeltIx) (r : Option BeltRecord) :
    (s.setBelt i r).watch = s.watch := rfl
@[simp] theorem State.setBelt_path (s : State) (i : BeltIx) (r : Option BeltRecord) :
    (s.setBelt i r).path = s.path := rfl
@[simp] theorem State.setBelt_mgmt (s : State) (i : BeltIx) (r : Option BeltRecord) :
    (s.setBelt i r).mgmt = s.mgmt := rfl
@[simp] theorem State.setBelt_notices (s : State) (i : BeltIx) (r : Option BeltRecord) :
    (s.setBelt i r).notices = s.notices := rfl
@[simp] theorem State.setBelt_clock (s : State) (i : BeltIx) (r : Option BeltRecord) :
    (s.setBelt i r).clock = s.clock := rfl
@[simp] theorem State.setBelt_freeUsed (s : State) (i : BeltIx) (r : Option BeltRecord) :
    (s.setBelt i r).freeUsed = s.freeUsed := rfl
@[simp] theorem State.setBelt_pending (s : State) (i : BeltIx) (r : Option BeltRecord) :
    (s.setBelt i r).pending = s.pending := rfl
@[simp] theorem State.setBelt_belts (s : State) (i : BeltIx) (r : Option BeltRecord) :
    (s.setBelt i r).tracker.belts = put s.tracker.belts i r := rfl
@[simp] theorem State.setBelt_sources (s : State) (i : BeltIx) (r : Option BeltRecord) :
    (s.setBelt i r).tracker.sources = s.tracker.sources := rfl

/-! ### setSource -/

@[simp] theorem State.setSource_power (s : State) (i : UnloaderIx) (r : Option SourceRef) :
    (s.setSource i r).power = s.power := rfl
@[simp] theorem State.setSource_tables (s : State) (i : UnloaderIx) (r : Option SourceRef) :
    (s.setSource i r).tables = s.tables := rfl
@[simp] theorem State.setSource_legs (s : State) (i : UnloaderIx) (r : Option SourceRef) :
    (s.setSource i r).legs = s.legs := rfl
@[simp] theorem State.setSource_alloc (s : State) (i : UnloaderIx) (r : Option SourceRef) :
    (s.setSource i r).alloc = s.alloc := rfl
@[simp] theorem State.setSource_seg (s : State) (i : UnloaderIx) (r : Option SourceRef) :
    (s.setSource i r).seg = s.seg := rfl
@[simp] theorem State.setSource_weighing (s : State) (i : UnloaderIx) (r : Option SourceRef) :
    (s.setSource i r).weighing = s.weighing := rfl
@[simp] theorem State.setSource_writer (s : State) (i : UnloaderIx) (r : Option SourceRef) :
    (s.setSource i r).writer = s.writer := rfl
@[simp] theorem State.setSource_nv (s : State) (i : UnloaderIx) (r : Option SourceRef) :
    (s.setSource i r).nv = s.nv := rfl
@[simp] theorem State.setSource_watch (s : State) (i : UnloaderIx) (r : Option SourceRef) :
    (s.setSource i r).watch = s.watch := rfl
@[simp] theorem State.setSource_path (s : State) (i : UnloaderIx) (r : Option SourceRef) :
    (s.setSource i r).path = s.path := rfl
@[simp] theorem State.setSource_mgmt (s : State) (i : UnloaderIx) (r : Option SourceRef) :
    (s.setSource i r).mgmt = s.mgmt := rfl
@[simp] theorem State.setSource_notices (s : State) (i : UnloaderIx) (r : Option SourceRef) :
    (s.setSource i r).notices = s.notices := rfl
@[simp] theorem State.setSource_clock (s : State) (i : UnloaderIx) (r : Option SourceRef) :
    (s.setSource i r).clock = s.clock := rfl
@[simp] theorem State.setSource_freeUsed (s : State) (i : UnloaderIx) (r : Option SourceRef) :
    (s.setSource i r).freeUsed = s.freeUsed := rfl
@[simp] theorem State.setSource_pending (s : State) (i : UnloaderIx) (r : Option SourceRef) :
    (s.setSource i r).pending = s.pending := rfl
@[simp] theorem State.setSource_belts (s : State) (i : UnloaderIx) (r : Option SourceRef) :
    (s.setSource i r).tracker.belts = s.tracker.belts := rfl
@[simp] theorem State.setSource_sources (s : State) (i : UnloaderIx) (r : Option SourceRef) :
    (s.setSource i r).tracker.sources = put s.tracker.sources i r := rfl

/-! ### setDiverter -/

@[simp] theorem State.setDiverter_power (s : State) (i : DiverterIx) (r : Option DiverterRecord) :
    (s.setDiverter i r).power = s.power := rfl
@[simp] theorem State.setDiverter_tables (s : State) (i : DiverterIx) (r : Option DiverterRecord) :
    (s.setDiverter i r).tables = s.tables := rfl
@[simp] theorem State.setDiverter_legs (s : State) (i : DiverterIx) (r : Option DiverterRecord) :
    (s.setDiverter i r).legs = s.legs := rfl
@[simp] theorem State.setDiverter_alloc (s : State) (i : DiverterIx) (r : Option DiverterRecord) :
    (s.setDiverter i r).alloc = s.alloc := rfl
@[simp] theorem State.setDiverter_tracker (s : State) (i : DiverterIx) (r : Option DiverterRecord) :
    (s.setDiverter i r).tracker = s.tracker := rfl
@[simp] theorem State.setDiverter_weighing (s : State) (i : DiverterIx) (r : Option DiverterRecord) :
    (s.setDiverter i r).weighing = s.weighing := rfl
@[simp] theorem State.setDiverter_writer (s : State) (i : DiverterIx) (r : Option DiverterRecord) :
    (s.setDiverter i r).writer = s.writer := rfl
@[simp] theorem State.setDiverter_nv (s : State) (i : DiverterIx) (r : Option DiverterRecord) :
    (s.setDiverter i r).nv = s.nv := rfl
@[simp] theorem State.setDiverter_watch (s : State) (i : DiverterIx) (r : Option DiverterRecord) :
    (s.setDiverter i r).watch = s.watch := rfl
@[simp] theorem State.setDiverter_path (s : State) (i : DiverterIx) (r : Option DiverterRecord) :
    (s.setDiverter i r).path = s.path := rfl
@[simp] theorem State.setDiverter_mgmt (s : State) (i : DiverterIx) (r : Option DiverterRecord) :
    (s.setDiverter i r).mgmt = s.mgmt := rfl
@[simp] theorem State.setDiverter_notices (s : State) (i : DiverterIx) (r : Option DiverterRecord) :
    (s.setDiverter i r).notices = s.notices := rfl
@[simp] theorem State.setDiverter_clock (s : State) (i : DiverterIx) (r : Option DiverterRecord) :
    (s.setDiverter i r).clock = s.clock := rfl
@[simp] theorem State.setDiverter_freeUsed (s : State) (i : DiverterIx) (r : Option DiverterRecord) :
    (s.setDiverter i r).freeUsed = s.freeUsed := rfl
@[simp] theorem State.setDiverter_pending (s : State) (i : DiverterIx) (r : Option DiverterRecord) :
    (s.setDiverter i r).pending = s.pending := rfl
@[simp] theorem State.setDiverter_diverters (s : State) (i : DiverterIx) (r : Option DiverterRecord) :
    (s.setDiverter i r).seg.diverters = put s.seg.diverters i r := rfl
@[simp] theorem State.setDiverter_breach (s : State) (i : DiverterIx) (r : Option DiverterRecord) :
    (s.setDiverter i r).seg.breach = s.seg.breach := rfl
@[simp] theorem State.setDiverter_breachCount (s : State) (i : DiverterIx) (r : Option DiverterRecord) :
    (s.setDiverter i r).seg.breachCount = s.seg.breachCount := rfl

/-! ### setWeigher -/

@[simp] theorem State.setWeigher_power (s : State) (i : UnloaderIx) (w : Weigher) :
    (s.setWeigher i w).power = s.power := rfl
@[simp] theorem State.setWeigher_tables (s : State) (i : UnloaderIx) (w : Weigher) :
    (s.setWeigher i w).tables = s.tables := rfl
@[simp] theorem State.setWeigher_legs (s : State) (i : UnloaderIx) (w : Weigher) :
    (s.setWeigher i w).legs = s.legs := rfl
@[simp] theorem State.setWeigher_alloc (s : State) (i : UnloaderIx) (w : Weigher) :
    (s.setWeigher i w).alloc = s.alloc := rfl
@[simp] theorem State.setWeigher_tracker (s : State) (i : UnloaderIx) (w : Weigher) :
    (s.setWeigher i w).tracker = s.tracker := rfl
@[simp] theorem State.setWeigher_seg (s : State) (i : UnloaderIx) (w : Weigher) :
    (s.setWeigher i w).seg = s.seg := rfl
@[simp] theorem State.setWeigher_writer (s : State) (i : UnloaderIx) (w : Weigher) :
    (s.setWeigher i w).writer = s.writer := rfl
@[simp] theorem State.setWeigher_nv (s : State) (i : UnloaderIx) (w : Weigher) :
    (s.setWeigher i w).nv = s.nv := rfl
@[simp] theorem State.setWeigher_watch (s : State) (i : UnloaderIx) (w : Weigher) :
    (s.setWeigher i w).watch = s.watch := rfl
@[simp] theorem State.setWeigher_path (s : State) (i : UnloaderIx) (w : Weigher) :
    (s.setWeigher i w).path = s.path := rfl
@[simp] theorem State.setWeigher_mgmt (s : State) (i : UnloaderIx) (w : Weigher) :
    (s.setWeigher i w).mgmt = s.mgmt := rfl
@[simp] theorem State.setWeigher_notices (s : State) (i : UnloaderIx) (w : Weigher) :
    (s.setWeigher i w).notices = s.notices := rfl
@[simp] theorem State.setWeigher_clock (s : State) (i : UnloaderIx) (w : Weigher) :
    (s.setWeigher i w).clock = s.clock := rfl
@[simp] theorem State.setWeigher_freeUsed (s : State) (i : UnloaderIx) (w : Weigher) :
    (s.setWeigher i w).freeUsed = s.freeUsed := rfl
@[simp] theorem State.setWeigher_pending (s : State) (i : UnloaderIx) (w : Weigher) :
    (s.setWeigher i w).pending = s.pending := rfl
@[simp] theorem State.setWeigher_weighers (s : State) (i : UnloaderIx) (w : Weigher) :
    (s.setWeigher i w).weighing.weighers = put s.weighing.weighers i w := rfl
@[simp] theorem State.setWeigher_pool (s : State) (i : UnloaderIx) (w : Weigher) :
    (s.setWeigher i w).weighing.pool = s.weighing.pool := rfl
@[simp] theorem State.setWeigher_unassigned (s : State) (i : UnloaderIx) (w : Weigher) :
    (s.setWeigher i w).weighing.unassigned = s.weighing.unassigned := rfl
@[simp] theorem State.setWeigher_snapshotNumber (s : State) (i : UnloaderIx) (w : Weigher) :
    (s.setWeigher i w).weighing.snapshotNumber = s.weighing.snapshotNumber := rfl
@[simp] theorem State.setWeigher_snapshot (s : State) (i : UnloaderIx) (w : Weigher) :
    (s.setWeigher i w).weighing.snapshot = s.weighing.snapshot := rfl
@[simp] theorem State.setWeigher_lastServed (s : State) (i : UnloaderIx) (w : Weigher) :
    (s.setWeigher i w).weighing.lastServed = s.weighing.lastServed := rfl

/-! ### setBlock -/

@[simp] theorem State.setBlock_power (s : State) (k : BlockIx) (b : List Line) :
    (s.setBlock k b).power = s.power := rfl
@[simp] theorem State.setBlock_tables (s : State) (k : BlockIx) (b : List Line) :
    (s.setBlock k b).tables = s.tables := rfl
@[simp] theorem State.setBlock_legs (s : State) (k : BlockIx) (b : List Line) :
    (s.setBlock k b).legs = s.legs := rfl
@[simp] theorem State.setBlock_alloc (s : State) (k : BlockIx) (b : List Line) :
    (s.setBlock k b).alloc = s.alloc := rfl
@[simp] theorem State.setBlock_tracker (s : State) (k : BlockIx) (b : List Line) :
    (s.setBlock k b).tracker = s.tracker := rfl
@[simp] theorem State.setBlock_seg (s : State) (k : BlockIx) (b : List Line) :
    (s.setBlock k b).seg = s.seg := rfl
@[simp] theorem State.setBlock_writer (s : State) (k : BlockIx) (b : List Line) :
    (s.setBlock k b).writer = s.writer := rfl
@[simp] theorem State.setBlock_nv (s : State) (k : BlockIx) (b : List Line) :
    (s.setBlock k b).nv = s.nv := rfl
@[simp] theorem State.setBlock_watch (s : State) (k : BlockIx) (b : List Line) :
    (s.setBlock k b).watch = s.watch := rfl
@[simp] theorem State.setBlock_path (s : State) (k : BlockIx) (b : List Line) :
    (s.setBlock k b).path = s.path := rfl
@[simp] theorem State.setBlock_mgmt (s : State) (k : BlockIx) (b : List Line) :
    (s.setBlock k b).mgmt = s.mgmt := rfl
@[simp] theorem State.setBlock_notices (s : State) (k : BlockIx) (b : List Line) :
    (s.setBlock k b).notices = s.notices := rfl
@[simp] theorem State.setBlock_clock (s : State) (k : BlockIx) (b : List Line) :
    (s.setBlock k b).clock = s.clock := rfl
@[simp] theorem State.setBlock_freeUsed (s : State) (k : BlockIx) (b : List Line) :
    (s.setBlock k b).freeUsed = s.freeUsed := rfl
@[simp] theorem State.setBlock_pending (s : State) (k : BlockIx) (b : List Line) :
    (s.setBlock k b).pending = s.pending := rfl
@[simp] theorem State.setBlock_weighers (s : State) (k : BlockIx) (b : List Line) :
    (s.setBlock k b).weighing.weighers = s.weighing.weighers := rfl
@[simp] theorem State.setBlock_pool (s : State) (k : BlockIx) (b : List Line) :
    (s.setBlock k b).weighing.pool = put s.weighing.pool k b := rfl
@[simp] theorem State.setBlock_unassigned (s : State) (k : BlockIx) (b : List Line) :
    (s.setBlock k b).weighing.unassigned = s.weighing.unassigned := rfl
@[simp] theorem State.setBlock_snapshotNumber (s : State) (k : BlockIx) (b : List Line) :
    (s.setBlock k b).weighing.snapshotNumber = s.weighing.snapshotNumber := rfl
@[simp] theorem State.setBlock_snapshot (s : State) (k : BlockIx) (b : List Line) :
    (s.setBlock k b).weighing.snapshot = s.weighing.snapshot := rfl
@[simp] theorem State.setBlock_lastServed (s : State) (k : BlockIx) (b : List Line) :
    (s.setBlock k b).weighing.lastServed = s.weighing.lastServed := rfl

/-! ### setWatch -/

@[simp] theorem State.setWatch_power (s : State) (a : Addr) (w : Option WatchRecord) :
    (s.setWatch a w).power = s.power := rfl
@[simp] theorem State.setWatch_tables (s : State) (a : Addr) (w : Option WatchRecord) :
    (s.setWatch a w).tables = s.tables := rfl
@[simp] theorem State.setWatch_legs (s : State) (a : Addr) (w : Option WatchRecord) :
    (s.setWatch a w).legs = s.legs := rfl
@[simp] theorem State.setWatch_alloc (s : State) (a : Addr) (w : Option WatchRecord) :
    (s.setWatch a w).alloc = s.alloc := rfl
@[simp] theorem State.setWatch_tracker (s : State) (a : Addr) (w : Option WatchRecord) :
    (s.setWatch a w).tracker = s.tracker := rfl
@[simp] theorem State.setWatch_seg (s : State) (a : Addr) (w : Option WatchRecord) :
    (s.setWatch a w).seg = s.seg := rfl
@[simp] theorem State.setWatch_weighing (s : State) (a : Addr) (w : Option WatchRecord) :
    (s.setWatch a w).weighing = s.weighing := rfl
@[simp] theorem State.setWatch_writer (s : State) (a : Addr) (w : Option WatchRecord) :
    (s.setWatch a w).writer = s.writer := rfl
@[simp] theorem State.setWatch_nv (s : State) (a : Addr) (w : Option WatchRecord) :
    (s.setWatch a w).nv = s.nv := rfl
@[simp] theorem State.setWatch_path (s : State) (a : Addr) (w : Option WatchRecord) :
    (s.setWatch a w).path = s.path := rfl
@[simp] theorem State.setWatch_mgmt (s : State) (a : Addr) (w : Option WatchRecord) :
    (s.setWatch a w).mgmt = s.mgmt := rfl
@[simp] theorem State.setWatch_notices (s : State) (a : Addr) (w : Option WatchRecord) :
    (s.setWatch a w).notices = s.notices := rfl
@[simp] theorem State.setWatch_clock (s : State) (a : Addr) (w : Option WatchRecord) :
    (s.setWatch a w).clock = s.clock := rfl
@[simp] theorem State.setWatch_freeUsed (s : State) (a : Addr) (w : Option WatchRecord) :
    (s.setWatch a w).freeUsed = s.freeUsed := rfl
@[simp] theorem State.setWatch_pending (s : State) (a : Addr) (w : Option WatchRecord) :
    (s.setWatch a w).pending = s.pending := rfl
@[simp] theorem State.setWatch_watch (s : State) (a : Addr) (w : Option WatchRecord) :
    (s.setWatch a w).watch = put s.watch a w := rfl

/-! ### setCursor -/

@[simp] theorem State.setCursor_power (s : State) (x : Option Cursor) :
    (s.setCursor x).power = s.power := rfl
@[simp] theorem State.setCursor_tables (s : State) (x : Option Cursor) :
    (s.setCursor x).tables = s.tables := rfl
@[simp] theorem State.setCursor_legs (s : State) (x : Option Cursor) :
    (s.setCursor x).legs = s.legs := rfl
@[simp] theorem State.setCursor_alloc (s : State) (x : Option Cursor) :
    (s.setCursor x).alloc = s.alloc := rfl
@[simp] theorem State.setCursor_tracker (s : State) (x : Option Cursor) :
    (s.setCursor x).tracker = s.tracker := rfl
@[simp] theorem State.setCursor_seg (s : State) (x : Option Cursor) :
    (s.setCursor x).seg = s.seg := rfl
@[simp] theorem State.setCursor_weighing (s : State) (x : Option Cursor) :
    (s.setCursor x).weighing = s.weighing := rfl
@[simp] theorem State.setCursor_writer (s : State) (x : Option Cursor) :
    (s.setCursor x).writer = s.writer := rfl
@[simp] theorem State.setCursor_nv (s : State) (x : Option Cursor) :
    (s.setCursor x).nv = s.nv := rfl
@[simp] theorem State.setCursor_watch (s : State) (x : Option Cursor) :
    (s.setCursor x).watch = s.watch := rfl
@[simp] theorem State.setCursor_path (s : State) (x : Option Cursor) :
    (s.setCursor x).path = s.path := rfl
@[simp] theorem State.setCursor_notices (s : State) (x : Option Cursor) :
    (s.setCursor x).notices = s.notices := rfl
@[simp] theorem State.setCursor_clock (s : State) (x : Option Cursor) :
    (s.setCursor x).clock = s.clock := rfl
@[simp] theorem State.setCursor_freeUsed (s : State) (x : Option Cursor) :
    (s.setCursor x).freeUsed = s.freeUsed := rfl
@[simp] theorem State.setCursor_pending (s : State) (x : Option Cursor) :
    (s.setCursor x).pending = s.pending := rfl
@[simp] theorem State.setCursor_inForce (s : State) (x : Option Cursor) :
    (s.setCursor x).mgmt.inForce = s.mgmt.inForce := rfl
@[simp] theorem State.setCursor_writing (s : State) (x : Option Cursor) :
    (s.setCursor x).mgmt.writing = s.mgmt.writing := rfl
@[simp] theorem State.setCursor_cursor (s : State) (x : Option Cursor) :
    (s.setCursor x).mgmt.cursor = x := rfl

end Sys2Proof.Machine
end

