-- ==== Sys2Proof/Laws/Evolves.lean ====
section
/-!
SUPPORT. What every effect of a command can do, said once: the relation `Evolves`, a preorder that each
shared operation satisfies. It says that the supply and the queue of commands are untouched, and that each
law of Safety.lean is kept. This file defines it and shows it of the operations of Ops.lean.
-/

namespace Sys2Proof.Machine

/-! ### The relation -/

theorem keepsStorage_refl (s : State) : keepsStorage s s := fun _ => ⟨Nat.le_refl _, fun _ _ h => h⟩

theorem keepsStorage_trans {s t u : State} (a : keepsStorage s t) (b : keepsStorage t u) :
    keepsStorage s u := fun i =>
  ⟨Nat.le_trans (a i).1 (b i).1, fun k v h => (b i).2 k v ((a i).2 k v h)⟩

/-- From one state to another, the supply and the queue are the same and every law is kept, those of the grants
aside. The fields left
out of a proof are those of pieces that have not changed. -/
structure Keeps (s t : State) : Prop where
  power       : t.power = s.power := by rfl
  pending     : t.pending = s.pending := by rfl
  feeds       : s.FeedLaw → t.FeedLaw := by exact id
  allocator   : s.AllocatorLaw → t.AllocatorLaw := by exact id
  slugs       : s.SlugLaw → t.SlugLaw := by exact id
  timers      : s.TimerLaw → t.TimerLaw := by exact id
  queues      : s.QueueLaw → t.QueueLaw := by exact id
  calibration : s.CalibrationLaw → t.CalibrationLaw := by exact id
  storage     : s.CalibrationLaw → keepsStorage s t := by exact fun _ => keepsStorage_refl _
  addresses   : s.AddressLaw → t.AddressLaw := by exact id
  stations    : s.StationLaw → t.StationLaw := by exact id
  accounts    : s.AccountLaw → t.AccountLaw := by exact id
  merge       : s.MergeLaw → t.MergeLaw := by exact id

/-- From one state to another, the supply and the queue are the same and every law is kept. -/
structure Evolves (s t : State) : Prop extends Keeps s t where
  grants : s.Grants → t.Grants := by exact id

theorem Evolves.refl (s : State) : Evolves s s := {}

theorem Keeps.trans {s t u : State} (a : Keeps s t) (b : Keeps t u) : Keeps s u where
  power := b.power.trans a.power
  pending := b.pending.trans a.pending
  feeds := b.feeds ∘ a.feeds
  allocator := b.allocator ∘ a.allocator
  slugs := b.slugs ∘ a.slugs
  timers := b.timers ∘ a.timers
  queues := b.queues ∘ a.queues
  calibration := b.calibration ∘ a.calibration
  storage h := keepsStorage_trans (a.storage h) (b.storage (a.calibration h))
  addresses := b.addresses ∘ a.addresses
  stations := b.stations ∘ a.stations
  accounts := b.accounts ∘ a.accounts
  merge := b.merge ∘ a.merge

theorem Evolves.trans {s t u : State} (a : Evolves s t) (b : Evolves t u) : Evolves s u :=
  { a.toKeeps.trans b.toKeeps with grants := b.grants ∘ a.grants }

/-- A fold of evolving operations evolves. -/
theorem Evolves.foldl {α : Type} {f : State → α → State} (h : ∀ s x, Evolves s (f s x)) :
    ∀ (l : List α) (s : State), Evolves s (l.foldl f s)
  | [], s => .refl s
  | x :: l, s => (h s x).trans (Evolves.foldl h l (f s x))

/-- Either of two evolving outcomes evolves. -/
theorem Evolves.ite {s t u : State} {p : Prop} [Decidable p] (a : p → Evolves s t) (b : ¬p → Evolves s u) :
    Evolves s (if p then t else u) := by
  split
  · exact a ‹_›
  · exact b ‹_›

/-- An expiry evolves where its effect does. -/
theorem whenOut_evolves {out : Bool} {act : State → State} {s : State} (h : Evolves s (act s)) :
    Evolves s (whenOut out act s) := .ite (fun _ => h) fun _ => .refl s

/-! ### Pieces that no law reads -/

theorem setHold_evolves (s : State) (i : HoldIx) (e : Option Hold) : Evolves s (s.setHold i e) := {}

theorem setBin_evolves (s : State) (i : BinIx) (e : Option Bin) : Evolves s (s.setBin i e) := {}

theorem setSource_evolves (s : State) (i : UnloaderIx) (r : Option SourceRef) :
    Evolves s (s.setSource i r) := {}

theorem setWeigher_evolves (s : State) (i : UnloaderIx) (w : Weigher) : Evolves s (s.setWeigher i w) := {}

theorem setWatch_evolves (s : State) (a : Addr) (w : Option WatchRecord) : Evolves s (s.setWatch a w) := {}

theorem setCursor_evolves (s : State) (x : Option Cursor) : Evolves s (s.setCursor x) := {}

theorem notices_evolves (s : State) (x : Notices) : Evolves s { s with notices := x } := {}

theorem watch_evolves (s : State) (x : Vector (Option WatchRecord) 64) : Evolves s { s with watch := x } := {}

theorem useFree_evolves (s : State) : Evolves s s.useFree := {}

theorem countCheckError_evolves (port : Port) (s : State) : Evolves s (countCheckError port s) := by
  cases port <;> exact {}

theorem countMisuse_evolves (s : State) : Evolves s (countMisuse s) := {}

/-! ### Pieces that keep a law of their own -/

/-- A change of the routes that keeps every belt list. -/
theorem routes_keeps {s : State} (v : Vector (Option Route) 32)
    (h : ∀ k : RouteIx, ∀ e ∈ v[k], e.belts.Nodup ∨ ∃ e' ∈ s.tables.routes[k], e.belts = e'.belts) :
    Keeps s { s with tables := { s.tables with routes := v } } where
  merge := fun ⟨a, b, c⟩ => ⟨fun k e he => by
    obtain h1 | ⟨e', h1, h2⟩ := h k e he
    · exact h1
    · rw [h2]; exact a k e' h1, b, c⟩

/-- A change of a diverter record that keeps the law of its timer. -/
theorem setDiverter_evolves {s : State} (i : DiverterIx) (x : Option DiverterRecord)
    (h : s.TimerLaw → ∀ r ∈ x, r.TimerLaw) : Evolves s (s.setDiverter i x) where
  timers hs d r hr := by
    simp only [State.setDiverter_diverters, put_get] at hr
    split at hr
    · exact h hs r hr
    · exact hs d r hr

/-- A change of the tracker that keeps the law of the slug queues, made in a state that has come from
another. -/
theorem tracker_evolves_from {s t : State} (h : Evolves s t) (x : Tracker)
    (hx : s.SlugLaw → ∀ b : BeltIx, ∀ r ∈ x.belts[b], r.QueueLaw) :
    Evolves s { t with tracker := x } where
  power := h.power
  pending := h.pending
  feeds := h.feeds
  allocator := h.allocator
  slugs := hx
  timers := h.timers
  queues := h.queues
  calibration := h.calibration
  storage := h.storage
  addresses := h.addresses
  stations := h.stations
  accounts := h.accounts
  merge := h.merge
  grants := h.grants

/-- The same for one belt record. -/
theorem setBelt_evolves_from {s t : State} (h : Evolves s t) (i : BeltIx) (x : Option BeltRecord)
    (hx : s.SlugLaw → ∀ r ∈ x, r.QueueLaw) : Evolves s (t.setBelt i x) :=
  tracker_evolves_from h _ fun hs b r hr => by
    simp only [put_get] at hr
    split at hr
    · exact hx hs r hr
    · exact h.slugs hs b r hr

theorem setBelt_evolves {s : State} (i : BeltIx) (x : Option BeltRecord)
    (h : s.SlugLaw → ∀ r ∈ x, r.QueueLaw) : Evolves s (s.setBelt i x) :=
  setBelt_evolves_from (.refl s) i x h

/-! ### The laws of the grants -/

/-- The laws of the grants hold on where no leg becomes ACTIVE, no grant rises, and no station changes. -/
theorem limits_of {s t : State} (st : t.tables.stations = s.tables.stations)
    (bu : t.alloc.budgetInUse = s.alloc.budgetInUse)
    (act : ∀ i : UnloaderIx, t.legs[i].state = .active →
      s.legs[i].state = .active ∧ t.legs[i].belts = s.legs[i].belts ∧ t.legs[i].g ≤ s.legs[i].g)
    (rest : ∀ i : UnloaderIx, t.legs[i].state ≠ .active → t.legs[i].g = 0)
    (h : s.GrantLaw ∧ s.CapacityLaw ∧ s.PowerLaw) : t.GrantLaw ∧ t.CapacityLaw ∧ t.PowerLaw := by
  obtain ⟨h1, h2, h3⟩ := h
  have find : ∀ {α : Type} (look : StationEntry → Option α), t.findStation look = s.findStation look :=
    fun look => by unfold State.findStation; rw [st]
  have num_ : ∀ i f, t.unloaderNumber i f = s.unloaderNumber i f := fun i f => by
    unfold State.unloaderNumber State.unloaderData State.unloaderStation; rw [find]
  have data : ∀ b, t.beltData b = s.beltData b := fun b => by
    unfold State.beltData State.beltStation; rw [find]
  have sums : ∀ x y : UnloaderIx → Nat, (∀ i, t.legs[i].state = .active → x i ≤ y i) →
      t.activeSum x ≤ s.activeSum y := by
    intro x y xy
    unfold State.activeSum
    apply List.sum_le_sum
    intro i _
    split
    · rename_i a
      rw [if_pos (act i a).1]
      exact xy i a
    · exact Nat.zero_le _
  refine ⟨fun i => ?_, fun b d hd => ?_, ?_⟩
  · by_cases a : t.legs[i].state = .active
    · rw [if_pos a, num_]
      have := h1 i
      rw [if_pos (act i a).1] at this
      exact Nat.le_trans (act i a).2.2 this
    · rw [rest i a]; exact Nat.zero_le _
  · rw [data] at hd
    refine Nat.le_trans ?_ (h2 b d hd)
    unfold State.beltSum
    apply List.sum_le_sum
    intro i _
    unfold State.crosses
    by_cases a : t.legs[i].state = .active
    · rw [(act i a).2.1, a, (act i a).1]
      split
      · exact (act i a).2.2
      · exact Nat.zero_le _
    · have : (t.legs[i].state == .active) = false := by simpa using a
      rw [this, Bool.false_and, if_neg Bool.false_ne_true]
      exact Nat.zero_le _
  · have base : t.basePower ≤ s.basePower := sums _ _ fun i _ => by rw [num_]
    have room : s.headroom ≤ t.headroom := by
      unfold State.headroom
      rw [bu]
      omega
    have dem : (t.demand fun i => t.legs[i].g) ≤ s.demand fun i => s.legs[i].g :=
      sums _ _ fun i a => by rw [num_]; exact Nat.mul_le_mul_left _ (act i a).2.2
    unfold State.PowerLaw at h3 ⊢
    by_cases hs : s.headroom ≤ 0
    · rw [if_pos hs] at h3
      have zero : ∀ i : UnloaderIx, t.legs[i].state = .active → t.legs[i].g = 0 := fun i a => by
        have := (act i a).2.2
        rw [h3 i (act i a).1] at this
        omega
      split
      · exact zero
      · have : (t.demand fun i => t.legs[i].g) = 0 := by
          unfold State.demand State.activeSum
          rw [List.sum_eq_zero_iff]
          intro x hx
          obtain ⟨i, -, rfl⟩ := List.mem_map.1 hx
          split
          · rename_i a; exact (congrArg _ (zero i a)).trans (Nat.mul_zero _)
          · rfl
        rw [this]; exact Nat.zero_le _
    · rw [if_neg hs] at h3
      rw [if_neg (by omega)]
      omega

/-- The law of the routes reads the stations, the routes, and what ACTIVE legs copy. -/
theorem routeLaw_of {s t : State} (st : t.tables.stations = s.tables.stations)
    (ro : t.tables.routes = s.tables.routes)
    (act : ∀ i : UnloaderIx, t.legs[i].state = .active → s.legs[i].state = .active)
    (back : ∀ i : UnloaderIx, s.legs[i].state = .active → t.legs[i].state = .active
      ∧ t.legs[i].route = s.legs[i].route ∧ t.legs[i].belts = s.legs[i].belts ∧ t.legs[i].bin = s.legs[i].bin)
    (h : s.RouteLaw) : t.RouteLaw := by
  have find : ∀ {α : Type} (look : StationEntry → Option α), t.findStation look = s.findStation look :=
    fun look => by unfold State.findStation; rw [st]
  refine ⟨fun k e he => ?_, fun i a => ?_⟩
  · rw [ro] at he
    obtain ⟨h1, h2, h3⟩ := h.1 k e he
    refine ⟨?_, ?_, fun b hb => ?_⟩
    · rw [h1]
      unfold State.legsOn
      apply List.countP_congr
      intro i _
      simp only [Bool.and_eq_true, beq_iff_eq]
      constructor
      · rintro ⟨a, r⟩; exact ⟨(back i a).1, by rw [(back i a).2.1, r]⟩
      · rintro ⟨a, r⟩; exact ⟨act i a, by rw [← (back i (act i a)).2.1, r]⟩
    · unfold State.unloaderStation at h2 ⊢; rw [find]; exact h2
    · unfold State.beltStation at h3 ⊢; rw [find]; exact h3 b hb
  · obtain ⟨k, e, he, h1, h2, h3, h4⟩ := h.2 i (act i a)
    obtain ⟨-, b1, b2, b3⟩ := back i (act i a)
    exact ⟨k, e, by rw [ro]; exact he, by rw [b1]; exact h1, h2, by rw [b2]; exact h3, by rw [b3]; exact h4⟩

/-- All the laws of the grants hold on where the same legs are ACTIVE on the same routes, no grant has risen,
and no station, route or budget has changed. -/
theorem grants_of {s t : State} (st : t.tables.stations = s.tables.stations)
    (ro : t.tables.routes = s.tables.routes) (bu : t.alloc.budgetInUse = s.alloc.budgetInUse)
    (same : ∀ i : UnloaderIx, t.legs[i].state = .active ∧ s.legs[i].state = .active
        ∧ t.legs[i].route = s.legs[i].route ∧ t.legs[i].belts = s.legs[i].belts
        ∧ t.legs[i].bin = s.legs[i].bin ∧ t.legs[i].g ≤ s.legs[i].g
      ∨ t.legs[i].state ≠ .active ∧ s.legs[i].state ≠ .active ∧ t.legs[i].g ≤ s.legs[i].g)
    (h : s.Grants) : t.Grants := by
  refine ⟨fun a => by rw [st]; exact h.1 a, routeLaw_of st ro (fun i a => ?_) (fun i a => ?_) h.2.1,
    limits_of st bu (fun i a => ?_) (fun i a => ?_) h.2.2⟩
  · obtain h | h := same i
    · exact h.2.1
    · exact absurd a h.1
  · obtain h | h := same i
    · exact ⟨h.1, h.2.2.1, h.2.2.2.1, h.2.2.2.2.1⟩
    · exact absurd a h.2.1
  · obtain h | h := same i
    · exact ⟨h.2.1, h.2.2.2.1, h.2.2.2.2.2⟩
    · exact absurd a h.1
  · obtain h' | h' := same i
    · exact absurd h'.1 a
    · have := h.2.2.1 i
      rw [if_neg h'.2.1] at this
      omega

/-! ### Legs -/

/-- A change of the legs that keeps the law of the feeds, and in which no leg becomes ACTIVE or changes its
way while it is; made in a state that has come from another. -/
theorem legs_keeps_from {s t : State} (h : Keeps s t) (v : Vector Leg 6)
    (feeds : s.FeedLaw → ∀ i : UnloaderIx, v[i].FeedLaw)
    (way : ∀ i : UnloaderIx, v[i].state = .active → t.legs[i].state = .active ∧ v[i].belts = t.legs[i].belts
      ∧ v[i].lot = t.legs[i].lot ∧ v[i].bin = t.legs[i].bin) :
    Keeps s { t with legs := v } where
  power := h.power
  pending := h.pending
  feeds := feeds
  allocator := h.allocator
  slugs := h.slugs
  timers := h.timers
  queues := h.queues
  calibration := h.calibration
  storage := h.storage
  addresses := h.addresses
  stations := h.stations
  accounts := h.accounts
  merge hs := by
    obtain ⟨a, b, c⟩ := h.merge hs
    refine ⟨a, fun i hi => ?_, fun i j n hi hj => ?_⟩
    · obtain ⟨h1, h2, -, -⟩ := way i hi
      show v[i].belts.Nodup
      rw [h2]; exact b i h1
    · obtain ⟨a1, a2, a3, a4⟩ := way i hi
      obtain ⟨b1, b2, b3, b4⟩ := way j hj
      show State.runTogether t v[i] v[j]
      unfold State.runTogether
      rw [a2, a3, a4, b2, b3, b4]
      exact c i j n a1 b1

/-- A leg stands in its way as before, and is granted no more. -/
def Leg.asBefore (l before : Leg) : Prop :=
  l.state = .active ∧ before.state = .active ∧ l.route = before.route ∧ l.belts = before.belts
    ∧ l.bin = before.bin ∧ l.g ≤ before.g
  ∨ l.state ≠ .active ∧ before.state ≠ .active ∧ l.g ≤ before.g

theorem Leg.asBefore_of {l before : Leg} (h : l.state = before.state) (a : l.route = before.route)
    (b : l.belts = before.belts) (c : l.bin = before.bin) (d : l.g ≤ before.g) : l.asBefore before := by
  by_cases e : before.state = .active
  · exact .inl ⟨h.trans e, e, a, b, c, d⟩
  · exact .inr ⟨by rw [h]; exact e, e, d⟩

theorem Leg.asBefore_refl (l : Leg) : l.asBefore l := Leg.asBefore_of rfl rfl rfl rfl (Nat.le_refl _)

theorem legs_evolves_from {s t : State} (h : Evolves s t) (v : Vector Leg 6)
    (feeds : s.FeedLaw → ∀ i : UnloaderIx, v[i].FeedLaw)
    (lot : ∀ i : UnloaderIx, v[i].state = .active → v[i].lot = t.legs[i].lot)
    (same : ∀ i : UnloaderIx, v[i].asBefore t.legs[i]) :
    Evolves s { t with legs := v } :=
  { legs_keeps_from h.toKeeps v feeds (fun i a => by
      obtain h | h := same i
      · exact ⟨h.2.1, h.2.2.2.1, lot i a, h.2.2.2.2.1⟩
      · exact absurd a h.1) with
    grants := fun hs => grants_of (s := t) rfl rfl rfl same (h.grants hs) }

theorem legs_evolves {s : State} (v : Vector Leg 6)
    (feeds : s.FeedLaw → ∀ i : UnloaderIx, v[i].FeedLaw)
    (lot : ∀ i : UnloaderIx, v[i].state = .active → v[i].lot = s.legs[i].lot)
    (same : ∀ i : UnloaderIx, v[i].asBefore s.legs[i]) :
    Evolves s { s with legs := v } := legs_evolves_from (.refl s) v feeds lot same

/-- The same for one leg. -/
theorem setLeg_keeps_from {s t : State} (h : Keeps s t) (i : UnloaderIx) (l : Leg)
    (feeds : s.FeedLaw → l.FeedLaw)
    (way : l.state = .active → t.legs[i].state = .active ∧ l.belts = t.legs[i].belts
      ∧ l.lot = t.legs[i].lot ∧ l.bin = t.legs[i].bin) :
    Keeps s (t.setLeg i l) :=
  legs_keeps_from h _
    (fun hs j => by
      rw [put_get]; split
      · exact feeds hs
      · exact h.feeds hs j)
    (fun j => by
      rw [put_get]; split
      · subst j; exact way
      · exact fun h => ⟨h, rfl, rfl, rfl⟩)

theorem setLeg_evolves_from {s t : State} (h : Evolves s t) (i : UnloaderIx) (l : Leg)
    (feeds : s.FeedLaw → l.FeedLaw) (lot : l.state = .active → l.lot = t.legs[i].lot)
    (same : l.asBefore t.legs[i]) : Evolves s (t.setLeg i l) :=
  legs_evolves_from h _
    (fun hs j => by
      rw [put_get]; split
      · exact feeds hs
      · exact h.feeds hs j)
    (fun j => by
      rw [put_get]; split
      · subst j; exact lot
      · exact fun _ => rfl)
    (fun j => by
      rw [put_get]; split
      · subst j; exact same
      · exact Leg.asBefore_refl _)

theorem setLeg_evolves {s : State} (i : UnloaderIx) (l : Leg) (feeds : s.FeedLaw → l.FeedLaw)
    (lot : l.state = .active → l.lot = s.legs[i].lot) (same : l.asBefore s.legs[i]) :
    Evolves s (s.setLeg i l) := setLeg_evolves_from (.refl s) i l feeds lot same

/-! ### The queues (R170 to R172) -/

/-- The queued addresses of a telegram that is to join a queue are sound. -/
def Queued.Sound (s : State) (q : Queued) : Prop :=
  ∀ x ∈ q.takesForce, s.AddressLaw → x.valid ∧ s.tables.stations[x.own] = none

theorem sound_of_none {s : State} {q : Queued} (h : q.takesForce = none) : q.Sound s := by
  intro x hx; rw [h] at hx; cases hx

theorem mem_addresses {s : State} {x : Addresses} : x ∈ s.addresses ↔
    x = s.mgmt.inForce ∨ x = s.nv.record ∨ (∃ w ∈ s.mgmt.writing, w.addresses = x)
      ∨ (∃ q ∈ s.path.egressA, q.takesForce = some x) ∨ (∃ q ∈ s.path.forwardB, q.takesForce = some x)
      ∨ (∃ y ∈ s.path.sendingA, y.takesForce = some x)
      ∨ (∃ y ∈ s.path.sendingB, y.takesForce = some x) := by
  simp [State.addresses, List.mem_filterMap, Option.bind_eq_some_iff]

/-! Where a pair of addresses waits: a telegram that brings one (R191). -/

theorem egress_brings {s : State} {x : Addresses} {q : Queued} (hq : q ∈ s.path.egressA)
    (e : q.takesForce = some x) : x ∈ s.addresses :=
  mem_addresses.2 (.inr (.inr (.inr (.inl ⟨_, hq, e⟩))))

theorem forward_brings {s : State} {x : Addresses} {q : Queued} (hq : q ∈ s.path.forwardB)
    (e : q.takesForce = some x) : x ∈ s.addresses :=
  mem_addresses.2 (.inr (.inr (.inr (.inr (.inl ⟨_, hq, e⟩)))))

theorem sendingA_brings {s : State} {x : Addresses} {y : Sending} (hy : y ∈ s.path.sendingA)
    (e : y.takesForce = some x) : x ∈ s.addresses :=
  mem_addresses.2 (.inr (.inr (.inr (.inr (.inr (.inl ⟨_, hy, e⟩))))))

theorem sendingB_brings {s : State} {x : Addresses} {y : Sending} (hy : y ∈ s.path.sendingB)
    (e : y.takesForce = some x) : x ∈ s.addresses :=
  mem_addresses.2 (.inr (.inr (.inr (.inr (.inr (.inr (⟨_, hy, e⟩)))))))

/-- What holds of the addresses that a state keeps, and of those that the telegrams of a changed path bring, holds
of every pair of addresses after the change. -/
theorem addresses_of_path (s : State) {t : State} {x : Addresses} {C : Prop} (hx : x ∈ t.addresses)
    (mgmt : t.mgmt = s.mgmt) (nv : t.nv = s.nv) (kept : x ∈ s.addresses → C)
    (egress : ∀ q ∈ t.path.egressA, q.takesForce = some x → C)
    (forward : ∀ q ∈ t.path.forwardB, q.takesForce = some x → C)
    (sendA : ∀ y ∈ t.path.sendingA, y.takesForce = some x → C)
    (sendB : ∀ y ∈ t.path.sendingB, y.takesForce = some x → C) : C := by
  rw [mem_addresses, mgmt, nv] at hx
  obtain h | h | h | ⟨q, hq, e⟩ | ⟨q, hq, e⟩ | ⟨y, hy, e⟩ | ⟨y, hy, e⟩ := hx
  · exact kept (mem_addresses.2 (.inl h))
  · exact kept (mem_addresses.2 (.inr (.inl h)))
  · exact kept (mem_addresses.2 (.inr (.inr (.inl h))))
  · exact egress q hq e
  · exact forward q hq e
  · exact sendA y hy e
  · exact sendB y hy e

/-- A law of addresses that all come from those of a state of the same stations. -/
theorem addressLaw_of {s t : State} (h : s.AddressLaw) (st : t.tables.stations = s.tables.stations)
    (sub : ∀ x ∈ t.addresses, x ∈ s.addresses ∨ (x.valid ∧ s.tables.stations[x.own] = none)) :
    t.AddressLaw := by
  intro x hx
  rw [st]
  obtain h1 | h1 := sub x hx
  · exact h x h1
  · exact h1

theorem takeForce_evolves {s : State} (x : Option Addresses)
    (h : ∀ a ∈ x, s.AddressLaw → a.valid ∧ s.tables.stations[a.own] = none) :
    Evolves s (s.takeForce x) := by
  cases x with
  | none => exact .refl s
  | some a =>
    exact {
      addresses := fun hs => addressLaw_of hs rfl fun y hy => by
        rw [mem_addresses] at hy ⊢
        obtain h1 | h1 := hy
        · subst h1; exact .inr (h _ rfl hs)
        · exact .inl (.inr h1) }

theorem egress_joined_evolves {s : State} (q : Queued) (h : q.Sound s)
    (room : s.path.egressA.length < Config.egressPlaces) :
    Evolves s { s with path := { s.path with egressA := s.path.egressA ++ [q] } } where
  queues := fun ⟨_, b, c⟩ => ⟨by simpa using room, b, c⟩
  addresses hs := addressLaw_of hs rfl fun y hy =>
    addresses_of_path s hy rfl rfl .inl
      (fun p hp e => (List.mem_append.1 hp).elim (fun old => .inl (egress_brings old e))
        fun new => .inr (h y (List.mem_singleton.1 new ▸ e) hs))
      (fun _ hp e => .inl (forward_brings hp e))
      (fun _ hp e => .inl (sendingA_brings hp e)) fun _ hp e => .inl (sendingB_brings hp e)

theorem forward_joined_evolves {s : State} (q : Queued) (h : q.Sound s)
    (room : s.path.forwardB.length < Config.forwardPlaces) :
    Evolves s { s with path := { s.path with forwardB := s.path.forwardB ++ [q] } } where
  queues := fun ⟨a, _, c⟩ => ⟨a, by simpa using room, c⟩
  addresses hs := addressLaw_of hs rfl fun y hy =>
    addresses_of_path s hy rfl rfl .inl
      (fun _ hp e => .inl (egress_brings hp e))
      (fun p hp e => (List.mem_append.1 hp).elim (fun old => .inl (forward_brings old e))
        fun new => .inr (h y (List.mem_singleton.1 new ▸ e) hs))
      (fun _ hp e => .inl (sendingA_brings hp e)) fun _ hp e => .inl (sendingB_brings hp e)

theorem joinEgress_evolves {s : State} (q : Queued) (h : q.Sound s) : Evolves s (joinEgress q s) := by
  unfold joinEgress
  split
  · exact egress_joined_evolves q h ‹_›
  · exact Evolves.trans (t := { s with path := { s.path with dropsA := _ } }) {}
      (takeForce_evolves _ fun a ha hs => h a ha hs)

theorem joinForward_evolves {s : State} (q : Queued) (h : q.Sound s) : Evolves s (joinForward q s) := by
  unfold joinForward
  split
  · exact forward_joined_evolves q h (by simpa [State.forwardHasPlace] using ‹s.forwardHasPlace = true›)
  · exact Evolves.trans (t := { s with path := { s.path with dropsB := _ } }) {}
      (takeForce_evolves _ fun a ha hs => h a ha hs)

theorem joinPort_evolves {s : State} (port : Port) (q : Queued) (h : q.Sound s) :
    Evolves s (joinPort port q s) := by
  cases port
  · exact joinEgress_evolves q h
  · exact joinForward_evolves q h

theorem forward_evolves (port : Port) (t : Telegram) (s : State) : Evolves s (forward port t s) :=
  joinPort_evolves _ _ (sound_of_none rfl)

theorem answer_evolves (t : Telegram) (k : Word) (c : AnswerCode) (v : Word) (s : State) :
    Evolves s (answer t k c v s) := joinEgress_evolves _ (sound_of_none rfl)

theorem reply_evolves (q : Request) (r : Result) (data : List Word) (s : State) :
    Evolves s (reply q r data s) := joinPort_evolves _ _ (sound_of_none rfl)

/-- Raising a flag sets it and queues at most one telegram (R194, R195). -/
theorem raiseFlag_evolves (f : Flag) (x y : Nat) (d : Bool) (s : State) :
    Evolves s (raiseFlag f x y d s) := by
  unfold raiseFlag
  split
  · exact .refl s
  · dsimp only
    split
    · exact (notices_evolves s _).trans (joinEgress_evolves _ (sound_of_none rfl))
    · exact notices_evolves s _

/-! ### The guard queue (R172) -/

theorem guardsWith_unloaders (q : List Guard) (g : Guard) :
    (guardsWith q g).map (·.unloader) =
      if q.any (fun x => x.unloader == g.unloader) then q.map (·.unloader)
      else q.map (·.unloader) ++ [g.unloader] := by
  unfold guardsWith
  split
  · simp only [List.map_map]
    apply List.map_congr_left
    intro x _
    by_cases h : x.unloader = g.unloader <;> simp [h]
  · simp

/-- The guard queue keeps at most one order for each unloader index (R172). -/
theorem guardsWith_nodup {q : List Guard} (g : Guard) (h : (q.map (·.unloader)).Nodup) :
    ((guardsWith q g).map (·.unloader)).Nodup := by
  rw [guardsWith_unloaders]
  split
  · exact h
  · rename_i n
    rw [List.nodup_append]
    refine ⟨h, by simp, ?_⟩
    intro x hx y hy e
    subst e
    simp only [List.mem_singleton] at hy
    subst hy
    obtain ⟨z, hz, e⟩ := List.mem_map.1 hx
    exact n (List.any_eq_true.2 ⟨z, hz, by simp [e]⟩)

theorem handGuard_evolves (i : UnloaderIx) (n : Nat) (s : State) : Evolves s (handGuard i n s) := by
  unfold handGuard
  split
  · exact .refl s
  · exact {
      queues := fun ⟨a, b, c⟩ =>
        ⟨a, Nat.le_trans (List.length_filter_le _ _) b, guardsWith_nodup _ c⟩
      addresses := fun hs => addressLaw_of hs rfl fun y hy =>
        addresses_of_path s hy rfl rfl .inl (fun _ hp e => .inl (egress_brings hp e))
          (fun _ hp e => .inl (forward_brings (List.mem_filter.1 hp).1 e))
          (fun _ hp e => .inl (sendingA_brings hp e)) fun _ hp e => .inl (sendingB_brings hp e) }

end Sys2Proof.Machine
end

