-- ==== Sys2Proof/Laws/Frames.lean ====
section
/-!
SUPPORT. What the queues, the answers and the flags leave alone: an operation that sends something changes
the telegram path, and the addresses in force where a COMMISSION reply is dropped, and nothing else.
-/

namespace Sys2Proof.Machine

/-! ### Joining a queue -/

theorem takeForce_frame (s : State) (x : Option Addresses) :
    s.takeForce x = { s with mgmt := (s.takeForce x).mgmt } := by
  cases x <;> rfl

/-- Joining the egress queue changes the path, and the addresses in force at a drop (R170, R191). -/
theorem joinEgress_frame (q : Queued) (s : State) :
    joinEgress q s = { s with path := (joinEgress q s).path, mgmt := (joinEgress q s).mgmt } := by
  unfold joinEgress
  split
  · rfl
  · rw [takeForce_frame]

/-- Joining the forward queue changes the path, and the addresses in force at a drop (R171, R191). -/
theorem joinForward_frame (q : Queued) (s : State) :
    joinForward q s = { s with path := (joinForward q s).path, mgmt := (joinForward q s).mgmt } := by
  unfold joinForward
  split
  · rfl
  · rw [takeForce_frame]

theorem joinPort_frame (port : Port) (q : Queued) (s : State) :
    joinPort port q s = { s with path := (joinPort port q s).path, mgmt := (joinPort port q s).mgmt } := by
  cases port
  · exact joinEgress_frame q s
  · exact joinForward_frame q s

@[simp] theorem joinEgress_power (q : Queued) (s : State) : (joinEgress q s).power = s.power :=
  by rw [joinEgress_frame]
@[simp] theorem joinEgress_tables (q : Queued) (s : State) : (joinEgress q s).tables = s.tables :=
  by rw [joinEgress_frame]
@[simp] theorem joinEgress_legs (q : Queued) (s : State) : (joinEgress q s).legs = s.legs :=
  by rw [joinEgress_frame]
@[simp] theorem joinEgress_alloc (q : Queued) (s : State) : (joinEgress q s).alloc = s.alloc :=
  by rw [joinEgress_frame]
@[simp] theorem joinEgress_tracker (q : Queued) (s : State) : (joinEgress q s).tracker = s.tracker :=
  by rw [joinEgress_frame]
@[simp] theorem joinEgress_seg (q : Queued) (s : State) : (joinEgress q s).seg = s.seg :=
  by rw [joinEgress_frame]
@[simp] theorem joinEgress_weighing (q : Queued) (s : State) : (joinEgress q s).weighing = s.weighing :=
  by rw [joinEgress_frame]
@[simp] theorem joinEgress_writer (q : Queued) (s : State) : (joinEgress q s).writer = s.writer :=
  by rw [joinEgress_frame]
@[simp] theorem joinEgress_nv (q : Queued) (s : State) : (joinEgress q s).nv = s.nv :=
  by rw [joinEgress_frame]
@[simp] theorem joinEgress_watch (q : Queued) (s : State) : (joinEgress q s).watch = s.watch :=
  by rw [joinEgress_frame]
@[simp] theorem joinEgress_notices (q : Queued) (s : State) : (joinEgress q s).notices = s.notices :=
  by rw [joinEgress_frame]
@[simp] theorem joinEgress_clock (q : Queued) (s : State) : (joinEgress q s).clock = s.clock :=
  by rw [joinEgress_frame]
@[simp] theorem joinEgress_freeUsed (q : Queued) (s : State) : (joinEgress q s).freeUsed = s.freeUsed :=
  by rw [joinEgress_frame]
@[simp] theorem joinEgress_pending (q : Queued) (s : State) : (joinEgress q s).pending = s.pending :=
  by rw [joinEgress_frame]

@[simp] theorem joinForward_power (q : Queued) (s : State) : (joinForward q s).power = s.power :=
  by rw [joinForward_frame]
@[simp] theorem joinForward_tables (q : Queued) (s : State) : (joinForward q s).tables = s.tables :=
  by rw [joinForward_frame]
@[simp] theorem joinForward_legs (q : Queued) (s : State) : (joinForward q s).legs = s.legs :=
  by rw [joinForward_frame]
@[simp] theorem joinForward_alloc (q : Queued) (s : State) : (joinForward q s).alloc = s.alloc :=
  by rw [joinForward_frame]
@[simp] theorem joinForward_tracker (q : Queued) (s : State) : (joinForward q s).tracker = s.tracker :=
  by rw [joinForward_frame]
@[simp] theorem joinForward_seg (q : Queued) (s : State) : (joinForward q s).seg = s.seg :=
  by rw [joinForward_frame]
@[simp] theorem joinForward_weighing (q : Queued) (s : State) : (joinForward q s).weighing = s.weighing :=
  by rw [joinForward_frame]
@[simp] theorem joinForward_writer (q : Queued) (s : State) : (joinForward q s).writer = s.writer :=
  by rw [joinForward_frame]
@[simp] theorem joinForward_nv (q : Queued) (s : State) : (joinForward q s).nv = s.nv :=
  by rw [joinForward_frame]
@[simp] theorem joinForward_watch (q : Queued) (s : State) : (joinForward q s).watch = s.watch :=
  by rw [joinForward_frame]
@[simp] theorem joinForward_notices (q : Queued) (s : State) : (joinForward q s).notices = s.notices :=
  by rw [joinForward_frame]
@[simp] theorem joinForward_clock (q : Queued) (s : State) : (joinForward q s).clock = s.clock :=
  by rw [joinForward_frame]
@[simp] theorem joinForward_freeUsed (q : Queued) (s : State) : (joinForward q s).freeUsed = s.freeUsed :=
  by rw [joinForward_frame]
@[simp] theorem joinForward_pending (q : Queued) (s : State) : (joinForward q s).pending = s.pending :=
  by rw [joinForward_frame]

@[simp] theorem joinPort_power (port : Port) (q : Queued) (s : State) : (joinPort port q s).power = s.power :=
  by rw [joinPort_frame]
@[simp] theorem joinPort_tables (port : Port) (q : Queued) (s : State) : (joinPort port q s).tables = s.tables :=
  by rw [joinPort_frame]
@[simp] theorem joinPort_legs (port : Port) (q : Queued) (s : State) : (joinPort port q s).legs = s.legs :=
  by rw [joinPort_frame]
@[simp] theorem joinPort_alloc (port : Port) (q : Queued) (s : State) : (joinPort port q s).alloc = s.alloc :=
  by rw [joinPort_frame]
@[simp] theorem joinPort_tracker (port : Port) (q : Queued) (s : State) : (joinPort port q s).tracker = s.tracker :=
  by rw [joinPort_frame]
@[simp] theorem joinPort_seg (port : Port) (q : Queued) (s : State) : (joinPort port q s).seg = s.seg :=
  by rw [joinPort_frame]
@[simp] theorem joinPort_weighing (port : Port) (q : Queued) (s : State) : (joinPort port q s).weighing = s.weighing :=
  by rw [joinPort_frame]
@[simp] theorem joinPort_writer (port : Port) (q : Queued) (s : State) : (joinPort port q s).writer = s.writer :=
  by rw [joinPort_frame]
@[simp] theorem joinPort_nv (port : Port) (q : Queued) (s : State) : (joinPort port q s).nv = s.nv :=
  by rw [joinPort_frame]
@[simp] theorem joinPort_watch (port : Port) (q : Queued) (s : State) : (joinPort port q s).watch = s.watch :=
  by rw [joinPort_frame]
@[simp] theorem joinPort_notices (port : Port) (q : Queued) (s : State) : (joinPort port q s).notices = s.notices :=
  by rw [joinPort_frame]
@[simp] theorem joinPort_clock (port : Port) (q : Queued) (s : State) : (joinPort port q s).clock = s.clock :=
  by rw [joinPort_frame]
@[simp] theorem joinPort_freeUsed (port : Port) (q : Queued) (s : State) : (joinPort port q s).freeUsed = s.freeUsed :=
  by rw [joinPort_frame]
@[simp] theorem joinPort_pending (port : Port) (q : Queued) (s : State) : (joinPort port q s).pending = s.pending :=
  by rw [joinPort_frame]

end Sys2Proof.Machine
end

