-- ==== Sys2Proof/Laws/LegLaws.lean ====
section
/-!
SUPPORT. The laws through the leg controller, the diverter and segregation block, and the allocator.
-/

namespace Sys2Proof.Machine

/-! ### Legs (R12, R34, R40) -/

theorem setRoute_keeps {s : State} (k : RouteIx) (x : Option Route)
    (h : ∀ e ∈ x, e.belts.Nodup ∨ ∃ e' ∈ s.tables.routes[k], e.belts = e'.belts) :
    Keeps s (s.setRoute k x) :=
  routes_keeps _ fun j e he => by
    rw [put_get] at he
    split at he
    · subst j; exact h e he
    · exact .inr ⟨e, he, rfl⟩

/-- A change of one route's user count. -/
theorem releaseRoute_keeps (r : Option RouteIx) (s : State) : Keeps s (releaseRoute r s) := by
  unfold releaseRoute
  split
  · exact (Evolves.refl s).toKeeps
  · split
    · rename_i k _ e h
      exact setRoute_keeps k _ fun x hx => .inr ⟨e, h, by cases hx; rfl⟩
    · exact (Evolves.refl s).toKeeps

theorem occupyRoute_keeps (k : RouteIx) (s : State) : Keeps s (occupyRoute k s) := by
  unfold occupyRoute
  split
  · rename_i e h
    exact setRoute_keeps k _ fun x hx => .inr ⟨e, h, by cases hx; rfl⟩
  · exact (Evolves.refl s).toKeeps

/-- What a change of a leg and of the count of one route does to the number of ACTIVE legs on a route (R12). -/
theorem legsOn_setLeg (s : State) (i : UnloaderIx) (l : Leg) (k : RouteIx) :
    (s.setLeg i l).legsOn k + (if s.legs[i].state = .active ∧ s.legs[i].route = some k then 1 else 0)
      = s.legsOn k + (if l.state = .active ∧ l.route = some k then 1 else 0) := by
  have key : ∀ (q : List UnloaderIx), q.Nodup →
      (q.countP fun j => (put s.legs i l)[j].state == .active && (put s.legs i l)[j].route == some k)
        + (if i ∈ q ∧ s.legs[i].state = .active ∧ s.legs[i].route = some k then 1 else 0)
      = (q.countP fun j => s.legs[j].state == .active && s.legs[j].route == some k)
        + (if i ∈ q ∧ l.state = .active ∧ l.route = some k then 1 else 0) := by
    intro q
    induction q with
    | nil => intro _; simp
    | cons j q ih =>
      intro nd
      obtain ⟨nj, nq⟩ := List.nodup_cons.1 nd
      have := ih nq
      rw [List.countP_cons, List.countP_cons]
      by_cases e : j = i
      · subst e
        rw [put_get_same]
        simp only [nj, false_and, if_false, List.mem_cons, true_or, true_and, Bool.and_eq_true,
          beq_iff_eq] at this ⊢
        omega
      · rw [put_get_other _ _ e]
        have e' : i ≠ j := fun c => e c.symm
        simp only [List.mem_cons, e', false_or] at this ⊢
        omega
  have := key (allIx 6) (List.nodup_finRange 6)
  simp only [mem_allIx, true_and] at this
  exact this

theorem endedBy_feedLaw {l : Leg} (reason : EndReason) (h : l.FeedLaw) : (l.endedBy reason).FeedLaw :=
  ⟨Nat.le_refl 0, Nat.zero_le _, h.2.2.1, Nat.zero_le _, h.2.2.2.2⟩

/-- The record of the leg and the user count of its route, which change together (R12, R34). -/
def endedCore (i : UnloaderIx) (reason : EndReason) (s : State) : State :=
  releaseRoute s.legs[i].route (s.setLeg i (s.legs[i].endedBy reason))

theorem releaseRoute_frame (r : Option RouteIx) (s : State) :
    releaseRoute r s = { s with tables := { s.tables with routes := (releaseRoute r s).tables.routes } } := by
  unfold releaseRoute
  split
  · rfl
  · split <;> rfl

theorem handGuard_releaseRoute (i : UnloaderIx) (n : Nat) (r : Option RouteIx) (s : State) :
    releaseRoute r (handGuard i n s) = handGuard i n (releaseRoute r s) := by
  have st : (releaseRoute r s).tables.stations = s.tables.stations := by rw [releaseRoute_frame]
  have u : (releaseRoute r s).unloaderStation i = s.unloaderStation i := by
    unfold State.unloaderStation State.findStation; rw [st]
  unfold handGuard
  rw [u]
  split
  · rfl
  · unfold releaseRoute
    split
    · rfl
    · dsimp only
      split <;> rfl

/-- The ending of a leg, its record and its route first (R34). -/
theorem endLeg_eq (i : UnloaderIx) (reason : EndReason) (s : State) :
    endLeg i reason s =
      if s.legs[i].state = .active then
        raiseFlag (.legEnded i) (num i) reason.code s.legs[i].noticeDisable
          (if 0 < s.legs[i].f then handGuard i 0 (endedCore i reason s) else endedCore i reason s)
      else s := by
  unfold endLeg endedCore
  dsimp only
  split
  · split
    · rw [handGuard_releaseRoute]
    · rfl
  · rfl

theorem endedCore_evolves {i : UnloaderIx} (reason : EndReason) {s : State}
    (active : s.legs[i].state = .active) : Evolves s (endedCore i reason s) := by
  unfold endedCore
  refine { (setLeg_keeps_from (Evolves.refl s).toKeeps i _ (fun h => endedBy_feedLaw reason (h i))
    (by simp [Leg.endedBy])).trans (releaseRoute_keeps _ _) with grants := fun hs => ?_ }
  obtain ⟨range, ⟨hr, ha⟩, lim⟩ := hs
  obtain ⟨k, e, he, hk, h1, h2, h3⟩ := ha i active
  have legs : (releaseRoute s.legs[i].route (s.setLeg i (s.legs[i].endedBy reason))).legs
      = put s.legs i (s.legs[i].endedBy reason) := by rw [releaseRoute_frame]; rfl
  have stations : (releaseRoute s.legs[i].route (s.setLeg i (s.legs[i].endedBy reason))).tables.stations
      = s.tables.stations := by rw [releaseRoute_frame]; rfl
  have routes : (releaseRoute s.legs[i].route (s.setLeg i (s.legs[i].endedBy reason))).tables.routes
      = put s.tables.routes k (some { e with users := e.users - 1 }) := by
    rw [hk]
    unfold releaseRoute
    dsimp only
    rw [State.setLeg_tables, Option.mem_def.1 he]
    rfl
  have budget : (releaseRoute s.legs[i].route (s.setLeg i (s.legs[i].endedBy reason))).alloc.budgetInUse
      = s.alloc.budgetInUse := by rw [releaseRoute_frame]; rfl
  generalize releaseRoute s.legs[i].route (s.setLeg i (s.legs[i].endedBy reason)) = t at *
  have find : ∀ {α : Type} (look : StationEntry → Option α), t.findStation look = s.findStation look :=
    fun look => by unfold State.findStation; rw [stations]
  have count : ∀ j : RouteIx, t.legsOn j + (if j = k then 1 else 0) = s.legsOn j := by
    intro j
    have := legsOn_setLeg s i (s.legs[i].endedBy reason) j
    have same : t.legsOn j = (s.setLeg i (s.legs[i].endedBy reason)).legsOn j := by
      unfold State.legsOn; rw [legs]; rfl
    have e1 : (if s.legs[i].state = .active ∧ s.legs[i].route = some j then 1 else 0)
        = (if j = k then 1 else 0) := by
      rw [active, hk]; simp [eq_comm]
    have e2 : ¬ ((s.legs[i].endedBy reason).state = .active
        ∧ (s.legs[i].endedBy reason).route = some j) := by simp [Leg.endedBy]
    rw [e1, if_neg e2] at this
    rw [same]
    exact this
  refine ⟨fun a => by rw [stations]; exact range a, ⟨fun j x hx => ?_, fun j aj => ?_⟩, limits_of stations budget (fun j aj => ?_) (fun j nj => ?_) lim⟩
  · rw [routes, put_get] at hx
    have up : ∀ b, (s.beltStation b).isSome → (t.beltStation b).isSome := fun b h => by
      unfold State.beltStation at h ⊢; rw [find]; exact h
    have uu : ∀ u, (s.unloaderStation u).isSome → (t.unloaderStation u).isSome := fun b h => by
      unfold State.unloaderStation at h ⊢; rw [find]; exact h
    have cj := count j
    split at hx
    · subst j
      cases hx
      obtain ⟨x1, x2, x3⟩ := hr k e he
      rw [if_pos rfl] at cj
      exact ⟨by show e.users - 1 = _; omega, uu _ x2, fun b hb => up b (x3 b hb)⟩
    · rename_i nk
      obtain ⟨x1, x2, x3⟩ := hr j x hx
      rw [if_neg nk] at cj
      exact ⟨by omega, uu _ x2, fun b hb => up b (x3 b hb)⟩
  · rw [legs, put_get] at aj ⊢
    split at aj
    · cases aj
    · rename_i nj
      rw [if_neg nj]
      obtain ⟨k', e', he', y1, y2, y3, y4⟩ := ha j aj
      by_cases kk : k' = k
      · subst kk
        rw [Option.mem_def.1 he] at he'
        cases he'
        exact ⟨k', { e with users := e.users - 1 }, by rw [routes, put_get_same]; rfl, y1, y2, y3, y4⟩
      · exact ⟨k', e', by rw [routes, put_get_other _ _ kk]; exact he', y1, y2, y3, y4⟩
  · rw [legs, put_get] at aj ⊢
    split at aj
    · cases aj
    · rename_i nj
      rw [if_neg nj]
      exact ⟨aj, rfl, Nat.le_refl _⟩
  · rw [legs, put_get] at nj ⊢
    split
    · rfl
    · rename_i ne
      rw [if_neg ne] at nj
      have := lim.1 j
      rw [if_neg nj] at this
      omega

/-- The ending of a leg keeps every law (R34). -/
theorem endLeg_evolves (i : UnloaderIx) (reason : EndReason) (s : State) :
    Evolves s (endLeg i reason s) := by
  rw [endLeg_eq]
  split
  · rename_i a
    refine .trans ?_ (raiseFlag_evolves _ _ _ _ _)
    refine .trans (endedCore_evolves reason a) ?_
    exact Evolves.ite (fun _ => handGuard_evolves _ _ _) fun _ => .refl _
  · exact .refl s

theorem evaluateLeg_evolves (i : UnloaderIx) (s : State) : Evolves s (evaluateLeg i s) :=
  setLeg_evolves i _ (fun h => h i) (fun _ => rfl) (Leg.asBefore_of rfl rfl rfl rfl (Nat.le_refl _))

theorem evaluateLegs_evolves (s : State) : Evolves s (evaluateLegs s) :=
  legs_evolves _
    (fun h i => by
      rw [ofFn_get]; split
      · exact h i
      · exact h i)
    (fun i => by
      rw [ofFn_get]; split <;> exact fun _ => rfl)
    (fun i => by
      rw [ofFn_get]; split <;> exact Leg.asBefore_of rfl rfl rfl rfl (Nat.le_refl _))

/-! ### Breaches and arrivals (R115 to R120) -/

theorem recordBreach_evolves (b : Breach) (s : State) : Evolves s (recordBreach b s) := by
  unfold recordBreach
  exact Evolves.trans (t := { s with seg := { s.seg with breach := _, breachCount := _ } }) {}
    (raiseFlag_evolves _ _ _ _ _)

theorem endLegsOn_evolves (b : BeltIx) (s : State) : Evolves s (endLegsOn b s) :=
  Evolves.foldl (fun s i => Evolves.ite (fun _ => endLeg_evolves i _ s) fun _ => .refl s) _ s

theorem raiseBreach_evolves (b : Breach) (s : State) : Evolves s (raiseBreach b s) :=
  (recordBreach_evolves b s).trans (endLegsOn_evolves _ _)

theorem arriveAtBin_evolves (n : BinIx) (b : BeltIx) (via : Option DiverterIx) (g : Grain) (s : State) :
    Evolves s (arriveAtBin n b via g s) := by
  unfold arriveAtBin
  split
  · exact .refl s
  · dsimp only
    split
    · exact raiseBreach_evolves _ s
    · split
      · exact setBin_evolves s _ _
      · split
        · exact .refl s
        · exact raiseBreach_evolves _ s

/-- The check of an arrival against the next step of its grain (R115). -/
theorem strayCheck_evolves (x : Breach) (next : Option Outlet) (out : Outlet) (s : State) :
    Evolves s (if next = some out then s else raiseBreach x s) := by
  split
  · exact .refl s
  · exact raiseBreach_evolves x s

theorem arriveAtDiverter_evolves (d : DiverterIx) (b : BeltIx) (g : Grain) (s : State) :
    Evolves s (arriveAtDiverter d b g s).1 := by
  unfold arriveAtDiverter
  dsimp only
  split
  · split
    · dsimp only
      exact raiseBreach_evolves _ s
    · split
      · dsimp only
        exact raiseBreach_evolves _ s
      · split
        · dsimp only
          rw [apply_ite Prod.fst]
          exact Evolves.ite (fun _ => (strayCheck_evolves _ _ _ s).trans (arriveAtBin_evolves _ _ _ _ _))
            fun _ => strayCheck_evolves _ _ _ s
        · rw [apply_ite Prod.fst]
          exact Evolves.ite (fun _ => strayCheck_evolves _ _ _ s) fun _ => strayCheck_evolves _ _ _ s
        · dsimp only
          exact strayCheck_evolves _ _ _ s
  · dsimp only
    exact raiseBreach_evolves _ s

/-! ### DIVERT orders (R107 to R112) -/

theorem answerDivert_evolves (t : Telegram) (c : AnswerCode) (s : State) :
    Evolves s (answerDivert t c s) := answer_evolves _ _ _ _ s

theorem forwardDivert_evolves (t : Telegram) (s : State) : Evolves s (forwardDivert t s) :=
  joinForward_evolves _ (sound_of_none rfl)

/-- A diverter record without a pending divert and a timer keeps the law of its timer. -/
theorem stopped_timerLaw {p : Option PositionIx} :
    DiverterRecord.TimerLaw ⟨p, none, none⟩ := ⟨rfl, by simp⟩

theorem holdDivert_evolves (t : Telegram) (d : DiverterIx) (e : DiverterData) (r : DiverterRecord)
    (s : State) : Evolves s (holdDivert t d e r s) := by
  unfold holdDivert
  dsimp only
  refine .trans ?_ (answerDivert_evolves _ _ _)
  refine .trans (t := match r.pending with
    | some old => answerDivert old .superseded s
    | none => s) ?_ (setDiverter_evolves d _ ?_)
  · split
    · exact answerDivert_evolves _ _ s
    · exact .refl s
  · rintro - x hx
    cases hx
    exact ⟨rfl, by rintro y ⟨⟩; exact Nat.zero_le _⟩

theorem takeDivert_evolves (t : Telegram) (d : DiverterIx) (e : DiverterData) (s : State) :
    Evolves s (takeDivert t d e s) := by
  unfold takeDivert
  split
  · exact answerDivert_evolves _ _ s
  · split
    · exact forwardDivert_evolves t s
    · split
      · exact forwardDivert_evolves t s
      · exact holdDivert_evolves t d e _ s

theorem headClearReport_evolves (d : DiverterIx) (s : State) : Evolves s (headClearReport d s) := by
  unfold headClearReport
  split
  · exact .refl s
  · split
    · exact .refl s
    · dsimp only
      refine Evolves.trans (setDiverter_evolves d _ ?_) (Evolves.ite
        (fun _ => answerDivert_evolves _ _ _) fun _ => forwardDivert_evolves _ _)
      rintro - x hx
      cases hx
      exact stopped_timerLaw

theorem giveUpDivert_evolves (d : DiverterIx) (s : State) : Evolves s (giveUpDivert d s) := by
  unfold giveUpDivert
  split
  · exact .refl s
  · split
    · exact .refl s
    · refine .trans ?_ (raiseFlag_evolves _ _ _ _ _)
      refine (answerDivert_evolves _ _ s).trans (setDiverter_evolves d _ ?_)
      rintro - x hx
      cases hx
      exact stopped_timerLaw

theorem holdTimerExpires_evolves (d : DiverterIx) (s : State) : Evolves s (holdTimerExpires d s) :=
  whenOut_evolves (giveUpDivert_evolves d s)

/-! ### The stages only lower a ceiling (R55, R58 to R63) -/

theorem stageCeiling_le_requested (s : State) (i : UnloaderIx) : (stageCeiling s)[i] ≤ s.legs[i].r := by
  unfold stageCeiling
  rw [ofFn_get]
  split
  · exact Nat.min_le_right _ _
  · exact Nat.zero_le _

theorem stageRamp_le (s : State) (top : Ceilings) (i : UnloaderIx) : (stageRamp s top)[i] ≤ top[i] := by
  unfold stageRamp
  rw [ofFn_get]
  exact Nat.min_le_left _ _

theorem shareBelt_le (s : State) (top : Ceilings) (b : BeltIx) (i : UnloaderIx) :
    (shareBelt s top b)[i] ≤ top[i] := by
  unfold shareBelt
  split
  · exact Nat.le_refl _
  · dsimp only
    split
    · rw [ofFn_get]
      split
      · exact Nat.div_le_of_le_mul (by rw [Nat.mul_comm]; exact Nat.mul_le_mul_right _ (by omega))
      · exact Nat.le_refl _
    · exact Nat.le_refl _

theorem foldl_shareBelt_le (s : State) (i : UnloaderIx) : ∀ (l : List BeltIx) (top : Ceilings),
    (l.foldl (shareBelt s) top)[i] ≤ top[i]
  | [], _ => Nat.le_refl _
  | b :: l, top => Nat.le_trans (foldl_shareBelt_le s i l _) (shareBelt_le s top b i)

theorem stageBelts_le (s : State) (top : Ceilings) (i : UnloaderIx) : (stageBelts s top)[i] ≤ top[i] :=
  foldl_shareBelt_le s i _ top

theorem scaleToPower_le (s : State) (x : Ceilings) (i : UnloaderIx) : (scaleToPower s x)[i] ≤ x[i] := by
  unfold scaleToPower
  dsimp only
  split
  · rw [replicate_get]; exact Nat.zero_le _
  · split
    · exact Nat.le_refl _
    · rw [ofFn_get]
      exact Nat.div_le_of_le_mul (by rw [Nat.mul_comm]; exact Nat.mul_le_mul_right _ (by omega))

theorem ceilingsBeforePower_le_requested (s : State) (i : UnloaderIx) :
    (ceilingsBeforePower s)[i] ≤ s.legs[i].r :=
  Nat.le_trans (stageBelts_le s _ i) (Nat.le_trans (stageRamp_le s _ i) (stageCeiling_le_requested s i))

/-! ### Publishing and the expiry (R64 to R66) -/

theorem markPowerShort_evolves (top : Ceilings) (s : State) : Evolves s (markPowerShort top s) :=
  legs_evolves _
    (fun h i => by
      rw [ofFn_get]; split
      · exact h i
      · exact h i)
    (fun i => by
      rw [ofFn_get]; split <;> exact fun _ => rfl)
    (fun i => by
      rw [ofFn_get]; split <;> exact Leg.asBefore_of rfl rfl rfl rfl (Nat.le_refl _))

theorem raisePowerShort_evolves (top : Ceilings) (s : State) : Evolves s (raisePowerShort top s) := by
  unfold raisePowerShort
  exact Evolves.ite (fun _ => raiseFlag_evolves _ _ _ _ s) fun _ => .refl s

/-- Publishing a grant within the range of a feed keeps every law but those of the grants (R51, R66). The grant is
in range under the law of the feeds of a state from which this one has come. -/
theorem publish_keeps {s t : State} (h : Keeps s t) (i : UnloaderIx) (grant : Nat)
    (hg : s.FeedLaw → grant ≤ Config.maxFeed) : Keeps s (publish i grant t) := by
  unfold publish
  dsimp only
  split
  · refine (setLeg_keeps_from h i { t.legs[i] with g := grant, f := min t.legs[i].r grant }
      (fun hs => ?_) fun h => ⟨h, rfl, rfl, rfl⟩).trans (handGuard_evolves _ _ _).toKeeps
    have := h.feeds hs i
    exact ⟨Nat.min_le_right _ _, Nat.min_le_left _ _, this.2.2.1, hg hs, this.2.2.2.2⟩
  · rename_i n
    refine setLeg_keeps_from h i { t.legs[i] with g := grant } (fun hs => ?_) fun h => ⟨h, rfl, rfl, rfl⟩
    have := h.feeds hs i
    have e : min t.legs[i].r grant = t.legs[i].f := by
      by_contra c; exact n (.inl c)
    exact ⟨e ▸ Nat.min_le_right _ _, this.2.1, this.2.2.1, hg hs, this.2.2.2.2⟩

theorem handGuard_frame (i : UnloaderIx) (n : Nat) (s : State) :
    handGuard i n s = { s with path := (handGuard i n s).path } := by
  unfold handGuard
  split <;> rfl

/-- A leg's record after its grant is published: f is the smaller of r and the grant (R66). -/
def Leg.published (l : Leg) (grant : Nat) : Leg := { l with g := grant, f := min l.r grant }

/-- Publishing a grant changes the leg's record and the path (R66). -/
theorem publish_frame (i : UnloaderIx) (grant : Nat) (s : State) :
    publish i grant s =
      { s with legs := put s.legs i (s.legs[i].published grant), path := (publish i grant s).path } := by
  unfold publish
  dsimp only
  split
  · rw [handGuard_frame]
    rfl
  · rename_i n
    have e : min s.legs[i].r grant = s.legs[i].f := by
      by_contra c; exact n (.inl c)
    unfold Leg.published
    rw [e]
    rfl

/-- A pass in which the ACTIVE legs of a list are published, those that a condition names. -/
def publishPass (x : UnloaderIx → Nat) (p : UnloaderIx → Bool) (l : List UnloaderIx) (s : State) : State :=
  l.foldl (fun t i => if t.legs[i].state = .active ∧ p i = true then publish i (x i) t else t) s

theorem publishPass_changes (x : UnloaderIx → Nat) (p : UnloaderIx → Bool) : ∀ (l : List UnloaderIx) (s : State),
    ∃ v w, publishPass x p l s = { s with legs := v, path := w }
  | [], s => ⟨s.legs, s.path, rfl⟩
  | i :: l, s => by
    show ∃ v w, publishPass x p l
      (if s.legs[i].state = .active ∧ p i = true then publish i (x i) s else s) = _
    split
    · obtain ⟨v, w, e⟩ := publishPass_changes x p l (publish i (x i) s)
      refine ⟨v, w, ?_⟩
      rw [e, publish_frame]
    · exact publishPass_changes x p l s

theorem publishPass_frame (x : UnloaderIx → Nat) (p : UnloaderIx → Bool) (l : List UnloaderIx) (s : State) :
    publishPass x p l s =
      { s with legs := (publishPass x p l s).legs, path := (publishPass x p l s).path } := by
  obtain ⟨v, w, e⟩ := publishPass_changes x p l s
  rw [e]

/-- What a pass makes of a leg's record (R66). -/
theorem publishPass_legs (x : UnloaderIx → Nat) (p : UnloaderIx → Bool) (j : UnloaderIx) :
    ∀ (l : List UnloaderIx) (s : State), l.Nodup → (publishPass x p l s).legs[j] =
      if j ∈ l ∧ s.legs[j].state = .active ∧ p j = true then s.legs[j].published (x j) else s.legs[j]
  | [], s, _ => by simp [publishPass]
  | i :: l, s, nd => by
    obtain ⟨ni, nl⟩ := List.nodup_cons.1 nd
    show (publishPass x p l
      (if s.legs[i].state = .active ∧ p i = true then publish i (x i) s else s)).legs[j] = _
    rw [publishPass_legs x p j l _ nl]
    by_cases e : j = i
    · subst e
      simp only [ni, false_and, if_false, List.mem_cons, true_or, true_and]
      split
      · rw [publish_frame]
        exact put_get_same _ _ _
      · rfl
    · have other : (if s.legs[i].state = .active ∧ p i = true then publish i (x i) s else s).legs[j]
          = s.legs[j] := by
        split
        · rw [publish_frame]
          exact put_get_other _ _ e
        · rfl
      rw [other]
      simp only [List.mem_cons, e, false_or]

theorem publishPass_keeps {s : State} (x : UnloaderIx → Nat) (p : UnloaderIx → Bool)
    (hx : s.FeedLaw → ∀ i : UnloaderIx, s.legs[i].state = .active → x i ≤ Config.maxFeed) :
    ∀ (l : List UnloaderIx) (t : State), Keeps s t →
      (∀ i : UnloaderIx, t.legs[i].state = .active → s.legs[i].state = .active) →
      Keeps s (publishPass x p l t)
  | [], _, h, _ => h
  | i :: l, t, h, act => by
    refine publishPass_keeps x p hx l _ ?_ fun j a => ?_
    · dsimp only
      split
      · rename_i a
        exact publish_keeps h i _ fun hs => hx hs i (act i a.1)
      · exact h
    · revert a
      dsimp only
      split
      · rw [publish_frame]
        dsimp only
        rw [put_get]
        split
        · subst j; exact fun _ => act i (by rename_i a _; exact a.1)
        · exact act j
      · exact act j

theorem stagePublish_eq (top : Ceilings) (s : State) :
    stagePublish top s = publishPass (fun i => top[i]) (fun _ => true) (allIx 6) s := by
  unfold stagePublish publishPass
  congr 1
  funext t i
  simp

theorem powerRecheck_eq (s : State) : powerRecheck s =
    publishPass (fun i => (scaleToPower s (Vector.ofFn fun j =>
        if s.legs[j].state = .active then s.legs[j].g else 0))[i])
      (fun i => decide ((scaleToPower s (Vector.ofFn fun j =>
        if s.legs[j].state = .active then s.legs[j].g else 0))[i]
          ≠ (Vector.ofFn fun j : UnloaderIx => if s.legs[j].state = .active then s.legs[j].g else 0)[i]))
      (allIx 6) s := by
  unfold powerRecheck publishPass
  dsimp only
  congr 1
  funext t i
  simp only [decide_eq_true_eq]

theorem allIx_nodup (n : Nat) : (allIx n).Nodup := List.nodup_finRange n

/-! ### The limits of the stages (R56 to R63) -/

/-- Stage 1 bounds every ceiling by the rated feed cap, where the sweep percent is at most 100 (R56, R57). -/
theorem stageCeiling_le_rated {s : State} (h : s.RangeLaw) (i : UnloaderIx) :
    (stageCeiling s)[i] ≤ s.unloaderNumber i (·.ratedCap) := by
  unfold stageCeiling
  rw [ofFn_get]
  split
  · refine Nat.le_trans (Nat.min_le_left _ _) ?_
    unfold State.effectiveCap State.unloaderNumber
    split
    · rename_i d hd
      split
      · unfold UnloaderData.deratedCap
        have : d.sweepPercent ≤ 60 := by
          unfold State.unloaderData State.unloaderStation State.findStation at hd
          simp only [Option.map_eq_some_iff] at hd
          obtain ⟨⟨a, x⟩, hd, rfl⟩ := hd
          obtain ⟨a', -, hd⟩ := List.exists_of_findSome?_eq_some hd
          split at hd
          · rename_i e he
            have := (h a' e he).2.2.2
            simp only [Option.map_eq_some_iff] at hd
            obtain ⟨y, hy, e2⟩ := hd
            cases e2
            split at hy
            · rename_i j d hk
              rw [hk] at this
              split at hy
              · cases hy; exact this.2.2.2.2.2.2.2.2
              · cases hy
            · cases hy
          · cases hd
        exact Nat.div_le_of_le_mul (by rw [Nat.mul_comm]; exact Nat.mul_le_mul_right _ (by omega))
      · exact Nat.le_refl _
    · exact Nat.le_refl _
  · exact Nat.zero_le _

/-- What a belt carries, in ceilings, after stage 3 has taken it is within its capacity (R59, R60). -/
theorem shareBelt_sum (s : State) (top : Ceilings) (b : BeltIx) {d : BeltData} (hd : s.beltData b = some d) :
    s.beltSum b (fun i => (shareBelt s top b)[i]) ≤ d.capacity := by
  unfold shareBelt
  rw [hd]
  dsimp only
  split
  · rename_i much
    have step : s.beltSum b (fun i => (Vector.ofFn fun i : UnloaderIx => if s.crosses i b then
          top[i] * d.capacity / s.beltSum b (fun i => top[i]) else top[i])[i])
        ≤ s.beltSum b (fun i => top[i]) * d.capacity / s.beltSum b (fun i => top[i]) := by
      rw [Nat.le_div_iff_mul_le (by omega)]
      generalize hS : s.beltSum b (fun i => top[i]) = S
      have : ∀ l : List UnloaderIx, (l.map fun i => if s.crosses i b then
            (Vector.ofFn fun i : UnloaderIx => if s.crosses i b then top[i] * d.capacity / S else top[i])[i]
              else 0).sum * S
          ≤ (l.map fun i => if s.crosses i b then top[i] else 0).sum * d.capacity := by
        intro l
        induction l with
        | nil => simp
        | cons i l ih =>
          simp only [List.map_cons, List.sum_cons, Nat.add_mul]
          refine Nat.add_le_add ?_ ih
          split
          · rename_i c
            rw [ofFn_get, if_pos c]
            exact Nat.div_mul_le_self _ _
          · simp
      have := this (allIx 6)
      rw [← hS] at this ⊢
      exact this
    refine Nat.le_trans step (Nat.div_le_of_le_mul (Nat.le_refl _))
  · omega

theorem foldl_shareBelt_sum (s : State) (b : BeltIx) {d : BeltData} (hd : s.beltData b = some d) :
    ∀ (l : List BeltIx) (top : Ceilings), b ∈ l →
      s.beltSum b (fun i => (l.foldl (shareBelt s) top)[i]) ≤ d.capacity
  | [], _, h => by cases h
  | c :: l, top, h => by
    by_cases e : b ∈ l
    · exact foldl_shareBelt_sum s b hd l _ e
    · have : b = c := by simpa [e] using h
      subst this
      refine Nat.le_trans ?_ (shareBelt_sum s top b hd)
      unfold State.beltSum
      apply List.sum_le_sum
      intro i _
      split
      · exact foldl_shareBelt_le s i l _
      · exact Nat.le_refl _

/-- Feeds that have been scaled to the headroom demand no more than it (R62, R63). -/
theorem scaleToPower_demand (s : State) (x : Ceilings) (h : ¬ s.headroom ≤ 0) :
    (s.demand fun i => (scaleToPower s x)[i]) ≤ s.headroom.toNat := by
  unfold scaleToPower
  dsimp only
  rw [if_neg h]
  split
  · assumption
  · rename_i much
    have step : (s.demand fun i => (Vector.ofFn fun i : UnloaderIx =>
          x[i] * s.headroom.toNat / s.demand fun i => x[i])[i])
        ≤ (s.demand fun i => x[i]) * s.headroom.toNat / s.demand fun i => x[i] := by
      rw [Nat.le_div_iff_mul_le (by omega)]
      generalize hV : (s.demand fun i => x[i]) = V
      have : ∀ l : List UnloaderIx, (l.map fun i => if s.legs[i].state = .active then
            s.unloaderNumber i (·.specificPower)
              * (Vector.ofFn fun i : UnloaderIx => x[i] * s.headroom.toNat / V)[i] else 0).sum * V
          ≤ (l.map fun i => if s.legs[i].state = .active then
              s.unloaderNumber i (·.specificPower) * x[i] else 0).sum * s.headroom.toNat := by
        intro l
        induction l with
        | nil => simp
        | cons i l ih =>
          simp only [List.map_cons, List.sum_cons, Nat.add_mul]
          refine Nat.add_le_add ?_ ih
          split
          · rw [ofFn_get, Nat.mul_assoc, Nat.mul_assoc]
            exact Nat.mul_le_mul_left _ (Nat.div_mul_le_self _ _)
          · simp
      have := this (allIx 6)
      rw [← hV] at this ⊢
      exact this
    exact Nat.le_trans step (Nat.div_le_of_le_mul (Nat.le_refl _))

theorem scaleToPower_none (s : State) (x : Ceilings) (h : s.headroom ≤ 0) (i : UnloaderIx) :
    (scaleToPower s x)[i] = 0 := by
  unfold scaleToPower
  dsimp only
  rw [if_pos h, replicate_get]

/-- Grants within the rated caps, the belts' capacities and the headroom make the laws of the grants hold
(R51, R60, R63). -/
theorem limits_made {s t : State} (st : t.tables.stations = s.tables.stations)
    (bu : t.alloc.budgetInUse = s.alloc.budgetInUse)
    (same : ∀ i : UnloaderIx, t.legs[i].state = s.legs[i].state ∧ t.legs[i].belts = s.legs[i].belts)
    (x : UnloaderIx → Nat)
    (active : ∀ i : UnloaderIx, s.legs[i].state = .active → t.legs[i].g = x i)
    (rest : ∀ i : UnloaderIx, s.legs[i].state ≠ .active → t.legs[i].g = 0)
    (rated : ∀ i : UnloaderIx, s.legs[i].state = .active → x i ≤ s.unloaderNumber i (·.ratedCap))
    (belts : ∀ b, ∀ d ∈ s.beltData b, s.beltSum b x ≤ d.capacity)
    (power : if s.headroom ≤ 0 then ∀ i, x i = 0 else s.demand x ≤ s.headroom.toNat) :
    t.GrantLaw ∧ t.CapacityLaw ∧ t.PowerLaw := by
  have find : ∀ {α : Type} (look : StationEntry → Option α), t.findStation look = s.findStation look :=
    fun look => by unfold State.findStation; rw [st]
  have num_ : ∀ i f, t.unloaderNumber i f = s.unloaderNumber i f := fun i f => by
    unfold State.unloaderNumber State.unloaderData State.unloaderStation; rw [find]
  have sum_ : ∀ y z : UnloaderIx → Nat, (∀ i, s.legs[i].state = .active → y i = z i) →
      t.activeSum y = s.activeSum z := fun y z yz => by
    unfold State.activeSum
    congr 1
    apply List.map_congr_left
    intro i _
    rw [(same i).1]
    split
    · exact yz i ‹_›
    · rfl
  refine ⟨fun i => ?_, fun b d hd => ?_, ?_⟩
  · rw [(same i).1, num_]
    split
    · rename_i a; rw [active i a]; exact rated i a
    · rename_i a; rw [rest i a]
  · have : s.beltData b = some d := by
      unfold State.beltData State.beltStation at hd ⊢; rw [find] at hd; exact hd
    refine Nat.le_trans (Nat.le_of_eq ?_) (belts b d this)
    unfold State.beltSum
    congr 1
    apply List.map_congr_left
    intro i _
    unfold State.crosses
    rw [(same i).1, (same i).2]
    split
    · rename_i c
      simp only [Bool.and_eq_true, beq_iff_eq] at c
      exact active i c.1
    · rfl
  · have hr : t.headroom = s.headroom := by
      unfold State.headroom State.basePower
      rw [bu, sum_ _ _ fun i _ => num_ i _]
    have dm : (t.demand fun i => t.legs[i].g) = s.demand x := sum_ _ _ fun i a => by
      rw [num_]; exact congrArg _ (active i a)
    unfold State.PowerLaw
    rw [hr, dm]
    split
    · rename_i h
      rw [if_pos h] at power
      intro i a
      rw [(same i).1] at a
      rw [active i a]
      exact power i
    · rename_i h
      rw [if_neg h] at power
      exact power

/-- The law of the routes through a change of grants. -/
theorem routeLaw_published {s t : State} (h : s.RouteLaw) (st : t.tables = s.tables)
    (same : ∀ i : UnloaderIx, t.legs[i].state = s.legs[i].state ∧ t.legs[i].route = s.legs[i].route
      ∧ t.legs[i].belts = s.legs[i].belts ∧ t.legs[i].bin = s.legs[i].bin) : t.RouteLaw :=
  routeLaw_of (by rw [st]) (by rw [st]) (fun i a => by rw [← (same i).1]; exact a)
    (fun i a => ⟨by rw [(same i).1]; exact a, (same i).2⟩) h

/-! ### The expiry and the power recheck as wholes (R55, R65) -/

theorem markPowerShort_same (top : Ceilings) (s : State) (i : UnloaderIx) :
    ∃ b, (markPowerShort top s).legs[i] = { s.legs[i] with powerShort := b } := by
  unfold markPowerShort
  rw [ofFn_get]
  split
  · exact ⟨_, rfl⟩
  · exact ⟨s.legs[i].powerShort, rfl⟩

theorem raisePowerShort_frame (top : Ceilings) (s : State) :
    raisePowerShort top s =
      { s with notices := (raisePowerShort top s).notices, path := (raisePowerShort top s).path
               mgmt := (raisePowerShort top s).mgmt } := by
  unfold raisePowerShort
  dsimp only
  split
  · unfold raiseFlag
    split
    · rfl
    · dsimp only
      split
      · rw [joinEgress_frame]
      · rfl
  · rfl

/-- Every ACTIVE leg's record after the stages: its grant is what stage 4 has left of its ceiling, its forwarded
feed the smaller of r and the grant; any other leg is as it was (R66). -/
theorem runStages_leg (s : State) (i : UnloaderIx) : ∃ b, (runStages s).legs[i] =
    if s.legs[i].state = .active then
      { s.legs[i] with
        powerShort := b
        g := (scaleToPower s (ceilingsBeforePower s))[i]
        f := min s.legs[i].r (scaleToPower s (ceilingsBeforePower s))[i] }
    else s.legs[i] := by
  unfold runStages
  dsimp only
  rw [stagePublish_eq, publishPass_legs _ _ i _ _ (allIx_nodup 6), raisePowerShort_frame]
  dsimp only
  unfold markPowerShort
  rw [ofFn_get]
  by_cases a : s.legs[i].state = .active
  · simp only [if_pos a, mem_allIx, true_and]
    rw [if_pos ⟨a, trivial⟩]
    exact ⟨_, rfl⟩
  · simp only [if_neg a]
    rw [if_neg fun c => a c.2.1]
    exact ⟨false, rfl⟩

theorem runStages_frame (s : State) : runStages s = { s with
    legs := (runStages s).legs, notices := (runStages s).notices, path := (runStages s).path
    mgmt := (runStages s).mgmt } := by
  have h : ∃ v n p m, runStages s = { s with legs := v, notices := n, path := p, mgmt := m } := by
    unfold runStages
    dsimp only
    obtain ⟨v, w, e⟩ := publishPass_changes (fun i => (scaleToPower s (ceilingsBeforePower s))[i])
      (fun _ => true) (allIx 6)
      (raisePowerShort (ceilingsBeforePower s) (markPowerShort (ceilingsBeforePower s) s))
    rw [stagePublish_eq, e, raisePowerShort_frame]
    exact ⟨v, _, w, _, rfl⟩
  obtain ⟨v, n, p, m, e⟩ := h
  rw [e]

theorem runStages_keeps (s : State) : Keeps s (runStages s) := by
  unfold runStages
  dsimp only
  rw [stagePublish_eq]
  refine publishPass_keeps _ _ (fun hs i _ => ?_) _ _
    ((markPowerShort_evolves _ s).trans (raisePowerShort_evolves _ _)).toKeeps fun i a => ?_
  · exact Nat.le_trans (scaleToPower_le s _ i)
      (Nat.le_trans (ceilingsBeforePower_le_requested s i) (hs i).2.2.1)
  · rw [raisePowerShort_frame] at a
    obtain ⟨b, e⟩ := markPowerShort_same (ceilingsBeforePower s) s i
    have a' : (markPowerShort (ceilingsBeforePower s) s).legs[i].state = .active := a
    rw [e] at a'
    exact a'

theorem ceilingsBeforePower_le_ceiling (s : State) (i : UnloaderIx) :
    (ceilingsBeforePower s)[i] ≤ (stageCeiling s)[i] :=
  Nat.le_trans (stageBelts_le s _ i) (stageRamp_le s _ i)

/-- The stages make the laws of the grants hold, whatever the grants before (R51, R60, R63). -/
theorem runStages_limits {s : State} (range : s.RangeLaw) (route : s.RouteLaw)
    (rest : ∀ i : UnloaderIx, s.legs[i].state ≠ .active → s.legs[i].g = 0) : (runStages s).Grants := by
  have leg := runStages_leg s
  have fr := runStages_frame s
  have st : (runStages s).tables = s.tables := by rw [fr]
  have bu : (runStages s).alloc = s.alloc := by rw [fr]
  have same : ∀ i : UnloaderIx, (runStages s).legs[i].state = s.legs[i].state
      ∧ (runStages s).legs[i].route = s.legs[i].route ∧ (runStages s).legs[i].belts = s.legs[i].belts
      ∧ (runStages s).legs[i].bin = s.legs[i].bin := fun i => by
    obtain ⟨b, e⟩ := leg i
    rw [e]
    split <;> exact ⟨rfl, rfl, rfl, rfl⟩
  refine ⟨fun a => by rw [st]; exact range a, routeLaw_published route st same, ?_⟩
  refine limits_made (by rw [st]) (by rw [bu]) (fun i => ⟨(same i).1, (same i).2.2.1⟩)
    (fun i => (scaleToPower s (ceilingsBeforePower s))[i]) (fun i a => ?_) (fun i a => ?_) (fun i _ => ?_)
    (fun b d hd => ?_) ?_
  · obtain ⟨b, e⟩ := leg i
    rw [e, if_pos a]
  · obtain ⟨b, e⟩ := leg i
    rw [e, if_neg a]
    exact rest i a
  · exact Nat.le_trans (scaleToPower_le s _ i)
      (Nat.le_trans (ceilingsBeforePower_le_ceiling s i) (stageCeiling_le_rated range i))
  · refine Nat.le_trans ?_ (foldl_shareBelt_sum s b hd (allIx 8) (stageRamp s (stageCeiling s)) (mem_allIx b))
    unfold State.beltSum
    apply List.sum_le_sum
    intro i _
    split
    · exact scaleToPower_le s _ i
    · exact Nat.le_refl _
  · split
    · rename_i h
      exact fun i => scaleToPower_none s _ h i
    · rename_i h
      exact scaleToPower_demand s _ h

theorem evaluateLegs_frame (s : State) : evaluateLegs s = { s with legs := (evaluateLegs s).legs } := rfl

theorem evaluateLegs_leg (s : State) (i : UnloaderIx) : ∃ c, (evaluateLegs s).legs[i] =
    { s.legs[i] with condition := c } := by
  unfold evaluateLegs
  rw [ofFn_get]
  split
  · exact ⟨_, rfl⟩
  · exact ⟨s.legs[i].condition, rfl⟩

theorem takeExpiry_evolves (s : State) : Evolves s (takeExpiry s) := by
  have keeps : Keeps s (takeExpiry s) := by
    refine .trans ?_ (runStages_keeps _)
    refine .trans ?_ (evaluateLegs_evolves _).toKeeps
    exact { allocator := fun ⟨_, b, _, d, _⟩ => ⟨b, b, d, d, Nat.le_refl _⟩ }
  refine { keeps with grants := fun ⟨range, route, lim⟩ => ?_ }
  unfold takeExpiry
  generalize e : ({ s with alloc := { s.alloc with
    budgetInUse := s.alloc.budgetSet
    periodInUse := s.alloc.periodSet
    timeLeft := s.alloc.periodSet } } : State) = u
  have tables : u.tables = s.tables := by rw [← e]
  have legs : u.legs = s.legs := by rw [← e]
  refine runStages_limits (fun a => by rw [evaluateLegs_frame, tables]; exact range a)
    (routeLaw_published route (by rw [evaluateLegs_frame, tables]) fun i => ?_) fun i a => ?_
  · obtain ⟨c, e⟩ := evaluateLegs_leg u i
    rw [e, legs]
    exact ⟨rfl, rfl, rfl, rfl⟩
  · obtain ⟨c, e⟩ := evaluateLegs_leg u i
    rw [e, legs] at a ⊢
    have := lim.1 i
    rw [if_neg a] at this
    dsimp only
    omega

theorem periodExpires_evolves (s : State) : Evolves s (periodExpires s) :=
  whenOut_evolves (takeExpiry_evolves s)

theorem powerRecheck_frame (s : State) : powerRecheck s = { s with
    legs := (powerRecheck s).legs, path := (powerRecheck s).path } := by
  rw [powerRecheck_eq, publishPass_frame]

theorem powerRecheck_keeps (s : State) : Keeps s (powerRecheck s) := by
  rw [powerRecheck_eq]
  refine publishPass_keeps _ _ (fun hs i a => ?_) _ _ (Evolves.refl s).toKeeps fun i a => a
  refine Nat.le_trans (scaleToPower_le s _ i) ?_
  rw [ofFn_get, if_pos a]
  exact (hs i).2.2.2.1

/-- Every ACTIVE leg's grant after the power recheck is what the headroom leaves of it (R65). -/
theorem powerRecheck_leg (s : State) (i : UnloaderIx) : ∃ f, (powerRecheck s).legs[i] =
    if s.legs[i].state = .active then
      { s.legs[i] with
        f := f
        g := (scaleToPower s (Vector.ofFn fun j : UnloaderIx =>
          if s.legs[j].state = .active then s.legs[j].g else 0))[i] }
    else s.legs[i] := by
  rw [powerRecheck_eq, publishPass_legs _ _ i _ _ (allIx_nodup 6)]
  by_cases a : s.legs[i].state = .active
  · simp only [if_pos a]
    split
    · exact ⟨_, rfl⟩
    · rename_i e
      have e : (scaleToPower s (Vector.ofFn fun j : UnloaderIx =>
          if s.legs[j].state = .active then s.legs[j].g else 0))[i] = s.legs[i].g := by
        by_contra c
        refine e ⟨mem_allIx i, a, decide_eq_true ?_⟩
        simp only [ne_eq]
        rw [ofFn_get (fun j : UnloaderIx => if s.legs[j].state = .active then s.legs[j].g else 0), if_pos a]
        exact c
      exact ⟨s.legs[i].f, by rw [e]⟩
  · refine ⟨0, ?_⟩
    rw [if_neg a, if_neg fun c => a c.2.1]

/-- The power recheck makes the law of the power hold, and keeps those of the caps and the belts (R65). -/
theorem powerRecheck_limits {s : State} (range : s.RangeLaw) (route : s.RouteLaw) (grant : s.GrantLaw)
    (belts : s.CapacityLaw) : (powerRecheck s).Grants := by
  have leg := powerRecheck_leg s
  have st : (powerRecheck s).tables = s.tables := by rw [powerRecheck_frame]
  have bu : (powerRecheck s).alloc = s.alloc := by rw [powerRecheck_frame]
  have same : ∀ i : UnloaderIx, (powerRecheck s).legs[i].state = s.legs[i].state
      ∧ (powerRecheck s).legs[i].route = s.legs[i].route
      ∧ (powerRecheck s).legs[i].belts = s.legs[i].belts
      ∧ (powerRecheck s).legs[i].bin = s.legs[i].bin := fun i => by
    obtain ⟨b, e⟩ := leg i
    rw [e]
    split <;> exact ⟨rfl, rfl, rfl, rfl⟩
  have le : ∀ i : UnloaderIx, s.legs[i].state = .active → (scaleToPower s (Vector.ofFn fun j : UnloaderIx =>
      if s.legs[j].state = .active then s.legs[j].g else 0))[i] ≤ s.legs[i].g := fun i a => by
    have := scaleToPower_le s (Vector.ofFn fun j : UnloaderIx =>
      if s.legs[j].state = .active then s.legs[j].g else 0) i
    rw [ofFn_get, if_pos a] at this
    exact this
  refine ⟨fun a => by rw [st]; exact range a, routeLaw_published route st same, ?_⟩
  refine limits_made (by rw [st]) (by rw [bu]) (fun i => ⟨(same i).1, (same i).2.2.1⟩)
    (fun i => (scaleToPower s (Vector.ofFn fun j : UnloaderIx =>
      if s.legs[j].state = .active then s.legs[j].g else 0))[i])
    (fun i a => ?_) (fun i a => ?_) (fun i a => ?_) (fun b d hd => ?_) ?_
  · obtain ⟨b, e⟩ := leg i
    rw [e, if_pos a]
  · obtain ⟨b, e⟩ := leg i
    rw [e, if_neg a]
    have := grant i
    rw [if_neg a] at this
    omega
  · have := grant i
    rw [if_pos a] at this
    exact Nat.le_trans (le i a) this
  · refine Nat.le_trans ?_ (belts b d hd)
    unfold State.beltSum
    apply List.sum_le_sum
    intro i _
    split
    · rename_i c
      unfold State.crosses at c
      simp only [Bool.and_eq_true, beq_iff_eq] at c
      exact le i c.1
    · exact Nat.le_refl _
  · split
    · rename_i h
      exact fun i => scaleToPower_none s _ h i
    · rename_i h
      exact scaleToPower_demand s _ h

theorem powerRecheck_evolves (s : State) : Evolves s (powerRecheck s) :=
  { powerRecheck_keeps s with
    grants := fun ⟨range, route, grant, belts, _⟩ => powerRecheck_limits range route grant belts }

/-! ### FEED orders (R37, R68 to R70) -/

theorem setpointRead_le (t : Telegram) : t.setpointRead ≤ Config.maxFeed := Nat.min_le_right _ _

theorem feedActive_evolves (t : Telegram) (i : UnloaderIx) (s : State) : Evolves s (feedActive t i s) := by
  have sent : Evolves s (joinForward (.forwarded (t.withSetpoint (min t.setpointRead s.legs[i].g))) s) :=
    joinForward_evolves _ (sound_of_none rfl)
  unfold feedActive
  dsimp only
  split
  · have taken : Evolves s ((joinForward (.forwarded (t.withSetpoint (min t.setpointRead s.legs[i].g)))
        s).setLeg i { s.legs[i] with r := t.setpointRead, f := min t.setpointRead s.legs[i].g }) :=
      setLeg_evolves_from sent i _
        (fun hs => ⟨Nat.min_le_right _ _, Nat.min_le_left _ _, setpointRead_le t, (hs i).2.2.2.1,
          (hs i).2.2.2.2⟩)
        (by rw [joinForward_legs]; exact fun _ => rfl)
        (by rw [joinForward_legs]; exact Leg.asBefore_of rfl rfl rfl rfl (Nat.le_refl _))
    exact Evolves.ite (fun _ => taken.trans (answer_evolves _ _ _ _ _)) fun _ => taken
  · exact sent

theorem feedPended_evolves (t : Telegram) (i : UnloaderIx) (s : State) : Evolves s (feedPended t i s) := by
  refine Evolves.trans (setLeg_evolves i { s.legs[i] with pendingFeed := some t.setpointRead }
    (fun hs => ?_) (fun _ => rfl) (Leg.asBefore_of rfl rfl rfl rfl (Nat.le_refl _)))
    (answer_evolves _ _ _ _ _)
  refine ⟨(hs i).1, (hs i).2.1, (hs i).2.2.1, (hs i).2.2.2.1, ?_⟩
  rintro x ⟨⟩
  exact setpointRead_le t

theorem takeFeed_evolves (t : Telegram) (i : UnloaderIx) (s : State) : Evolves s (takeFeed t i s) :=
  Evolves.ite (fun _ => feedActive_evolves t i s) fun _ => feedPended_evolves t i s

theorem feedNoLeg_evolves (t : Telegram) (s : State) : Evolves s (feedNoLeg t s) :=
  (useFree_evolves s).trans (answer_evolves _ _ _ _ _)

end Sys2Proof.Machine
end

