-- ==== Sys2Proof/Laws/TrackerLaws.lean ====
section
/-!
SUPPORT. The laws through the belt tracker: what its operations do to the queue of a belt, and that they keep
every law.
-/

namespace Sys2Proof.Machine

/-! ### Slugs of a queue -/

/-- A change of one slug that keeps its place, its grain and the bound of its sources keeps the law of its
queue. -/
theorem mapSlug_queueLaw {r : BeltRecord} (p : Place) (f : Slug → Slug) (place : ∀ y, (f y).place = y.place)
    (grain : ∀ y, (f y).grain = y.grain)
    (sources : ∀ y ∈ r.queue, y.place = p → y.sources ≤ Config.maxSources →
      (f y).sources ≤ Config.maxSources)
    (h : r.QueueLaw) : BeltRecord.QueueLaw { r with queue := mapSlug r.queue p f } := by
  obtain ⟨h1, h2, h3, h4⟩ := h
  have hp : ∀ y : Slug, (if y.place = p then f y else y).place = y.place := fun y => by
    split
    · exact place y
    · rfl
  have hg : ∀ y : Slug, (if y.place = p then f y else y).grain = y.grain := fun y => by
    split
    · exact grain y
    · rfl
  refine ⟨?_, ?_, ?_, ?_⟩
  · simpa [mapSlug] using h1
  · simpa [mapSlug, List.map_map, Function.comp_def, hp] using h2
  · intro y hy
    obtain ⟨z, hz, rfl⟩ := List.mem_map.1 hy
    split
    · exact sources z hz ‹_› (h3 z hz)
    · exact h3 z hz
  · simpa [mapSlug, List.filter_map, Function.comp_def, hg] using h4

theorem slugAt_mem {q : List Slug} {p : Place} {y : Slug} (h : slugAt q p = some y) : y ∈ q :=
  List.mem_of_find?_eq_some h

/-- A queue of fewer than six slugs has a place that none of them takes. -/
theorem freePlace_free {q : List Slug} (h : q.length < Config.slugPlaces) :
    ∀ y ∈ q, y.place ≠ freePlace q := by
  have ex : ∃ p : Place, ∀ y ∈ q, y.place ≠ p := by
    by_contra c
    push Not at c
    have sub : allIx 6 ⊆ q.map (·.place) := fun p _ => by
      obtain ⟨y, hy, e⟩ := c p
      exact List.mem_map.2 ⟨y, hy, e⟩
    have := (List.nodup_finRange 6).subperm sub |>.length_le
    simp only [List.length_finRange, List.length_map] at this
    simp only [Config.slugPlaces] at h
    omega
  obtain ⟨p, hp⟩ := ex
  unfold freePlace
  cases hf : (allIx 6).find? fun p => !(q.any fun y => y.place == p) with
  | none =>
    have := List.find?_eq_none.1 hf p (mem_allIx p)
    simp only [Bool.not_eq_true, Bool.not_eq_false', List.any_eq_true, beq_iff_eq] at this
    obtain ⟨y, hy, e⟩ := this
    exact absurd e (hp y hy)
  | some x =>
    have := List.find?_some hf
    simp only [Bool.not_eq_true', List.any_eq_false, beq_iff_eq] at this
    exact this

/-! ### Closing a source (R89) -/

theorem lessOne_place (y : Slug) (m : Mark) : (y.lessOne m).place = y.place := by
  unfold Slug.lessOne; split <;> [rfl; (split <;> rfl)]

theorem lessOne_grain (y : Slug) (m : Mark) : (y.lessOne m).grain = y.grain := by
  unfold Slug.lessOne; split <;> [rfl; (split <;> rfl)]

theorem lessOne_sources_le (y : Slug) (m : Mark) : (y.lessOne m).sources ≤ y.sources := by
  unfold Slug.lessOne; split <;> [exact Nat.le_refl _; (split <;> simp)]

theorem closeSource_evolves (b : BeltIx) (p : Place) (s : State) : Evolves s (closeSource b p s) := by
  unfold closeSource
  split
  · exact .refl s
  · rename_i r hr
    refine setBelt_evolves b _ fun hs x hx => ?_
    cases hx
    exact mapSlug_queueLaw p _ (fun y => lessOne_place y _) (fun y => lessOne_grain y _)
      (fun y _ _ h => Nat.le_trans (lessOne_sources_le y _) h) (hs b r hr)

theorem closeHandOver_evolves (h : HandOver) (s : State) : Evolves s (closeHandOver h s) := by
  cases h
  · exact .refl s
  · exact closeSource_evolves _ _ s
  · exact .refl s
  · exact .refl s

theorem closeDownstream_evolves (b : BeltIx) (s : State) : Evolves s (closeDownstream b s) := by
  unfold closeDownstream
  split
  · exact .refl s
  · exact Evolves.foldl (fun t (y : Slug) => closeHandOver_evolves y.handOver t) _ s

/-! ### Entering UNSURE (R96, R98) -/

theorem dropSources_evolves (b : BeltIx) (s : State) : Evolves s (dropSources b s) := by
  refine tracker_evolves_from (.refl s) _ fun hs k r hr => ?_
  rw [map_get, Option.mem_def, Option.map_eq_some_iff] at hr
  obtain ⟨x, hx, rfl⟩ := hr
  obtain ⟨h1, h2, h3, h4⟩ := hs k x hx
  refine ⟨by simpa using h1, by simpa [List.map_map, Function.comp_def] using h2, ?_, ?_⟩
  · intro y hy
    obtain ⟨z, hz, rfl⟩ := List.mem_map.1 hy
    exact h3 z hz
  · simpa [List.filter_map, Function.comp_def] using h4

/-- A belt that holds the one UNKNOWN slug of its entry into UNSURE keeps the law of its queue. -/
theorem unsure_queueLaw (r : BeltRecord) :
    BeltRecord.QueueLaw { r with queue := [unknownSlug r.position], condition := .unsure } := by
  simp [BeltRecord.QueueLaw, unknownSlug, Config.slugPlaces, Config.maxSources]

theorem enterUnsure_evolves (b : BeltIx) (s : State) : Evolves s (enterUnsure b s) := by
  have h := (closeDownstream_evolves b s).trans (dropSources_evolves b _)
  unfold enterUnsure
  dsimp only
  split
  · exact h
  · exact setBelt_evolves_from h b _ fun _ x hx => by cases hx; exact unsure_queueLaw _

theorem cascadeFrom_evolves : ∀ (n : Nat) (b : BeltIx) (done : List BeltIx) (s : State),
    Evolves s (cascadeFrom n b done s).1
  | 0, _, _, s => .refl s
  | n + 1, b, done, s => by
    unfold cascadeFrom
    split
    · exact .refl s
    · split
      · exact .refl s
      · exact (enterUnsure_evolves _ s).trans (cascadeFrom_evolves n _ _ _)

theorem unsureCascade_evolves (b : BeltIx) (s : State) : Evolves s (unsureCascade b s).1 :=
  (enterUnsure_evolves b s).trans (cascadeFrom_evolves _ _ _ _)

/-! ### Opening a source (R86 to R88) -/

theorem gapTest_evolves (d : BeltData) (r : BeltRecord) (b : BeltIx) (g : Grain) (s : State) :
    Evolves s (gapTest d r b g s) := by
  unfold gapTest
  split
  · exact raiseBreach_evolves _ s
  · exact .refl s

theorem appended_queueLaw {r : BeltRecord} (d : BeltData) (g : Grain)
    (room : r.queue.length < Config.slugPlaces) (h : r.QueueLaw) :
    BeltRecord.QueueLaw { r with queue := r.queue ++ [newSlug d r g] } := by
  obtain ⟨_, h2, h3, h4⟩ := h
  refine ⟨by simpa using room, ?_, ?_, ?_⟩
  · simp only [List.map_append, List.map_cons, List.map_nil]
    rw [List.nodup_append]
    refine ⟨h2, by simp, ?_⟩
    intro x hx y hy e
    obtain ⟨z, hz, rfl⟩ := List.mem_map.1 hx
    simp only [List.mem_singleton] at hy
    exact freePlace_free room z hz (e.trans hy)
  · intro y hy
    obtain hy | hy := List.mem_append.1 hy
    · exact h3 y hy
    · simp only [List.mem_singleton] at hy
      subst hy
      simp [newSlug, Config.maxSources]
  · simpa [newSlug] using h4

theorem appendSource_evolves (d : BeltData) (r : BeltRecord) (b : BeltIx) (g : Grain) (s : State)
    (hr : s.tracker.belts[b] = some r) : Evolves s (appendSource d r b g s).state := by
  unfold appendSource
  dsimp only
  split
  · rename_i room
    exact setBelt_evolves_from (gapTest_evolves d r b g s) b _ fun hs x hx => by
      cases hx; exact appended_queueLaw d g room (hs b r hr)
  · exact ((gapTest_evolves d r b g s).trans (raiseFlag_evolves _ _ _ _ _)).trans
      (unsureCascade_evolves _ _)

/-- A slug that another source may join has fewer than seven sources (R86). -/
theorem joins_room {s : State} {d : BeltData} {r : BeltRecord} {g : Grain} {y : Slug}
    (h : s.joins d r g y = true) : y.plusOne.sources ≤ Config.maxSources := by
  unfold State.joins at h
  split at h
  · cases h
  · simp only [Bool.and_eq_true, decide_eq_true_eq] at h
    exact h.2

theorem openSource_evolves (b : BeltIx) (g : Grain) (s : State) : Evolves s (openSource b g s).state := by
  unfold openSource
  split
  · rename_i d r _ hr
    split
    · rename_i y hy
      split
      · rename_i joined
        refine setBelt_evolves b _ fun hs x hx => ?_
        cases hx
        have nodup := (hs b r hr).2.1
        refine mapSlug_queueLaw (f := Slug.plusOne) y.place (fun _ => rfl) (fun _ => rfl) ?_ (hs b r hr)
        intro z hz e _
        have : z = y := List.inj_on_of_nodup_map nodup hz (List.mem_of_getLast? hy) e
        subst this
        exact joins_room joined
      · exact appendSource_evolves d r b g s hr
    · exact appendSource_evolves d r b g s hr
  · exact .refl s

/-! ### The unloader's source (R84, R85) -/

theorem readFeed_evolves (i : UnloaderIx) (d : UnloaderData) (feed : Nat) (s : State) :
    Evolves s (readFeed i d feed s) := by
  unfold readFeed
  split
  · exact Evolves.ite (fun _ => (closeSource_evolves _ _ s).trans (setSource_evolves _ _ _))
      fun _ => .refl s
  · dsimp only
    split
    · split
      · exact Evolves.ite (fun _ => (openSource_evolves _ _ s).trans (setSource_evolves _ _ _))
          fun _ => .refl s
      · exact .refl s
    · exact .refl s

/-! ### Hand-over (R90 to R92) -/

theorem handToBelt_evolves (n : BeltIx) (g : Grain) (s : State) :
    Evolves s (handToBelt n g s).state := by
  unfold handToBelt
  split
  · exact openSource_evolves n g s
  · exact .refl s

theorem makeHandOver_evolves (b : BeltIx) (d : BeltData) (g : Grain) (s : State) :
    Evolves s (makeHandOver b d g s).state := by
  unfold makeHandOver
  split
  · exact handToBelt_evolves _ g s
  · rw [apply_ite HandedOver.state]
    exact Evolves.ite (fun _ => arriveAtBin_evolves _ _ _ _ s) fun _ => .refl s
  · rename_i n _
    have h := arriveAtDiverter_evolves n b g s
    dsimp only
    split
    · exact h.trans (handToBelt_evolves _ g _)
    · exact h
    · exact h

/-! ### Re-evaluation (R81, R94) -/

theorem mapSlugOn_evolves (b : BeltIx) (p : Place) (f : Slug → Slug) (s : State)
    (place : ∀ y, (f y).place = y.place) (grain : ∀ y, (f y).grain = y.grain)
    (sources : ∀ y, (f y).sources = y.sources) : Evolves s (s.mapSlugOn b p f) := by
  unfold State.mapSlugOn
  split
  · exact .refl s
  · rename_i r hr
    refine setBelt_evolves b _ fun hs x hx => ?_
    cases hx
    exact mapSlug_queueLaw p f place grain (fun y _ _ h => (sources y).symm ▸ h) (hs b r hr)

/-- A queue that a slug of it has left keeps its law; the belt is SURE when that was the UNKNOWN slug (R94,
R99). -/
theorem retired_queueLaw {r : BeltRecord} {y : Slug} (hy : y ∈ r.queue) (h : r.QueueLaw) :
    BeltRecord.QueueLaw { r with
      queue := r.queue.filter fun x => x.place != y.place
      condition := if y.grain.isNone then .sure else r.condition } := by
  obtain ⟨h1, h2, h3, h4⟩ := h
  have only : ∀ z ∈ r.queue, z.place = y.place → z = y := fun z hz e =>
    List.inj_on_of_nodup_map h2 hz hy e
  refine ⟨Nat.le_trans (List.length_filter_le _ _) h1,
    h2.sublist (List.Sublist.map _ List.filter_sublist), fun z hz => h3 z (List.mem_filter.1 hz).1, ?_⟩
  rw [List.filter_filter]
  cases hg : y.grain with
  | some g =>
    simp only [Option.isNone_some, Bool.false_eq_true, if_false]
    rw [← h4]
    congr 1
    apply List.filter_congr
    intro z hz
    by_cases e : z.place = y.place
    · have := only z hz e
      subst this
      simp [hg]
    · simp [e]
  | none =>
    simp only [Option.isNone_none, if_true, reduceCtorEq, if_false, List.length_eq_zero_iff]
    rw [List.filter_eq_nil_iff]
    intro z hz c
    simp only [Bool.and_eq_true, bne_iff_ne, ne_eq] at c
    have two : 1 < (r.queue.filter fun y => y.grain.isNone).length := by
      have my : y ∈ r.queue.filter fun y => y.grain.isNone := List.mem_filter.2 ⟨hy, by simp [hg]⟩
      have mz : z ∈ r.queue.filter fun y => y.grain.isNone := List.mem_filter.2 ⟨hz, c.1⟩
      by_contra small
      have one : (r.queue.filter fun y => y.grain.isNone).length = 1 := by
        have := List.length_pos_of_mem my
        omega
      obtain ⟨w, hw⟩ := List.length_eq_one_iff.1 one
      rw [hw, List.mem_singleton] at my mz
      exact c.2 (by rw [mz, my])
    rw [h4] at two
    split at two <;> omega

theorem retire_evolves (b : BeltIx) (y : Slug) (s : State)
    (hy : ∀ r ∈ s.tracker.belts[b], y ∈ r.queue) : Evolves s (retire b y s) := by
  unfold retire
  split
  · exact .refl s
  · rename_i r hr
    refine (setBelt_evolves b _ fun hs x hx => ?_).trans (closeHandOver_evolves _ _)
    cases hx
    exact retired_queueLaw (hy r hr) (hs b r hr)

theorem retireIfDue_evolves (b : BeltIx) (d : BeltData) (p : Place) (s : State) :
    Evolves s (retireIfDue b d p s) := by
  unfold retireIfDue
  split
  · exact .refl s
  · rename_i r hr
    split
    · exact .refl s
    · rename_i y hy
      refine Evolves.ite (fun _ => retire_evolves b y s fun x hx => ?_) fun _ => .refl s
      rw [hr] at hx
      cases hx
      exact slugAt_mem hy

theorem reevaluateSlug_evolves (b : BeltIx) (d : BeltData) (p : Place) (s : State) :
    Evolves s (reevaluateSlug b d p s).1 := by
  have staged : ∀ x : Stage, Evolves s (s.mapSlugOn b p fun y => { y with stage := x }) := fun x =>
    mapSlugOn_evolves b p _ s (fun _ => rfl) (fun _ => rfl) fun _ => rfl
  have handed : ∀ (g : Grain) (x : Stage), Evolves s (makeHandOver b d g (s.mapSlugOn b p fun y =>
      { y with stage := x })).state := fun g x => (staged x).trans (makeHandOver_evolves b d g _)
  unfold reevaluateSlug
  split
  · exact .refl s
  · split
    · exact .refl s
    · dsimp only
      split
      · split
        · rw [apply_ite Prod.fst]
          refine Evolves.ite (fun _ => handed _ _) fun _ => ?_
          refine .trans ?_ (retireIfDue_evolves b d p _)
          refine .trans ?_ (mapSlugOn_evolves b p _ _ (fun _ => rfl) (fun _ => rfl) fun _ => rfl)
          exact handed _ _
        · exact (staged _).trans (retireIfDue_evolves b d p _)
      · exact (staged _).trans (retireIfDue_evolves b d p _)

theorem reevaluateSlugs_evolves (b : BeltIx) (d : BeltData) : ∀ (ps : List Place) (s : State),
    Evolves s (reevaluateSlugs b d ps s).1
  | [], s => .refl s
  | p :: ps, s => by
    have h := reevaluateSlug_evolves b d p s
    unfold reevaluateSlugs
    split
    · rename_i t e
      rw [e] at h
      exact h.trans (reevaluateSlugs_evolves b d ps t)
    · rename_i t e
      rw [e] at h
      exact h

theorem reportHead_evolves (out : Outlet) (x y : Bool) (s : State) : Evolves s (reportHead out x y s) := by
  unfold reportHead
  split
  · exact Evolves.ite (fun _ => headClearReport_evolves _ s) fun _ => .refl s
  · exact .refl s

theorem reevaluate_evolves (b : BeltIx) (s : State) : Evolves s (reevaluate b s) := by
  unfold reevaluate
  split
  · dsimp only
    exact Evolves.ite (fun _ => (reevaluateSlugs_evolves b _ _ s).trans (reportHead_evolves _ _ _ _))
      fun _ => reevaluateSlugs_evolves b _ _ s
  · exact .refl s

/-! ### Belt samples (R77, R78, R100) -/

/-- A change of a belt record that leaves its queue and its condition keeps every law. -/
theorem setBelt_moved_evolves {s : State} (b : BeltIx) {r x : BeltRecord} (hr : s.tracker.belts[b] = some r)
    (q : x.queue = r.queue) (c : x.condition = r.condition) : Evolves s (s.setBelt b (some x)) :=
  setBelt_evolves b _ fun hs y hy => by
    cases hy
    have := hs b r hr
    unfold BeltRecord.QueueLaw at this ⊢
    rw [q, c]
    exact this

theorem takeTravel_evolves (b : BeltIx) (count : Word) (running : Bool) (s : State) :
    Evolves s (takeTravel b count running s) := by
  unfold takeTravel
  split
  · exact .refl s
  · rename_i r hr
    dsimp only
    split
    · refine .trans ?_ (reevaluate_evolves b _)
      exact setBelt_moved_evolves b hr rfl rfl
    · refine Evolves.ite (fun _ => .trans ?_ (unsureCascade_evolves b _))
        fun _ => .trans ?_ (reevaluate_evolves b _)
      · exact setBelt_moved_evolves b hr rfl rfl
      · exact setBelt_moved_evolves b hr rfl rfl

theorem takeBeltReturn_evolves (b : BeltIx) (count : Word) (running : Bool) (s : State) :
    Evolves s (takeBeltReturn b count running s) := by
  unfold takeBeltReturn
  split
  · exact .refl s
  · rename_i r hr
    refine .trans ?_ (unsureCascade_evolves b _)
    exact setBelt_moved_evolves b hr rfl rfl

/-! ### Belt records and the station table (R102, R103) -/

theorem fresh_queueLaw : BeltRecord.fresh.QueueLaw := by decide

theorem deleteBelt_evolves (b : BeltIx) (out : Outlet) (x : Bool) (s : State) :
    Evolves s (deleteBelt b out x s) :=
  (((closeDownstream_evolves b s).trans (dropSources_evolves b _)).trans
    (setBelt_evolves b _ fun _ y hy => by cases hy)).trans (reportHead_evolves _ _ _ _)

theorem rewriteBelt_evolves (b : BeltIx) (old new : Outlet) (x : Bool) (s : State) :
    Evolves s (rewriteBelt b old new x s) := by
  unfold rewriteBelt
  exact Evolves.ite (fun _ => enterUnsure_evolves b s)
    fun _ => (enterUnsure_evolves b s).trans (reportHead_evolves _ _ _ _)

theorem restartTracker_evolves (s : State) : Evolves s (restartTracker s) := by
  unfold restartTracker
  refine tracker_evolves_from (Evolves.foldl (fun t b => enterUnsure_evolves b t) _ s) _ fun hs k r hr => ?_
  rw [map_get, Option.mem_def, Option.map_eq_some_iff] at hr
  obtain ⟨x, hx, rfl⟩ := hr
  exact (Evolves.foldl (fun t b => enterUnsure_evolves b t) (allIx 8) s).slugs hs k x hx

end Sys2Proof.Machine
end

