-- ==== Sys2Proof/Laws/AccountLaws.lean ====
section
/-!
SUPPORT. The laws through weighing and the lot accounts (R126 to R146).
-/

namespace Sys2Proof.Machine

/-! ### Lines of a chain (R132) -/

/-- The lines of a chain are those of blocks that a change has left alone. -/
theorem linesOf_congr {s t : State} {chain : List BlockIx}
    (h : ∀ k ∈ chain, t.weighing.pool[k] = s.weighing.pool[k]) : t.linesOf chain = s.linesOf chain := by
  unfold State.linesOf
  simp only [List.flatMap]
  congr 1
  exact List.map_congr_left h

theorem linesOf_append (s : State) (c d : List BlockIx) :
    s.linesOf (c ++ d) = s.linesOf c ++ s.linesOf d := List.flatMap_append

theorem linesOf_single (s : State) (k : BlockIx) : s.linesOf [k] = s.weighing.pool[k] := by
  simp [State.linesOf]

theorem pool_setBlock_other (s : State) {k j : BlockIx} (b : List Line) (h : j ≠ k) :
    (s.setBlock k b).weighing.pool[j] = s.weighing.pool[j] := put_get_other _ _ h

theorem pool_setBlock_same (s : State) (k : BlockIx) (b : List Line) :
    (s.setBlock k b).weighing.pool[k] = b := put_get_same _ _ _

theorem kgOf_append (a b : List Line) : kgOf (a ++ b) = kgOf a + kgOf b := by
  simp [kgOf]

theorem isFor_iff (x : Line) (v n : Nat) (b : BinIx) : x.isFor v n b = true ↔ x.key = (v, n, b) := by
  simp [Line.isFor, Line.key, and_assoc]

/-! ### Changing lots and blocks -/

/-- Two lots are as compatible as before when their groups have not changed (R14). -/
theorem compatible_congr {s t : State} {x y : LotIx}
    (hx : t.tables.lots[x].map (·.group) = s.tables.lots[x].map (·.group))
    (hy : t.tables.lots[y].map (·.group) = s.tables.lots[y].map (·.group)) :
    t.compatible x y = s.compatible x y := by
  unfold State.compatible
  congr 1
  revert hx hy
  generalize t.tables.lots[x] = a
  generalize t.tables.lots[y] = b
  generalize s.tables.lots[x] = c
  generalize s.tables.lots[y] = d
  intro hx hy
  cases a <;> cases c <;> simp_all
  cases b <;> cases d <;> simp_all

/-- A change of lots and blocks keeps every law when it keeps the law of the accounts, and the group of every
lot that an ACTIVE leg names and that was defined. -/
theorem lots_evolves_from {s t u : State} (h : Evolves s t)
    (hu : u = { t with
      tables := { t.tables with lots := u.tables.lots }
      weighing := { t.weighing with pool := u.weighing.pool } })
    (groups : ∀ i : LotIx, u.tables.lots[i].map (·.group) = t.tables.lots[i].map (·.group)
      ∨ (∀ j : UnloaderIx, t.legs[j].state = .active → t.legs[j].lot ≠ some i) ∨ t.tables.lots[i] = none)
    (acc : s.AccountLaw → u.AccountLaw) : Evolves s u where
  power := by rw [hu]; exact h.power
  pending := by rw [hu]; exact h.pending
  feeds hs := by rw [hu]; exact h.feeds hs
  allocator hs := by rw [hu]; exact h.allocator hs
  slugs hs := by rw [hu]; exact h.slugs hs
  timers hs := by rw [hu]; exact h.timers hs
  queues hs := by rw [hu]; exact h.queues hs
  calibration hs := by rw [hu]; exact h.calibration hs
  storage hs := by rw [hu]; exact h.storage hs
  addresses hs := by rw [hu]; exact h.addresses hs
  stations hs := by rw [hu]; exact h.stations hs
  grants hs := by rw [hu]; exact h.grants hs
  accounts := acc
  merge hs := by
    obtain ⟨a, b, c⟩ := h.merge hs
    have routes : u.tables.routes = t.tables.routes := by rw [hu]
    have legs : u.legs = t.legs := by rw [hu]
    refine ⟨?_, ?_, ?_⟩
    · rw [routes]; exact a
    · rw [legs]; exact b
    · rw [legs]
      intro i j n hi hj shares
      obtain ⟨⟨p, q, hp, hq, comp⟩, rest⟩ := c i j n hi hj shares
      refine ⟨⟨p, q, hp, hq, ?_⟩, rest⟩
      have un : ∀ z, t.tables.lots[z] = none → (p = z ∨ q = z) → p = q := by
        intro z hz pz
        unfold State.compatible at comp
        simp only [Bool.or_eq_true, beq_iff_eq] at comp
        obtain e | comp := comp
        · exact e
        · obtain rfl | rfl := pz <;> rw [hz] at comp
          · cases comp
          · revert comp
            cases t.tables.lots[p] <;> exact fun c => by cases c
      obtain g | g | g := groups p
      · obtain g' | g' | g' := groups q
        · rw [compatible_congr g g', comp]
        · exact absurd hq (g' j hj)
        · rw [un q g' (.inr rfl)]; simp [State.compatible]
      · exact absurd hp (g i hi)
      · rw [un p g (.inl rfl)]; simp [State.compatible]

/-- A weighing change that leaves the blocks keeps every law. -/
theorem weighing_evolves {s : State} (x : Weighing) (h : x.pool = s.weighing.pool) :
    Evolves s { s with weighing := x } where
  accounts hs := by
    have e : ∀ c : List BlockIx, State.linesOf { s with weighing := x } c = s.linesOf c := fun c =>
      linesOf_congr fun k _ => by rw [h]
    refine ⟨fun i l hl => ?_, hs.2⟩
    have := hs.1 i l hl
    unfold State.AccountOk at this ⊢
    rw [e]
    exact this

/-! ### Finding or creating a line (R133) -/

/-- A line for something new may be appended to the account of a lot. -/
theorem accountOk_appended {s t : State} {l : Lot} {m : Lot} {x : Line} (h : s.AccountOk l) (zero : x.kg = 0)
    (new : (s.linesOf l.chain).any (fun y => y.isFor x.vessel x.number x.bin) = false)
    (total : m.total = l.total) (rest : m.unattributed = l.unattributed) (chain : m.chain.Nodup)
    (lines : t.linesOf m.chain = s.linesOf l.chain ++ [x]) : t.AccountOk m := by
  obtain ⟨h1, h2, -, h4⟩ := h
  refine ⟨?_, by rw [total]; exact h2, chain, ?_⟩
  · rw [total, rest, lines, kgOf_append, h1]
    simp [kgOf, zero]
  · rw [lines, List.map_append, List.nodup_append]
    refine ⟨h4, by simp, ?_⟩
    intro k hk j hj e
    simp only [List.map_cons, List.map_nil, List.mem_singleton] at hj
    subst e hj
    obtain ⟨y, hy, e⟩ := List.mem_map.1 hk
    have := List.any_eq_false.1 new y hy
    rw [isFor_iff] at this
    exact this e

theorem blockFree_iff {s : State} {k : BlockIx} : s.blockFree k = true ↔
    ∀ i : LotIx, ∀ l ∈ s.tables.lots[i], k ∉ l.chain := by
  unfold State.blockFree
  rw [List.all_eq_true]
  constructor
  · intro h i l hl
    have := h i (mem_allIx i)
    rw [Option.mem_def.1 hl] at this
    simpa using this
  · intro h i _
    split
    · rename_i l hl
      simpa using h i l hl
    · rfl

theorem ensureLine_accounts (i : LotIx) (v n : Nat) (b : BinIx) (s : State) :
    Evolves s (ensureLine i v n b s).1 := by
  unfold ensureLine
  split
  · exact .refl s
  · rename_i l hl
    dsimp only
    split
    · exact .refl s
    · rename_i new
      simp only [Bool.not_eq_true] at new
      split
      · rename_i k hk
        simp only [Option.filter_eq_some_iff, decide_eq_true_eq] at hk
        obtain ⟨last, -⟩ := hk
        obtain ⟨front, e⟩ := List.getLast?_eq_some_iff.1 last
        have km : k ∈ l.chain := by rw [e]; simp
        refine lots_evolves_from (.refl s) rfl (fun _ => .inl rfl) fun hs => ⟨fun j m hm => ?_, hs.2⟩
        by_cases ji : j = i
        · subst ji
          rw [State.setBlock_tables, hl] at hm
          cases hm
          have ok := hs.1 j l hl
          refine accountOk_appended (x := ⟨v, n, b, 0⟩) ok rfl new rfl rfl ok.2.2.1 ?_
          have kf : k ∉ front := by
            have := ok.2.2.1
            rw [e, List.nodup_append] at this
            exact fun c => this.2.2 k c k (by simp) rfl
          rw [e, linesOf_append, linesOf_append, linesOf_single, linesOf_single, pool_setBlock_same,
            linesOf_congr fun j hj => pool_setBlock_other (k := k) s _ fun c => kf (by rw [← c]; exact hj),
            List.append_assoc]
        · have ok := hs.1 j m hm
          have far : k ∉ m.chain := hs.2 i j l hl m hm (Ne.symm ji) k km
          unfold State.AccountOk at ok ⊢
          rw [linesOf_congr fun j hj => pool_setBlock_other (k := k) s _ fun c => far (by rw [← c]; exact hj)]
          exact ok
      · split
        · rename_i k hk
          have free := blockFree_iff.1 (List.find?_some hk)
          refine lots_evolves_from (.refl s) rfl (fun j => .inl ?_) fun hs => ⟨fun j m hm => ?_, ?_⟩
          · simp only [State.setBlock_tables, State.setLot_lots, put_get]
            split
            · subst j; rw [hl]; rfl
            · rfl
          · simp only [State.setBlock_tables, State.setLot_lots, put_get] at hm
            have kl := free i l hl
            split at hm
            · subst j
              cases hm
              have ok := hs.1 i l hl
              refine accountOk_appended (x := ⟨v, n, b, 0⟩) ok rfl new rfl rfl ?_ ?_
              · simpa [List.nodup_append] using ⟨ok.2.2.1, fun a ha c => kl (c ▸ ha)⟩
              · rw [linesOf_append, linesOf_single, pool_setBlock_same]
                congr 1
                exact linesOf_congr fun j hj => pool_setBlock_other _ _ fun c => kl (c ▸ hj)
            · have ok := hs.1 j m hm
              have far := free j m hm
              have e : ∀ x, ((s.setLot i x).setBlock k [⟨v, n, b, 0⟩]).linesOf m.chain = s.linesOf m.chain :=
                fun x => linesOf_congr fun j hj =>
                  pool_setBlock_other (k := k) (s.setLot i x) _ fun c => far (by rw [← c]; exact hj)
              unfold State.AccountOk at ok ⊢
              rw [e]
              exact ok
          · intro p q x hx y hy pq j hj
            simp only [State.setBlock_tables, State.setLot_lots, put_get] at hx hy
            split at hx <;> split at hy
            · subst p; subst q; exact absurd rfl pq
            · cases hx
              subst p
              simp only [List.mem_append, List.mem_singleton] at hj
              obtain hj | rfl := hj
              · exact hs.2 i q l hl y hy pq j hj
              · exact free q y hy
            · cases hy
              subst q
              intro c
              simp only [List.mem_append, List.mem_singleton] at c
              obtain c | rfl := c
              · exact hs.2 p i x hx l hl pq j hj c
              · exact free p x hx hj
            · exact hs.2 p q x hx y hy pq j hj
        · exact raiseFlag_evolves _ _ _ _ s

/-- When a line has been found or created, the chain of the lot holds it (R133). -/
theorem ensureLine_found (i : LotIx) (v n : Nat) (b : BinIx) (s : State)
    (h : (ensureLine i v n b s).2 = true) :
    ∃ l, (ensureLine i v n b s).1.tables.lots[i] = some l
      ∧ (v, n, b) ∈ ((ensureLine i v n b s).1.linesOf l.chain).map Line.key := by
  revert h
  unfold ensureLine
  split
  · exact fun h => by cases h
  · rename_i l hl
    dsimp only
    split
    · rename_i new
      refine fun _ => ⟨l, hl, ?_⟩
      obtain ⟨x, hx, e⟩ := List.any_eq_true.1 new
      exact List.mem_map.2 ⟨x, hx, (isFor_iff x v n b).1 e⟩
    · split
      · rename_i k hk
        simp only [Option.filter_eq_some_iff, decide_eq_true_eq] at hk
        obtain ⟨last, -⟩ := hk
        obtain ⟨front, e⟩ := List.getLast?_eq_some_iff.1 last
        refine fun _ => ⟨l, hl, List.mem_map.2 ⟨⟨v, n, b, 0⟩, ?_, rfl⟩⟩
        dsimp only
        rw [e, linesOf_append, linesOf_single, pool_setBlock_same]
        simp
      · split
        · refine fun _ => ⟨_, put_get_same _ _ _, List.mem_map.2 ⟨⟨v, n, b, 0⟩, ?_, rfl⟩⟩
          dsimp only
          rw [linesOf_append, linesOf_single, pool_setBlock_same]
          simp
        · exact fun h => by cases h

/-! ### Booking (R129, R130) -/

theorem growLine_keys (v n : Nat) (b : BinIx) (a : Nat) (lines : List Line) :
    (growLine v n b a lines).map Line.key = lines.map Line.key := by
  unfold growLine
  rw [List.map_map]
  apply List.map_congr_left
  intro x _
  simp only [Function.comp]
  split <;> rfl

theorem kgOf_growLine_absent {v n : Nat} {b : BinIx} (a : Nat) {lines : List Line}
    (h : (v, n, b) ∉ lines.map Line.key) : kgOf (growLine v n b a lines) = kgOf lines := by
  unfold kgOf growLine
  rw [List.map_map]
  congr 1
  apply List.map_congr_left
  intro x hx
  have : ¬ x.isFor v n b = true := fun c => h (List.mem_map.2 ⟨x, hx, (isFor_iff x v n b).1 c⟩)
  simp [this]

/-- A booking to the one line for a hold and a bin adds its kilograms (R129). -/
theorem kgOf_growLine {v n : Nat} {b : BinIx} (a : Nat) : ∀ {lines : List Line},
    (lines.map Line.key).Nodup → (v, n, b) ∈ lines.map Line.key →
    kgOf (growLine v n b a lines) = kgOf lines + a
  | [], _, h => by cases h
  | x :: lines, nd, h => by
    simp only [List.map_cons, List.nodup_cons, List.mem_cons] at nd h
    have step : ∀ y : Line, kgOf (y :: lines) = y.kg + kgOf lines := fun y => by simp [kgOf]
    have step' : kgOf (growLine v n b a (x :: lines))
        = (if x.isFor v n b = true then { x with kg := x.kg + a } else x).kg
          + kgOf (growLine v n b a lines) := by
      simp [kgOf, growLine]
    rw [step, step']
    by_cases f : x.isFor v n b = true
    · have k := (isFor_iff x v n b).1 f
      rw [kgOf_growLine_absent a (by rw [← k]; exact nd.1)]
      simp only [f, if_true]
      omega
    · have k : (v, n, b) ≠ x.key := fun c => f ((isFor_iff x v n b).2 c.symm)
      rw [kgOf_growLine a nd.2 (h.resolve_left k)]
      simp only [f]
      simp only [Bool.false_eq_true, if_false]
      omega

theorem growChain_frame (v n : Nat) (b : BinIx) (a : Nat) : ∀ (chain : List BlockIx) (s : State),
    growChain chain v n b a s =
      { s with weighing := { s.weighing with pool := (growChain chain v n b a s).weighing.pool } }
  | [], _ => rfl
  | k :: chain, s => by
    show growChain chain v n b a (s.setBlock k _) = _
    rw [growChain_frame v n b a chain]
    rfl

theorem growChain_tables (v n : Nat) (b : BinIx) (a : Nat) (chain : List BlockIx) (s : State) :
    (growChain chain v n b a s).tables = s.tables := by rw [growChain_frame]

theorem growChain_pool (v n : Nat) (b : BinIx) (a : Nat) : ∀ (chain : List BlockIx) (s : State) (j : BlockIx),
    chain.Nodup → (growChain chain v n b a s).weighing.pool[j] =
      if j ∈ chain then growLine v n b a s.weighing.pool[j] else s.weighing.pool[j]
  | [], _, _, _ => by simp [growChain]
  | k :: chain, s, j, nd => by
    simp only [List.nodup_cons] at nd
    show (growChain chain v n b a (s.setBlock k _)).weighing.pool[j] = _
    rw [growChain_pool v n b a chain _ j nd.2]
    by_cases e : j = k
    · subst e
      rw [if_neg nd.1, if_pos (by simp), pool_setBlock_same]
    · rw [pool_setBlock_other s _ e]
      simp [e]

theorem growChain_linesOf (v n : Nat) (b : BinIx) (a : Nat) {chain : List BlockIx} (s : State) (nd : chain.Nodup) :
    (growChain chain v n b a s).linesOf chain = growLine v n b a (s.linesOf chain) := by
  unfold State.linesOf growLine
  rw [List.map_flatMap]
  simp only [List.flatMap]
  congr 1
  apply List.map_congr_left
  intro j hj
  rw [growChain_pool v n b a chain s j nd, if_pos hj]
  rfl

theorem growChain_linesOf_other (v n : Nat) (b : BinIx) (a : Nat) {chain other : List BlockIx} (s : State)
    (nd : chain.Nodup) (h : ∀ k ∈ other, k ∉ chain) :
    (growChain chain v n b a s).linesOf other = s.linesOf other :=
  linesOf_congr fun j hj => by rw [growChain_pool v n b a chain s j nd, if_neg (h j hj)]

theorem lotShare_le {l : Lot} (k : Nat) (h : l.total ≤ Config.maxKg) :
    l.total + lotShare l k ≤ Config.maxKg := by
  unfold lotShare; omega

/-- The amounts and the classes of a lot may change where its account stays sound and its chain the same. -/
theorem setLot_accounts {s t : State} (i : LotIx) {l m : Lot} (hl : s.tables.lots[i] = some l)
    (chain : m.chain = l.chain) (lots : t.tables.lots = put s.tables.lots i (some m))
    (own : s.AccountLaw → t.AccountOk m)
    (other : s.AccountLaw → ∀ j : LotIx, j ≠ i → ∀ x ∈ s.tables.lots[j], t.linesOf x.chain = s.linesOf x.chain)
    (hs : s.AccountLaw) : t.AccountLaw := by
  refine ⟨fun j x hx => ?_, ?_⟩
  · rw [lots, put_get] at hx
    split at hx
    · cases hx; exact own hs
    · have ok := hs.1 j x hx
      unfold State.AccountOk at ok ⊢
      rw [other hs j ‹_› x hx]
      exact ok
  · intro p q x hx y hy pq k hk
    rw [lots, put_get] at hx hy
    split at hx <;> split at hy
    · subst p; subst q; exact absurd rfl pq
    · cases hx; subst p
      rw [chain] at hk
      exact hs.2 i q l hl y hy pq k hk
    · cases hy; subst q
      rw [chain]
      exact hs.2 p i x hx l hl pq k hk
    · exact hs.2 p q x hx y hy pq k hk

theorem bookLot_evolves (i : LotIx) (v n : Nat) (b : BinIx) (k : Nat) (s : State) :
    Evolves s (bookLot i v n b k s) := by
  have ens := ensureLine_accounts i v n b s
  have fnd := ensureLine_found i v n b s
  unfold bookLot
  dsimp only
  generalize ensureLine i v n b s = p at ens fnd ⊢
  obtain ⟨t, ok⟩ := p
  dsimp only at ens fnd ⊢
  split
  · exact ens
  · rename_i l hl
    refine ens.trans ?_
    have group : ∀ (m : Lot) (j : LotIx), m.group = l.group →
        (put t.tables.lots i (some m))[j].map (·.group) = t.tables.lots[j].map (·.group) := by
      intro m j e
      rw [put_get]
      split
      · subst j; rw [hl]; simp [e]
      · rfl
    split
    · rename_i f
      obtain ⟨l', hl', key⟩ := fnd f
      rw [hl] at hl'
      cases hl'
      refine lots_evolves_from (.refl t) (by rw [growChain_frame]; rfl)
        (fun j => .inl (by rw [growChain_tables]; exact group _ j rfl)) fun hs => ?_
      refine setLot_accounts (m := { l with total := l.total + lotShare l k }) i hl rfl
        (by rw [growChain_tables]; rfl) (fun hs => ?_) (fun hs j ji x hx => ?_) hs
      · obtain ⟨h1, h2, h3, h4⟩ := hs.1 i l hl
        unfold State.AccountOk
        dsimp only
        rw [growChain_linesOf _ _ _ _ _ h3]
        have same : (t.setLot i (some { l with total := l.total + lotShare l k })).linesOf l.chain
          = t.linesOf l.chain := rfl
        rw [same, growLine_keys, kgOf_growLine _ h4 key]
        exact ⟨by omega, lotShare_le k h2, h3, h4⟩
      · rw [growChain_linesOf_other]
        · rfl
        · exact (hs.1 i l hl).2.2.1
        · intro c hc c'
          exact hs.2 j i x hx l hl ji c hc c'
    · refine lots_evolves_from (.refl t) rfl (fun j => .inl (group _ j rfl)) fun hs => ?_
      refine setLot_accounts
        (m := { l with total := l.total + lotShare l k, unattributed := l.unattributed + lotShare l k }) i hl rfl
        rfl (fun hs => ?_) (fun hs j ji x hx => rfl) hs
      obtain ⟨h1, h2, h3, h4⟩ := hs.1 i l hl
      unfold State.AccountOk
      dsimp only
      refine ⟨?_, lotShare_le k h2, h3, h4⟩
      have same : (t.setLot i (some { l with
        total := l.total + lotShare l k, unattributed := l.unattributed + lotShare l k })).linesOf l.chain
          = t.linesOf l.chain := rfl
      rw [same]
      omega

theorem addTonnes_evolves (i : UnloaderIx) (k : Nat) (s : State) : Evolves s (addTonnes i k s) :=
  setWeigher_evolves _ _ _

theorem bookHold_evolves (n : HoldIx) (k : Nat) (s : State) : Evolves s (bookHold n k s) := by
  unfold bookHold
  split
  · exact .refl s
  · exact setHold_evolves _ _ _

theorem bookBin_evolves (n : BinIx) (k : Nat) (s : State) : Evolves s (bookBin n k s) := by
  unfold bookBin
  split
  · exact .refl s
  · exact setBin_evolves _ _ _

theorem bookLeg_evolves (i : UnloaderIx) (k : Nat) (s : State) : Evolves s (bookLeg i k s) := by
  unfold bookLeg
  dsimp only
  split
  · split
    · exact (bookLot_evolves _ _ _ _ _ _).trans ((bookHold_evolves _ _ _).trans
        ((bookBin_evolves _ _ _).trans (addTonnes_evolves _ _ _)))
    · exact addTonnes_evolves _ _ _
  · exact addTonnes_evolves _ _ _

theorem bookUnassigned_evolves (i : UnloaderIx) (k : Nat) (s : State) : Evolves s (bookUnassigned i k s) :=
  .trans (weighing_evolves { s.weighing with unassigned := addKg s.weighing.unassigned k } rfl)
    (addTonnes_evolves _ _ _)

theorem book_evolves (i : UnloaderIx) (k : Nat) (s : State) : Evolves s (book i k s) := by
  unfold book
  split
  · exact .refl s
  · split
    · exact bookUnassigned_evolves i k s
    · exact bookLeg_evolves i k s

theorem weigh_evolves (i : UnloaderIx) (count : Word) (s : State) : Evolves s (weigh i count s) := by
  unfold weigh
  dsimp only
  split
  · split
    · exact (setWeigher_evolves _ _ _).trans (book_evolves _ _ _)
    · exact (setWeigher_evolves _ _ _).trans (raiseFlag_evolves _ _ _ _ _)
  · exact setWeigher_evolves _ _ _

/-! ### Snapshots, resets, and the deletion of a lot (R135, R137, R146) -/

theorem takeSnapshot_evolves (i : LotIx) (l : Lot) (s : State) : Evolves s (takeSnapshot i l s) :=
  weighing_evolves _ rfl

theorem restartWeighing_evolves (s : State) : Evolves s (restartWeighing s) := weighing_evolves _ rfl

theorem freeBlocks_frame : ∀ (chain : List BlockIx) (s : State),
    freeBlocks chain s = { s with weighing := { s.weighing with pool := (freeBlocks chain s).weighing.pool } }
  | [], _ => rfl
  | k :: chain, s => by
    show freeBlocks chain (s.setBlock k []) = _
    rw [freeBlocks_frame chain]
    rfl

theorem freeBlocks_pool : ∀ (chain : List BlockIx) (s : State) (j : BlockIx), j ∉ chain →
    (freeBlocks chain s).weighing.pool[j] = s.weighing.pool[j]
  | [], _, _, _ => rfl
  | k :: chain, s, j, h => by
    simp only [List.mem_cons, not_or] at h
    show (freeBlocks chain (s.setBlock k [])).weighing.pool[j] = _
    rw [freeBlocks_pool chain _ j h.2, pool_setBlock_other s _ h.1]

end Sys2Proof.Machine
end

