-- ==== Sys2Proof/Laws/ClockLaws.lean ====
section
/-!
SUPPORT. What waits after a millisecond without a command: the expiries that are due, each once.
-/

namespace Sys2Proof.Machine

/-- The expiries that are put in the queue are those of the timers that have run out. -/
theorem mem_expiries (s : State) (c : Instr) : c ∈ s.expiries ↔ s.due c := by
  unfold State.expiries
  cases c <;> simp [State.due, State.periodOut, State.silenceOut, State.holdOut, State.cursorOut, allIx,
    Option.any_eq_true, Config.cursorIdle]
  exact exists_congr fun _ => and_congr_right fun _ => decide_eq_true_iff

/-- No expiry is put in the queue twice. -/
theorem expiries_nodup (s : State) : s.expiries.Nodup := by
  unfold State.expiries
  have silences := ((List.nodup_finRange 64).filter s.silenceOut).map (f := Instr.silenceTimerExpiry)
    fun _ _ h => by cases h; rfl
  have holds := ((List.nodup_finRange 8).filter s.holdOut).map (f := Instr.holdTimerExpiry)
    fun _ _ h => by cases h; rfl
  rw [List.nodup_append, List.nodup_append, List.nodup_append]
  refine ⟨⟨⟨by split <;> simp, silences, ?_⟩, holds, ?_⟩, by split <;> simp, ?_⟩ <;>
    rintro a ha _ hb rfl <;> (try split at ha) <;> (try split at hb) <;>
    simp only [List.mem_append, List.mem_map, List.mem_singleton, List.not_mem_nil, false_or] at ha hb
  all_goals aesop

end Sys2Proof.Machine
end

