-- ==== Sys2Proof/Laws/GuardLaws.lean ====
section
/-!
SUPPORT. What an allocation leaves behind: the guard FEED orders that wait (R66, R172) and the conditions of the
legs (R40).
-/

namespace Sys2Proof.Machine

/-- An ACTIVE leg's condition is the one evaluated; any other leg is as it was (R40). -/
theorem evaluateLegs_active (s : State) (i : UnloaderIx) (h : s.legs[i].state = .active) :
    (evaluateLegs s).legs[i] = { s.legs[i] with condition := some (s.grantCondition i) } := by
  unfold evaluateLegs; rw [ofFn_get, if_pos h]

theorem evaluateLegs_rest (s : State) (i : UnloaderIx) (h : s.legs[i].state ≠ .active) :
    (evaluateLegs s).legs[i] = s.legs[i] := by
  unfold evaluateLegs; rw [ofFn_get, if_neg h]

/-- Evaluating the conditions leaves the states and the belt lists (R40). -/
theorem evaluateLegs_state (s : State) (i : UnloaderIx) : (evaluateLegs s).legs[i].state = s.legs[i].state := by
  by_cases h : s.legs[i].state = .active
  · rw [evaluateLegs_active s i h]
  · rw [evaluateLegs_rest s i h]

theorem evaluateLegs_belts (s : State) (i : UnloaderIx) : (evaluateLegs s).legs[i].belts = s.legs[i].belts := by
  by_cases h : s.legs[i].state = .active
  · rw [evaluateLegs_active s i h]
  · rw [evaluateLegs_rest s i h]

/-- A guard order leaves those of the other unloaders (R172). -/
theorem handGuard_setpoint_other (i j : UnloaderIx) (n : Nat) (s : State) (h : j ≠ i) :
    (handGuard i n s).guardSetpoint j = s.guardSetpoint j := by
  unfold handGuard
  split
  · rfl
  · unfold State.guardSetpoint
    dsimp only
    congr 1
    unfold guardsWith
    split
    · generalize s.path.guardB = q
      induction q with
      | nil => rfl
      | cons x q ih =>
        simp only [List.map_cons, List.find?_cons]
        by_cases e : x.unloader = i
        · rw [if_pos e]
          simp only [e, beq_eq_false_iff_ne.2 (Ne.symm h)]
          exact ih
        · rw [if_neg e]
          split
          · rfl
          · exact ih
    · rw [List.find?_append]
      simp [beq_eq_false_iff_ne.2 (Ne.symm h)]

/-- The guard order that waits for an unloader carries what was handed over last (R172). -/
theorem handGuard_setpoint_same (i : UnloaderIx) (n : Nat) (s : State) (h : (s.unloaderStation i).isSome) :
    (handGuard i n s).guardSetpoint i = some n := by
  unfold handGuard
  obtain ⟨⟨a, d⟩, h⟩ := Option.isSome_iff_exists.1 h
  rw [h]
  unfold State.guardSetpoint
  dsimp only
  unfold guardsWith
  split
  · rename_i hh
    revert hh
    generalize s.path.guardB = q
    intro hh
    induction q with
    | nil => cases hh
    | cons x q ih =>
      simp only [List.map_cons, List.find?_cons]
      by_cases e : x.unloader = i
      · rw [if_pos e]
        simp
      · rw [if_neg e]
        simp only [beq_eq_false_iff_ne.2 e]
        apply ih
        simpa [e] using hh
  · rename_i hh
    rw [List.find?_append]
    have : (s.path.guardB.find? fun x => x.unloader == i) = none := by
      rw [List.find?_eq_none]; intro x hx; simp at hh ⊢; exact hh x hx
    rw [this]; simp

/-- What publishing a grant makes of the waiting guard orders (R66). -/
theorem publish_setpoint (i j : UnloaderIx) (n : Nat) (s : State) (h : (s.unloaderStation i).isSome) :
    (publish i n s).guardSetpoint j = if j = i then
      (if min s.legs[i].r n ≠ s.legs[i].f then some (min s.legs[i].r n)
        else (s.guardSetpoint i).map fun _ => min s.legs[i].r n) else s.guardSetpoint j := by
  unfold publish
  dsimp only
  by_cases e : j = i
  · subst e
    rw [if_pos rfl]
    split
    · rename_i w
      rw [handGuard_setpoint_same _ _ _ (by exact h)]
      by_cases c : min s.legs[j].r n = s.legs[j].f
      · have w := w.resolve_left (by simpa using c)
        rw [if_neg (by simpa using c)]
        cases hg : s.guardSetpoint j with
        | none => rw [hg] at w; cases w
        | some x => rfl
      · rw [if_pos c]
    · rename_i w
      rw [not_or] at w
      obtain ⟨c, w⟩ := w
      rw [if_neg c]
      show s.guardSetpoint j = _
      cases hg : s.guardSetpoint j with
      | none => rfl
      | some x => rw [hg] at w; simp at w; simp [w]
  · rw [if_neg e]
    split
    · rw [handGuard_setpoint_other _ _ _ _ e]; rfl
    · rfl

/-- Publishing a grant answers nothing (R66). -/
theorem publish_egressA (i : UnloaderIx) (n : Nat) (s : State) : (publish i n s).path.egressA = s.path.egressA := by
  unfold publish
  dsimp only
  split
  · unfold handGuard; split <;> rfl
  · rfl

/-- Publishing a grant leaves the station table. -/
theorem publish_unloaderStation (i j : UnloaderIx) (n : Nat) (s : State) :
    (publish i n s).unloaderStation j = s.unloaderStation j := by
  rw [publish_frame]; rfl

/-- A pass answers nothing. -/
theorem publishPass_egressA (x : UnloaderIx → Nat) (p : UnloaderIx → Bool) : ∀ (l : List UnloaderIx) (s : State),
    (publishPass x p l s).path.egressA = s.path.egressA
  | [], _ => rfl
  | i :: l, s => by
    show (publishPass x p l
      (if s.legs[i].state = .active ∧ p i = true then publish i (x i) s else s)).path.egressA = _
    rw [publishPass_egressA x p l]
    split
    · exact publish_egressA _ _ _
    · rfl

/-- What a pass makes of the waiting guard orders (R66). -/
theorem publishPass_setpoint (x : UnloaderIx → Nat) (p : UnloaderIx → Bool) (j : UnloaderIx) :
    ∀ (l : List UnloaderIx) (s : State), l.Nodup →
    (∀ i : UnloaderIx, s.legs[i].state = .active → (s.unloaderStation i).isSome) →
    (publishPass x p l s).guardSetpoint j = if j ∈ l ∧ s.legs[j].state = .active ∧ p j = true then
      (if min s.legs[j].r (x j) ≠ s.legs[j].f then some (min s.legs[j].r (x j))
        else (s.guardSetpoint j).map fun _ => min s.legs[j].r (x j)) else s.guardSetpoint j
  | [], _, _, _ => by simp [publishPass]
  | i :: l, s, nd, hs => by
    obtain ⟨ni, nl⟩ := List.nodup_cons.1 nd
    show (publishPass x p l
      (if s.legs[i].state = .active ∧ p i = true then publish i (x i) s else s)).guardSetpoint j = _
    by_cases a : s.legs[i].state = .active ∧ p i = true
    · rw [if_pos a, publishPass_setpoint x p j l _ nl]
      · by_cases e : j = i
        · subst e
          simp only [ni, false_and, if_false, List.mem_cons, true_or, true_and, if_pos a]
          rw [publish_setpoint _ _ _ _ (hs _ a.1), if_pos rfl]
        · rw [publish_setpoint _ _ _ _ (hs _ a.1), if_neg e]
          have : (publish i (x i) s).legs[j] = s.legs[j] := by
            rw [publish_frame]; exact put_get_other _ _ e
          rw [this]
          simp only [List.mem_cons, e, false_or]
      · intro k hk
        rw [publish_unloaderStation]
        apply hs
        revert hk
        rw [publish_frame]
        dsimp only
        rw [put_get]
        split
        · subst k; exact fun _ => a.1
        · exact id
    · rw [if_neg a, publishPass_setpoint x p j l _ nl hs]
      by_cases e : j = i
      · subst e
        simp only [ni, false_and, if_false, List.mem_cons, true_or, true_and, if_neg a]
      · simp only [List.mem_cons, e, false_or]

end Sys2Proof.Machine
end

