-- ==== Sys2Proof/Laws/WatchLaws.lean ====
section
/-!
SUPPORT. The laws through station watch (R147 to R159) and the nonvolatile writer (R140 to R143).
-/

namespace Sys2Proof.Machine

/-! ### Station watch -/

theorem sweepHold_evolves (n : HoldIx) (s : State) : Evolves s (sweepHold n s) := by
  unfold sweepHold
  split
  · exact .ite (fun _ => setHold_evolves _ _ _) fun _ => .refl s
  · exact .refl s

theorem sweepFilterSets_evolves (i : UnloaderIx) (s : State) : Evolves s (sweepFilterSets i s) := by
  unfold sweepFilterSets
  split
  · split
    · exact sweepHold_evolves _ s
    · exact .refl s
  · exact .refl s

theorem takeFilters_evolves (a : Addr) (i : UnloaderIx) (d : UnloaderData) (v : Nat) (x : Bool) (s : State) :
    Evolves s (takeFilters a i d v x s) := by
  unfold takeFilters
  split
  · exact .refl s
  · dsimp only
    split
    · exact (setWatch_evolves _ _ _).trans (sweepFilterSets_evolves _ _)
    · exact setWatch_evolves _ _ _

theorem applyUnloader_evolves (a : Addr) (i : UnloaderIx) (d : UnloaderData) (t : Telegram) (s : State) :
    Evolves s (applyUnloader a i d t s) :=
  (takeFilters_evolves _ _ _ _ _ _).trans ((weigh_evolves _ _ _).trans (readFeed_evolves _ _ _ _))

theorem setPosition_evolves (d : DiverterIx) (p : Option PositionIx) (s : State) :
    Evolves s (setPosition d p s) := by
  unfold setPosition
  split
  · rename_i r hr
    exact setDiverter_evolves d _ fun hs x hx => by
      cases hx
      exact hs d r hr
  · exact .refl s

theorem forgetCount_evolves (i : UnloaderIx) (s : State) : Evolves s (forgetCount i s) :=
  setWeigher_evolves _ _ _

theorem applySample_evolves (a : Addr) (k : StationKind) (back : Bool) (t : Telegram) (s : State) :
    Evolves s (applySample a k back t s) := by
  unfold applySample
  cases k with
  | unloader i d =>
    dsimp only
    split
    · exact (forgetCount_evolves i s).trans (applyUnloader_evolves _ _ _ _ _)
    · exact applyUnloader_evolves _ _ _ _ _
  | belt b d =>
    exact .ite (fun _ => takeBeltReturn_evolves _ _ _ _) fun _ => takeTravel_evolves _ _ _ _
  | diverter d e => exact setPosition_evolves _ _ _
  | supervisor => exact .refl s
  | panel => exact .refl s

theorem acceptSample_evolves (a : Addr) (e : StationEntry) (w : WatchRecord) (t : Telegram) (s : State) :
    Evolves s (acceptSample a e w t s) := by
  unfold acceptSample
  dsimp only
  refine .trans ?_ (applySample_evolves _ _ _ _ _)
  split
  · exact (setWatch_evolves _ _ _).trans (raiseFlag_evolves _ _ _ _ _)
  · exact setWatch_evolves _ _ _

theorem takeSample_evolves (a : Addr) (e : StationEntry) (t : Telegram) (s : State) :
    Evolves s (takeSample a e t s) := by
  unfold takeSample
  split
  · exact .refl s
  · exact .ite (fun _ => setWatch_evolves _ _ _) fun _ => acceptSample_evolves _ _ _ _ _

theorem silenceEffects_evolves (k : StationKind) (s : State) : Evolves s (silenceEffects k s) := by
  unfold silenceEffects
  cases k with
  | unloader i d => exact endLeg_evolves _ _ _
  | belt b d => exact .refl s
  | diverter d e => exact setPosition_evolves _ _ _
  | supervisor => exact .refl s
  | panel => exact .refl s

theorem fallSilent_evolves (a : Addr) (s : State) : Evolves s (fallSilent a s) := by
  unfold fallSilent
  split
  · exact (setWatch_evolves _ _ _).trans
      ((silenceEffects_evolves _ _).trans (raiseFlag_evolves _ _ _ _ _))
  · exact .refl s

theorem silenceExpires_evolves (a : Addr) (s : State) : Evolves s (silenceExpires a s) :=
  whenOut_evolves (fallSilent_evolves a s)

theorem restartWatch_evolves (s : State) : Evolves s (restartWatch s) := watch_evolves _ _

/-! ### The nonvolatile writer -/

/-- A change of the writer and of the calibration storage that keeps their law. -/
theorem writer_evolves {s : State} (w : Writer) (slots : Vector (Vector (Option Nat) 4) 6)
    (totals : Vector Nat 6)
    (law : s.CalibrationLaw →
      State.CalibrationLaw { s with writer := w, nv := ⟨slots, totals, s.nv.record⟩ })
    (keeps : s.CalibrationLaw →
      keepsStorage s { s with writer := w, nv := ⟨slots, totals, s.nv.record⟩ }) :
    Evolves s { s with writer := w, nv := ⟨slots, totals, s.nv.record⟩ } where
  calibration := law
  storage := keeps

/-- The lowest ERASED slot is erased, and the slots below it are written (R140). -/
theorem erasedSlot_spec {s : State} {i : UnloaderIx} {k : SlotIx} (h : s.erasedSlot i = some k) :
    (s.nv.slots[i])[k] = none ∧ ∀ j : SlotIx, j < k → (s.nv.slots[i])[j].isSome := by
  unfold State.erasedSlot at h
  obtain ⟨n, hn, e, before⟩ := List.find?_eq_some_iff_getElem.1 h |>.2
  simp only [allIx, List.getElem_finRange, List.length_finRange] at hn e before
  refine ⟨by simpa using List.find?_some h, fun j hj => ?_⟩
  have hj' : j.val < n := by
    have : k.val = n := by rw [← e]; rfl
    have := Fin.lt_def.1 hj
    omega
  have := before j.val hj'
  simpa using this

/-- The writing of the lowest ERASED slot keeps the law of the slots (R139, R141). -/
theorem slotWritten_law {s : State} {i : UnloaderIx} {k : SlotIx} {v : Nat}
    (h : s.erasedSlot i = some k) (low : 100 ≤ v) (high : v ≤ 60000) (first : writtenFirst s.nv.slots[i])
    (range : slotsInRange s.nv.slots[i]) :
    writtenFirst (put s.nv.slots[i] k (some v)) ∧ slotsInRange (put s.nv.slots[i] k (some v)) := by
  obtain ⟨empty, below⟩ := erasedSlot_spec h
  constructor
  · intro p q hpq hq
    rw [put_get] at hq ⊢
    split
    · rfl
    · split at hq
      · subst q; exact below p hpq
      · exact first p q hpq hq
  · intro p x hx
    rw [put_get] at hx
    split at hx
    · cases hx; exact ⟨low, high⟩
    · exact range p x hx

theorem completeCalibration_evolves (s : State) : Evolves s (completeCalibration s) := by
  unfold completeCalibration
  split
  · rename_i i k v a port hw
    refine .trans ?_ (joinPort_evolves port _ (sound_of_none rfl))
    have sound : s.CalibrationLaw → s.erasedSlot i = some k ∧ 100 ≤ v ∧ v ≤ 60000 := fun hs => by
      have := hs.2
      unfold State.writerSound at this
      rw [hw] at this
      exact this
    refine writer_evolves .idle (put s.nv.slots i (put s.nv.slots[i] k (some v))) s.nv.totals (fun hs => ?_)
      (fun hs => ?_)
    · obtain ⟨er, low, high⟩ := sound hs
      refine ⟨fun j => ?_, trivial⟩
      obtain ⟨h1, h2, h3⟩ := hs.1 j
      dsimp only
      rw [put_get]
      split
      · subst j
        exact ⟨(slotWritten_law er low high h1 h2).1, (slotWritten_law er low high h1 h2).2, h3⟩
      · exact ⟨h1, h2, h3⟩
    · intro j
      refine ⟨Nat.le_refl _, fun p x hx => ?_⟩
      dsimp only
      rw [put_get]
      split
      · subst j
        rw [put_get]
        split
        · subst p
          rw [(erasedSlot_spec (sound hs).1).1] at hx
          cases hx
        · exact hx
      · exact hx
  · exact .refl s

theorem startGrandTotal_evolves (s : State) : Evolves s (startGrandTotal s) := by
  unfold startGrandTotal
  split
  · rename_i i hw hi
    let w : Weigher := { s.weighing.weighers[i] with pendingTonnes := 0 }
    refine .trans (setWeigher_evolves s i w) ?_
    refine .trans (t := { s.setWeigher i w with writer := .grandTotal i s.weighing.weighers[i].pendingTonnes })
      (writer_evolves _ s.nv.slots s.nv.totals (fun hs => ⟨hs.1, trivial⟩) fun hs => keepsStorage_refl _) ?_
    exact weighing_evolves { (s.setWeigher i w).weighing with lastServed := i } rfl
  · exact .refl s

theorem completeGrandTotal_evolves (s : State) : Evolves s (completeGrandTotal s) := by
  unfold completeGrandTotal
  split
  · rename_i i batch hw
    refine writer_evolves .idle s.nv.slots (put s.nv.totals i (min (s.nv.totals[i] + batch) Config.maxTonnes))
      (fun hs => ⟨fun j => ?_, trivial⟩) (fun hs j => ⟨?_, fun _ _ hx => hx⟩)
    · obtain ⟨h1, h2, h3⟩ := hs.1 j
      refine ⟨h1, h2, ?_⟩
      dsimp only
      rw [put_get]
      split
      · exact Nat.min_le_right _ _
      · exact h3
    · have := (hs.1 j).2.2
      dsimp only
      rw [put_get]
      split
      · subst j; omega
      · exact Nat.le_refl _
  · exact .refl s

theorem takeCalibrate_evolves (q : Request) (s : State) : Evolves s (takeCalibrate q s) := by
  unfold takeCalibrate checked
  split
  · exact reply_evolves _ _ _ _
  · dsimp only
    split
    · rename_i i v hi hv
      split
      · exact reply_evolves _ _ _ _
      · split
        · exact reply_evolves _ _ _ _
        · split
          · exact reply_evolves _ _ _ _
          · rename_i k hk
            unfold within at hv
            split at hv
            · cases hv
              rename_i range
              exact writer_evolves _ s.nv.slots s.nv.totals (fun hs => ⟨hs.1, hk, range⟩) fun hs =>
                keepsStorage_refl _
            · cases hv
    · exact reply_evolves _ _ _ _

end Sys2Proof.Machine
end

