-- ==== Sys2Proof/Laws/TableLaws.lean ====
section
/-!
SUPPORT. The laws through writes of the quay tables (Chapter 1).
-/

namespace Sys2Proof.Machine

/-! ### Station table entries (R3, R7, R8) -/

theorem deleteStation_evolves (old : State) (a : Addr) (k : StationKind) (s : State) :
    Evolves s (deleteStation old a k s) := by
  unfold deleteStation
  cases k with
  | unloader i d =>
    dsimp only
    refine .trans ?_ (setWeigher_evolves _ _ _)
    refine .trans (setWatch_evolves s a none) ?_
    split
    · exact (closeSource_evolves _ _ _).trans (setSource_evolves _ _ _)
    · exact .refl _
  | belt b d => exact (setWatch_evolves s a none).trans (deleteBelt_evolves _ _ _ _)
  | diverter d e =>
    exact (setWatch_evolves s a none).trans (setDiverter_evolves d none fun _ _ h => by cases h)
  | supervisor => exact setWatch_evolves s a none
  | panel => exact setWatch_evolves s a none

theorem defineStation_evolves (a : Addr) (e : StationEntry) (s : State) :
    Evolves s (defineStation a e s) := by
  unfold defineStation
  dsimp only
  split
  · exact (setWatch_evolves _ _ _).trans (setWeigher_evolves _ _ _)
  · exact (setWatch_evolves _ _ _).trans (setBelt_evolves _ _ fun _ r hr => by
      cases hr; exact fresh_queueLaw)
  · exact (setWatch_evolves _ _ _).trans (setDiverter_evolves _ _ fun _ r hr => by
      cases hr; exact stopped_timerLaw)
  · exact .refl s
  · exact .refl s

theorem rewriteStation_evolves (old : State) (a : Addr) (x y : StationEntry) (s : State) :
    Evolves s (rewriteStation old a x y s) := by
  unfold rewriteStation
  dsimp only
  split
  · exact (setWatch_evolves _ _ _).trans (rewriteBelt_evolves _ _ _ _ _)
  · exact setWatch_evolves _ _ _

theorem sameIndex_symm (x y : StationKind) : x.sameIndex y = y.sameIndex x := by
  cases x <;> cases y <;> simp [StationKind.sameIndex, Bool.beq_comm]

/-- Every own address among those of a state is an address that may hold no entry (R3, R184). -/
theorem ownAddress_of_mem {s : State} {x : Addresses} (h : x ∈ s.addresses) : s.ownAddress x.own = true := by
  rw [mem_addresses] at h
  unfold State.ownAddress
  simp only [Bool.or_eq_true, beq_iff_eq, List.any_eq_true, Option.any_eq_true_iff_get]
  obtain h | h | ⟨w, hw, h⟩ | ⟨q, hq, h⟩ | ⟨q, hq, h⟩ | ⟨y, hy, h⟩ | ⟨y, hy, h⟩ := h
  · simp [h]
  · simp [h]
  · subst h; simp [Option.mem_def.1 hw]
  · exact .inl (.inl (.inl (.inr ⟨q, hq, by simp [Queued.bringsOwn, h]⟩)))
  · exact .inl (.inl (.inr ⟨q, hq, by simp [Queued.bringsOwn, h]⟩))
  · exact .inl (.inr (by rw [Option.mem_def.1 hy]; simp [bringsOwnSending, h]))
  · exact .inr (by rw [Option.mem_def.1 hy]; simp [bringsOwnSending, h])

theorem findStation_some {α : Type} {s : State} {look : StationEntry → Option α}
    (h : (s.findStation look).isSome) : ∃ b : Addr, ∃ e, s.tables.stations[b] = some e ∧ (look e).isSome := by
  unfold State.findStation at h
  rw [Option.isSome_iff_exists] at h
  obtain ⟨x, h⟩ := h
  obtain ⟨b, -, h⟩ := List.exists_of_findSome?_eq_some h
  split at h
  · rename_i e he
    refine ⟨b, e, he, ?_⟩
    rw [Option.map_eq_some_iff] at h
    obtain ⟨y, hy, -⟩ := h
    rw [hy]; rfl
  · cases h

/-- A lookup that neither the old nor the new entry of an address answers is not changed. -/
theorem findStation_setStation {α : Type} {s : State} {look : StationEntry → Option α} {a : Addr}
    {new : Option StationEntry} (old_ : ∀ e, s.tables.stations[a] = some e → look e = none)
    (new_ : ∀ e, new = some e → look e = none) :
    (s.setStation a new).findStation look = s.findStation look := by
  unfold State.findStation
  congr 1
  funext b
  rw [State.setStation_stations, put_get]
  by_cases e : b = a
  · subst e
    rw [if_pos rfl]
    cases hn : new <;> cases ho : s.tables.stations[b]
    · rfl
    · dsimp only; rw [old_ _ ho]; rfl
    · dsimp only; rw [new_ _ hn]; rfl
    · dsimp only; rw [old_ _ ho, new_ _ hn]
  · rw [if_neg e]

/-- The station that holds a kind index stays found where its old entry may change, when it is referenced and the
new entry may hold no index that is taken (R7). -/
theorem reference_stands {α : Type} {s : State} {a : Addr} {new : Option StationEntry} {k : StationKind}
    (look : StationEntry → Option α) (only : ∀ e, (look e).isSome → e.kind.sameIndex k = true)
    (found : ∀ e, e.kind.sameIndex k = true → (look e).isSome)
    (unused : s.stationInUse a new = false)
    (referenced : ∀ x : StationKind, x.sameIndex k = true → s.routeReferences x = true)
    (stands : (s.findStation look).isSome) :
    (s.setStation a new).findStation look = s.findStation look := by
  unfold State.stationInUse at unused
  simp only [Bool.or_eq_false_iff] at unused
  have old_ : ∀ e, s.tables.stations[a] = some e → look e = none := by
    intro e he
    cases h : look e with
    | none => rfl
    | some v =>
      have r := referenced e.kind (only e (by rw [h]; rfl))
      have u := unused.1
      rw [he] at u
      simp [r] at u
  refine findStation_setStation old_ fun e he => ?_
  cases h : look e with
  | none => rfl
  | some v =>
    obtain ⟨b, x, hb, hx⟩ := findStation_some stands
    have u := unused.2
    rw [he] at u
    simp only [Bool.or_eq_false_iff] at u
    have ba : b ≠ a := by
      intro c
      subst c
      rw [old_ x hb] at hx
      cases hx
    have taken := List.any_eq_false.1 u.1 b (mem_allIx b)
    rw [hb] at taken
    have s1 := only x hx
    have s2 := only e (by rw [h]; rfl)
    have same : x.kind.sameIndex e.kind = true := by
      revert s1 s2
      generalize x.kind = p
      generalize e.kind = q
      cases p <;> cases q <;> cases k <;> simp [StationKind.sameIndex]
      all_goals exact fun h1 h2 => h1.trans h2.symm
    simp [ba, same] at taken

theorem unloader_stands {s : State} {a : Addr} {new : Option StationEntry} {k : RouteIx} {e : Route}
    (he : s.tables.routes[k] = some e) (unused : s.stationInUse a new = false)
    (stands : (s.unloaderStation e.unloader).isSome) :
    (s.setStation a new).unloaderStation e.unloader = s.unloaderStation e.unloader := by
  refine reference_stands (k := .unloader e.unloader ⟨0, 0, 0, 0, 0, 0, 0, 0⟩) _ (fun x hx => ?_)
    (fun x hx => ?_) unused (fun x hx => ?_) stands
  · split at hx
    · rename_i j d hk
      rw [hk]
      split at hx
      · simpa [StationKind.sameIndex]
      · cases hx
    · cases hx
  · cases hk : x.kind <;> rw [hk] at hx <;> simp [StationKind.sameIndex] at hx
    simp [hx]
  · cases x <;> simp [StationKind.sameIndex] at hx
    refine List.any_eq_true.2 ⟨k, mem_allIx k, ?_⟩
    rw [he]
    simp [Route.references, hx]

theorem belt_stands {s : State} {a : Addr} {new : Option StationEntry} {k : RouteIx} {e : Route} {b : BeltIx}
    (he : s.tables.routes[k] = some e) (hb : b ∈ e.belts) (unused : s.stationInUse a new = false)
    (stands : (s.beltStation b).isSome) :
    (s.setStation a new).beltStation b = s.beltStation b := by
  refine reference_stands (k := .belt b ⟨0, 0, 0, 0, .belt 0⟩) _ (fun x hx => ?_)
    (fun x hx => ?_) unused (fun x hx => ?_) stands
  · split at hx
    · rename_i j d hk
      rw [hk]
      split at hx
      · simpa [StationKind.sameIndex]
      · cases hx
    · cases hx
  · cases hk : x.kind <;> rw [hk] at hx <;> simp [StationKind.sameIndex] at hx
    simp [hx]
  · cases x <;> simp [StationKind.sameIndex] at hx
    refine List.any_eq_true.2 ⟨k, mem_allIx k, ?_⟩
    rw [he]
    simp [Route.references, hx, hb]

/-- The laws of the grants through a change of a station table entry that is not in use (R7, R11). -/
theorem setStation_grants {s : State} (a : Addr) (new : Option StationEntry)
    (range : ∀ e ∈ new, e.inRange) (unused : s.stationInUse a new = false) (hs : s.Grants) :
    (s.setStation a new).Grants := by
  obtain ⟨h0, ⟨h1, h2⟩, h3, h4, h5⟩ := hs
  have numb : ∀ i, s.legs[i].state = .active → ∀ f,
      (s.setStation a new).unloaderNumber i f = s.unloaderNumber i f := by
    intro i act f
    obtain ⟨k, e, he, -, u, -, -⟩ := h2 i act
    have := unloader_stands he unused (h1 k e he).2.1
    rw [u] at this
    unfold State.unloaderNumber State.unloaderData
    rw [this]
  have sums : ∀ x y : UnloaderIx → Nat, (∀ i, s.legs[i].state = .active → x i = y i) →
      (s.setStation a new).activeSum x = s.activeSum y := by
    intro x y xy
    unfold State.activeSum
    congr 1
    apply List.map_congr_left
    intro i _
    rw [State.setStation_legs]
    split
    · exact xy i ‹_›
    · rfl
  refine ⟨fun b e he => ?_, ⟨fun k e he => ?_, h2⟩, fun i => ?_, fun b d hd => ?_, ?_⟩
  · rw [State.setStation_stations, put_get] at he
    split at he
    · exact range e he
    · exact h0 b e he
  · have he : s.tables.routes[k] = some e := he
    obtain ⟨x1, x2, x3⟩ := h1 k e he
    refine ⟨x1, ?_, fun b hb => ?_⟩
    · rw [unloader_stands he unused x2]; exact x2
    · rw [belt_stands he hb unused (x3 b hb)]; exact x3 b hb
  · have := h3 i
    rw [State.setStation_legs]
    split
    · rename_i act
      rw [if_pos act] at this
      rw [numb i act]
      exact this
    · rename_i act
      rw [if_neg act] at this
      exact this
  · have sum : (s.setStation a new).beltSum b (fun i => (s.setStation a new).legs[i].g)
        = s.beltSum b fun i => s.legs[i].g := rfl
    rw [sum]
    by_cases c : ∃ i, s.crosses i b = true
    · obtain ⟨i, c⟩ := c
      unfold State.crosses at c
      simp only [Bool.and_eq_true, beq_iff_eq, List.contains_iff_mem] at c
      obtain ⟨k, e, he, -, -, bl, -⟩ := h2 i c.1
      have hb : b ∈ e.belts := by rw [← bl]; exact c.2
      unfold State.beltData at hd
      rw [belt_stands he hb unused ((h1 k e he).2.2 b hb)] at hd
      exact h4 b d hd
    · have : (s.beltSum b fun i => s.legs[i].g) = 0 := by
        unfold State.beltSum
        rw [List.sum_eq_zero_iff]
        intro x hx
        obtain ⟨i, -, rfl⟩ := List.mem_map.1 hx
        rw [if_neg fun h => c ⟨i, h⟩]
      rw [this]; exact Nat.zero_le _
  · have hr : (s.setStation a new).headroom = s.headroom := by
      unfold State.headroom State.basePower
      rw [sums _ _ fun i act => numb i act _]
      rfl
    have dm : ((s.setStation a new).demand fun i => (s.setStation a new).legs[i].g)
        = s.demand fun i => s.legs[i].g := sums _ _ fun i act => by rw [numb i act]; rfl
    unfold State.PowerLaw at h5 ⊢
    rw [hr, dm]
    exact h5

/-- A station table entry may change where no law of addresses stands against it (R3, R7). -/
theorem setStation_evolves {s : State} (a : Addr) (new : Option StationEntry)
    (free : new = none ∨ s.addressTaken a = false) (range : ∀ e ∈ new, e.inRange)
    (unused : s.stationInUse a new = false) : Evolves s (s.setStation a new) where
  grants := setStation_grants a new range unused
  addresses hs x hx := by
    obtain ⟨h1, h2⟩ := hs x hx
    refine ⟨h1, ?_⟩
    rw [State.setStation_stations, put_get]
    split
    · obtain h | h := free
      · exact h
      · rename_i e
        have own := ownAddress_of_mem (s := s) hx
        rw [e] at own
        simp [State.addressTaken, own] at h
    · exact h2
  stations hs := by
    obtain ⟨h0, h63, uniq⟩ := hs
    have edge : ∀ x : Addr, (x.val == 0 || x == broadcast) = true → s.tables.stations[x] = none →
        (s.setStation a new).tables.stations[x] = none := by
      intro x hx hn
      rw [State.setStation_stations, put_get]
      split
      · obtain h | h := free
        · exact h
        · rename_i e
          subst e
          simp only [State.addressTaken, Bool.or_eq_false_iff] at h
          simp [h.1.1, h.1.2] at hx
      · exact hn
    have clash : ∀ (b : Addr) (x y : StationEntry), new = some x → b ≠ a → s.tables.stations[b] = some y →
        y.kind.sameIndex x.kind = false := by
      intro b x y hx hb hy
      unfold State.stationInUse at unused
      rw [hx] at unused
      simp only [Bool.or_eq_false_iff] at unused
      have := List.any_eq_false.1 unused.2.1 b (mem_allIx b)
      rw [hy] at this
      simpa [hb] using this
    refine ⟨edge 0 rfl h0, edge broadcast (by simp) h63, ?_⟩
    intro p q x hx y hy same
    rw [State.setStation_stations, put_get] at hx hy
    split at hx <;> split at hy
    · subst p; subst q; rfl
    · subst p
      rw [sameIndex_symm] at same
      rw [clash q x y hx ‹_› hy] at same
      cases same
    · subst q
      rw [clash p y x hy ‹_› hx] at same
      cases same
    · exact uniq p q x hx y hy same

theorem storeStation_evolves {s : State} (a : Addr) (new : Option StationEntry)
    (free : new = none ∨ s.addressTaken a = false) (range : ∀ e ∈ new, e.inRange)
    (unused : s.stationInUse a new = false) : Evolves s (storeStation a new s) := by
  have start := setStation_evolves a new free range unused
  unfold storeStation
  dsimp only
  split
  · split
    · exact start.trans (rewriteStation_evolves _ _ _ _ _)
    · exact start.trans ((deleteStation_evolves _ _ _ _).trans (defineStation_evolves _ _ _))
  · exact start.trans (deleteStation_evolves _ _ _ _)
  · exact start.trans (defineStation_evolves _ _ _)
  · exact start

theorem writeStation_evolves {s : State} (a : Addr) (new : Option StationEntry)
    (free : new = none ∨ s.addressTaken a = false) (range : ∀ e ∈ new, e.inRange) :
    Evolves s (writeStation a new s).state := by
  unfold writeStation
  split
  · exact .refl s
  · split
    · exact .refl s
    · split
      · exact .refl s
      · exact storeStation_evolves a new free range (by simpa using ‹¬s.stationInUse a new = true›)

/-- Contents in range are for no entry, or for an address that may hold one (R3). -/
theorem parseStation_free {taken : Bool} {ws : List Word} {new : Option StationEntry}
    (h : parseStation taken ws = .ok new) : new = none ∨ taken = false := by
  cases taken with
  | false => exact .inr rfl
  | true =>
    left
    unfold parseStation at h
    simp only [true_and] at h
    by_cases k : 2 ≤ hi (ws.getD 0 0) ∧ hi (ws.getD 0 0) ≤ 6
    · rw [if_pos k] at h
      cases h
    · rw [if_neg k] at h
      generalize hi (ws.getD 0 0) = kind at h k
      simp only [need, bind, Except.bind] at h
      split at h
      · split at h
        · cases h
        · cases h; rfl
      all_goals first
        | exact absurd ⟨by decide, by decide⟩ k
        | cases h

/-- A field that is needed has a value. -/
theorem need_ok {α : Type} {n : Nat} {x : Option α} {v : α} (h : need n x = .ok v) : x = some v := by
  unfold need at h
  split at h
  · cases h; rfl
  · cases h

theorem within_ok {low high n v : Nat} (h : within low high n = some v) : low ≤ v ∧ v ≤ high := by
  unfold within at h
  split at h
  · cases h; assumption
  · cases h

/-- A reading in order gives what it gives when every field has its value. -/
theorem bind_ok {α β : Type} {x : Except Nat α} {f : α → Except Nat β} {v : β} (h : (x >>= f) = .ok v) :
    ∃ a, x = .ok a ∧ f a = .ok v := by
  cases x with
  | error e => cases h
  | ok a => exact ⟨a, rfl, h⟩

theorem parseUnloader_range {ws : List Word} {d : UnloaderData} (h : parseUnloader ws = .ok d) : d.inRange := by
  unfold parseUnloader at h
  obtain ⟨cap, h1, h⟩ := bind_ok h
  obtain ⟨base, h2, h⟩ := bind_ok h
  obtain ⟨specific, h3, h⟩ := bind_ok h
  obtain ⟨ramp, h4, h⟩ := bind_ok h
  obtain ⟨choke, h5, h⟩ := bind_ok h
  obtain ⟨release, h6, h⟩ := bind_ok h
  obtain ⟨flow, h7, h⟩ := bind_ok h
  obtain ⟨sweep, h8, h⟩ := bind_ok h
  cases h
  exact ⟨within_ok (need_ok h1), (within_ok (need_ok h2)).2, (within_ok (need_ok h3)).2,
    within_ok (need_ok h4), within_ok (need_ok h7), within_ok (need_ok h5), within_ok (need_ok h6),
    within_ok (need_ok h8)⟩

theorem parseBelt_range {b : BeltIx} {ws : List Word} {d : BeltData} (h : parseBelt b ws = .ok d) :
    d.inRange b := by
  unfold parseBelt at h
  obtain ⟨length, h1, h⟩ := bind_ok h
  obtain ⟨capacity, h2, h⟩ := bind_ok h
  obtain ⟨gap, h3, h⟩ := bind_ok h
  obtain ⟨guard_, h4, h⟩ := bind_ok h
  obtain ⟨outlet, h5, h⟩ := bind_ok h
  cases h
  have g := (within_ok (need_ok h4)).2
  have o := need_ok h5
  rw [Option.filter_eq_some_iff] at o
  exact ⟨within_ok (need_ok h1), within_ok (need_ok h2), (within_ok (need_ok h3)).2,
    ⟨Nat.le_trans g (Nat.min_le_left _ _), Nat.le_trans g (Nat.min_le_right _ _)⟩, by simpa using o.2⟩

/-- The used positions lie first, so that their outlets are as many as the positions used (R6). -/
theorem parsePositions_spec {ws : List Word} {used : Nat} : ∀ (n k : Nat) {l : List Outlet},
    parsePositions ws used n k = .ok l → l.length = min n (used - k) ∧ ∀ x ∈ l, ∀ m, x ≠ .diverter m
  | 0, k, l, h => by cases h; simp
  | n + 1, k, l, h => by
    unfold parsePositions at h
    dsimp only at h
    split at h
    · rename_i lt
      have step : ∀ (o : Outlet), (∀ m, o ≠ .diverter m) →
          (parsePositions ws used n (k + 1)).map (fun l => o :: l) = .ok l →
          l.length = min (n + 1) (used - k) ∧ ∀ x ∈ l, ∀ m, x ≠ .diverter m := by
        intro o ho h
        cases e : parsePositions ws used n (k + 1) with
        | error x => rw [e] at h; cases h
        | ok l' =>
          rw [e] at h
          cases h
          obtain ⟨a, b⟩ := parsePositions_spec n (k + 1) e
          refine ⟨?_, ?_⟩
          · rw [List.length_cons, a]; omega
          · intro x hx
            simp only [List.mem_cons] at hx
            obtain rfl | hx := hx
            · exact ho
            · exact b x hx
      split at h
      · exact step _ (fun m c => by cases c) h
      · exact step _ (fun m c => by cases c) h
      · cases h
    · rename_i ge
      split at h
      · obtain ⟨a, b⟩ := parsePositions_spec n (k + 1) h
        exact ⟨by rw [a]; omega, b⟩
      · cases h

theorem parseDiverter_range {ws : List Word} {d : DiverterData} (h : parseDiverter ws = .ok d) :
    d.inRange := by
  unfold parseDiverter at h
  obtain ⟨used, h1, h⟩ := bind_ok h
  obtain ⟨timeout, h2, h⟩ := bind_ok h
  obtain ⟨outlets, h3, h⟩ := bind_ok h
  cases h
  have u := within_ok (need_ok h1)
  obtain ⟨a, b⟩ := parsePositions_spec _ _ h3
  exact ⟨by dsimp only; omega, within_ok (need_ok h2), b⟩

theorem ceilingOf_range {n c : Nat} (h : ceilingOf n = some c) : c ∈ [0, 1, 3] := by
  unfold ceilingOf at h
  split at h
  · cases h; simpa
  · cases h

theorem limitOf_range {w : Word} {c : Nat} (h : limitOf (lo w) = some c) : c ≠ 1 ∧ c ≤ 255 := by
  unfold limitOf at h
  split at h
  · cases h
  · cases h
    have : lo w < 256 := Nat.mod_lt _ (by decide)
    exact ⟨by assumption, by omega⟩

theorem parsePlain_range {k : StationKind} {ws : List Word} {new : Option StationEntry}
    (hk : ∀ n, k.inRange n ↔ n = 0) (h : parsePlain k ws = .ok new) : ∀ e ∈ new, e.inRange := by
  unfold parsePlain at h
  obtain ⟨_, h1, h⟩ := bind_ok h
  obtain ⟨c, h2, h⟩ := bind_ok h
  obtain ⟨l, h3, h⟩ := bind_ok h
  cases h
  intro e he
  cases he
  have l0 : l = 0 := by
    have := need_ok h3
    unfold noLimitOf at this
    split at this
    · cases this; assumption
    · cases this
  subst l0
  exact ⟨ceilingOf_range (need_ok h2), Nat.zero_ne_one, Nat.zero_le _, (hk 0).2 rfl⟩

/-- Contents in range make an entry in range (R3 to R6). -/
theorem parseStation_range {taken : Bool} {ws : List Word} {new : Option StationEntry}
    (h : parseStation taken ws = .ok new) : ∀ e ∈ new, e.inRange := by
  unfold parseStation at h
  obtain ⟨_, -, h⟩ := bind_ok h
  split at h
  · obtain ⟨_, -, h⟩ := bind_ok h
    cases h
    intro e he
    cases he
  · obtain ⟨i, -, h⟩ := bind_ok h
    obtain ⟨c, h2, h⟩ := bind_ok h
    obtain ⟨l, h3, h⟩ := bind_ok h
    obtain ⟨d, h4, h⟩ := bind_ok h
    cases h
    intro e he
    cases he
    have := limitOf_range (need_ok h3)
    exact ⟨ceilingOf_range (need_ok h2), this.1, this.2, parseUnloader_range h4⟩
  · obtain ⟨i, -, h⟩ := bind_ok h
    obtain ⟨c, h2, h⟩ := bind_ok h
    obtain ⟨l, h3, h⟩ := bind_ok h
    obtain ⟨d, h4, h⟩ := bind_ok h
    cases h
    intro e he
    cases he
    have := limitOf_range (need_ok h3)
    exact ⟨ceilingOf_range (need_ok h2), this.1, this.2, parseBelt_range h4⟩
  · obtain ⟨i, -, h⟩ := bind_ok h
    obtain ⟨c, h2, h⟩ := bind_ok h
    obtain ⟨l, h3, h⟩ := bind_ok h
    obtain ⟨d, h4, h⟩ := bind_ok h
    cases h
    intro e he
    cases he
    have := limitOf_range (need_ok h3)
    exact ⟨ceilingOf_range (need_ok h2), this.1, this.2, parseDiverter_range h4⟩
  · exact parsePlain_range (fun n => Iff.rfl) h
  · exact parsePlain_range (fun n => Iff.rfl) h
  · cases h

/-! ### Routes (R10) -/

theorem walkFrom_nodup {s : State} {x : List Setting} : ∀ (n : Nat) (b : BeltIx) (seen : List BeltIx)
    (visited : List DiverterIx) {w : Walk}, seen.Nodup → walkFrom s x n b seen visited = some w →
    w.belts.Nodup
  | 0, _, _, _, _, _, h => by cases h
  | n + 1, b, seen, visited, w, nd, h => by
    unfold walkFrom at h
    split at h
    · cases h
    · split at h
      · cases h
      · rename_i new
        have nd' : (seen ++ [b]).Nodup := by
          rw [List.nodup_append]
          refine ⟨nd, by simp, ?_⟩
          intro y hy z hz e
          simp only [List.mem_singleton] at hz
          subst hz; subst e
          simp [hy] at new
        split at h
        · cases h; exact nd'
        · exact walkFrom_nodup n _ _ _ nd' h
        · split at h
          · split at h
            · cases h; exact nd'
            · exact walkFrom_nodup n _ _ _ nd' h
            · cases h
          · cases h

/-- A derived belt list holds no belt twice (R10). -/
theorem deriveBelts_nodup {s : State} {x : RouteWrite} {l : List BeltIx} (h : s.deriveBelts x = some l) :
    l.Nodup := by
  unfold State.deriveBelts at h
  split at h
  · cases h
  · rename_i w hw
    split at h
    · cases h
      exact walkFrom_nodup _ _ _ _ List.nodup_nil hw
    · cases h

theorem walkFrom_belts {s : State} {x : List Setting} : ∀ (n : Nat) (b : BeltIx) (seen : List BeltIx)
    (visited : List DiverterIx) {w : Walk}, (∀ y ∈ seen, (s.beltStation y).isSome) →
    walkFrom s x n b seen visited = some w → ∀ y ∈ w.belts, (s.beltStation y).isSome
  | 0, _, _, _, _, _, h => by cases h
  | n + 1, b, seen, visited, w, hs, h => by
    unfold walkFrom at h
    split at h
    · cases h
    · rename_i d hd
      split at h
      · cases h
      · have hs' : ∀ y ∈ seen ++ [b], (s.beltStation y).isSome := by
          intro y hy
          simp only [List.mem_append, List.mem_singleton] at hy
          obtain hy | rfl := hy
          · exact hs y hy
          · unfold State.beltData at hd
            rw [Option.map_eq_some_iff] at hd
            obtain ⟨z, hz, -⟩ := hd
            rw [hz]; rfl
        split at h
        · cases h; exact hs'
        · exact walkFrom_belts n _ _ _ hs' h
        · split at h
          · split at h
            · cases h; exact hs'
            · exact walkFrom_belts n _ _ _ hs' h
            · cases h
          · cases h

/-- A derived belt list names defined belts, and its route's unloader is defined (R10). -/
theorem deriveBelts_defined {s : State} {x : RouteWrite} {l : List BeltIx} (h : s.deriveBelts x = some l) :
    (s.unloaderStation x.unloader).isSome ∧ ∀ b ∈ l, (s.beltStation b).isSome := by
  unfold State.deriveBelts at h
  split at h
  · cases h
  · rename_i w hw
    split at h
    · rename_i c
      cases h
      exact ⟨c.2.2.1, walkFrom_belts _ _ _ _ (fun _ h => by cases h) hw⟩
    · cases h

/-- A route that no leg uses may change, when the stations of its new entry are defined (R11, R12). -/
theorem setRoute_evolves {s : State} (k : RouteIx) (x : Option Route) (unused : s.routeUsed k = false)
    (nodup : ∀ e ∈ x, e.belts.Nodup)
    (fresh : ∀ e ∈ x, e.users = 0 ∧ (s.unloaderStation e.unloader).isSome
      ∧ ∀ b ∈ e.belts, (s.beltStation b).isSome) :
    Evolves s (s.setRoute k x) := by
  refine { setRoute_keeps k x fun e he => .inl (nodup e he) with grants := fun hs => ?_ }
  obtain ⟨h0, ⟨h1, h2⟩, lim⟩ := hs
  have idle : ∀ i : UnloaderIx, s.legs[i].state = .active → s.legs[i].route ≠ some k := by
    intro i act c
    obtain ⟨k', e, he, hk, -⟩ := h2 i act
    rw [hk] at c
    cases c
    have users := (h1 k e he).1
    unfold State.routeUsed at unused
    rw [Option.mem_def.1 he] at unused
    simp only [decide_eq_false_iff_not, Nat.not_lt, Nat.le_zero_eq] at unused
    rw [unused] at users
    unfold State.legsOn at users
    have := List.countP_eq_zero.1 users.symm i (mem_allIx i)
    simp only [Fin.getElem_fin] at act hk this
    simp [act, hk] at this
  refine ⟨h0, ⟨fun j e he => ?_, fun i act => ?_⟩, lim⟩
  · simp only [State.setRoute_routes, put_get] at he
    split at he
    · subst j
      obtain ⟨x1, x2, x3⟩ := fresh e he
      refine ⟨?_, x2, x3⟩
      rw [x1]
      symm
      unfold State.legsOn
      rw [List.countP_eq_zero]
      intro i _ c
      simp only [Bool.and_eq_true, beq_iff_eq] at c
      exact idle i c.1 c.2
    · exact h1 j e he
  · obtain ⟨k', e, he, hk, rest⟩ := h2 i act
    refine ⟨k', e, ?_, hk, rest⟩
    have ne : k' ≠ k := fun c => idle i act (by rw [← c]; exact hk)
    simp only [State.setRoute_routes]
    rw [put_get_other _ _ ne]
    exact he

theorem writeRoute_evolves (k : RouteIx) (x : RouteWrite) (s : State) :
    Evolves s (writeRoute k x s).state := by
  unfold writeRoute
  split
  · exact .refl s
  · rename_i unused
    split
    · exact .refl s
    · rename_i l hl
      refine setRoute_evolves k _ (by simpa using unused) (fun e he => ?_) fun e he => ?_
      · cases he; exact deriveBelts_nodup hl
      · cases he
        exact ⟨rfl, (deriveBelts_defined hl).1, (deriveBelts_defined hl).2⟩

theorem deleteRoute_evolves (k : RouteIx) (s : State) : Evolves s (deleteRoute k s).state := by
  unfold deleteRoute
  split
  · exact .refl s
  · rename_i e he
    split
    · exact .refl s
    · rename_i unused
      refine setRoute_evolves k none ?_ (fun e he => by cases he) fun e he => by cases he
      unfold State.routeUsed
      rw [he]
      simpa using unused

/-! ### Lots (R13, R15) -/

/-- A lot that nothing refers to is named by no ACTIVE leg (R13, R15). -/
theorem active_lot_of_unreferred {s : State} {i : LotIx} (h : s.lotReferred i = false) (j : UnloaderIx)
    (a : s.legs[j].state = .active) : s.legs[j].lot ≠ some i := by
  unfold State.lotReferred at h
  simp only [Bool.or_eq_false_iff] at h
  have := List.any_eq_false.1 h.2 j (mem_allIx j)
  intro e
  simp only [Fin.getElem_fin] at a e this
  simp [a, e] at this

theorem writeLot_evolves (i : LotIx) (x : LotWrite) (s : State) : Evolves s (writeLot i x s).state := by
  unfold writeLot
  split
  · rename_i hl
    refine lots_evolves_from (.refl s) rfl (fun j => ?_) fun hs => ⟨fun j m hm => ?_, ?_⟩
    · simp only [written, State.setLot_lots, put_get]
      split
      · subst j; exact .inr (.inr hl)
      · exact .inl rfl
    · simp only [written, State.setLot_lots, put_get] at hm
      split at hm
      · cases hm
        exact ⟨rfl, Nat.zero_le _, List.nodup_nil, List.nodup_nil⟩
      · exact hs.1 j m hm
    · intro p q m hm y hy pq k hk c
      simp only [written, State.setLot_lots, put_get] at hm hy
      split at hm
      · cases hm; cases hk
      · split at hy
        · cases hy; cases c
        · exact hs.2 p q m hm y hy pq k hk c
  · rename_i l hl
    split
    · exact .refl s
    · rename_i un
      refine lots_evolves_from (.refl s) rfl (fun j => ?_) fun hs =>
        setLot_accounts (m := { l with cargoClass := x.cargoClass, group := x.group, permitted := x.permitted })
          i hl rfl rfl (fun hs => hs.1 i l hl) (fun _ _ _ _ _ => rfl) hs
      simp only [written, State.setLot_lots, put_get]
      split
      · subst j
        by_cases g : l.group = x.group
        · left; rw [hl]; simp [g]
        · right; left
          exact active_lot_of_unreferred (by simpa [g] using un)
      · exact .inl rfl

theorem deleteLot_evolves (i : LotIx) (s : State) : Evolves s (deleteLot i s).state := by
  unfold deleteLot
  split
  · exact .refl s
  · rename_i l hl
    split
    · exact .refl s
    · rename_i un
      simp only [Bool.not_eq_true] at un
      have lots : (written (freeBlocks l.chain (s.setLot i none))).state.tables.lots
          = put s.tables.lots i none := by
        show (freeBlocks l.chain (s.setLot i none)).tables.lots = _
        rw [freeBlocks_frame]; rfl
      refine lots_evolves_from (.refl s) (by show freeBlocks _ _ = _; rw [freeBlocks_frame]; rfl)
        (fun j => ?_) fun hs => ⟨fun j m hm => ?_, ?_⟩
      · rw [lots, put_get]
        split
        · subst j; exact .inr (.inl (active_lot_of_unreferred un))
        · exact .inl rfl
      · rw [lots, put_get] at hm
        split at hm
        · cases hm
        · have ok := hs.1 j m hm
          have e : (written (freeBlocks l.chain (s.setLot i none))).state.linesOf m.chain
              = s.linesOf m.chain := linesOf_congr fun k hk =>
            freeBlocks_pool l.chain (s.setLot i none) k (hs.2 j i m hm l hl ‹_› k hk)
          unfold State.AccountOk at ok ⊢
          rw [e]
          exact ok
      · intro p q m hm y hy
        rw [lots, put_get] at hm hy
        split at hm
        · cases hm
        · split at hy
          · cases hy
          · exact hs.2 p q m hm y hy

/-! ### Holds, bins, and a write of any table (R1, R16, R20, R184) -/

theorem writeHold_evolves (n : HoldIx) (x : HoldWrite) (s : State) : Evolves s (writeHold n x s).state := by
  unfold writeHold
  split
  · exact .refl s
  · split
    · exact .refl s
    · exact setHold_evolves _ _ _

theorem deleteHold_evolves (n : HoldIx) (s : State) : Evolves s (deleteHold n s).state := by
  unfold deleteHold
  split
  · exact .refl s
  · split
    · exact .refl s
    · exact setHold_evolves _ _ _

theorem writeBin_evolves (n : BinIx) (x : BinWrite) (s : State) : Evolves s (writeBin n x s).state := by
  unfold writeBin
  split
  · exact setBin_evolves _ _ _
  · split
    · exact .refl s
    · exact setBin_evolves _ _ _

theorem deleteBin_evolves (n : BinIx) (s : State) : Evolves s (deleteBin n s).state := by
  unfold deleteBin
  split
  · exact .refl s
  · split
    · exact .refl s
    · exact setBin_evolves _ _ _

theorem parsedWrite_evolves {α : Type} {x : Except Nat α} {write : α → State → Written} {s : State}
    (h : ∀ v, x = .ok v → Evolves s (write v s).state) : Evolves s (parsedWrite x write s).state := by
  unfold parsedWrite
  split
  · exact h _ rfl
  · exact .refl s

theorem writeAt_evolves (t : Table) (index : Nat) (define : Bool) (ws : List Word) (s : State) :
    Evolves s (writeAt t index define ws s).state := by
  unfold writeAt
  cases t with
  | station =>
    dsimp only
    split
    · split
      · exact parsedWrite_evolves fun v hv =>
          writeStation_evolves _ _ (parseStation_free hv) (parseStation_range hv)
      · exact writeStation_evolves _ _ (.inl rfl) fun e he => by cases he
    · exact .refl s
  | route =>
    dsimp only
    split
    · split
      · exact parsedWrite_evolves fun v _ => writeRoute_evolves _ _ _
      · exact deleteRoute_evolves _ _
    · exact .refl s
  | lot =>
    dsimp only
    split
    · split
      · exact parsedWrite_evolves fun v _ => writeLot_evolves _ _ _
      · exact deleteLot_evolves _ _
    · exact .refl s
  | hold =>
    dsimp only
    split
    · split
      · exact parsedWrite_evolves fun v _ => writeHold_evolves _ _ _
      · exact deleteHold_evolves _ _
    · exact .refl s
  | bin =>
    dsimp only
    split
    · split
      · exact parsedWrite_evolves fun v _ => writeBin_evolves _ _ _
      · exact deleteBin_evolves _ _
    · exact .refl s

theorem writeEntry_evolves (t : Table) (index action : Nat) (ws : List Word) (s : State) :
    Evolves s (writeEntry t index action ws s).state := by
  unfold writeEntry
  split
  · exact writeAt_evolves _ _ _ _ _
  · exact writeAt_evolves _ _ _ _ _
  · exact .refl s

end Sys2Proof.Machine
end

