-- ==== Sys2Proof/Laws/RequestLaws.lean ====
section
/-!
SUPPORT. The laws through the requests (Chapter 9 and the rules it names).
-/

namespace Sys2Proof.Machine

theorem checked_evolves {q : Request} {n : Nat} {layout : List Group} {act : State → State} {s : State}
    (h : Evolves s (act s)) : Evolves s (checked q n layout act s) := by
  unfold checked
  split
  · exact reply_evolves _ _ _ _
  · exact h

/-! ### LEG START (R27 to R31) -/

theorem sharesBelt_symm {x y : List BeltIx} (h : sharesBelt x y = true) : sharesBelt y x = true := by
  unfold sharesBelt at h ⊢
  simp only [List.any_eq_true, List.contains_iff_mem] at h ⊢
  obtain ⟨b, h1, h2⟩ := h
  exact ⟨b, h2, h1⟩

theorem compatible_symm (s : State) (x y : LotIx) : s.compatible x y = s.compatible y x := by
  unfold State.compatible
  rw [Bool.beq_comm]
  congr 1
  generalize s.tables.lots[x] = a
  generalize s.tables.lots[y] = b
  cases a <;> cases b <;> try rfl
  rename_i p q
  show (p.group == q.group && p.group != 0) = (q.group == p.group && q.group != 0)
  by_cases h : p.group = q.group
  · rw [h]
  · have h' : ¬ q.group = p.group := fun c => h c.symm
    rw [beq_false_of_ne h, beq_false_of_ne h']; rfl

/-- From the first shared belt on is the same for both lists, where they hold no belt twice (R10, R30). -/
theorem sameFromFirstShared_symm {x y : List BeltIx} (ny : y.Nodup) (h : sameFromFirstShared x y = true) :
    sameFromFirstShared y x = true := by
  unfold sameFromFirstShared at h ⊢
  split
  · rfl
  · rename_i b' hb'
    split at h
    · rename_i none_
      have := List.find?_eq_none.1 none_ b' (by
        have := List.find?_some hb'
        simpa using this)
      have m := List.mem_of_find?_eq_some hb'
      simp [m] at this
    · rename_i b hb
      simp only [beq_iff_eq] at h ⊢
      have bx := List.mem_of_find?_eq_some hb
      have by_ : b ∈ y := by simpa using List.find?_some hb
      have b'y := List.mem_of_find?_eq_some hb'
      have b'x : b' ∈ x := by simpa using List.find?_some hb'
      suffices e : b' = b by subst e; exact h.symm
      obtain ⟨-, y1, y2, ey, hy⟩ := List.find?_eq_some_iff_append.1 hb'
      obtain ⟨-, x1, x2, ex, hx⟩ := List.find?_eq_some_iff_append.1 hb
      have dropx : x.dropWhile (· != b) = b :: x2 := by
        rw [ex, List.dropWhile_append_of_pos]
        · simp
        · intro z hz
          have := hx z hz
          simp only [bne_iff_ne, ne_eq]
          intro e; subst e; simp [by_] at this
      by_contra ne
      have b'2 : b' ∈ b :: x2 := by
        rw [ex] at b'x
        simp only [List.mem_append] at b'x
        obtain c | c := b'x
        · have := hx b' c
          simp [b'y] at this
        · exact c
      rw [← dropx, h] at b'2
      have b2 : b ∈ y2 := by
        rw [ey] at by_
        simp only [List.mem_append, List.mem_cons] at by_
        obtain c | c | c := by_
        · have := hy b c
          simp [bx] at this
        · exact absurd c.symm ne
        · exact c
      obtain ⟨z1, z2, ez⟩ := List.append_of_mem b2
      have dropy : y.dropWhile (· != b) = b :: z2 := by
        have split2 : y = (y1 ++ b' :: z1) ++ b :: z2 := by rw [ey, ez]; simp
        have nd := ny
        rw [split2, List.nodup_append] at nd
        rw [split2, List.dropWhile_append_of_pos]
        · simp
        · intro z hz
          simp only [bne_iff_ne, ne_eq]
          exact fun e => nd.2.2 z hz b (by simp) e
      rw [dropy] at b'2
      have nd := ny
      rw [ey, ez, List.nodup_append] at nd
      have nd2 := nd.2.1
      simp only [List.mem_cons] at b'2
      obtain c | c := b'2
      · exact ne c
      · simp only [List.nodup_cons, List.mem_append, List.mem_cons, not_or] at nd2
        exact nd2.1.2.2 c

/-- What the checks of LEG START have found when none fails (R28 to R30). -/
theorem legStartRefusal_none {s : State} {i : UnloaderIx} {h : HoldIx} {k : RouteIx}
    (none_ : s.legStartRefusal i h k = none) : s.legs[i].state = .idle ∧ ∃ hold lot e,
      s.tables.holds[h] = some hold ∧ hold.lot = some lot ∧ s.tables.routes[k] = some e ∧ e.unloader = i
      ∧ ∀ j : UnloaderIx, s.legs[j].state = .active →
        s.lotConflict lot e s.legs[j] = false ∧ s.routeConflict e s.legs[j] = false := by
  unfold State.legStartRefusal at none_
  split at none_
  · cases none_
  · cases none_
  · rename_i idle
    refine ⟨idle, ?_⟩
    split at none_
    · cases none_
    · split at none_
      · cases none_
      · rename_i hold hh
        split at none_
        · cases none_
        · rename_i lot hlot
          split at none_
          · cases none_
          · split at none_
            · cases none_
            · rename_i e he
              split at none_
              · cases none_
              · rename_i own
                split at none_
                · split at none_
                  · cases none_
                  · split at none_
                    · cases none_
                    · split at none_
                      · cases none_
                      · split at none_
                        · cases none_
                        · rename_i lc
                          split at none_
                          · cases none_
                          · rename_i rc
                            refine ⟨hold, lot, e, hh, hlot, he, by simpa using own, fun j a => ?_⟩
                            have act : j ∈ s.activeLegs := by
                              unfold State.activeLegs
                              rw [List.mem_filter]
                              exact ⟨mem_allIx j, by rw [a]; rfl⟩
                            simp only [Bool.not_eq_true] at lc rc
                            exact ⟨by simpa using List.any_eq_false.1 lc j act,
                              by simpa using List.any_eq_false.1 rc j act⟩
                · cases none_

/-- A leg may start where no conflict stands against its route and lot (R30, R31). -/
theorem setLeg_started_keeps {s : State} {x : StartOrder} {lot : LotIx} {e : Route}
    (he : s.tables.routes[x.route] = some e)
    (clear : ∀ j : UnloaderIx, s.legs[j].state = .active →
      s.lotConflict lot e s.legs[j] = false ∧ s.routeConflict e s.legs[j] = false) :
    Keeps s (s.setLeg x.leg (s.legs[x.leg].started x e lot)) where
  feeds hs i := by
    rw [State.setLeg_legs, put_get]
    split
    · refine ⟨Nat.zero_le _, Nat.zero_le _, ?_, Nat.zero_le _, by rintro y ⟨⟩⟩
      show s.legs[x.leg].pendingFeed.getD 0 ≤ _
      cases hp : s.legs[x.leg].pendingFeed with
      | none => exact Nat.zero_le _
      | some v => exact (hs x.leg).2.2.2.2 v hp
    · exact hs i
  merge hs := by
    obtain ⟨a, b, c⟩ := hs
    have key : ∀ j : UnloaderIx, s.legs[j].state = .active →
        s.runTogether (s.legs[x.leg].started x e lot) s.legs[j]
          ∧ s.runTogether s.legs[j] (s.legs[x.leg].started x e lot) := by
      intro j aj
      obtain ⟨h1, h2⟩ := clear j aj
      have core : sharesBelt e.belts s.legs[j].belts = true → (∃ q, s.legs[j].lot = some q
          ∧ s.compatible q lot = true) ∧ s.legs[j].bin = some e.bin
          ∧ sameFromFirstShared e.belts s.legs[j].belts = true := by
        intro sh
        unfold State.lotConflict at h1
        unfold State.routeConflict at h2
        rw [sh] at h1 h2
        simp only [Bool.true_and, Bool.or_eq_false_iff, Bool.not_eq_false', bne_eq_false_iff_eq] at h1 h2
        refine ⟨?_, h2.1.2, h2.1.1⟩
        revert h1
        cases s.legs[j].lot with
        | none => exact fun h => by cases h
        | some q => exact fun h => ⟨q, rfl, by simpa using h⟩
      constructor
      · intro sh
        obtain ⟨⟨q, hq, cq⟩, bin, same⟩ := core sh
        exact ⟨⟨lot, q, rfl, hq, by rw [compatible_symm]; exact cq⟩, bin.symm, same,
          sameFromFirstShared_symm (b j aj) same⟩
      · intro sh
        obtain ⟨⟨q, hq, cq⟩, bin, same⟩ := core (sharesBelt_symm sh)
        exact ⟨⟨q, lot, hq, rfl, cq⟩, bin, sameFromFirstShared_symm (b j aj) same, same⟩
    refine ⟨a, fun i hi => ?_, fun i j n hi hj => ?_⟩
    · rw [State.setLeg_legs, put_get] at hi ⊢
      split
      · exact a x.route e he
      · rename_i ne
        rw [if_neg ne] at hi
        exact b i hi
    · rw [State.setLeg_legs, put_get] at hi hj ⊢
      rw [put_get]
      show State.runTogether s _ _
      split <;> split
      · rename_i h1 h2
        exact absurd (h1.trans h2.symm) n
      · rename_i h1 h2
        rw [if_neg h2] at hj
        exact (key j hj).1
      · rename_i h1 h2
        rw [if_neg h1] at hi
        exact (key i hi).2
      · rename_i h1 h2
        rw [if_neg h1] at hi
        rw [if_neg h2] at hj
        exact c i j n hi hj

theorem clearFiltersOf_evolves (i : UnloaderIx) (s : State) : Evolves s (clearFiltersOf i s) := by
  unfold clearFiltersOf
  split
  · exact .refl s
  · exact setWatch_evolves _ _ _

theorem occupyRoute_frame (k : RouteIx) (s : State) :
    occupyRoute k s = { s with tables := { s.tables with routes := (occupyRoute k s).tables.routes } } := by
  unfold occupyRoute
  split <;> rfl

/-- The record of the leg and the user count of its route, which change together, keep the laws of the grants but
that of the power, which the power recheck restores (R12, R31, R65). -/
theorem started_grants {s : State} {x : StartOrder} {lot : LotIx} {e : Route}
    (idle : s.legs[x.leg].state = .idle) (he : s.tables.routes[x.route] = some e) (own : e.unloader = x.leg)
    (hs : s.RangeLaw ∧ s.RouteLaw ∧ s.GrantLaw ∧ s.CapacityLaw) :
    let t := occupyRoute x.route (s.setLeg x.leg (s.legs[x.leg].started x e lot))
    t.RangeLaw ∧ t.RouteLaw ∧ t.GrantLaw ∧ t.CapacityLaw := by
  obtain ⟨range, ⟨hr, ha⟩, grant, belts⟩ := hs
  have legs : (occupyRoute x.route (s.setLeg x.leg (s.legs[x.leg].started x e lot))).legs
      = put s.legs x.leg (s.legs[x.leg].started x e lot) := by rw [occupyRoute_frame]; rfl
  have stations : (occupyRoute x.route (s.setLeg x.leg (s.legs[x.leg].started x e lot))).tables.stations
      = s.tables.stations := by rw [occupyRoute_frame]; rfl
  have routes : (occupyRoute x.route (s.setLeg x.leg (s.legs[x.leg].started x e lot))).tables.routes
      = put s.tables.routes x.route (some { e with users := e.users + 1 }) := by
    unfold occupyRoute
    rw [State.setLeg_tables, he]
    rfl
  intro t
  have ht : t = occupyRoute x.route (s.setLeg x.leg (s.legs[x.leg].started x e lot)) := rfl
  rw [← ht] at legs stations routes
  clear_value t
  have find : ∀ {α : Type} (look : StationEntry → Option α), t.findStation look = s.findStation look :=
    fun look => by unfold State.findStation; rw [stations]
  have inactive : ¬ s.legs[x.leg].state = .active := by rw [idle]; exact fun c => by cases c
  have count : ∀ j : RouteIx, t.legsOn j = s.legsOn j + (if j = x.route then 1 else 0) := by
    intro j
    have := legsOn_setLeg s x.leg (s.legs[x.leg].started x e lot) j
    have same : t.legsOn j = (s.setLeg x.leg (s.legs[x.leg].started x e lot)).legsOn j := by
      unfold State.legsOn; rw [legs]; rfl
    rw [if_neg fun c => inactive c.1] at this
    have e1 : (if (s.legs[x.leg].started x e lot).state = .active
        ∧ (s.legs[x.leg].started x e lot).route = some j then 1 else 0) = (if j = x.route then 1 else 0) := by
      simp [Leg.started, eq_comm]
    rw [e1] at this
    rw [same]
    exact this
  refine ⟨fun a => by rw [stations]; exact range a, ⟨fun j y hy => ?_, fun j aj => ?_⟩, fun j => ?_,
    fun b d hd => ?_⟩
  · rw [routes, put_get] at hy
    have up : ∀ b, (s.beltStation b).isSome → (t.beltStation b).isSome := fun b h => by
      unfold State.beltStation at h ⊢; rw [find]; exact h
    have uu : ∀ u, (s.unloaderStation u).isSome → (t.unloaderStation u).isSome := fun b h => by
      unfold State.unloaderStation at h ⊢; rw [find]; exact h
    have cj := count j
    split at hy
    · rename_i ej
      subst ej
      cases hy
      obtain ⟨x1, x2, x3⟩ := hr x.route e he
      rw [if_pos rfl] at cj
      exact ⟨by show e.users + 1 = _; omega, uu _ x2, fun b hb => up b (x3 b hb)⟩
    · rename_i nk
      obtain ⟨x1, x2, x3⟩ := hr j y hy
      rw [if_neg nk] at cj
      exact ⟨by omega, uu _ x2, fun b hb => up b (x3 b hb)⟩
  · rw [legs, put_get] at aj ⊢
    split
    · rename_i ej
      exact ⟨x.route, { e with users := e.users + 1 }, by rw [routes, put_get_same]; rfl, rfl,
        own.trans ej.symm, rfl, rfl⟩
    · rename_i nj
      rw [if_neg nj] at aj
      obtain ⟨k', e', he', y1, y2, y3, y4⟩ := ha j aj
      by_cases kk : k' = x.route
      · subst kk
        rw [he] at he'
        cases he'
        exact absurd (y2.symm.trans own) nj
      · exact ⟨k', e', by rw [routes, put_get_other _ _ kk]; exact he', y1, y2, y3, y4⟩
  · rw [legs, put_get]
    split
    · exact Nat.zero_le _
    · have num_ : ∀ f, t.unloaderNumber j f = s.unloaderNumber j f := fun f => by
        unfold State.unloaderNumber State.unloaderData State.unloaderStation; rw [find]
      rw [num_]
      exact grant j
  · have : s.beltData b = some d := by
      unfold State.beltData State.beltStation at hd ⊢; rw [find] at hd; exact hd
    refine Nat.le_trans ?_ (belts b d this)
    unfold State.beltSum
    apply List.sum_le_sum
    intro i _
    unfold State.crosses
    dsimp only
    rw [legs, put_get]
    by_cases ei : i = x.leg
    · rw [if_pos ei]
      split
      · exact Nat.zero_le _
      · exact Nat.zero_le _
    · rw [if_neg ei]

theorem startLeg_evolves {s : State} {x : StartOrder} {h : Hold} {lot : LotIx} {e : Route}
    (idle : s.legs[x.leg].state = .idle) (he : s.tables.routes[x.route] = some e) (own : e.unloader = x.leg)
    (clear : ∀ j : UnloaderIx, s.legs[j].state = .active →
      s.lotConflict lot e s.legs[j] = false ∧ s.routeConflict e s.legs[j] = false) :
    Evolves s (startLeg x h lot e s) := by
  unfold startLeg
  dsimp only
  have first : Keeps s (occupyRoute x.route (s.setLeg x.leg (s.legs[x.leg].started x e lot))) :=
    .trans (setLeg_started_keeps he clear) (occupyRoute_keeps _ _)
  have limits := started_grants (lot := lot) idle he own
  generalize occupyRoute x.route (s.setLeg x.leg (s.legs[x.leg].started x e lot)) = u at first limits
  refine { first.trans (.trans (ensureLine_accounts _ _ _ _ _).toKeeps (.trans (clearFiltersOf_evolves _ _).toKeeps
    (.trans (evaluateLeg_evolves _ _).toKeeps (powerRecheck_keeps _)))) with grants := fun hs => ?_ }
  obtain ⟨h0, h1, h2, h3⟩ := limits ⟨hs.1, hs.2.1, hs.2.2.1, hs.2.2.2.1⟩
  have le : (ensureLine lot h.vessel h.number e.bin u).1.tables.stations = u.tables.stations
      ∧ (ensureLine lot h.vessel h.number e.bin u).1.tables.routes = u.tables.routes
      ∧ (ensureLine lot h.vessel h.number e.bin u).1.legs = u.legs := by
    unfold ensureLine raiseFlag
    dsimp only
    repeat' split
    all_goals first
      | exact ⟨rfl, rfl, rfl⟩
      | rw [joinEgress_frame]; exact ⟨rfl, rfl, rfl⟩
  generalize (ensureLine lot h.vessel h.number e.bin u).1 = v at le
  have lc : (clearFiltersOf x.leg v).tables.stations = u.tables.stations
      ∧ (clearFiltersOf x.leg v).tables.routes = u.tables.routes
      ∧ (clearFiltersOf x.leg v).legs = u.legs := by
    unfold clearFiltersOf
    split <;> exact le
  generalize clearFiltersOf x.leg v = w at lc
  obtain ⟨st, ro, lg⟩ := lc
  have leg : ∀ i : UnloaderIx, ∃ c, (evaluateLeg x.leg w).legs[i] = { u.legs[i] with condition := c } := by
    intro i
    unfold evaluateLeg
    rw [State.setLeg_legs, put_get, lg]
    split
    · rename_i ei
      rw [ei]
      exact ⟨_, rfl⟩
    · exact ⟨u.legs[i].condition, rfl⟩
  have st' : (evaluateLeg x.leg w).tables.stations = u.tables.stations := st
  have ro' : (evaluateLeg x.leg w).tables.routes = u.tables.routes := ro
  generalize evaluateLeg x.leg w = z at leg st' ro'
  have same : ∀ i : UnloaderIx, z.legs[i].state = u.legs[i].state ∧ z.legs[i].route = u.legs[i].route
      ∧ z.legs[i].belts = u.legs[i].belts ∧ z.legs[i].bin = u.legs[i].bin ∧ z.legs[i].g = u.legs[i].g := by
    intro i
    obtain ⟨c, e⟩ := leg i
    rw [e]
    exact ⟨rfl, rfl, rfl, rfl, rfl⟩
  have find : ∀ {α : Type} (look : StationEntry → Option α), z.findStation look = u.findStation look :=
    fun look => by unfold State.findStation; rw [st']
  refine powerRecheck_limits (fun a => by rw [st']; exact h0 a)
    (routeLaw_of st' ro' (fun i a => by rw [← (same i).1]; exact a)
      (fun i a => ⟨by rw [(same i).1]; exact a, (same i).2.1, (same i).2.2.1, (same i).2.2.2.1⟩) h1)
    (fun i => ?_) fun b d hd => ?_
  · have num_ : ∀ f, z.unloaderNumber i f = u.unloaderNumber i f := fun f => by
      unfold State.unloaderNumber State.unloaderData State.unloaderStation; rw [find]
    rw [(same i).1, (same i).2.2.2.2, num_]
    exact h2 i
  · have : u.beltData b = some d := by
      unfold State.beltData State.beltStation at hd ⊢; rw [find] at hd; exact hd
    refine Nat.le_trans (Nat.le_of_eq ?_) (h3 b d this)
    unfold State.beltSum
    congr 1
    apply List.map_congr_left
    intro i _
    unfold State.crosses
    dsimp only
    rw [(same i).1, (same i).2.2.1, (same i).2.2.2.2]

theorem takeLegStart_evolves (q : Request) (s : State) : Evolves s (takeLegStart q s) := by
  refine checked_evolves ?_
  split
  · exact reply_evolves _ _ _ _
  · rename_i x hx
    unfold legStartInRange
    split
    · exact reply_evolves _ _ _ _
    · rename_i none_
      obtain ⟨idle, hold, lot, e, hh, hl, he, own, clear⟩ := legStartRefusal_none none_
      rw [hh, he]
      dsimp only
      rw [hl]
      dsimp only
      exact (startLeg_evolves idle he own clear).trans (reply_evolves _ _ _ _)

/-! ### The other requests about legs and the allocator -/

theorem takeLegRead_evolves (q : Request) (s : State) : Evolves s (takeLegRead q s) := by
  refine checked_evolves ?_
  split <;> exact reply_evolves _ _ _ _

theorem emptyHold_evolves (l : Leg) (s : State) : Evolves s (emptyHold l s) := by
  unfold emptyHold
  split
  · exact .refl s
  · split
    · exact setHold_evolves _ _ _
    · exact .refl s

theorem stopLeg_evolves (i : UnloaderIx) (r : EndReason) (s : State) : Evolves s (stopLeg i r s) := by
  unfold stopLeg
  refine .trans ?_ (endLeg_evolves _ _ _)
  exact .ite (fun _ => emptyHold_evolves _ _) fun _ => .refl s

theorem takeLegStop_evolves (q : Request) (s : State) : Evolves s (takeLegStop q s) := by
  refine checked_evolves ?_
  split
  · split
    · exact (stopLeg_evolves _ _ _).trans (reply_evolves _ _ _ _)
    · exact reply_evolves _ _ _ _
  · exact reply_evolves _ _ _ _

theorem takeLegClear_evolves (q : Request) (s : State) : Evolves s (takeLegClear q s) := by
  refine checked_evolves ?_
  dsimp only
  split
  · exact reply_evolves _ _ _ _
  · rename_i i hi
    split
    · rename_i ended
      refine .trans ?_ (reply_evolves _ _ _ _)
      have same : s.legs[i].cleared.asBefore s.legs[i] := by
        refine Or.inr ⟨?_, ?_, Nat.zero_le _⟩
        · intro h; cases h
        · rw [ended]; intro h; cases h
      refine setLeg_evolves i _ (fun _ => ?_) (fun h => by cases h) same
      exact ⟨Nat.zero_le _, Nat.zero_le _, Nat.zero_le _, Nat.zero_le _, by rintro y ⟨⟩⟩
    · rename_i idle
      refine .trans ?_ (reply_evolves _ _ _ _)
      refine setLeg_evolves i _ (fun hs => ?_) (fun _ => rfl)
        (Leg.asBefore_of rfl rfl rfl rfl (Nat.le_refl _))
      obtain ⟨h1, h2, h3, h4, -⟩ := hs i
      exact ⟨h1, h2, h3, h4, by rintro y ⟨⟩⟩
    · exact reply_evolves _ _ _ _

theorem takeSetAllocator_evolves (q : Request) (s : State) : Evolves s (takeSetAllocator q s) := by
  refine checked_evolves ?_
  dsimp only
  split
  · rename_i h
    refine .trans ?_ (reply_evolves _ _ _ _)
    exact { allocator := fun ⟨a, _, c, _, e⟩ => ⟨a, Nat.min_le_right _ _, c, h, e⟩ }
  · exact reply_evolves _ _ _ _

/-! ### Requests about the tables -/

theorem takeTableRead_evolves (q : Request) (s : State) : Evolves s (takeTableRead q s) := by
  refine checked_evolves ?_
  split
  · split
    · split <;> exact reply_evolves _ _ _ _
    · exact reply_evolves _ _ _ _
  · exact reply_evolves _ _ _ _

theorem takeTableWrite_evolves (q : Request) (s : State) : Evolves s (takeTableWrite q s) := by
  refine checked_evolves ?_
  dsimp only
  split
  · exact reply_evolves _ _ _ _
  · exact (writeEntry_evolves _ _ _ _ _).trans (reply_evolves _ _ _ _)

theorem takeBinReset_evolves (q : Request) (s : State) : Evolves s (takeBinReset q s) := by
  refine checked_evolves ?_
  split
  · exact reply_evolves _ _ _ _
  · split
    · exact reply_evolves _ _ _ _
    · split
      · exact reply_evolves _ _ _ _
      · exact (setBin_evolves _ _ _).trans (reply_evolves _ _ _ _)

theorem takeBulkOpen_evolves (q : Request) (s : State) : Evolves s (takeBulkOpen q s) := by
  refine checked_evolves ?_
  split
  · exact reply_evolves _ _ _ _
  · split
    · exact (setCursor_evolves _ _).trans (reply_evolves _ _ _ _)
    · exact reply_evolves _ _ _ _

theorem bulkEntry_evolves (q : Request) (x : Cursor) (s : State) : Evolves s (bulkEntry q x s) := by
  unfold bulkEntry
  dsimp only
  split
  · exact (writeEntry_evolves _ _ _ _ _).trans ((setCursor_evolves _ _).trans (reply_evolves _ _ _ _))
  · exact (writeEntry_evolves _ _ _ _ _).trans (reply_evolves _ _ _ _)

theorem takeBulkData_evolves (q : Request) (s : State) : Evolves s (takeBulkData q s) := by
  refine checked_evolves ?_
  split
  · exact reply_evolves _ _ _ _
  · split
    · unfold bulkStep
      dsimp only
      split
      · exact (setCursor_evolves _ _).trans (reply_evolves _ _ _ _)
      · exact (setCursor_evolves _ _).trans (bulkEntry_evolves _ _ _)
    · exact reply_evolves _ _ _ _

theorem closeCursor_evolves (s : State) : Evolves s (closeCursor s) := by
  unfold closeCursor
  split
  · exact .refl s
  · split
    · exact (setCursor_evolves _ _).trans (raiseFlag_evolves _ _ _ _ _)
    · exact setCursor_evolves _ _

theorem cursorExpires_evolves (s : State) : Evolves s (cursorExpires s) :=
  whenOut_evolves (closeCursor_evolves s)

/-! ### Requests about accounts, flags and the part -/

theorem takeReadAccounts_evolves (q : Request) (s : State) : Evolves s (takeReadAccounts q s) := by
  refine checked_evolves ?_
  split <;> exact reply_evolves _ _ _ _

theorem takeSnapshotLot_evolves (q : Request) (s : State) : Evolves s (takeSnapshotLot q s) := by
  refine checked_evolves ?_
  split
  · exact reply_evolves _ _ _ _
  · split
    · exact reply_evolves _ _ _ _
    · exact (takeSnapshot_evolves _ _ _).trans (reply_evolves _ _ _ _)

theorem takeReadSnapshot_evolves (q : Request) (s : State) : Evolves s (takeReadSnapshot q s) := by
  refine checked_evolves ?_
  split
  · exact reply_evolves _ _ _ _
  · split <;> exact reply_evolves _ _ _ _

theorem takeStatus_evolves (q : Request) (s : State) : Evolves s (takeStatus q s) := by
  refine checked_evolves ?_
  split <;> exact reply_evolves _ _ _ _

theorem takeFlagsRead_evolves (q : Request) (s : State) : Evolves s (takeFlagsRead q s) :=
  checked_evolves (reply_evolves _ _ _ _)

theorem clearCounters_evolves (s : State) : Evolves s (clearCounters s) := by
  refine .trans (t := { s with
    path := { s.path with checkErrorsA := 0, checkErrorsB := 0, dropsA := 0, dropsB := 0, misuse := 0 }
    watch := (clearCounters s).watch, seg := { s.seg with breachCount := 0 } }) {} ?_
  exact weighing_evolves (clearCounters s).weighing rfl

theorem clearFlags_evolves (x y : Word) (b : Bool) (s : State) : Evolves s (clearFlags x y b s) := by
  unfold clearFlags
  dsimp only
  split
  · exact (notices_evolves s _).trans (clearCounters_evolves _)
  · exact notices_evolves s _

theorem takeFlagsClear_evolves (q : Request) (s : State) : Evolves s (takeFlagsClear q s) := by
  refine checked_evolves ?_
  dsimp only
  split
  · exact reply_evolves _ _ _ _
  · split
    · exact (clearFlags_evolves _ _ _ _).trans (reply_evolves _ _ _ _)
    · exact reply_evolves _ _ _ _

theorem takeNoticeMask_evolves (q : Request) (s : State) : Evolves s (takeNoticeMask q s) := by
  refine checked_evolves ?_
  dsimp only
  split
  · exact (notices_evolves s _).trans (reply_evolves _ _ _ _)
  · exact reply_evolves _ _ _ _

theorem takeUnknown_evolves (q : Request) (s : State) : Evolves s (takeUnknown q s) :=
  reply_evolves _ _ _ _

/-! ### COMMISSION (R190, R191) -/

theorem stationAddress_range {w : Word} {a : Addr} (h : stationAddress w = some a) :
    1 ≤ a.val ∧ a.val ≤ 62 := by
  unfold stationAddress at h
  split at h
  · cases h; exact ‹_›
  · cases h

/-- Addresses in range are valid (R189, R190). -/
theorem addressesOf_valid {x y : Word} {a : Addresses} (h : addressesOf x y = some a) : a.valid := by
  unfold addressesOf at h
  split at h
  · rename_i p q hp hq
    split at h
    · cases h
    · cases h
      have hp := stationAddress_range hp
      have hq := stationAddress_range hq
      exact ⟨hp.1, hp.2, hq.1, hq.2, ‹_›⟩
  · cases h

theorem takeCommission_evolves (q : Request) (s : State) : Evolves s (takeCommission q s) := by
  refine checked_evolves ?_
  dsimp only
  split
  · exact reply_evolves _ _ _ _
  · rename_i x hx
    split
    · exact reply_evolves _ _ _ _
    · rename_i free
      split
      · exact reply_evolves _ _ _ _
      · exact {
          addresses := fun hs => addressLaw_of hs rfl fun y hy => by
            rw [mem_addresses] at hy ⊢
            obtain h | h | ⟨w, hw, h⟩ | h := hy
            · exact .inl (.inl h)
            · exact .inl (.inr (.inl h))
            · cases hw
              subst h
              exact .inr ⟨addressesOf_valid hx, by simpa using free⟩
            · exact .inl (.inr (.inr (.inr h))) }

theorem completeCommission_evolves (s : State) : Evolves s (completeCommission s) := by
  unfold completeCommission
  split
  · exact .refl s
  · rename_i w hw
    have mem : w.addresses ∈ s.addresses := mem_addresses.2 (.inr (.inr (.inl ⟨w, hw, rfl⟩)))
    have before : Evolves s { s with
        nv := { s.nv with record := w.addresses }
        mgmt := { s.mgmt with writing := none } } := {
      storage := fun _ => keepsStorage_refl s
      calibration := id
      addresses := fun hs => addressLaw_of hs rfl fun y hy => by
        rw [mem_addresses] at hy
        obtain h | h | ⟨z, hz, h⟩ | h := hy
        · exact .inl (mem_addresses.2 (.inl h))
        · exact .inl (by rw [h]; exact mem)
        · cases hz
        · exact .inl (mem_addresses.2 (.inr (.inr (.inr h)))) }
    refine .trans (t := { s with
        nv := { s.nv with record := w.addresses }
        mgmt := { s.mgmt with writing := none } }) ?_
      (joinPort_evolves w.port _ ?_)
    · exact before
    · intro x hx hs
      cases hx
      exact hs w.addresses (mem_addresses.2 (.inr (.inl rfl)))

/-! ### RESTART (R177, R192) -/

/-- The addresses of telegrams that leave a queue come into force in turn (R177, R191). -/
theorem discardAll_spec : ∀ (l : List Queued) (s : State), ∃ x,
    discardAll l s = { s with mgmt := { s.mgmt with inForce := x } }
      ∧ (x = s.mgmt.inForce ∨ ∃ q ∈ l, q.takesForce = some x)
  | [], s => ⟨_, rfl, .inl rfl⟩
  | q :: l, s => by
    show ∃ x, discardAll l (s.takeForce q.takesForce) = _ ∧ _
    cases h : q.takesForce with
    | none =>
      obtain ⟨x, e, m⟩ := discardAll_spec l s
      refine ⟨x, e, m.imp id ?_⟩
      exact fun ⟨p, hp, e⟩ => ⟨p, by simp [hp], e⟩
    | some a =>
      obtain ⟨x, e, m⟩ := discardAll_spec l { s with mgmt := { s.mgmt with inForce := a } }
      refine ⟨x, e, ?_⟩
      obtain m | ⟨p, hp, e⟩ := m
      · exact .inr ⟨q, by simp, by rw [h, m]⟩
      · exact .inr ⟨p, by simp [hp], e⟩

theorem emptyQueues_evolves (s : State) : Evolves s (emptyQueues s) := by
  unfold emptyQueues
  obtain ⟨x, e, hx⟩ := discardAll_spec s.path.egressA s
  obtain ⟨y, e', hy⟩ := discardAll_spec s.path.forwardB (discardAll s.path.egressA s)
  rw [e', e] at *
  have my : y ∈ s.addresses := by
    obtain h | ⟨q, hq, h⟩ := hy
    · obtain h' | ⟨q, hq, h'⟩ := hx
      · exact mem_addresses.2 (.inl (h.trans h'))
      · exact mem_addresses.2 (.inr (.inr (.inr (.inl ⟨q, hq, by rw [h']; exact congrArg some h.symm⟩))))
    · exact mem_addresses.2 (.inr (.inr (.inr (.inr (.inl ⟨q, hq, h⟩)))))
  exact {
    queues := fun ⟨_, _, c⟩ => ⟨Nat.zero_le _, Nat.zero_le _, c⟩
    addresses := fun hs => addressLaw_of hs rfl fun z hz => by
      rw [mem_addresses] at hz
      obtain h | h | h | ⟨q, hq, -⟩ | ⟨q, hq, -⟩ | h := hz
      · exact .inl (by rw [h]; exact my)
      · exact .inl (mem_addresses.2 (.inr (.inl h)))
      · exact .inl (mem_addresses.2 (.inr (.inr (.inl h))))
      · cases hq
      · cases hq
      · exact .inl (mem_addresses.2 (.inr (.inr (.inr (.inr (.inr h)))))) }

theorem forwardCopy_evolves (port : Port) (copy : Option Telegram) (s : State) :
    Evolves s (forwardCopy port copy s) := by
  unfold forwardCopy
  split
  · exact forward_evolves _ _ _
  · exact .refl s

theorem zeroGuards_evolves (s : State) : Evolves s (zeroGuards s) where
  queues := fun ⟨a, b, c⟩ => ⟨a, b, by
    unfold zeroGuards
    rw [List.map_map]
    exact c⟩

theorem guardZeros_evolves (s : State) : Evolves s (guardZeros s) := by
  unfold guardZeros
  refine .trans ?_ (zeroGuards_evolves _)
  exact .foldl (fun t i => .ite (fun _ => handGuard_evolves _ _ _) fun _ => .refl t) _ _

theorem cancelDiverts_evolves (s : State) : Evolves s (cancelDiverts s) := by
  unfold cancelDiverts
  refine .foldl (fun t d => ?_) _ _
  split
  · exact answerDivert_evolves _ _ _
  · exact .refl t

theorem legsAtRest_evolves (s : State) : Evolves s (legsAtRest s) := by
  have leg : ∀ i : UnloaderIx, (legsAtRest s).legs[i] = Leg.atRest := fun i => replicate_get _ i
  have idle : ∀ i : UnloaderIx, ¬ (legsAtRest s).legs[i].state = .active := fun i c => by
    rw [leg i] at c; cases c
  have keeps : Keeps s (legsAtRest s) := by
    unfold legsAtRest
    refine .trans (t := { s with tables := { s.tables with
      routes := s.tables.routes.map fun x => x.map fun e => { e with users := 0 } } }) ?_ ?_
    · refine routes_keeps _ fun k e he => ?_
      simp only [Fin.getElem_fin, Vector.getElem_map, Option.mem_def, Option.map_eq_some_iff] at he
      obtain ⟨e', he', rfl⟩ := he
      exact .inr ⟨e', he', rfl⟩
    · refine legs_keeps_from (Evolves.refl _).toKeeps _ (fun _ i => ?_) fun i h => ?_
      · simp only [Fin.getElem_fin, Vector.getElem_replicate]
        decide
      · simp only [Fin.getElem_fin, Vector.getElem_replicate] at h
        cases h
  refine { keeps with grants := fun hs => ?_ }
  refine ⟨hs.1, ⟨fun k e he => ?_, fun i c => absurd c (idle i)⟩,
    limits_of (s := s) rfl rfl (fun i c => absurd c (idle i)) (fun i _ => by rw [leg i]; rfl) hs.2.2⟩
  simp only [legsAtRest, Fin.getElem_fin, Vector.getElem_map, Option.mem_def, Option.map_eq_some_iff] at he
  obtain ⟨e', he', rfl⟩ := he
  obtain ⟨-, x2, x3⟩ := hs.2.1.1 k e' he'
  refine ⟨?_, x2, x3⟩
  symm
  unfold State.legsOn
  rw [List.countP_eq_zero]
  intro i _ c
  simp only [Bool.and_eq_true, beq_iff_eq] at c
  exact idle i c.1

theorem restartSegregation_evolves (s : State) : Evolves s (restartSegregation s) where
  timers _ d r hr := by
    simp only [restartSegregation, Fin.getElem_fin, Vector.getElem_map, Option.mem_def,
      Option.map_eq_some_iff] at hr
    obtain ⟨_, _, rfl⟩ := hr
    exact stopped_timerLaw

theorem restartBlocks_evolves (s : State) : Evolves s (restartBlocks s) := by
  unfold restartBlocks
  dsimp only
  refine .trans ?_ (notices_evolves _ _)
  refine .trans ?_ (setCursor_evolves _ _)
  refine .trans ?_ (clearCounters_evolves _)
  refine .trans ?_ (restartWatch_evolves _)
  refine .trans ?_ (restartWeighing_evolves _)
  refine .trans ?_ (restartTracker_evolves _)
  exact .trans (legsAtRest_evolves _) (restartSegregation_evolves _)

theorem restartPart_evolves (q : Request) (copy : Option Telegram) (s : State) :
    Evolves s (restartPart q copy s) := by
  unfold restartPart
  refine .trans ?_ (restartBlocks_evolves _)
  refine .trans ?_ (cancelDiverts_evolves _)
  refine .trans ?_ (guardZeros_evolves _)
  refine .trans ?_ (forwardCopy_evolves _ _ _)
  exact .trans (emptyQueues_evolves _) (reply_evolves _ _ _ _)

theorem takeRestart_evolves (q : Request) (copy : Option Telegram) (s : State) :
    Evolves s (takeRestart q copy s) := by
  unfold takeRestart
  split
  · exact .trans (reply_evolves _ _ _ _) (forwardCopy_evolves _ _ _)
  · exact restartPart_evolves _ _ _

end Sys2Proof.Machine
end

