-- ==== Sys2Proof/Laws/PathLaws.lean ====
section
/-!
SUPPORT. The laws through the telegram path (Chapter 8), the running of the timers, and power-on.
-/

namespace Sys2Proof.Machine

/-! ### Arrival and handling (R163 to R167) -/

theorem arrive_evolves {port : Port} {t : Telegram} {handle : State → State} {s : State}
    (h : Evolves s (handle s)) : Evolves s (arrive port t handle s) := by
  unfold arrive
  split
  · exact countCheckError_evolves _ _
  · split
    · exact countMisuse_evolves _
    · exact h

theorem handSample_evolves (t : Telegram) (s : State) : Evolves s (handSample t s) := by
  unfold handSample
  split
  · exact takeSample_evolves _ _ _ _
  · exact .refl s

theorem handleSample_evolves (port : Port) (t : Telegram) (s : State) :
    Evolves s (handleSample port t s) := by
  unfold handleSample
  refine .trans ?_ (forward_evolves _ _ _)
  split
  · exact countCheckError_evolves _ _
  · cases port
    · exact .refl s
    · exact handSample_evolves _ _

theorem handleFeed_evolves (t : Telegram) (s : State) : Evolves s (handleFeed t s) := by
  unfold handleFeed
  split
  · exact takeFeed_evolves _ _ _
  · exact feedNoLeg_evolves _ _

theorem handleDivert_evolves (t : Telegram) (s : State) : Evolves s (handleDivert t s) := by
  unfold handleDivert
  split
  · exact takeDivert_evolves _ _ _ _
  · exact forward_evolves _ _ _

theorem handleOrderA_evolves (t : Telegram) (s : State) : Evolves s (handleOrderA t s) := by
  unfold handleOrderA
  split
  · exact forward_evolves _ _ _
  · split
    · split
      · exact countCheckError_evolves _ _
      · unfold handleGoverned
        split
        · split
          · exact answer_evolves _ _ _ _ _
          · exact handleFeed_evolves _ _
        · split
          · exact answer_evolves _ _ _ _ _
          · exact handleDivert_evolves _ _
    · exact forward_evolves _ _ _

theorem handleOrder_evolves (port : Port) (t : Telegram) (s : State) : Evolves s (handleOrder port t s) := by
  cases port
  · exact handleOrderA_evolves _ _
  · exact forward_evolves _ _ _

/-- Every service of a request evolves. -/
def Service.Sound (f : Service) : Prop := ∀ q copy s, Evolves s (f q copy s)

theorem served_sound {f : Request → State → State} (h : ∀ q s, Evolves s (f q s)) :
    (served f).Sound := fun q copy s => .trans (h q s) (forwardCopy_evolves q.port copy (f q s))

theorem handleRequest_evolves {serve : Service} (h : serve.Sound) (port : Port) (t : Telegram) (s : State) :
    Evolves s (handleRequest serve port t s) := by
  unfold handleRequest
  split
  · exact h _ _ _
  · split
    · exact h _ _ _
    · exact forward_evolves _ _ _

theorem requestArrives_evolves {serve : Service} (h : serve.Sound) (port : Port) (m : Message) (code : Nat)
    (s : State) : Evolves s (requestArrives port m code serve s) :=
  arrive_evolves (handleRequest_evolves h _ _ _)

theorem serveByCode_sound : serveByCode.Sound := by
  intro q copy s
  suffices h : ∀ f, f = serveByCode q → Evolves s (f copy s) from h _ rfl
  intro f hf
  unfold serveByCode at hf
  split at hf <;> subst hf
  · exact served_sound takeStatus_evolves q copy s
  · exact served_sound takeTableRead_evolves q copy s
  · exact served_sound takeTableWrite_evolves q copy s
  · exact served_sound takeLegRead_evolves q copy s
  · exact served_sound takeLegStart_evolves q copy s
  · exact served_sound takeLegStop_evolves q copy s
  · exact served_sound takeLegClear_evolves q copy s
  · exact served_sound takeSetAllocator_evolves q copy s
  · exact served_sound takeBinReset_evolves q copy s
  · exact served_sound takeReadAccounts_evolves q copy s
  · exact served_sound takeSnapshotLot_evolves q copy s
  · exact served_sound takeReadSnapshot_evolves q copy s
  · exact served_sound takeCalibrate_evolves q copy s
  · exact served_sound takeFlagsRead_evolves q copy s
  · exact served_sound takeFlagsClear_evolves q copy s
  · exact served_sound takeNoticeMask_evolves q copy s
  · exact served_sound takeBulkOpen_evolves q copy s
  · exact served_sound takeBulkData_evolves q copy s
  · exact served_sound takeCommission_evolves q copy s
  · exact takeRestart_evolves q copy s
  · exact served_sound takeUnknown_evolves q copy s

theorem classify_evolves (port : Port) (t : Telegram) (s : State) : Evolves s (classify port t s) := by
  unfold classify
  split
  · exact handleSample_evolves _ _ _
  · exact handleOrder_evolves _ _ _
  · exact handleRequest_evolves serveByCode_sound _ _ _
  all_goals exact forward_evolves _ _ _

theorem receiveOctets_evolves (port : Port) (os : List Octet) (s : State) :
    Evolves s (receiveOctets port os s) := by
  unfold receiveOctets
  split
  · exact arrive_evolves (classify_evolves _ _ _)
  · exact countCheckError_evolves _ _

/-! ### Transmission (R173, R191) -/

/-- A change of the queues and transmitters that brings no new address, and nothing into a full queue. -/
theorem path_evolves {s : State} (p : Path) (a : p.egressA.length ≤ s.path.egressA.length)
    (b : p.forwardB.length ≤ s.path.forwardB.length)
    (g : (s.path.guardB.map (·.unloader)).Nodup → (p.guardB.map (·.unloader)).Nodup)
    (sub : ∀ x ∈ State.addresses { s with path := p }, x ∈ s.addresses) :
    Evolves s { s with path := p } where
  queues := fun ⟨x, y, z⟩ => ⟨Nat.le_trans a x, Nat.le_trans b y, g z⟩
  addresses hs := addressLaw_of hs rfl fun x hx => .inl (sub x hx)

theorem sendingOf_takesForce (s : State) (q : Queued) : (s.sendingOf q).takesForce = q.takesForce := by
  cases q <;> rfl

/-- The head of a queue in transmission brings the addresses that it brought while it waited. -/
theorem sendingOf_brings {s : State} {q : Queued} {y : Sending} {x : Addresses} (hy : y ∈ some (s.sendingOf q))
    (e : y.takesForce = some x) : q.takesForce = some x := by
  rw [← sendingOf_takesForce s q, Option.mem_some.1 hy]
  exact e

theorem beginA_evolves (s : State) : Evolves s (beginA s) := by
  unfold beginA
  split
  · rename_i q rest hn hq
    exact path_evolves _ (by simp [hq]) (Nat.le_refl _) id fun x hx =>
      addresses_of_path s hx rfl rfl id (fun _ hp => egress_brings (hq ▸ List.mem_cons_of_mem _ hp))
        (fun _ => forward_brings (s := s))
        (fun _ hy e => egress_brings (hq ▸ List.mem_cons_self) (sendingOf_brings hy e))
        fun _ => sendingB_brings (s := s)
  · exact .refl s

theorem beginB_evolves (s : State) : Evolves s (beginB s) := by
  unfold beginB
  split
  · rename_i y rest _ hn hq
    refine path_evolves _ (Nat.le_refl _) (Nat.le_refl _) (fun h => ?_) fun x hx => ?_
    · rw [hq] at h
      exact (List.nodup_cons.1 h).2
    · refine addresses_of_path s hx rfl rfl id (fun _ => egress_brings (s := s)) (fun _ => forward_brings (s := s))
        (fun _ => sendingA_brings (s := s)) fun z hz e => ?_
      cases hz
      rw [sendingOf_takesForce] at e
      cases e
  · rename_i q rest hn hg hq
    exact path_evolves _ (Nat.le_refl _) (by simp [hq]) id fun x hx =>
      addresses_of_path s hx rfl rfl id (fun _ => egress_brings (s := s))
        (fun _ hp => forward_brings (hq ▸ List.mem_cons_of_mem _ hp)) (fun _ => sendingA_brings (s := s))
        fun _ hy e => forward_brings (hq ▸ List.mem_cons_self) (sendingOf_brings hy e)
  · exact .refl s

theorem beginSending_evolves (port : Port) (s : State) : Evolves s (beginSending port s) := by
  cases port
  · exact beginA_evolves s
  · exact beginB_evolves s

/-- The addresses of the telegram that has been sent come into force as its port becomes idle (R191). -/
theorem idled_evolves {s t : State} (x : Sending) (mem : ∀ a ∈ x.takesForce, a ∈ s.addresses)
    (h : Evolves s t) (same : s.AddressLaw → ∀ a ∈ s.addresses, a.valid ∧ t.tables.stations[a.own] = none) :
    Evolves s (t.takeForce x.takesForce) := by
  cases e : x.takesForce with
  | none => exact h
  | some a =>
    exact { h with
      addresses := fun hs => addressLaw_of (h.addresses hs) rfl fun y hy => by
        rw [mem_addresses] at hy
        obtain c | c := hy
        · subst c; exact .inr (same hs y (mem y e))
        · exact .inl (mem_addresses.2 (.inr c)) }

theorem idleA_evolves (s : State) : Evolves s s.idleA :=
  path_evolves _ (Nat.le_refl _) (Nat.le_refl _) id fun _ hx =>
    addresses_of_path s hx rfl rfl id (fun _ => egress_brings (s := s)) (fun _ => forward_brings (s := s))
      (fun _ hy => nomatch hy) fun _ => sendingB_brings (s := s)

theorem idleB_evolves (s : State) : Evolves s s.idleB :=
  path_evolves _ (Nat.le_refl _) (Nat.le_refl _) id fun _ hx =>
    addresses_of_path s hx rfl rfl id (fun _ => egress_brings (s := s)) (fun _ => forward_brings (s := s))
      (fun _ => sendingA_brings (s := s)) fun _ hy => nomatch hy

theorem endSending_evolves (port : Port) (s : State) : Evolves s (endSending port s) := by
  unfold endSending
  cases port
  · dsimp only
    split
    · rename_i x hx
      refine .trans ?_ (beginA_evolves _)
      exact idled_evolves x (fun a ha => mem_addresses.2
        (.inr (.inr (.inr (.inr (.inr (.inl ⟨x, hx, ha⟩))))))) (idleA_evolves s) fun hs a ha => hs a ha
    · exact .refl s
  · dsimp only
    split
    · rename_i x hx
      refine .trans ?_ (beginB_evolves _)
      exact idled_evolves x (fun a ha => mem_addresses.2
        (.inr (.inr (.inr (.inr (.inr (.inr ⟨x, hx, ha⟩))))))) (idleB_evolves s) fun hs a ha => hs a ha
    · exact .refl s

/-! ### The supply and the running of the timers -/

theorem whenOn_evolves {act : State → State} {s : State} (h : Evolves s (act s)) :
    Evolves s (whenOn act s) := by
  unfold whenOn
  split
  · exact h
  · exact .refl s

theorem later_timerLaw {r : DiverterRecord} (h : r.TimerLaw) : r.later.TimerLaw := by
  obtain ⟨h1, h2⟩ := h
  refine ⟨?_, ?_⟩
  · unfold DiverterRecord.later
    rw [h1]
    cases r.holdTimer <;> rfl
  · intro t ht
    simp only [DiverterRecord.later, Option.mem_def, Option.map_eq_some_iff] at ht
    obtain ⟨u, _, rfl⟩ := ht
    exact Nat.min_le_right _ _

theorem runTimers_evolves (s : State) : Evolves s (runTimers s) where
  allocator := fun ⟨a, b, c, d, e⟩ => ⟨a, b, c, d, Nat.le_trans (Nat.sub_le _ _) e⟩
  timers := fun hs d r hr => by
    simp only [runTimers, Fin.getElem_fin, Vector.getElem_map, Option.mem_def, Option.map_eq_some_iff] at hr
    obtain ⟨x, hx, rfl⟩ := hr
    exact later_timerLaw (hs d x hx)

/-- A millisecond without a command keeps every law, and only puts expiries in the queue. -/
theorem tick_evolves (s : State) : Evolves { s with pending := (tick s).pending } (tick s) := by
  unfold tick
  split
  · exact .refl s
  · obtain ⟨k, g⟩ := runTimers_evolves s
    exact ⟨{ k with pending := rfl, power := k.power }, g⟩

end Sys2Proof.Machine
end

