-- ==== Sys2Proof/Laws/Serving.lean ====
section
/-!
SUPPORT. How a request reaches its meaning: what a request with the ring it needs and with its parameters comes
to, once for all twenty codes (R165, R178 to R181).
-/

namespace Sys2Proof.Machine

/-- A request as management takes it, from a message and a code. -/
def requestTaken (port : Port) (m : Message) (code : Nat) : Request := ⟨port, m.source, word code, m.words⟩

/-- A telegram in range that is no misuse is handled (R163, R164). -/
theorem arrive_handled {port : Port} {t : Telegram} {handle : State → State} {s : State}
    (h : t.inRange = true) (n : s.misused t = false) : arrive port t handle s = handle s := by
  unfold arrive
  rw [h, n]
  rfl

theorem whenOn_on {act : State → State} {s : State} (h : s.power = .on) : whenOn act s = act s := by
  unfold whenOn
  rw [h]

theorem whenOn_off {act : State → State} {s : State} (h : s.power = .off) : whenOn act s = s := by
  unfold whenOn
  rw [h]

theorem messageTelegram_inRange (m : Message) (k : Kind) (first : List Word) :
    (messageTelegram m k first).inRange = m.wellFormed first.length := by
  unfold Telegram.inRange Message.wellFormed messageTelegram
  simp only [List.length_append]
  rw [Bool.and_comm]

/-- A request that passes reception reaches its handling (R163 to R165). -/
theorem requestArrives_handled {port : Port} {m : Message} {code : Nat} {serve : Service} {s : State}
    (h : s.passes 1 m) : whenOn (requestArrives port m code serve) s =
      handleRequest serve port (messageTelegram m .request [word code]) s := by
  obtain ⟨on, wf, src⟩ := h
  rw [whenOn_on on]
  unfold requestArrives
  rw [arrive_handled]
  · rw [messageTelegram_inRange]; exact wf
  · simp [State.misused, messageTelegram, src]

/-- A request for the part is served (R165). -/
theorem requestArrives_own {port : Port} {m : Message} {code : Nat} {serve : Service} {s : State}
    (h : s.addressed m) : whenOn (requestArrives port m code serve) s =
      serve (requestTaken port m code) none s := by
  rw [requestArrives_handled h.1]
  unfold handleRequest
  rw [if_pos (by exact h.2)]
  rfl

/-- The ring of a request is that of its message (R180). -/
theorem effectiveRing_taken (port : Port) (m : Message) (code : Nat) (s : State) :
    s.effectiveRing (requestTaken port m code) = s.ringOfMessage m := by
  unfold State.effectiveRing State.ringOfMessage Request.claimedRing State.ringCeiling requestTaken
  congr 1
  cases m.words with
  | nil => rfl
  | cons w ws =>
    simp only [List.head?_cons]
    by_cases h0 : w = 0
    · subst h0; rfl
    · by_cases h1 : w = 1
      · subst h1; rfl
      · have a : w.toNat ≠ 0 := fun c => h0 (BitVec.eq_of_toNat_eq (by simpa using c))
        have b : w.toNat ≠ 1 := fun c => h1 (BitVec.eq_of_toNat_eq (by simpa using c))
        rw [if_neg (by rintro (h | h); exacts [h0 h, h1 h]), if_neg a, if_neg b]

theorem params_taken (port : Port) (m : Message) (code k : Nat) :
    (requestTaken port m code).at k = paramAt m k := by
  simp [Request.at, Request.params, paramAt, requestTaken]

/-- The first two checks pass: the request's own rule decides (R181). -/
theorem checked_passes {port : Port} {m : Message} {code needed : Nat} {layout : List Group}
    {act : State → State} {s : State} (ring : s.ringOfMessage m ≤ needed)
    (here : firstMissing layout (m.words.length - 1) 1 = none) :
    checked (requestTaken port m code) needed layout act s = act s := by
  unfold checked refusal
  rw [effectiveRing_taken, if_neg (by omega)]
  have : (requestTaken port m code).params.length = m.words.length - 1 := by
    simp [Request.params, requestTaken]
  rw [this, here]

/-- A REPLY to a request as its message gives it (R178). -/
theorem reply_taken (port : Port) (m : Message) (code : Nat) (r : Result) (data : List Word) (s : State) :
    reply (requestTaken port m code) r data s = replied port m code r.code data s := rfl

/-- Parameters of one word each are present when there are as many words (R179). -/
theorem firstMissing_words {n available : Nat} (h : n ≤ available) (position : Nat) :
    firstMissing (List.replicate n oneField) available position = none := by
  induction n generalizing available position with
  | zero => rfl
  | succ n ih =>
    rw [List.replicate_succ, firstMissing, if_neg (by simp [oneField]; omega)]
    exact ih (by simp [oneField]; omega) _

/-- A request for the part with the ring and the parameters it needs, each of one word, gets the checks and the
effect of its own rule (R181). -/
theorem served_own {port : Port} {m : Message} {code needed n : Nat} {f act : Request → State → State}
    {s : State} (h : s.serves m needed n)
    (hf : ∀ q s, f q s = checked q needed (List.replicate n oneField) (act q) s) :
    whenOn (requestArrives port m code (served f)) s = act (requestTaken port m code) s := by
  rw [requestArrives_own h.1.1]
  show f _ s = _
  rw [hf, checked_passes h.1.2 (firstMissing_words (by have := h.2; omega) _)]

/-- An index that a number in range names. -/
theorem ixOf_num {n k : Nat} (i : Fin n) (h : k = num i) : ixOf n k = some i := by
  subst h
  unfold ixOf num
  rw [dif_pos ⟨by omega, by omega⟩]
  simp

/-- No index is named by a number out of range. -/
theorem ixOf_none {n k : Nat} (h : k = 0 ∨ n < k) : ixOf n k = none := by
  unfold ixOf
  rw [dif_neg (by omega)]

theorem next_congr {s t : State} (h : s = t) :
    (Host.Outcome.next s : Host.Outcome State Fault Refusal) = .next t := by rw [h]

/-- A TABLE WRITE with the ring and the words it needs is answered as the write of its entry is (R1, R184). -/
theorem tableWrite_served {port : Port} {m : Message} {s : State} {t : Table} (h : s.addressed m)
    (ht : tableOf (selectorOf (paramAt m 0)) = some t) (ring : s.ringOfMessage m ≤ t.ring)
    (here : firstMissing (writeLayout (some t) (m.words.drop 1)) (m.words.length - 1) 1 = none) (w : Written)
    (hw : writeEntry t (indexOf (paramAt m 0)) (actionOf (paramAt m 0)) (m.words.drop 2) s = w) :
    exec (.tableWrite port m) s = .next (replied port m 3 w.result.code w.data w.state) := by
  subst hw
  show Host.Outcome.next (whenOn (requestArrives port m 3 (served takeTableWrite)) s) = _
  rw [requestArrives_own h]
  refine next_congr ?_
  have e0 : (requestTaken port m 3).table = some t := by
    unfold Request.table; rw [params_taken]; exact ht
  show takeTableWrite _ s = _
  unfold takeTableWrite
  rw [e0, show (requestTaken port m 3).params = m.words.drop 1 from rfl]
  have : ringOf (some t) = t.ring := rfl
  rw [this, checked_passes ring here]
  dsimp only
  rw [params_taken, show (requestTaken port m 3).contents = m.words.drop 2 by
    unfold Request.contents Request.params requestTaken; simp]
  exact reply_taken _ _ _ _ _ _

/-- A DELETE needs the table word alone (R161). -/
theorem firstMissing_delete {t : Table} {m : Message} (h : actionOf (paramAt m 0) = 2) (hl : 2 ≤ m.words.length) :
    firstMissing (writeLayout (some t) (m.words.drop 1)) (m.words.length - 1) 1 = none := by
  have : (m.words.drop 1).getD 0 0 = paramAt m 0 := by simp [paramAt]
  unfold writeLayout
  dsimp only
  rw [this, if_neg (by omega)]
  unfold firstMissing
  rw [if_neg (by simp [tableWordGroup]; omega)]
  rfl

end Sys2Proof.Machine
end

