-- ==== Sys2Proof/Laws/UnsureLaws.lean ====
section
/-!
SUPPORT. What a belt's entry into UNSURE does, said once (R96), and the belts of a cascade (R98).
-/

namespace Sys2Proof.Machine

/-! ### Closing the sources downstream (R89, R96) -/

theorem closeSource_belts (b : BeltIx) (p : Place) (s : State) (c : BeltIx) :
    (closeSource b p s).tracker.belts[c] = if c = b then s.tracker.belts[c].map (fun r =>
      { r with queue := mapSlug r.queue p fun y => y.lessOne r.position }) else s.tracker.belts[c] := by
  unfold closeSource
  split
  · rename_i h
    split
    · subst_vars; rw [h]; rfl
    · rfl
  · rename_i r h
    simp only [State.setBelt_belts, put_get]
    split
    · subst_vars; simp [h]
    · rfl

theorem closeSource_frame (b : BeltIx) (p : Place) (s : State) :
    closeSource b p s = { s with tracker := { s.tracker with belts := (closeSource b p s).tracker.belts } } := by
  unfold closeSource
  split <;> rfl

theorem closeHandOver_frame (h : HandOver) (s : State) :
    closeHandOver h s = { s with tracker := { s.tracker with belts := (closeHandOver h s).tracker.belts } } := by
  cases h
  · rfl
  · exact closeSource_frame _ _ s
  · rfl
  · rfl

theorem closeAll_frame (q : List Slug) (s : State) :
    q.foldl (fun t y => closeHandOver y.handOver t) s = { s with tracker := { s.tracker with
      belts := (q.foldl (fun t y => closeHandOver y.handOver t) s).tracker.belts } } := by
  induction q generalizing s with
  | nil => rfl
  | cons y q ih =>
    obtain ⟨v, hv⟩ : ∃ v, closeHandOver y.handOver s = { s with tracker := { s.tracker with belts := v } } :=
      ⟨_, closeHandOver_frame _ _⟩
    rw [List.foldl_cons, ih, hv]

/-- A slug after so many of its sources have closed at a belt position (R89). -/
def Slug.closedBy (y : Slug) (k : Nat) (m : Mark) : Slug :=
  { y with sources := y.sources - k, rear := if 0 < y.sources ∧ y.sources ≤ k then some m else y.rear }

theorem closedBy_zero (y : Slug) (m : Mark) : Slug.closedBy y 0 m = y := by
  unfold Slug.closedBy
  split
  · omega
  · rfl

theorem lessOne_closedBy (y : Slug) (k : Nat) (m : Mark) : Slug.closedBy (y.lessOne m) k m = Slug.closedBy y (k + 1) m := by
  unfold Slug.closedBy Slug.lessOne
  rcases y with ⟨pl, g, f, re, so, st, ho⟩
  simp only
  by_cases h0 : so = 0
  · simp [h0]
  · by_cases h1 : so = 1
    · simp [h1]
    · simp only [h0, h1, if_false]
      have : so - 1 - k = so - (k+1) := by omega
      rw [this]
      split <;> split <;> first | rfl | omega

/-- The closings of all that a queue holds downstream, on one belt. -/
theorem closeAll_belts (q : List Slug) (s : State) (c : BeltIx) :
    (q.foldl (fun t y => closeHandOver y.handOver t) s).tracker.belts[c] = s.tracker.belts[c].map fun r =>
      { r with queue := r.queue.map fun y => Slug.closedBy y (heldAt q c y.place) r.position } := by
  induction q generalizing s with
  | nil =>
    simp only [List.foldl_nil, heldAt, List.countP_nil, closedBy_zero]
    cases s.tracker.belts[c] <;> simp
  | cons x q ih =>
    rw [List.foldl_cons, ih]
    cases hx : x.handOver with
    | belt n p =>
      simp only [closeHandOver]
      rw [closeSource_belts]
      split
      · rename_i e
        subst e
        rw [Option.map_map]
        congr 1
        funext r
        simp only [Function.comp_def, mapSlug, List.map_map]
        congr 1
        apply List.map_congr_left
        intro y _
        simp only [heldAt, List.countP_cons, hx]
        by_cases hp : y.place = p
        · rw [if_pos hp, lessOne_closedBy, lessOne_place, if_pos (by simp [hp])]
        · rw [if_neg hp, if_neg (by simpa using fun h => hp h.symm), Nat.add_zero]
      · rename_i e
        congr 1
        funext r
        congr 1
        apply List.map_congr_left
        intro y _
        simp only [heldAt, List.countP_cons, hx]
        rw [if_neg (by simp; intro a; exact absurd a.symm e), Nat.add_zero]
    | _ =>
      simp only [closeHandOver]
      congr 1
      funext r
      congr 1
      apply List.map_congr_left
      intro y _
      simp only [heldAt, List.countP_cons, hx]
      rfl

/-! ### Entering UNSURE (R96) -/

/-- Steps 1 and 2 of R96. -/
theorem letsGo_drop (b : BeltIx) (s : State) : s.letsGo b (dropSources b (closeDownstream b s)) := by
  refine ⟨fun i => ?_, fun c hc => ?_⟩
  · unfold dropSources closeDownstream
    simp only [map_get]
    split
    · rfl
    · rw [closeAll_frame]
  · unfold dropSources closeDownstream
    simp only [map_get]
    split
    · rename_i h
      congr 1
      funext r
      congr 1
      apply List.map_congr_left
      intro y _
      unfold Slug.released
      simp only [h]
      rw [if_neg (by omega)]
      rfl
    · rename_i r h
      rw [closeAll_belts, Option.map_map]
      congr 1
      funext r'
      simp only [Function.comp_def, List.map_map]
      congr 1
      apply List.map_congr_left
      intro y _
      simp only [Slug.closedBy, Slug.released, h]
      rfl

theorem drop_frame (b : BeltIx) (s : State) : dropSources b (closeDownstream b s) =
    { s with tracker := (dropSources b (closeDownstream b s)).tracker } := by
  unfold dropSources closeDownstream
  split
  · rfl
  · rename_i r _
    obtain ⟨v, hv⟩ : ∃ v, r.queue.foldl (fun t y => closeHandOver y.handOver t) s
        = { s with tracker := { s.tracker with belts := v } } := ⟨_, closeAll_frame _ _⟩
    rw [hv]

/-- A belt enters UNSURE: its sources go, and one UNKNOWN slug is left (R96). -/
theorem enterUnsure_spec (b : BeltIx) (s : State) (r : BeltRecord) (h : s.tracker.belts[b] = some r) :
    s.letsGo b (enterUnsure b s) ∧ enterUnsure b s = { s with tracker := (enterUnsure b s).tracker }
    ∧ (enterUnsure b s).tracker.belts[b] = some { r with condition := .unsure, queue := [unknownSlug r.position] } := by
  obtain ⟨l1, l2⟩ := letsGo_drop b s
  have hb : ∃ q, (dropSources b (closeDownstream b s)).tracker.belts[b] = some { r with queue := q } := by
    unfold dropSources closeDownstream
    simp only [map_get, h]
    rw [closeAll_belts, h]
    exact ⟨_, rfl⟩
  obtain ⟨q, hb⟩ := hb
  have e : enterUnsure b s = (dropSources b (closeDownstream b s)).setBelt b
      (some { r with queue := [unknownSlug r.position], condition := .unsure }) := by
    unfold enterUnsure
    simp only [hb]
  rw [e]
  refine ⟨⟨l1, fun c hc => ?_⟩, ?_, put_get_same _ _ _⟩
  · rw [State.setBelt_belts, put_get_other _ _ hc]
    exact l2 c hc
  · rw [drop_frame]
    rfl

theorem enterUnsure_frame (b : BeltIx) (s : State) :
    enterUnsure b s = { s with tracker := (enterUnsure b s).tracker } := by
  unfold enterUnsure
  dsimp only
  rw [drop_frame]
  split <;> rfl

/-! ### Cascades (R98) -/

theorem cascadeNext_congr {s t : State} (tables : t.tables = s.tables) (seg : t.seg = s.seg) (b : BeltIx) :
    t.cascadeNext b = s.cascadeNext b := by
  unfold State.cascadeNext State.beltData State.beltStation State.diverterData State.diverterStation State.findStation
  rw [tables, seg]

/-- The next belt of a cascade is the belt that the outlet in force leads to. -/
theorem cascadeNext_iff (s : State) (b n : BeltIx) : s.cascadeNext b = some n ↔ s.flowsTo b n := by
  unfold State.cascadeNext State.flowsTo
  dsimp only
  cases hb : s.beltData b with
  | none => simp
  | some d =>
    simp only [Option.mem_def, Option.some.injEq, exists_eq_left']
    cases ho : d.outlet with
    | bin k => simp
    | belt k =>
      simp only [Outlet.belt.injEq, reduceCtorEq, false_and, exists_false, or_false]
      split
      · rename_i h
        simp only [Option.some.injEq]
        exact ⟨fun e => by subst e; exact ⟨h, rfl⟩, fun e => e.2⟩
      · rename_i h
        simp only [reduceCtorEq, false_iff, not_and]
        intro a e
        subst e
        exact h a
    | diverter k =>
      simp only [reduceCtorEq, Outlet.diverter.injEq, false_or, exists_eq_left']
      cases he : s.diverterData k with
      | none => simp
      | some e =>
        cases hr : s.seg.diverters[k] with
        | none => simp
        | some r =>
          simp only [Option.some.injEq, exists_eq_left']
          cases hp : r.position with
          | none => simp
          | some p =>
            simp only [Option.bind_some, DiverterData.outletAt, Option.some.injEq, exists_eq_left']
            cases hx : e.outlets[p.val]? with
            | none => simp
            | some x =>
              cases x with
              | bin m => simp
              | diverter m => simp
              | belt m =>
                simp only [Option.some.injEq, Outlet.belt.injEq]
                split
                · rename_i h
                  simp only [Option.some.injEq]
                  exact ⟨fun e => by subst e; exact ⟨h, rfl⟩, fun e => e.2⟩
                · rename_i h
                  simp only [reduceCtorEq, false_iff, not_and]
                  intro a e
                  subst e
                  exact h a

/-- A cascade from a belt sends the belts of a list UNSURE, in order: each the next of the one before, none of
them before in the cascade; and it stops only at its bound or where there is no next belt that is new. -/
theorem cascadeFrom_spec : ∀ (k : Nat) (b : BeltIx) (done : List BeltIx) (s : State),
    ∃ more : List BeltIx, (cascadeFrom k b done s).1 = more.foldl (fun t x => enterUnsure x t) s
      ∧ (cascadeFrom k b done s).2 = more.reverse ++ done ∧ more.length ≤ k
      ∧ (∀ x ∈ more, x ∉ done) ∧ more.Nodup
      ∧ (∀ j x y, (b :: more)[j]? = some x → (b :: more)[j + 1]? = some y → s.flowsTo x y)
      ∧ ∀ x, (b :: more).getLast? = some x → more.length = k ∨ ∀ y, s.flowsTo x y → y ∈ more ++ done := by
  intro k
  induction k with
  | zero => exact fun b done s => ⟨[], rfl, rfl, Nat.le_refl _, by simp, by simp, by simp, by simp⟩
  | succ k ih =>
    intro b done s
    unfold cascadeFrom
    split
    · rename_i h
      refine ⟨[], rfl, rfl, by simp, by simp, by simp, by simp, fun x hx => .inr fun y hy => ?_⟩
      simp only [List.getLast?_singleton, Option.some.injEq] at hx
      subst hx
      rw [(cascadeNext_iff s b y).2 hy] at h
      cases h
    · rename_i n h
      split
      · rename_i hd
        refine ⟨[], rfl, rfl, by simp, by simp, by simp, by simp, fun x hx => .inr fun y hy => ?_⟩
        simp only [List.getLast?_singleton, Option.some.injEq] at hx
        subst hx
        rw [(cascadeNext_iff s b y).2 hy, Option.some.injEq] at h
        subst h
        simpa using hd
      · rename_i hd
        obtain ⟨more, h1, h2, h3, h4, h5, h6, h7⟩ := ih n (n :: done) (enterUnsure n s)
        have flows : ∀ x y, (enterUnsure n s).flowsTo x y ↔ s.flowsTo x y := fun x y => by
          rw [← cascadeNext_iff, ← cascadeNext_iff]
          rw [cascadeNext_congr (s := s) (by rw [enterUnsure_frame]) (by rw [enterUnsure_frame])]
        refine ⟨n :: more, h1, by rw [h2]; simp, by simpa using h3, ?_, ?_, ?_, ?_⟩
        · intro x hx
          rcases List.mem_cons.1 hx with e | e
          · subst e; simpa using hd
          · exact fun c => h4 x e (List.mem_cons_of_mem _ c)
        · exact List.nodup_cons.2 ⟨fun c => h4 n c (List.mem_cons_self ..), h5⟩
        · intro j x y hx hy
          cases j with
          | zero =>
            simp only [List.getElem?_cons_zero, List.getElem?_cons_succ, Option.some.injEq] at hx hy
            subst hx hy
            exact (cascadeNext_iff s _ _).1 h
          | succ j =>
            rw [List.getElem?_cons_succ] at hx hy
            exact (flows x y).1 (h6 j x y hx hy)
        · intro x hx
          rw [List.getLast?_cons_cons] at hx
          obtain e | e := h7 x hx
          · exact .inl (by simp [e])
          · refine .inr fun y hy => ?_
            have := e y ((flows x y).2 hy)
            simp only [List.mem_append, List.mem_cons] at this ⊢
            tauto

end Sys2Proof.Machine
end

