-- ==== Sys2Proof/Laws/SlugLaws.lean ====
section
/-!
SUPPORT. The tests that the tracker makes of a slug, in the words of the rules (R44, R80, R86, R87, R116).
-/

namespace Sys2Proof.Machine

theorem nearLoading_iff (y : Slug) (d : BeltData) (r : BeltRecord) : nearLoading d r y = true ↔ y.near d r.position := by
  unfold nearLoading Slug.near
  cases y.rear <;> simp

theorem incompatibleSlug_iff (s : State) (y : Slug) (lot : LotIx) (bin : BinIx) :
    s.incompatibleSlug y lot bin = true ↔ ¬ s.goesWith y lot bin := by
  unfold State.incompatibleSlug State.goesWith
  cases y.grain with
  | none => simp
  | some h => simp only [Option.mem_def, Option.some.injEq, exists_eq_left', Bool.or_eq_true,
      Bool.not_eq_true', bne_iff_ne, not_and_or, Bool.not_eq_true, ne_eq]

theorem joins_iff (s : State) (d : BeltData) (r : BeltRecord) (g : Grain) (y : Slug) :
    s.joins d r g y = true ↔ s.goesWith y g.lot g.bin ∧ y.near d r.position ∧ y.sources < 7 := by
  rw [← nearLoading_iff]
  unfold State.joins State.goesWith
  cases y.grain with
  | none => simp
  | some h =>
    have bound : decide (y.sources < Config.maxSources) = true ↔ y.sources < 7 := decide_eq_true_iff
    simp only [Bool.and_eq_true, beq_iff_eq, bound, and_assoc, Option.mem_def, Option.some.injEq, exists_eq_left']

theorem dueToRetire_iff (y : Slug) (d : BeltData) (r : BeltRecord) : dueToRetire d r y = true ↔ y.due d r.position := by
  unfold dueToRetire Slug.due
  cases y.rear <;> simp

theorem stage_max_eq (y : Slug) (d : BeltData) (r : BeltRecord) :
    y.stage.max (stageAt d (frontDistance r y)) = y.stageThere d r.position := by
  unfold Slug.stageThere Stage.max stageAt frontDistance
  generalize (r.position - y.front).toNat = n
  cases y.stage <;> by_cases h1 : d.length ≤ n <;> by_cases h2 : d.length - d.guardLength ≤ n <;>
    simp only [h1, h2, if_true, if_false, Stage.code, or_true, reduceCtorEq, or_false] <;> rfl

theorem nextStep_iff (g : Grain) (b : BeltIx) (out : Outlet) : g.nextStep b = some out ↔ g.leads b out := by
  unfold Grain.nextStep Grain.leads
  generalize g.path = l
  induction l with
  | nil => simp
  | cons x l ih =>
    by_cases hx : x = b
    · subst hx
      simp only [List.dropWhile_cons, bne_self_eq_false]
      constructor
      · intro h
        refine ⟨[], l, rfl, by simp, ?_⟩
        cases l <;> simp_all
      · rintro ⟨before, after, e, hb, ho⟩
        cases before with
        | nil =>
          simp only [List.nil_append, List.cons.injEq, true_and] at e
          subst e
          cases l <;> simp_all
        | cons z before =>
          simp only [List.cons_append, List.cons.injEq] at e
          exact absurd (List.mem_cons.2 (.inl e.1)) hb
    · rw [List.dropWhile_cons, if_pos (by simpa using hx), ih]
      constructor
      · rintro ⟨before, after, e, hb, ho⟩
        exact ⟨x :: before, after, by rw [e]; rfl, by simp [hb, Ne.symm hx], ho⟩
      · rintro ⟨before, after, e, hb, ho⟩
        cases before with
        | nil => simp only [List.nil_append, List.cons.injEq] at e; exact absurd e.1 hx
        | cons z before =>
          simp only [List.cons_append, List.cons.injEq] at e
          exact ⟨before, after, e.2, fun c => hb (List.mem_cons_of_mem _ c), ho⟩

/-! ### The slugs of a queue by their places -/

/-- A change of the youngest slug of a queue whose places differ. -/
theorem mapSlug_last {q : List Slug} {y : Slug} (h : (q.map (·.place)).Nodup) (hy : q.getLast? = some y)
    (f : Slug → Slug) : mapSlug q y.place f = q.dropLast ++ [f y] := by
  obtain ⟨ys, rfl⟩ := List.getLast?_eq_some_iff.1 hy
  unfold mapSlug
  rw [List.dropLast_concat, List.map_append]
  rw [List.map_append] at h
  have := (List.nodup_append.1 h).2.2
  congr 1
  · rw [List.map_congr_left (g := id)]
    · simp
    · intro z hz
      rw [if_neg]; rfl
      exact this _ (List.mem_map_of_mem hz) _ (by simp)
  · simp

/-- The slug of a queue that stands at its own place, where the places differ. -/
theorem slugAt_of_mem {q : List Slug} (h : (q.map (·.place)).Nodup) {y : Slug} (hy : y ∈ q) : slugAt q y.place = some y := by
  unfold slugAt
  induction q with
  | nil => cases hy
  | cons x q ih =>
    rw [List.map_cons, List.nodup_cons] at h
    rcases List.mem_cons.1 hy with e | e
    · subst e; simp
    · rw [List.find?_cons_of_neg, ih h.2 e]
      simp only [beq_iff_eq]
      intro c
      exact h.1 (c ▸ List.mem_map_of_mem e)

theorem mapSlugOn_eq (s : State) (b : BeltIx) (r : BeltRecord) (hr : s.tracker.belts[b] = some r) (p : Place)
    (f : Slug → Slug) :
    s.mapSlugOn b p f = s.setBelt b (some { r with queue := mapSlug r.queue p f }) := by
  unfold State.mapSlugOn; simp only [hr]

end Sys2Proof.Machine
end

