-- ==== Sys2Proof/Laws/UseLaws.lean ====
section
/-!
SUPPORT. When a table entry is in use, said in the words of the rules: what refers to a station, a lot or a bin
(R5, R7, R13, R15, R20).
-/

namespace Sys2Proof.Machine

/-- A route references the stations that it names (R7). -/
theorem references_iff (e : Route) (k : StationKind) : e.references k = true ↔ e.names k := by
  cases k <;> simp [Route.references, Route.names]

/-- A station is used by an ACTIVE leg as its unloader, or by the leg's route (R7). -/
theorem activeReferences_iff (s : State) (k : StationKind) : s.activeReferences k = true ↔
    ∃ i : UnloaderIx, s.legs[i].state = .active ∧ ((∃ d, k = .unloader i d)
      ∨ (∀ j d, k ≠ .unloader j d) ∧ ∃ e ∈ s.legRoute s.legs[i], e.names k) := by
  unfold State.activeReferences State.activeLegs
  rw [List.any_eq_true]
  simp only [List.mem_filter, mem_allIx, true_and, beq_iff_eq]
  refine exists_congr fun i => and_congr_right fun _ => ?_
  cases k with
  | unloader j d =>
    simp
    exact eq_comm
  | belt b d | diverter b d =>
    simp only [reduceCtorEq, exists_false, false_or, ne_eq, not_false_eq_true, implies_true, true_and]
    cases s.legRoute s.legs[i] with
    | none => simp
    | some e => simp [references_iff]
  | supervisor | panel =>
    simp only [reduceCtorEq, exists_false, false_or, ne_eq, not_false_eq_true, implies_true, true_and]
    cases s.legRoute s.legs[i] with
    | none => simp
    | some e => simp [references_iff]

/-- A station write meets what is in use exactly where it is refused IN_USE (R5, R7). -/
theorem stationInUse_iff (s : State) (a : Addr) (new : Option StationEntry) :
    s.stationInUse a new = true ↔ s.writeMeetsUse a new := by
  unfold State.stationInUse State.writeMeetsUse
  rw [Bool.or_eq_true]
  refine or_congr ?_ ?_
  · cases s.tables.stations[a] with
    | none => simp
    | some x =>
      simp only [Option.mem_def, Option.some.injEq, exists_eq_left', Bool.or_eq_true, activeReferences_iff]
      refine or_congr ?_ Iff.rfl
      unfold State.routeReferences
      rw [List.any_eq_true]
      simp only [mem_allIx, true_and]
      refine exists_congr fun k => ?_
      cases s.tables.routes[k] <;> simp [references_iff]
  · cases new with
    | none => simp
    | some y =>
      simp only [Option.mem_def, Option.some.injEq, exists_eq_left', Bool.or_eq_true]
      have h1 : s.indexTaken a y.kind = true ↔
          ∃ b : Addr, b ≠ a ∧ ∃ z, s.tables.stations[b] = some z ∧ z.kind.sameIndex y.kind = true := by
        unfold State.indexTaken
        rw [List.any_eq_true]
        simp only [mem_allIx, true_and, Bool.and_eq_true, bne_iff_ne]
        refine exists_congr fun b => and_congr_right fun _ => ?_
        cases s.tables.stations[b] <;> simp
      have od : ∀ (k : StationKind) (n : DiverterIx), k.outletDiverter = some n ↔
          ∃ i d, k = .belt i d ∧ d.outlet = .diverter n := by
        intro k n
        cases k with
        | belt i d =>
          unfold StationKind.outletDiverter; dsimp only
          cases h : d.outlet <;> simp [h]
        | _ => simp [StationKind.outletDiverter]
      have h2 : s.alreadyServed a y.kind = true ↔
          ∃ b : Addr, b ≠ a ∧ ∃ z, s.tables.stations[b] = some z ∧
          ∃ i d j d' n, y.kind = .belt i d ∧ z.kind = .belt j d' ∧ d.outlet = .diverter n ∧ d'.outlet = .diverter n := by
        unfold State.alreadyServed
        cases ho : y.kind.outletDiverter with
        | none =>
          constructor
          · intro h; cases h
          · rintro ⟨b, hb, z, hz, i, d, j, d', n, e1, e2, e3, e4⟩
            rw [(od y.kind n).2 ⟨i, d, e1, e3⟩] at ho; cases ho
        | some n =>
          dsimp only
          obtain ⟨i, d, e1, e2⟩ := (od _ _).1 ho
          rw [List.any_eq_true]
          simp only [mem_allIx, true_and, Bool.and_eq_true, bne_iff_ne]
          refine exists_congr fun b => and_congr_right fun _ => ?_
          cases s.tables.stations[b] with
          | none => simp
          | some z =>
            simp only [beq_iff_eq, Option.some.injEq, exists_eq_left', od]
            constructor
            · rintro ⟨j, d', x, y⟩; exact ⟨i, d, j, d', n, e1, x, e2, y⟩
            · rintro ⟨i', d2, j, d', n', x1, x2, x3, x4⟩
              rw [e1] at x1; cases x1
              rw [e2] at x3; cases x3
              exact ⟨j, d', x2, x4⟩
      rw [h1, h2]
      constructor
      · rintro (⟨b, hb, z, hz, h⟩ | ⟨b, hb, z, hz, h⟩)
        · exact ⟨b, hb, z, hz, .inl h⟩
        · exact ⟨b, hb, z, hz, .inr h⟩
      · rintro ⟨b, hb, z, hz, h | h⟩
        · exact .inl ⟨b, hb, z, hz, h⟩
        · exact .inr ⟨b, hb, z, hz, h⟩

/-- A slug of some belt carries grain of a kind. -/
theorem anyGrain_iff (s : State) (p : Grain → Bool) :
    s.anyGrain p = true ↔ s.carriesGrain (fun g => p g = true) := by
  unfold State.anyGrain State.carriesGrain
  rw [List.any_eq_true]
  simp only [mem_allIx, true_and]
  refine exists_congr fun b => ?_
  cases s.tracker.belts[b] with
  | none => simp
  | some r =>
    simp only [Option.mem_def, Option.some.injEq, exists_eq_left', List.any_eq_true]
    refine exists_congr fun y => and_congr_right fun _ => ?_
    cases y.grain <;> simp

/-- Some leg is ACTIVE or ENDED and satisfies a condition. -/
theorem anyWorking_iff (s : State) (p : Leg → Bool) :
    s.anyWorking p = true ↔ ∃ i : UnloaderIx, s.legs[i].state ≠ .idle ∧ p s.legs[i] = true := by
  unfold State.anyWorking
  rw [List.any_eq_true]
  simp [mem_allIx]

/-- What refers to a lot (R13, R15). -/
theorem lotReferred_iff (s : State) (n : LotIx) : s.lotReferred n = true ↔
      ((∃ k : HoldIx, ∃ h ∈ s.tables.holds[k], h.lot = some n)
        ∨ (∃ k : BinIx, ∃ b ∈ s.tables.bins[k], b.lot = some n) ∨ s.carriesGrain (fun g => g.lot = n)
        ∨ ∃ i : UnloaderIx, s.legs[i].state ≠ .idle ∧ s.legs[i].lot = some n) := by
  unfold State.lotReferred
  rw [Bool.or_eq_true, Bool.or_eq_true, Bool.or_eq_true, anyGrain_iff, anyWorking_iff, List.any_eq_true,
    List.any_eq_true]
  simp only [mem_allIx, true_and, or_assoc]
  refine or_congr ?_ (or_congr ?_ (or_congr ?_ ?_))
  · refine exists_congr fun k => ?_
    cases s.tables.holds[k] <;> simp
  · refine exists_congr fun k => ?_
    cases s.tables.bins[k] <;> simp
  · simp
  · simp

/-- What makes a bin busy (R20, R22). -/
theorem binBusy_iff (s : State) (n : BinIx) : s.binBusy n = true ↔
    (∃ i : UnloaderIx, s.legs[i].state = .active ∧ s.legs[i].bin = some n) ∨ s.carriesGrain fun g => g.bin = n := by
  unfold State.binBusy State.activeLegs
  rw [Bool.or_eq_true, anyGrain_iff, List.any_eq_true]
  simp [mem_allIx]

/-- What keeps a bin from being deleted (R20). -/
theorem binInUse_iff (s : State) (n : BinIx) : s.binInUse n = true ↔
    (∃ k : RouteIx, ∃ e ∈ s.tables.routes[k], e.bin = n)
      ∨ (∃ i : UnloaderIx, s.legs[i].state ≠ .idle ∧ s.legs[i].bin = some n)
      ∨ s.carriesGrain fun g => g.bin = n := by
  unfold State.binInUse
  rw [Bool.or_eq_true, Bool.or_eq_true, anyGrain_iff, anyWorking_iff, List.any_eq_true]
  simp only [mem_allIx, true_and, or_assoc, beq_iff_eq]
  refine or_congr ?_ Iff.rfl
  refine exists_congr fun k => ?_
  cases s.tables.routes[k] <;> simp

end Sys2Proof.Machine
end

