-- ==== Sys2Proof/Tests/Slice0.lean ====
section
/-!
SUPPORT. Tests: what WellFormed refuses, worked examples of the manual, and a witness for the hypotheses of every
statement that has some. Expected values of the worked examples stand in the manual's own tables.
-/

namespace Sys2Proof.Tests

open Sys2Proof.Machine

-- One theorem after another: each waits for the kernel, and all of them at once would take a thread each.
set_option Elab.async false

/-! ### Small states -/

/-- A table with some entries. -/
def entries {α : Type} {n : Nat} (l : List (Fin n × α)) : Vector (Option α) n :=
  l.foldl (fun v p => put v p.1 (some p.2)) (Vector.replicate n none)

/-- An unloader's data with a rated cap, a base power, a specific power and a ramp step. -/
def unloaderData (cap base specific ramp : Nat) : UnloaderData :=
  ⟨cap, base, specific, ramp, 20, 600, 400, 40⟩

/-- A watch record that has heard its station. -/
def heard : WatchRecord := ⟨.heard, some 20, false, none, 0, ⟨false, false⟩, ⟨false, false⟩⟩

/-- A watch record whose station is SILENT, with a return due. -/
def silent : WatchRecord := ⟨.silent, none, true, none, 0, ⟨false, false⟩, ⟨false, false⟩⟩

/-- A watch record whose silence timer has run out. -/
def runOut : WatchRecord := { heard with timer := some 0 }

/-- A SURE belt record with a queue. -/
def sure (position : Mark) (travel : Word) (queue : List Slug) : BeltRecord :=
  ⟨position, some travel, some true, .sure, queue⟩

/-- The lots, holds and bins of the small quay: lot 1 of group 0, which bins 1 and 2 may take, and lot 2. -/
def tables : Tables where
  stations := entries
    [(10, ⟨3, 20, .unloader 0 (unloaderData 600 100 500 50)⟩), (11, ⟨3, 20, .unloader 1 (unloaderData 600 100 500 50)⟩),
      (20, ⟨3, 20, .belt 0 ⟨400, 1000, 150, 100, .diverter 0⟩⟩), (21, ⟨3, 20, .belt 1 ⟨600, 800, 200, 100, .bin 0⟩⟩),
      (30, ⟨3, 20, .diverter 0 ⟨[.belt 1, .bin 1], 10⟩⟩), (40, ⟨1, 0, .panel⟩)]
  routes := entries [(0, ⟨0, 0, [⟨0, 0⟩], 0, [0, 1], 0⟩)]
  lots := entries [(0, ⟨1, 0, 3#48, [], 0, 0⟩), (1, ⟨1, 0, 3#48, [], 0, 0⟩)]
  holds := entries [(0, ⟨1, 3, some 0, 1000000, 900, .freeDig, 0⟩)]
  bins := entries [(0, ⟨1000000, 1000, true, none, 0⟩), (1, ⟨1000000, 1000, false, none, 0⟩)]

/-- A small quay: unloader 1 loads belt 1, which diverter 1 leads to belt 2 and so to bin 1. -/
def quay : State := { State.reset with
  tables := tables
  watch := entries [(10, heard), (11, heard), (20, heard), (21, heard), (30, heard)]
  tracker := ⟨entries [(0, sure 0 1000 []), (1, sure 0 5000 [])], Vector.replicate 6 none⟩
  seg := ⟨entries [(0, ⟨some 0, none, none⟩)], none, 0⟩
  nv := { Nonvolatile.blank with slots := put Nonvolatile.blank.slots 0 (put (Vector.replicate 4 none) 0 (some 1000)) } }

/-- The leg of unloader 1 in a state, on hold 1 and route 1. -/
def legIn (state : LegState) (r g f : Nat) : Leg :=
  ⟨state, some 0, some 0, [0, 1], some 0, some 0, r, g, f, none, none,
    if state = .active then some .flowing else none, false, false⟩

/-- The small quay with leg 1 ACTIVE. -/
def working : State :=
  (quay.setLeg 0 (legIn .active 400 300 300)).setRoute 0 (some ⟨0, 0, [⟨0, 0⟩], 0, [0, 1], 1⟩)

/-- The small quay with leg 1 ENDED. -/
def ended : State := quay.setLeg 0 (legIn .ended 400 0 0)

/-- The state with its period timer at an end. -/
def periodEnd (s : State) : State := { s with alloc := { s.alloc with timeLeft := 0 } }

/-- The small quay without its supply. -/
def unpowered : State := { quay with power := .off }

/-- Grain of lot 1 bound for bin 1. -/
def grain (lot : LotIx) : Grain := ⟨lot, 0, [0, 1], 0⟩

/-- A slug with no source, at a place. -/
def slug (place : Place) (g : Option Grain) (rear : Option Mark) (sources : Nat) : Slug :=
  ⟨place, g, 0, rear, sources, .travelling, .absent⟩

/-- The state with the queue of belt 1. -/
def withQueue (s : State) (q : List Slug) : State := s.setBelt 0 (some (sure 100 1000 q))

/-- A message to the part from the commissioning station, whose words follow the code. -/
def ask (words : List Word) : Message := ⟨62, 1, 0, words⟩

/-- A message from a station to the supervisory controller. -/
def report (source : Addr) (seq : Octet) (words : List Word) : Message := ⟨2, source, seq, words⟩

/-- An order from the supervisory controller. -/
def order (dest : Addr) (words : List Word) : Message := ⟨dest, 2, 40, words⟩

/-- The state after a command, where it answers one. -/
def after (c : Instr) (s : State) : Option State :=
  match exec c s with
  | .next t => some t
  | _ => none

/-- A field of the state after a command. -/
def seen {α : Type} (c : Instr) (s : State) (f : State → α) : Option α := (after c s).map f

/-- A waiting telegram: a DIVERT order for diverter 1. -/
def divertTo (position : Word) : Telegram := ⟨30, 2, .order, 41, [2, position]⟩

/-! ### What WellFormed refuses -/

/-- The commands that carry a message whose payload the command gives no word of. -/
def wholeCommands (m : Message) : List Instr :=
  [.unloaderSample m, .beltSample m, .diverterSample m, .unknownRequest .a m]

/-- The commands that carry a message after one word. -/
def codedCommands (m : Message) : List Instr :=
  [.feedOrder m, .divertOrder m, .status .a m, .tableRead .a m, .tableWrite .a m, .legRead .a m, .legStart .a m,
    .legStop .a m, .legClear .a m, .setAllocator .a m, .binReset .a m, .readAccounts .a m, .snapshotLot .a m,
    .readSnapshot .a m, .calibrate .a m, .flagsRead .a m, .flagsClear .a m, .noticeMask .a m, .bulkOpen .a m,
    .bulkData .a m, .commission .a m, .restart .a m]

theorem test_wellFormed_refuses_source_zero :
    ∀ c ∈ wholeCommands ⟨1, 0, 0, []⟩ ++ codedCommands ⟨1, 0, 0, []⟩, c.wellFormed = false := by decide

theorem test_wellFormed_refuses_source_broadcast :
    ∀ c ∈ wholeCommands ⟨1, 63, 0, []⟩ ++ codedCommands ⟨1, 63, 0, []⟩, c.wellFormed = false := by decide

theorem test_wellFormed_refuses_long_payload :
    (∀ c ∈ wholeCommands ⟨1, 1, 0, List.replicate 13 0⟩, c.wellFormed = false)
    ∧ ∀ c ∈ codedCommands ⟨1, 1, 0, List.replicate 12 0⟩, c.wellFormed = false := by decide

theorem test_wellFormed_refuses_known_code :
    Instr.wellFormed (.unknownRequest .a ⟨62, 1, 0, [20]⟩) = false
    ∧ Instr.wellFormed (.unknownRequest .a ⟨62, 1, 0, [1]⟩) = false := by decide

theorem test_wellFormed_accepts_full_payload :
    (∀ c ∈ wholeCommands ⟨1, 62, 0, List.replicate 12 0⟩, c.wellFormed = true)
    ∧ ∀ c ∈ codedCommands ⟨1, 1, 0, List.replicate 11 0⟩, c.wellFormed = true := by decide

/-! ### Worked examples: the line (R160, R162) -/

/-- The nine octets 31h to 39h give the check 29B1h (R162). -/
theorem test_check_example :
    check [0x31, 0x32, 0x33, 0x34, 0x35, 0x36, 0x37, 0x38, 0x39] = 0x29B1#16 := by decide +kernel

/-- The octets of a FEED 300 from 2 to 14: destination, source, kind ORDER, sequence, length, words (R160). -/
theorem test_order_octets :
    (Telegram.wire ⟨14, 2, .order, 7, [1, 300]⟩).take 9 = [14, 2, 2, 7, 2, 0, 1, 1, 44] := by decide

/-! ### Worked examples: the allocator (sections 3.10 and 3.11) -/

/-- A leg of section 3.10. -/
def leg310 (hold : HoldIx) (belts : List BeltIx) (r g : Nat) : Leg :=
  ⟨.active, some hold, none, belts, some 0, none, r, g, g, none, none, none, false, false⟩

/-- The quay of section 3.10, just before the expiry. -/
def quay310 : State := { State.reset with
  tables := { Tables.empty with
    stations := entries
      [(11, ⟨3, 20, .unloader 0 (unloaderData 600 110 1200 50)⟩), (12, ⟨3, 20, .unloader 1 (unloaderData 600 110 1200 50)⟩),
        (13, ⟨3, 20, .unloader 2 (unloaderData 800 140 1100 60)⟩),
        (20, ⟨3, 0, .belt 0 ⟨400, 1000, 0, 0, .bin 0⟩⟩), (21, ⟨3, 0, .belt 1 ⟨400, 800, 0, 0, .bin 0⟩⟩),
        (22, ⟨3, 0, .belt 2 ⟨400, 800, 0, 0, .bin 0⟩⟩), (23, ⟨3, 0, .belt 3 ⟨400, 1000, 0, 0, .bin 0⟩⟩)]
    holds := entries [(0, ⟨1, 1, some 0, 0, 900, .freeDig, 0⟩), (1, ⟨1, 2, some 0, 0, 900, .sweep, 0⟩)] }
  tracker := { State.reset.tracker with
    belts := entries [(0, sure 0 0 []), (1, sure 0 0 []), (2, sure 0 0 []), (3, sure 0 0 [])] }
  legs := put (put (put State.reset.legs 0 (leg310 0 [0, 2] 600 560)) 1 (leg310 1 [1, 2] 500 300)) 2
    (leg310 0 [3] 800 700)
  alloc := { State.reset.alloc with budgetSet := 1500, budgetInUse := 2500, timeLeft := 0 } }

/-- Section 3.10: the three grants, and the three guard FEED orders in leg order. -/
theorem test_expiry_belts_and_power :
    seen .allocationPeriodExpiry quay310 (fun t => (t.legs[0].g, t.legs[1].g, t.legs[2].g, t.legs[2].f,
      t.path.guardB.map (·.setpoint))) = some (362, 144, 482, 482, [362, 144, 482]) := by decide +kernel

/-- Section 3.11: a budget of 300 kW below the base power grants nothing, and marks the legs it cuts. -/
theorem test_expiry_below_base_power :
    seen .allocationPeriodExpiry { quay310 with alloc := { quay310.alloc with budgetSet := 300 } }
      (fun t => (t.legs[0].g, t.legs[1].powerShort, t.notices.flags.powerShort)) = some (0, true, true) := by
  decide +kernel

/-! ### Worked examples: weighing (section 6.8) -/

/-- Unloader 2 of section 6.8 with its last count and remainder. -/
def quay68 (last : Option Word) (remainder residue : Nat) : State := { State.reset with
  tables := { Tables.empty with
    lots := entries [(3, ⟨1, 0, 0, [0], 40000, 0⟩)]
    holds := entries [(4, ⟨1, 3, some 3, 0, 900, .freeDig, 40000⟩)]
    bins := entries [(11, ⟨1000000, 0, true, some 3, 40000⟩)] }
  legs := put State.reset.legs 1 { Leg.atRest with
    state := .active, hold := some 4, lot := some 3, bin := some 11, belts := [0], route := some 6 }
  weighing := { Weighing.atPowerOn with
    weighers := put Weighing.atPowerOn.weighers 1 ⟨last, remainder, 0, 0, residue⟩
    pool := put Weighing.atPowerOn.pool 0 [⟨1, 3, 11, 40000⟩] }
  nv := { Nonvolatile.blank with
    slots := put Nonvolatile.blank.slots 1 (put (put (Vector.replicate 4 none) 0 (some 2400)) 1 (some 2350)) } }

/-- Section 6.8, counts 12 and 40: 112 kg onto the line with 800 g kept, and a tonne from a residue of 962. -/
theorem test_weigh_books :
    ((weigh 1 12 (quay68 (some 65500) 0 850)).weighing.weighers[1]
      = { lastCount := some 12, remainder := 800, glitches := 0, pendingTonnes := 0, residue := 962 })
    ∧ (weigh 1 12 (quay68 (some 65500) 0 850)).weighing.pool[0] = [⟨1, 3, 11, 40112⟩]
    ∧ (weigh 1 40 (quay68 (some 12) 800 962)).weighing.weighers[1].pendingTonnes = 1 := by decide +kernel

/-- Section 6.8, count 30 040: a glitch of 70 500 kg, which keeps the remainder of 600 g. -/
theorem test_weigh_glitch :
    (weigh 1 30040 (quay68 (some 40) 600 28)).weighing.weighers[1]
      = { lastCount := some 30040, remainder := 600, glitches := 1, pendingTonnes := 0, residue := 28 } := by
  decide +kernel

/-! ### Worked examples: tracking (section 4.7) -/

/-- Section 4.7, event 2: belt 1 reports 1420, moves to 420, and its slug hands over to a slug on belt 3. -/
theorem test_belt_sample_hands_over :
    seen (.beltSample (report 20 1 [1420, 1])) { State.reset with
        tables := { Tables.empty with
          stations := entries [(20, ⟨3, 20, .belt 0 ⟨400, 1000, 150, 0, .belt 2⟩⟩),
            (22, ⟨3, 20, .belt 2 ⟨600, 800, 200, 100, .diverter 0⟩⟩)] }
        watch := entries [(20, heard), (22, heard)]
        tracker := ⟨entries [(0, sure 0 1000 [slug 0 (some (grain 0)) none 1]), (2, sure 0 5000 [])],
          Vector.replicate 6 none⟩ }
      (fun t => t.tracker.belts[(0 : BeltIx)].map fun r => (r.position, r.queue.map fun y => (y.stage, y.handOver)))
      = some (some (420, [(.crossing, .belt 2 0)])) := by decide +kernel

/-- A travel of 30 001 pulses is a glitch: the belt enters UNSURE where it stands (R78). -/
theorem test_belt_sample_glitch :
    seen (.beltSample (report 20 1 [31001, 1])) quay
      (fun t => t.tracker.belts[(0 : BeltIx)].map fun r => (r.position, r.condition)) = some (some (0, .unsure)) := by
  decide +kernel

/-! ### Worked examples: diverters (section 5.7) -/

/-- Section 5.7, event 4: an order that supersedes is held, and the one before it answered SUPERSEDED. -/
theorem test_divert_superseded :
    seen (.divertOrder ⟨30, 40, 7, [0]⟩)
      ((withQueue quay [⟨0, some (grain 0), 0, none, 1, .crossing, .nowhere⟩]).setDiverter 0
        (some ⟨some 0, some (divertTo 1), some ⟨500, 10000⟩⟩))
      (fun t => (t.path.egressA, t.seg.diverters[(0 : DiverterIx)].map (·.holdTimer)))
      = some ([.own 2 .answer [30, 2, 5, 1] none, .own 40 .answer [30, 2, 4, 0] none], some (some ⟨0, 10000⟩)) := by
  decide +kernel

/-- Section 5.7, event 1: another position than an ACTIVE leg requires is refused ROUTE_IN_USE. -/
theorem test_divert_route_in_use :
    seen (.divertOrder (order 30 [1])) working (fun t => (t.path.egressA, t.path.forwardB))
      = some ([.own 2 .answer [30, 2, 7, 1] none], []) := by decide +kernel

/-- Section 5.7, event 5: the timeout is answered TOO_LATE with the order's position. -/
theorem test_hold_timer_expiry :
    seen (.holdTimerExpiry 0) (quay.setDiverter 0 (some ⟨some 0, some (divertTo 0), some ⟨10000, 10000⟩⟩))
      (fun t => (t.path.egressA.head?, t.notices.flags.divertTimeout))
      = some (some (.own 2 .answer [30, 2, 6, 0] none), true) := by decide +kernel

/-! ### Worked examples: a leg (section 2.9) -/

/-- Section 2.9, event 1: a FEED for an IDLE leg is kept and answered PENDED. -/
theorem test_feed_pended :
    seen (.feedOrder (order 10 [300])) quay (fun t => (t.legs[(0 : UnloaderIx)].pendingFeed, t.path.egressA, t.path.forwardB))
      = some (some 300, [.own 2 .answer [10, 1, 2, 300] none], []) := by decide +kernel

/-- Section 3.10, the FEED after the expiry: 700 is forwarded as 482 and answered CLAMPED. -/
theorem test_feed_clamped :
    seen (.feedOrder (order 13 [700])) (quay310.setLeg 2 { leg310 0 [3] 800 482 with f := 482 })
      (fun t => (t.legs[(2 : UnloaderIx)].r, t.path.forwardB, t.path.egressA))
      = some (700, [.forwarded ⟨13, 2, .order, 40, [1, 482]⟩], [.own 2 .answer [13, 1, 1, 482] none]) := by
  decide +kernel

/-- Section 2.9, event 2: the reply of a start gives the lot, the bin, the pending feed and WAIT_DIVERTER. -/
theorem test_leg_start_accepted :
    seen (.legStart .a (ask [1, 1, 1, 1, 0]))
      ((quay.setDiverter 0 (some ⟨some 1, none, none⟩)).setLeg 0 { Leg.atRest with pendingFeed := some 300 })
      (fun t => (t.path.egressA, t.legs[(0 : UnloaderIx)].state, t.tables.routes[(0 : RouteIx)].map (·.users)))
      = some ([.own 1 .reply [5, 0, 1, 1, 300, 4] none], .active, some 1) := by decide +kernel

/-- Section 2.9, event 12: a hold in EMPTY refuses the start with HOLD_EMPTY. -/
theorem test_leg_start_hold_empty :
    seen (.legStart .a (ask [1, 1, 1, 1, 0]))
      (quay.setHold 0 (some ⟨1, 3, some 0, 1000000, 900, .empty, 0⟩)) (fun t => t.path.egressA)
      = some [.own 1 .reply [5, 9] none] := by decide +kernel

/-- Section 2.9, event 9: LEG STOP with HOLD_EMPTY ends the leg, keeps r, and queues a guard FEED of 0. -/
theorem test_leg_stop :
    seen (.legStop .a (ask [1, 1, 2])) working
      (fun t => (t.legs[(0 : UnloaderIx)].state, t.legs[(0 : UnloaderIx)].r, t.path.guardB,
        t.tables.holds[(0 : HoldIx)].map (·.phase), t.tables.routes[(0 : RouteIx)].map (·.users)))
      = some (.ended, 400, [⟨0, 10, 0⟩], some .empty, some 0) := by decide +kernel

/-- Section 2.9, event 11: LEG CLEAR of an ENDED leg. -/
theorem test_leg_clear :
    seen (.legClear .a (ask [1, 1])) ended (fun t => t.legs[(0 : UnloaderIx)]) = some Leg.atRest := by decide +kernel

/-! ### Worked examples: station watch (section 7.6) -/

/-- Section 7.6, events 1 and 2: an agreeing sample is seen, and its repetition is a duplicate. -/
theorem test_unloader_sample :
    seen (.unloaderSample (report 10 18 [0, 620, 0, 0])) quay
      (fun t => t.watch[(10 : Addr)].map fun w => (w.choke, w.lastSeq)) = some (some (⟨false, true⟩, some 18))
    ∧ seen (.unloaderSample (report 10 18 [0, 620, 0, 0]))
      (quay.setWatch 10 (some { heard with lastSeq := some 18, choke := ⟨false, true⟩ }))
      (fun t => t.watch[(10 : Addr)].map fun w => (w.choke, w.duplicates)) = some (some (⟨false, true⟩, 1)) := by
  decide +kernel

/-- Section 7.6, event 7: a silent unloader's ACTIVE leg ends with reason SILENT. -/
theorem test_silence_expiry :
    seen (.silenceTimerExpiry 10) (working.setWatch 10 (some runOut))
      (fun t => (t.legs[(0 : UnloaderIx)].endReason, t.watch[(10 : Addr)].map (·.returnDue), t.notices.flags.stationSilent))
      = some (some .silent, some true, true) := by decide +kernel

/-- A diverter sample above 3 is UNKNOWN, the manual's moving diverter (section 5.7, event 8). -/
theorem test_diverter_sample :
    seen (.diverterSample (report 30 1 [7])) quay (fun t => t.seg.diverters[(0 : DiverterIx)].map (·.position))
      = some (some none) := by decide +kernel

/-! ### Worked examples: the path and management (sections 8.9, 9.7 and 10.4) -/

/-- Section 8.9, event 4: the waiting guard order takes the new value in place. -/
theorem test_guard_in_place :
    (handGuard 0 0 { quay with path := { quay.path with guardB := [⟨0, 10, 250⟩, ⟨1, 11, 420⟩] } }).path.guardB
      = [⟨0, 10, 0⟩, ⟨1, 11, 420⟩] := by decide +kernel

/-- Section 8.9, event 6: the guard queue is served before the forward queue, with the part's own number. -/
theorem test_transmission_begin :
    seen (.transmissionBegin .b) { quay with path := { quay.path with
        guardB := [⟨0, 10, 420⟩], forwardB := [.forwarded (divertTo 1)], originCount := 9 } }
      (fun t => (t.path.sendingB.map (·.telegram), t.path.originCount))
      = some (some ⟨10, 62, .order, 9, [1, 420]⟩, 10) := by decide +kernel

/-- Section 9.7, events 1 and 6: a run opens, and one that replaces another's names its owner. -/
theorem test_bulk_open :
    seen (.bulkOpen .a ⟨62, 40, 0, [1, 5, 10, 4]⟩) quay (fun t => (t.mgmt.cursor, t.path.egressA))
      = some (some ⟨40, .bin, 10, 4, 0⟩, [.own 40 .reply [17, 0, 5, 10, 4, 0] none])
    ∧ seen (.bulkOpen .a (ask [1, 2, 3, 2])) { quay with mgmt := { quay.mgmt with cursor := some ⟨40, .bin, 12, 2, 0⟩ } }
      (fun t => t.path.egressA) = some [.own 1 .reply [17, 0, 2, 3, 2, 40] none] := by decide +kernel

/-- Section 9.7, events 2 and 3: bin 10 is taken and the cursor moves; a stop margin above the capacity is not. -/
theorem test_bulk_data :
    seen (.bulkData .a (ask [1, 0x510A, 12, 13568, 0, 20000, 1]))
      { quay with mgmt := { quay.mgmt with cursor := some ⟨1, .bin, 10, 4, 5000⟩ } }
      (fun t => (t.mgmt.cursor, t.tables.bins[(9 : BinIx)]))
      = some (some ⟨1, .bin, 11, 3, 0⟩, some ⟨800000, 20000, true, none, 0⟩)
    ∧ seen (.bulkData .a (ask [1, 0x510B, 9, 10176, 10, 44640, 1]))
      { quay with mgmt := { quay.mgmt with cursor := some ⟨1, .bin, 11, 3, 5000⟩ } }
      (fun t => (t.mgmt.cursor, t.path.egressA))
      = some (some ⟨1, .bin, 11, 3, 0⟩, [.own 1 .reply [18, 3, 5] none]) := by decide +kernel

/-- A RING refusal gives the effective ring and the ring that is needed (R180). -/
theorem test_ring_refused :
    seen (.calibrate .a ⟨62, 40, 0, [0, 1, 1000]⟩) quay (fun t => t.path.egressA)
      = some [.own 40 .reply [13, 2, 1, 0] none] := by decide +kernel

/-- Section 10.4, event 5: a clear of BREACH and of LEG_ENDED for leg 1 leaves LEG_ENDED of leg 2. -/
theorem test_flags_clear :
    seen (.flagsClear .a (ask [1, 3, 1, 0])) { quay with notices := { quay.notices with
        flags := { Flags.allClear with legEnded := put (put (Vector.replicate 6 false) 0 true) 1 true, breach := true } } }
      (fun t => (t.notices.flags.breach, t.notices.flags.legEnded.toList, t.path.egressA))
      = some (false, [false, true, false, false, false, false], [.own 1 .reply [15, 0, 1, 2] none]) := by
  decide +kernel

/-- The part's own address and the commissioning record of a blank part (R189), by STATUS section PART. -/
theorem test_status_part :
    seen (.status .a (ask [3, 1, 1])) State.reset (fun t => t.path.egressA)
      = some [.own 1 .reply [1, 0, 2, 62, 1, 0, 0, 0, 0, 0, 0, 0] none] := by decide +kernel

/-! ### Witnesses: states and operands that meet the hypotheses of the statements -/

/-- A telegram that waits. -/
def waiting : Queued := .forwarded (divertTo 1)

/-- The small quay with the three port queues. -/
def queued (a b : List Queued) (guards : List Guard) : State :=
  { quay with path := { quay.path with egressA := a, forwardB := b, guardB := guards } }

/-- The small quay with a transmission on each port. -/
def sending : State :=
  { quay with path := { quay.path with sendingA := some ⟨divertTo 1, none⟩, sendingB := some ⟨divertTo 1, none⟩ } }

theorem witness_StepRunsFrontCommand :
    ({ quay with pending := [.powerOn, .cursorIdleExpiry] } : State).pending = .powerOn :: [.cursorIdleExpiry] := by
  decide

/-- The period timer one millisecond from its end. -/
def nearlyOut : State := { quay with alloc := { quay.alloc with timeLeft := 1 } }

/-- The expiry of a timer that runs out waits after the step (R52). -/
theorem test_step_queues_expiry :
    (match step nearlyOut with
      | .next t => t.pending
      | _ => []) = [.allocationPeriodExpiry] := by decide +kernel

theorem witness_IdleStepRunsTimers :
    (quay.pending = [] ∧ quay.power = .on) ∧ unpowered.pending = [] ∧ unpowered.power = .off
    ∧ (nearlyOut.pending = [] ∧ nearlyOut.power = .on)
    ∧ quay.clock + 1 < 100 ∧ ¬ ({ quay with clock := 99 } : State).clock + 1 < 100 := by decide +kernel

theorem witness_PowerLossKeepsNonvolatile :
    unpowered.power = .off ∧ Instr.cursorIdleExpiry ≠ .powerOn ∧ Instr.cursorIdleExpiry ≠ .powerLoss := by decide

theorem witness_ReceptionDiscards :
    quay.power = .on ∧ ∀ t : Telegram, t.inRange = true → ([] : List Octet) ≠ t.wire :=
  ⟨by decide, fun t _ => by simp [Telegram.wire, Telegram.body]⟩

theorem witness_ReceivedTelegramIsItsCommand :
    carriedBy (.status .a (ask [3, 1, 1])) = some (.a, ⟨62, 1, .request, 0, [1, 3, 1, 1]⟩)
    ∧ Telegram.inRange ⟨62, 1, .request, 0, [1, 3, 1, 1]⟩ = true
    ∧ carriedBy (.feedOrder (order 10 [300])) = some (.a, ⟨10, 2, .order, 40, [1, 300]⟩)
    ∧ carriedBy (.beltSample (report 20 1 [5, 1])) = some (.b, ⟨2, 20, .sample, 1, [5, 1]⟩) := by decide

theorem witness_OwnAddressMisuse :
    quay.power = .on ∧ quay.mgmt.inForce.own = 62
    ∧ Telegram.inRange ⟨5, 62, .request, 0, []⟩ = true
    ∧ Telegram.inRange ⟨62, 5, .sample, 0, []⟩ = true ∧ Kind.sample ≠ .request
    ∧ carriedBy (.unloaderSample ⟨62, 5, 0, []⟩) = some (.b, ⟨62, 5, .sample, 0, []⟩) := by decide +kernel

/-- The hypotheses on a telegram that is only handed on. -/
abbrev handedOn (port : Port) (t : Telegram) (s : State) : Prop :=
  s.power = .on ∧ t.inRange = true ∧ t.source ≠ s.mgmt.inForce.own
    ∧ (t.dest = s.mgmt.inForce.own → t.kind = .request)
    ∧ (t.kind ∈ [.answer, .reply, .notice]
      ∨ (t.kind = .request ∧ t.dest ≠ s.mgmt.inForce.own ∧ t.dest ≠ broadcast)
      ∨ (t.kind = .order ∧ port = .b)
      ∨ (t.kind = .order ∧ port = .a ∧ t.payload.head? ≠ some 1 ∧ t.payload.head? ≠ some 2)
      ∨ (t.kind = .order ∧ port = .a ∧ t.payload.head? = some 2 ∧ 2 ≤ t.payload.length ∧ t.dest ≠ broadcast
        ∧ ∀ e ∈ s.tables.stations[t.dest], e.diverter? = none)
      ∨ (t.kind = .sample ∧ (port = .a ∨ s.watch[t.source] = none)
        ∧ ∀ e ∈ s.tables.stations[t.source], e.kind.wordsNeeded ≤ t.payload.length))

theorem witness_OtherTelegramsForwarded : ∀ x ∈ ([(.a, ⟨63, 2, .notice, 0, []⟩), (.b, ⟨10, 2, .request, 0, [4]⟩),
    (.b, ⟨10, 2, .order, 0, [1, 5]⟩), (.a, ⟨10, 2, .order, 0, []⟩), (.a, ⟨10, 2, .order, 0, [3]⟩),
    (.a, ⟨10, 2, .order, 0, [2, 1]⟩), (.a, ⟨2, 20, .sample, 0, [5, 1]⟩), (.a, ⟨2, 45, .sample, 0, []⟩),
    (.b, ⟨2, 45, .sample, 0, []⟩), (.b, ⟨2, 40, .sample, 0, []⟩)] : List (Port × Telegram)),
    handedOn x.1 x.2 quay := by
  decide +kernel

theorem witness_QueuesTakeTelegrams :
    waiting.takesForce = none ∧ Queued.takesForce (.own 1 .reply [19, 0, 50, 1] (some ⟨50, 1⟩)) = some ⟨50, 1⟩
    ∧ (queued (List.replicate 15 waiting) [] []).path.egressA.length < 16
    ∧ 16 ≤ (queued (List.replicate 16 waiting) [] []).path.egressA.length
    ∧ (queued [] (List.replicate 15 waiting) []).path.forwardB.length < 16
    ∧ 16 ≤ (queued [] (List.replicate 16 waiting) []).path.forwardB.length
    ∧ quay.unloaderStation 0 = some (10, unloaderData 600 100 500 50)
    ∧ ((queued [] [] [⟨1, 11, 5⟩, ⟨0, 10, 250⟩]).path.guardB.map (·.unloader)).Nodup
    ∧ (queued [] [] [⟨1, 11, 5⟩, ⟨0, 10, 250⟩]).path.guardB = [⟨1, 11, 5⟩] ++ ⟨0, 10, 250⟩ :: []
    ∧ ∀ x ∈ (queued [] [] [⟨1, 11, 5⟩]).path.guardB, x.unloader ≠ 0 := by decide +kernel

theorem witness_TransmissionsBeginAndEnd :
    quay.power = .on ∧ quay.path.sendingA = none ∧ quay.path.sendingB = none ∧ quay.path.egressA = []
    ∧ quay.path.guardB = [] ∧ quay.path.forwardB = []
    ∧ (queued [waiting] [waiting] []).path.egressA = waiting :: []
    ∧ (queued [waiting] [waiting] []).path.guardB = [] ∧ (queued [waiting] [waiting] []).path.forwardB = waiting :: []
    ∧ (queued [] [waiting] [⟨0, 10, 250⟩]).path.guardB = ⟨0, 10, 250⟩ :: []
    ∧ sending.power = .on ∧ sending.path.sendingA = some ⟨divertTo 1, none⟩
    ∧ sending.path.sendingB = some ⟨divertTo 1, none⟩ := by decide +kernel

/-- The small quay with every station of it SILENT and its return due. -/
def silence : State := { quay with watch := entries [(10, silent), (20, silent), (30, silent)] }

theorem witness_SampleAccepted :
    quay.hears (report 10 1 [300, 500, 7, 0]) ⟨3, 20, .unloader 0 (unloaderData 600 100 500 50)⟩ heard
    ∧ heard.lastSeq ≠ some 1 ∧ (StationKind.unloader 0 (unloaderData 600 100 500 50)).wordsNeeded ≤ 4
    ∧ quay.hears (report 20 1 [5, 1]) ⟨3, 20, .belt 0 ⟨400, 1000, 150, 100, .diverter 0⟩⟩ heard
    ∧ quay.hears (report 30 1 [1]) ⟨3, 20, .diverter 0 ⟨[.belt 1, .bin 1], 10⟩⟩ heard
    ∧ quay.seg.diverters[(0 : DiverterIx)] = some ⟨some 0, none, none⟩
    ∧ silence.hears (report 10 1 [300, 500, 7, 0]) ⟨3, 20, .unloader 0 (unloaderData 600 100 500 50)⟩ silent
    ∧ silence.hears (report 20 1 [5, 1]) ⟨3, 20, .belt 0 ⟨400, 1000, 150, 100, .diverter 0⟩⟩ silent := by
  decide +kernel

theorem witness_DuplicateAndShortTelegrams :
    (quay.setWatch 10 (some { heard with lastSeq := some 1 })).hears (report 10 1 [0, 0, 0, 0])
      ⟨3, 20, .unloader 0 (unloaderData 600 100 500 50)⟩ { heard with lastSeq := some 1 }
    ∧ (StationKind.unloader 0 (unloaderData 600 100 500 50)).wordsNeeded ≤ (report 10 1 [0, 0, 0, 0]).words.length
    ∧ quay.hears (report 10 1 [0, 0, 0]) ⟨3, 20, .unloader 0 (unloaderData 600 100 500 50)⟩ heard
    ∧ (report 10 1 [0, 0, 0]).words.length < (StationKind.unloader 0 (unloaderData 600 100 500 50)).wordsNeeded
    ∧ quay.ordered (order 10 []) ∧ (order 10 []).words = [] := by decide +kernel

theorem witness_SampleIsWeighed :
    (quay68 (some 0) 999 0).gramsPerPulse 1 = some 2350 ∧ (quay68 (some 0) 999 0).weighing.weighers[1].lastCount = some 0
    ∧ (2127#16 - 0#16).toNat * 2350 + 999 ≤ 5000999 ∧ 5000999 < (2128#16 - 0#16).toNat * 2350 + 999
    ∧ (quay68 none 0 0).weighing.weighers[1].lastCount = none
    ∧ (∀ k : SlotIx, ((quay68 none 0 0).nv.slots[0])[k] = none)
    ∧ ((quay68 none 0 0).nv.slots[1])[(1 : SlotIx)] = some 2350
    ∧ ∀ j : SlotIx, (1 : SlotIx) < j → ((quay68 none 0 0).nv.slots[1])[j] = none := by decide +kernel

theorem test_accounts_sound : (quay68 none 0 0).AccountLaw := ⟨by decide +kernel, by decide +kernel⟩

/-- The state with the account of a lot: its chain, and the lines of some blocks of the pool. -/
def withAccount (s : State) (i : LotIx) (chain : List BlockIx) (blocks : List (BlockIx × List Line)) : State :=
  let t := { s with weighing := { s.weighing with
    pool := blocks.foldl (fun v (x : BlockIx × List Line) => put v x.1 x.2) (Vector.replicate 12 []) } }
  t.setLot i ((s.tables.lots[i]).map fun l => { l with chain := chain, total := kgOf (t.linesOf chain) })

/-- Eight lines for other holds than those of the quays: a block without a place. -/
def eight : List Line := (List.range 8).map fun k => ⟨2, k + 1, 0, 10⟩

/-- An account of a lot with a line for a bin and vessel 1, hold 3; one with a place in its last block; one for which
there is a free block only; one without any place. -/
def account (s : State) (i : LotIx) (bin : BinIx) (k : Fin 4) : State :=
  if k = 0 then withAccount s i [0] [(0, [⟨1, 3, bin, 40000⟩])]
  else if k = 1 then withAccount s i [0] [(0, eight.take 7)]
  else if k = 2 then withAccount s i [0] [(0, eight)]
  else withAccount s i (allIx 12) [(11, eight)]

/-- The account of a lot has a line, has a place in its last block, and the pool has a free block: each or not. -/
abbrev accountIs (s : State) (i : LotIx) (bin : BinIx) (found room free : Bool) : Prop :=
  ∀ l ∈ s.tables.lots[i],
    ((s.linesOf l.chain).any fun z => z.vessel == 1 && z.number == 3 && z.bin == bin) = found
    ∧ (l.chain.getLast?.any fun q => s.weighing.pool[q].length < 8) = room
    ∧ ((allIx 12).any s.blockFree) = free

/-- The hypotheses on a leg that books. -/
abbrev books (s : State) : Prop :=
  s.legs[(1 : UnloaderIx)].state ≠ .idle ∧ s.legs[(1 : UnloaderIx)].lot = some 3
    ∧ s.legs[(1 : UnloaderIx)].hold = some 4 ∧ s.legs[(1 : UnloaderIx)].bin = some 11
    ∧ (s.tables.lots[(3 : LotIx)]).isSome ∧ (s.tables.bins[(11 : BinIx)]).isSome
    ∧ ∀ h ∈ s.tables.holds[(4 : HoldIx)], h.vessel = 1 ∧ h.number = 3

/-- Beside `test_accounts_sound` and `test_exhausted_account_sound`. -/
theorem witness_KilogramsAreBooked :
    (quay68 none 0 0).legs[(0 : UnloaderIx)].state = .idle
    ∧ ((quay68 none 0 0).tables.holds[(4 : HoldIx)]).isSome
    ∧ (∀ k : Fin 4, books (account (quay68 none 0 0) 3 11 k))
    ∧ accountIs (account (quay68 none 0 0) 3 11 0) 3 11 true true true
    ∧ accountIs (account (quay68 none 0 0) 3 11 1) 3 11 false true true
    ∧ accountIs (account (quay68 none 0 0) 3 11 2) 3 11 false false true
    ∧ accountIs (account (quay68 none 0 0) 3 11 3) 3 11 false false false :=
  by and_intros <;> decide +kernel

theorem test_exhausted_account_sound : (account (quay68 none 0 0) 3 11 3).AccountLaw :=
  ⟨by decide +kernel, by decide +kernel⟩

theorem witness_FiltersPersist :
    (unloaderData 600 100 500 50).chokeThreshold ≤ 600 ∧ 599 < (unloaderData 600 100 500 50).chokeThreshold
    ∧ 400 ≤ (unloaderData 600 100 500 50).releaseThreshold ∧ (unloaderData 600 100 500 50).releaseThreshold < 401
    ∧ (working.setWatch 10 (some { heard with sweep := ⟨false, true⟩ })).watch[(10 : Addr)]
      = some { heard with sweep := ⟨false, true⟩ }
    ∧ working.legs[(0 : UnloaderIx)].state = .active ∧ working.legs[(0 : UnloaderIx)].hold = some 0
    ∧ working.tables.holds[(0 : HoldIx)] = some ⟨1, 3, some 0, 1000000, 900, .freeDig, 0⟩
    ∧ quay.watch[(10 : Addr)] = some heard ∧ quay.legs[(0 : UnloaderIx)].state ≠ .active := by decide +kernel

/-- The leg 1 ACTIVE state with a source of unloader 1 on belt 1. -/
def fed : State := (withQueue working [slug 0 (some (grain 0)) none 1]).setSource 0 (some ⟨0, 0⟩)

theorem witness_SourcesOpenAndClose :
    fed.tracker.sources[(0 : UnloaderIx)] = some ⟨0, 0⟩ ∧ (fed.tracker.belts[(0 : BeltIx)]).isSome
    ∧ 19 < (unloaderData 600 100 500 50).flowThreshold ∧ (unloaderData 600 100 500 50).flowThreshold ≤ 20
    ∧ quay.tracker.sources[(0 : UnloaderIx)] = none ∧ quay.legs[(0 : UnloaderIx)].state = .idle
    ∧ working.tracker.sources[(0 : UnloaderIx)] = none ∧ working.legs[(0 : UnloaderIx)].state ≠ .idle
    ∧ working.legs[(0 : UnloaderIx)].grain = some (grain 0) ∧ working.legs[(0 : UnloaderIx)].belts = 0 :: [1]
    ∧ working.beltData 0 = some ⟨400, 1000, 150, 100, .diverter 0⟩
    ∧ (sure 100 1000 [slug 0 (some (grain 0)) none 6]).QueueLaw
    ∧ (sure 100 1000 [slug 0 (some (grain 0)) none 7]).QueueLaw := by decide +kernel

/-- Slugs as an opening finds them: one that takes a seventh source, one with seven, one whose rear is 150 pulses away,
one of another lot, and six on the belt (R86 to R88). -/
theorem witness_SourcesOpenAndClose_openings :
    working.goesWith (slug 0 (some (grain 0)) none 6) 0 0 ∧ ¬ working.goesWith (slug 0 (some (grain 1)) none 1) 0 0
    ∧ ¬ working.goesWith (slug 0 none none 0) 0 0
    ∧ (slug 0 (some (grain 1)) none 1).near ⟨400, 1000, 150, 100, .diverter 0⟩ 100
    ∧ (slug 0 (some (grain 1)) (some 1) 0).near ⟨400, 1000, 150, 100, .diverter 0⟩ 150
    ∧ ¬ (slug 0 (some (grain 1)) (some 1) 0).near ⟨400, 1000, 150, 100, .diverter 0⟩ 151
    ∧ (sure 100 1000 ((List.finRange 6).map fun p => slug p (some (grain 0)) (some 1) 0)).QueueLaw := by
  refine ⟨?_, ?_, ?_, (nearLoading_iff _ _ (sure 100 0 [])).1 (by decide), (nearLoading_iff _ _ (sure 150 0 [])).1 (by decide),
    fun c => absurd ((nearLoading_iff _ _ (sure 151 0 [])).2 c) (by decide), by decide +kernel⟩ <;>
    unfold State.goesWith <;> decide +kernel

theorem witness_BeltSampleMovesBelt :
    quay.hears (report 20 1 [31000, 1]) ⟨3, 20, .belt 0 ⟨400, 1000, 150, 100, .diverter 0⟩⟩ heard
    ∧ heard.lastSeq ≠ some 1 ∧ quay.tracker.belts[(0 : BeltIx)] = some (sure 0 1000 [])
    ∧ heard.returnDue = false ∧ (31000#16 - 1000#16).toNat ≤ 30000 ∧ 30000 < (31001#16 - 1000#16).toNat
    ∧ silence.hears (report 20 1 [31000, 1]) ⟨3, 20, .belt 0 ⟨400, 1000, 150, 100, .diverter 0⟩⟩ silent
    ∧ silent.returnDue = true
    ∧ (quay.setBelt 0 (some { sure 0 0 [] with lastTravel := none })).tracker.belts[(0 : BeltIx)]
      = some { sure 0 0 [] with lastTravel := none } := by decide +kernel

/-- A belt of 400 pulses whose slugs lie at 100, 300, 400 and more from the loading point. -/
def belt400 : BeltData := ⟨400, 1000, 150, 100, .diverter 0⟩

/-- The stages of a slug and the hand-over to come, at the front distances of R80; a slug that is due (R94). -/
theorem witness_BeltSampleMovesBelt_slugs :
    (slug 0 (some (grain 0)) none 1).stageThere belt400 299 = .travelling
    ∧ (slug 0 (some (grain 0)) none 1).stageThere belt400 300 = .approaching
    ∧ (slug 0 (some (grain 0)) none 1).stageThere belt400 400 = .crossing
    ∧ (slug 0 (some (grain 0)) (some 1) 0).due belt400 401 ∧ ¬ (slug 0 (some (grain 0)) (some 1) 0).due belt400 400
    ∧ ¬ (slug 0 (some (grain 0)) none 1).due belt400 401
    ∧ fed.beltData 0 = some belt400
    ∧ fed.tracker.belts[(0 : BeltIx)] = some (sure 100 1000 [slug 0 (some (grain 0)) none 1]) := by
  refine ⟨by decide, by decide, by decide, (dueToRetire_iff _ _ (sure 401 0 [])).1 (by decide),
    fun c => absurd ((dueToRetire_iff _ _ (sure 400 0 [])).2 c) (by decide),
    fun c => absurd ((dueToRetire_iff _ _ (sure 401 0 [])).2 c) (by decide), by decide +kernel, by decide +kernel⟩

/-- The small quay with a slug at the end of belt 1, and what it meets there: the outlet of belt 1, the position of
diverter 1. -/
def arriving (outlet : Outlet) (position : Option PositionIx) : State :=
  let s := quay.setStation 20 (some ⟨3, 20, .belt 0 ⟨400, 1000, 150, 100, outlet⟩⟩)
  (s.setBelt 0 (some (sure 400 1000 [slug 0 (some (grain 0)) none 1]))).setDiverter 0 (some ⟨position, none, none⟩)

/-- The hand-over of the slug of belt 1 after its re-evaluation (R90 to R93). -/
def handed (outlet : Outlet) (position : Option PositionIx) : Option HandOver :=
  (((reevaluate 0 (arriving outlet position)).tracker.belts[(0 : BeltIx)]).bind fun r => r.queue.head?).map (·.handOver)

theorem test_hand_overs :
    handed (.belt 1) none = some (.belt 1 0) ∧ handed (.belt 2) none = some .nowhere ∧ handed (.bin 0) none = some (.bin 0)
    ∧ handed (.bin 9) none = some .nowhere ∧ handed (.diverter 0) (some 0) = some (.belt 1 0)
    ∧ handed (.diverter 0) (some 1) = some (.bin 1) ∧ handed (.diverter 0) none = some .nowhere := by decide +kernel

/-- Belts 1 and 2 that lead to each other, with six slugs of another lot on belt 2. -/
def loop : State :=
  let s := (arriving (.belt 1) none).setStation 21 (some ⟨3, 20, .belt 1 ⟨600, 800, 200, 100, .belt 0⟩⟩)
  s.setBelt 1 (some (sure 100 1000 ((List.finRange 6).map fun p => slug p (some (grain 1)) (some 1) 0)))

/-- A re-evaluation that its own belt's entry into UNSURE cuts short, one after which the head is clear, and one after
which it is not; a cascade over both belts of the loop (R88, R95, R98). -/
theorem witness_BeltSampleMovesBelt_passes :
    (reevaluateSlugs 0 ⟨400, 1000, 150, 100, .belt 1⟩ [0] loop).2 = false
    ∧ (unsureCascade 0 loop).2 = [1, 0]
    ∧ (∃ y ∈ [{ slug 0 none (some 1) 0 with stage := .crossing }], y.stage ≠ .travelling)
    ∧ (reevaluateSlugs 0 belt400 [0] (quay.setBelt 0 (some
        { sure 401 1000 [{ slug 0 none (some 1) 0 with stage := .crossing }] with condition := .unsure }))).1.tracker.belts[(0 : BeltIx)]
      = some (sure 401 1000 [])
    ∧ loop.flowsTo 0 1 ∧ loop.flowsTo 1 0 := by
  refine ⟨?_, ?_, ?_, ?_, ?_, ?_⟩ <;> try decide +kernel
  · exact (cascadeNext_iff _ _ _).1 (by decide +kernel)
  · exact (cascadeNext_iff _ _ _).1 (by decide +kernel)

theorem witness_BreachesAreAnswered :
    working.legs[(0 : UnloaderIx)].state = .active ∧ working.legs[(0 : UnloaderIx)].belts.contains 1 = true
    ∧ working.legs[(0 : UnloaderIx)].belts.contains 2 = false ∧ working.legs[(1 : UnloaderIx)].state ≠ .active
    ∧ working.tables.bins[(0 : BinIx)] = some ⟨1000000, 1000, true, none, 0⟩
    ∧ working.tables.bins[(1 : BinIx)] = some ⟨1000000, 1000, false, none, 0⟩
    ∧ working.compatible 0 0 = true ∧ working.compatible 1 0 = false := by decide +kernel

/-- What an arrival at diverter 1 finds: no entry, a position with an outlet or without; and the next step of the grain
of lot 1, which is the outlet of position 1 and not that of position 2 (R115, R116). -/
theorem witness_BreachesAreAnswered_diverter :
    quay.diverterData 1 = none ∧ quay.diverterData 0 = some ⟨[.belt 1, .bin 1], 10⟩
    ∧ quay.seg.diverters[(0 : DiverterIx)] = some ⟨some 0, none, none⟩
    ∧ (DiverterData.outlets ⟨[.belt 1, .bin 1], 10⟩)[0]? = some (.belt 1)
    ∧ (DiverterData.outlets ⟨[.belt 1, .bin 1], 10⟩)[1]? = some (.bin 1)
    ∧ (DiverterData.outlets ⟨[.belt 1, .bin 1], 10⟩)[2]? = none
    ∧ (grain 0).leads 0 (.belt 1) ∧ ¬ (grain 0).leads 0 (.bin 1) ∧ (grain 0).leads 1 (.bin 0) := by
  simp only [← nextStep_iff]
  decide +kernel

theorem witness_FeedOrderForActiveLeg :
    working.ordered (order 10 [1201]) ∧ (10 : Addr) ≠ broadcast
    ∧ working.tables.stations[(10 : Addr)] = some ⟨3, 20, .unloader 0 (unloaderData 600 100 500 50)⟩
    ∧ working.legs[(0 : UnloaderIx)].state = .active ∧ working.path.forwardB.length < 16
    ∧ ({ working with path := { working.path with forwardB := List.replicate 16 waiting } } : State).ordered (order 10 [1200])
    ∧ 16 ≤ ({ working with path := { working.path with forwardB := List.replicate 16 waiting } } : State).path.forwardB.length := by
  decide +kernel

theorem witness_FeedOrderKeptOrWithoutLeg :
    quay.ordered (order 10 [300]) ∧ quay.legs[(0 : UnloaderIx)].state ≠ .active
    ∧ quay.tables.stations[(10 : Addr)] = some ⟨3, 20, .unloader 0 (unloaderData 600 100 500 50)⟩
    ∧ quay.ordered (order 45 [300]) ∧ quay.tables.stations[(45 : Addr)] = none
    ∧ quay.ordered (order 20 [300])
    ∧ quay.tables.stations[(20 : Addr)] = some ⟨3, 20, .belt 0 ⟨400, 1000, 150, 100, .diverter 0⟩⟩ := by decide +kernel

theorem witness_DivertOrderAdmitted :
    working.ordered (order 30 [1]) ∧ (30 : Addr) ≠ broadcast
    ∧ working.tables.stations[(30 : Addr)] = some ⟨3, 20, .diverter 0 ⟨[.belt 1, .bin 1], 10⟩⟩
    ∧ working.seg.diverters[(0 : DiverterIx)] = some ⟨some 0, none, none⟩
    ∧ working.legs[(0 : UnloaderIx)].state = .active ∧ working.legSettings working.legs[(0 : UnloaderIx)] = [⟨0, 0⟩]
    ∧ (∀ i : UnloaderIx, quay.legs[i].state ≠ .active) ∧ quay.headClear 0 = true
    ∧ (withQueue quay [{ slug 0 none none 0 with stage := .approaching }]).headClear 0 = false
    ∧ (quay.setDiverter 0 (some ⟨some 0, some (divertTo 1), some ⟨0, 10000⟩⟩)).ordered (order 30 [1])
    ∧ (quay.setDiverter 0 (some ⟨some 0, some (divertTo 1), some ⟨0, 10000⟩⟩)).seg.diverters[(0 : DiverterIx)]
      = some ⟨some 0, some (divertTo 1), some ⟨0, 10000⟩⟩
    ∧ (0 : PositionIx).val ≠ ((divertTo 1).payload.getD 1 0).toNat := by
  decide +kernel

/-- Section 5.7, events 2 and 6: the held order is forwarded once the head is clear, unless a leg has started. -/
theorem test_held_divert_released :
    (headClearReport 0 (quay.setDiverter 0 (some ⟨some 0, some (divertTo 1), some ⟨0, 10000⟩⟩))).path.forwardB
      = [.forwarded (divertTo 1)]
    ∧ (headClearReport 0 (working.setDiverter 0 (some ⟨some 0, some (divertTo 1), some ⟨0, 10000⟩⟩))).path.egressA
      = [.own 2 .answer [30, 2, 7, 1] none] := by decide +kernel

theorem witness_BroadcastOrdersAnswered :
    quay.ordered (order 63 [1201]) ∧ (63 : Addr) = broadcast ∧ (3 : Word) ≠ 1 ∧ (3 : Word) ≠ 2 := by decide +kernel

/-- The sum of a quantity over the ACTIVE legs that a condition names. -/
def activeTotal (s : State) (p : UnloaderIx → Bool) (x : UnloaderIx → Nat) : Nat :=
  ((List.finRange 6).map fun i => if s.legs[i].state = .active ∧ p i = true then x i else 0).sum

/-- The ceilings after the first so many belts (R56 to R59). -/
def ceilings (s : State) (d : UnloaderIx → UnloaderData) (derated : UnloaderIx → Bool) : Nat → UnloaderIx → Nat
  | 0, i => min (s.legs[i].g + (d i).rampStep) (if s.grantCondition i = .flowing then
      min (if derated i = true then (d i).ratedCap * (d i).sweepPercent / 100 else (d i).ratedCap) s.legs[i].r
      else 0)
  | k + 1, i =>
    if h : k < 8 then
      match s.beltData ⟨k, h⟩ with
      | none => ceilings s d derated k i
      | some x =>
        let sum := activeTotal s (fun j => s.legs[j].belts.contains ⟨k, h⟩) (ceilings s d derated k)
        if x.capacity < sum ∧ s.legs[i].belts.contains ⟨k, h⟩ = true then ceilings s d derated k i * x.capacity / sum
        else ceilings s d derated k i
    else 0

/-- The data of the unloaders of section 3.10; leg 2's hold is in SWEEP. -/
def data310 (i : UnloaderIx) : UnloaderData :=
  if i = 2 then unloaderData 800 140 1100 60 else unloaderData 600 110 1200 50

/-- The states of sections 3.10 and 3.11 meet the hypotheses on an expiry. -/
theorem witness_PeriodExpiryGrants :
    (quay310.power = .on ∧ quay310.alloc.timeLeft = 0) ∧ working.alloc.timeLeft ≠ 0
    ∧ (∀ i : UnloaderIx, quay310.legs[i].state = .active →
      quay310.unloaderStation i = some (⟨i.val % 3 + 11, by omega⟩, data310 i))
    ∧ (∀ i : UnloaderIx, decide (i = 1) = true ↔ ∃ n ∈ quay310.legs[i].hold, ∃ h ∈ quay310.tables.holds[n],
      h.phase = .sweep ∨ h.phase = .empty)
    ∧ ∀ (b : BeltIx) (i : UnloaderIx), ceilings quay310 data310 (fun i => decide (i = 1)) (b.val + 1) i =
      match quay310.beltData b with
      | none => ceilings quay310 data310 (fun i => decide (i = 1)) b.val i
      | some x =>
        let sum := activeTotal quay310 (fun j => quay310.legs[j].belts.contains b)
          (ceilings quay310 data310 (fun i => decide (i = 1)) b.val)
        if x.capacity < sum ∧ quay310.legs[i].belts.contains b = true then
          ceilings quay310 data310 (fun i => decide (i = 1)) b.val i * x.capacity / sum
        else ceilings quay310 data310 (fun i => decide (i = 1)) b.val i :=
  ⟨by decide +kernel, by decide +kernel, by decide +kernel, by decide +kernel, fun b _ => dif_pos b.isLt⟩

/-- The hypotheses on the conditions of an ACTIVE leg 1 of the small quay. -/
abbrev conditioned (s : State) : Prop :=
  s.legs[(0 : UnloaderIx)].lot = some 0 ∧ s.legs[(0 : UnloaderIx)].route = some 0
    ∧ s.legs[(0 : UnloaderIx)].bin = some 0 ∧ s.legs[(0 : UnloaderIx)].belts = [0, 1]
    ∧ (s.tables.bins[(0 : BinIx)]).isSome
    ∧ (∀ b ∈ s.legs[(0 : UnloaderIx)].belts, (s.beltStation b).isSome ∧ (s.tracker.belts[b]).isSome)
    ∧ s.legSettings s.legs[(0 : UnloaderIx)] = [⟨0, 0⟩]
    ∧ (∀ y ∈ s.legSettings s.legs[(0 : UnloaderIx)],
      (s.diverterStation y.diverter).isSome ∧ (s.seg.diverters[y.diverter]).isSome)

/-- The five causes that hold a leg back, each alone (R41 to R44), and none of them. -/
def heldBack : List State :=
  [working.setWatch 10 (some { heard with choke := ⟨true, false⟩ }),
    working.setBelt 1 (some { sure 0 5000 [] with condition := .unsure }), working.setWatch 20 (some silent),
    working.setBelt 0 (some (sure 0 5000 [slug 0 none (some 1) 0])),
    working.setDiverter 0 (some ⟨some 1, none, none⟩), working.setWatch 30 (some silent),
    working.setBin 0 (some ⟨1000000, 1000, true, none, 999000⟩),
    working.setBelt 0 (some (sure 100 5000 [slug 0 (some (grain 1)) (some 0) 0])), working]

theorem test_grant_conditions :
    (∀ s ∈ heldBack, conditioned s)
    ∧ heldBack.map (fun s => s.grantCondition 0) = [.choked, .waitBelt, .waitBelt, .waitBelt, .waitDiverter,
      .waitDiverter, .binFull, .waitGap, .flowing] := ⟨by decide +kernel, by decide +kernel⟩

theorem witness_SilenceExpiry :
    quay.power = .on ∧ runOut.timer = some 0 ∧ silent.timer ≠ some 0 ∧ heard.timer ≠ some 0
    ∧ (∀ a : Addr, a ∈ [10, 20, 30] → (quay.setWatch a (some runOut)).watch[a] = some runOut)
    ∧ quay.watch[(10 : Addr)] = some heard
    ∧ quay.tables.stations[(10 : Addr)] = some ⟨3, 20, .unloader 0 (unloaderData 600 100 500 50)⟩
    ∧ quay.tables.stations[(20 : Addr)] = some ⟨3, 20, .belt 0 ⟨400, 1000, 150, 100, .diverter 0⟩⟩
    ∧ quay.tables.stations[(30 : Addr)] = some ⟨3, 20, .diverter 0 ⟨[.belt 1, .bin 1], 10⟩⟩
    ∧ quay.seg.diverters[(0 : DiverterIx)] = some ⟨some 0, none, none⟩
    ∧ silence.watch[(10 : Addr)] = some silent := by decide +kernel

theorem witness_HoldTimerExpiry :
    quay.power = .on ∧ (quay.setDiverter 0 (some ⟨some 0, some (divertTo 1), some ⟨10000, 10000⟩⟩)).seg.diverters[(0 : DiverterIx)]
      = some ⟨some 0, some (divertTo 1), some ⟨10000, 10000⟩⟩
    ∧ (∀ x ∈ (none : Option HoldTimer), x.elapsed < x.timeout)
    ∧ (∀ x ∈ some (HoldTimer.mk 9999 10000), x.elapsed < x.timeout) := by decide +kernel

/-- An order that restarts the hold timer before its expiry is taken is held, and not answered TOO_LATE (R113). -/
theorem test_restarted_hold_timer :
    seen (.holdTimerExpiry 0) (quay.setDiverter 0 (some ⟨some 0, some (divertTo 0), some ⟨0, 10000⟩⟩))
      (fun t => (t.path.egressA, t.notices.flags.divertTimeout)) = some ([], false) := by decide +kernel

theorem witness_NonvolatileWritesComplete :
    quay.power = .on ∧ ({ quay with writer := .calibration 0 1 900 1 .a } : State).writer = .calibration 0 1 900 1 .a
    ∧ ({ quay with writer := .grandTotal 0 5 } : State).writer = .grandTotal 0 5
    ∧ ({ quay with mgmt := { quay.mgmt with writing := some ⟨⟨50, 1⟩, 1, .a⟩ } } : State).mgmt.writing = some ⟨⟨50, 1⟩, 1, .a⟩
    ∧ quay.writer = .idle ∧ quay.mgmt.writing = none
    ∧ seen .commissioningWriteCompletion { queued (List.replicate 16 waiting) [] [] with
        mgmt := { quay.mgmt with writing := some ⟨⟨50, 1⟩, 1, .a⟩ } } (fun t => t.mgmt.inForce.own) = some 50
    ∧ seen .commissioningWriteCompletion { quay with mgmt := { quay.mgmt with writing := some ⟨⟨50, 1⟩, 1, .a⟩ } }
      (fun t => t.mgmt.inForce.own) = some 62 := by decide +kernel

theorem witness_GrandTotalWriteStarts :
    quay.power = .on ∧ quay.writer = .idle
    ∧ (0 : UnloaderIx).val = (quay.weighing.lastServed.val + 1 + 0) % 6
    ∧ (5 : UnloaderIx).val = (quay.weighing.lastServed.val + 1 + 5) % 6
    ∧ 0 < (quay.setWeigher 0 { Weigher.atPowerOn with pendingTonnes := 1 }).weighing.weighers[(0 : UnloaderIx)].pendingTonnes
    ∧ (∀ i : UnloaderIx, i ≠ 5 →
      (quay.setWeigher 5 { Weigher.atPowerOn with pendingTonnes := 1 }).weighing.weighers[i].pendingTonnes = 0)
    ∧ (∀ i : UnloaderIx, quay.weighing.weighers[i].pendingTonnes = 0)
    ∧ ({ quay with writer := .grandTotal 0 5 } : State).writer ≠ .idle := by decide +kernel

theorem witness_RequestsAreChecked :
    quay.passes 0 (ask []) ∧ (ask []).dest = quay.mgmt.inForce.own
    ∧ quay.passes 0 (ask [21, 0]) ∧ (20 < (21 : Word).toNat ∧ (0 : Word).toNat = 0)
    ∧ quay.addressed (ask [3]) ∧ quay.ringNeeded 20 (ask [3]) < quay.ringOfMessage (ask [3])
    ∧ quay.ringOfMessage (ask [1, 1]) ≤ quay.ringNeeded 6 (ask [1, 1])
    ∧ (ask [1, 1]).words.length - 1 < wordParams 6
    ∧ quay.addressed (ask []) ∧ quay.ringOfMessage (ask []) ≤ quay.ringNeeded 2 (ask [])
    ∧ quay.ringOfMessage (ask [1]) ≤ quay.ringNeeded 3 (ask [1]) ∧ (ask [1]).words.length ≤ 1
    ∧ (ask [1, 0x1000]).words.length = 2 := by decide +kernel

theorem witness_RequestsForOthersForwarded :
    quay.passes 1 ⟨45, 2, 0, [3, 1]⟩ ∧ (45 : Addr) ≠ quay.mgmt.inForce.own ∧ (45 : Addr) ≠ broadcast
    ∧ quay.passes 1 ⟨63, 2, 0, [3, 1]⟩ ∧ (63 : Addr) ≠ quay.mgmt.inForce.own ∧ (63 : Addr) = broadcast := by
  decide +kernel

theorem witness_ReadsAnswerInParts :
    quay.serves (ask [3, 8, 32]) 3 2 ∧ sectionOf (paramAt (ask [3, 8, 32]) 0) = some .counters
    ∧ (paramAt (ask [3, 8, 32]) 1).toNat = 32 ∧ sectionOf (paramAt (ask [3, 9, 1]) 0) = none
    ∧ quay.serves (ask [3, 2, 1, 1]) 3 3 ∧ accountOf (paramAt (ask [3, 2, 1, 1]) 0) (paramAt (ask [3, 2, 1, 1]) 1)
      = some (.grandTotal 0)
    ∧ accountOf 2 7 = none ∧ tableOf (selectorOf 0x1014) = some .station
    ∧ indexOf 0x1014 = 20 ∧ (quay.entryWords .station 20).isSome ∧ quay.entryWords .route 2 = none
    ∧ tableOf (selectorOf 0x2021) = some .route ∧ Table.last .route < indexOf 0x2021 := by decide +kernel

/-- The GRAND TOTAL account of unloader 1, whose first slot alone is written, behind its four totals: no
residue, active slot 1, the four slots, of which ERASED is coded 1, and no write and no glitch (R139, R144, R161). -/
theorem test_grand_total_slots :
    (quay.accountWords (.grandTotal 0)).drop 8 = [0, 1, 1000, 1, 1, 1, 0, 0] := by decide +kernel

theorem witness_FlagsAndSnapshotAreRead :
    quay.entitled (ask []) 3 ∧ quay.serves (ask [3, 48]) 3 1 ∧ (paramAt (ask [3, 48]) 0).toNat = 48
    ∧ quay.weighing.snapshot = none
    ∧ ({ quay with weighing := { quay.weighing with snapshot := some ⟨1, 0, 0, 0, []⟩ } } : State).serves (ask [3, 1]) 3 1 := by
  decide +kernel

theorem witness_TableWriteIsAnswered :
    quay.addressed (ask [0, 0x1214]) ∧ quay.ringOfMessage (ask [0, 0x1214]) ≤ quay.ringNeeded 3 (ask [0, 0x1214])
    ∧ seen (.tableWrite .a (ask [0, 0x120A])) quay (fun t => (t.path.egressA, t.tables.stations[(10 : Addr)]))
      = some ([.own 1 .reply [3, 5] none], quay.tables.stations[(10 : Addr)])
    ∧ seen (.tableWrite .a (ask [0, 0x120B])) quay (fun t => (t.path.egressA, t.tables.stations[(11 : Addr)]))
      = some ([.own 1 .reply [3, 0] none], none) := by decide +kernel

/-- The words of a DEFINE of a lot of group 2 that bins 1 and 2 may take. -/
def lotWords (table : Word) : List Word := [1, table, 0x0102, 3, 0, 0]

/-- The words of a DEFINE of a bin of 800 000 kg with a state. -/
def binWrite (table state : Word) : List Word := [1, table, 12, 13568, 0, 20000, state]

theorem witness_TableWriteIsAnswered_lots :
    (∀ w ∈ [lotWords 0x3101, lotWords 0x3102, lotWords 0x3103, [1, 0x3201], [1, 0x3202], [1, 0x3203]],
      quay.addressed (ask w) ∧ quay.ringOfMessage (ask w) ≤ 1 ∧ selectorOf (paramAt (ask w) 0) = 3)
    ∧ (parseLot ((ask (lotWords 0x3101)).words.drop 2)).toOption = some ⟨1, 2, 3⟩
    ∧ quay.tables.lots[(0 : LotIx)] = some ⟨1, 0, 3#48, [], 0, 0⟩ ∧ quay.lotReferred 0 = true
    ∧ quay.tables.lots[(1 : LotIx)] = some ⟨1, 0, 3#48, [], 0, 0⟩ ∧ quay.lotReferred 1 = false
    ∧ quay.tables.lots[(2 : LotIx)] = none := by decide +kernel

theorem witness_TableWriteIsAnswered_bins :
    (∀ w ∈ [binWrite 0x5101 1, binWrite 0x5101 2, binWrite 0x5109 1, [1, 0x5201], [1, 0x5202], [1, 0x5209]],
      working.addressed (ask w) ∧ working.ringOfMessage (ask w) ≤ 1 ∧ selectorOf (paramAt (ask w) 0) = 5)
    ∧ (parseBin ((ask (binWrite 0x5101 2)).words.drop 2)).toOption = some ⟨800000, 20000, false⟩
    ∧ working.binBusy 0 = true ∧ quay.binBusy 0 = false ∧ quay.binInUse 0 = true ∧ quay.binInUse 1 = false
    ∧ (quay.tables.bins[(1 : BinIx)]).isSome ∧ quay.tables.bins[(8 : BinIx)] = none := by decide +kernel

/-- The words of a write of hold 1: vessel 1, hold 3, a lot, 1 000 000 kg, 900 permille. -/
def holdWords (lot : Word) : List Word := [1, 0x4101, 0x0103, lot, 15, 16960, 900]

theorem witness_HoldWriteSetsPhase :
    quay.addressed (ask (holdWords 1)) ∧ quay.ringOfMessage (ask (holdWords 1)) ≤ 1 ∧ quay.holdInUse 0 = false
    ∧ selectorOf (paramAt (ask (holdWords 1)) 0) = 4 ∧ indexOf (paramAt (ask (holdWords 1)) 0) = num (0 : HoldIx)
    ∧ 7 ≤ (ask (holdWords 1)).words.length ∧ actionOf (paramAt (ask (holdWords 1)) 0) = 1
    ∧ (parseHold ((ask (holdWords 1)).words.drop 2)).toOption = some ⟨1, 3, some 0, 1000000, 900⟩
    ∧ (parseHold ((ask (holdWords 0)).words.drop 2)).toOption = some ⟨1, 3, none, 1000000, 900⟩
    ∧ (quay.tables.lots[(0 : LotIx)]).isSome
    ∧ (∀ k : HoldIx, k ≠ 0 → ∀ h ∈ quay.tables.holds[k], ¬ (h.vessel = 1 ∧ h.number = 3))
    ∧ actionOf (paramAt (ask [1, 0x4201]) 0) = 2 ∧ (quay.tables.holds[(0 : HoldIx)]).isSome := by decide +kernel

theorem witness_RouteWalkFollowsTheBelts :
    ([⟨0, 0⟩].map fun x : Setting => x.diverter).Nodup ∧ quay.deriveBelts ⟨0, 0, [⟨0, 0⟩], 0⟩ = some [0, 1]
    ∧ quay.deriveBelts ⟨0, 0, [⟨0, 0⟩], 1⟩ = none ∧ quay.deriveBelts ⟨0, 0, [⟨0, 1⟩], 1⟩ = some [0] := by
  decide +kernel

/-- The words of a DEFINE of route 1 over diverter 1 at position 0 to a bin. -/
def routeWords (bin : Nat) : List Word := [1, 0x2101, 0x0101, word2 1 bin, 0x0100]

theorem witness_RouteWriteStoresTheWalk :
    quay.addressed (ask (routeWords 1)) ∧ quay.ringOfMessage (ask (routeWords 1)) ≤ 1
    ∧ selectorOf (paramAt (ask (routeWords 1)) 0) = 2 ∧ indexOf (paramAt (ask (routeWords 1)) 0) = num (0 : RouteIx)
    ∧ (parseRoute ((ask (routeWords 1)).words.drop 2)).toOption = some ⟨0, 0, [⟨0, 0⟩], 0⟩
    ∧ quay.deriveBelts ⟨0, 0, [⟨0, 0⟩], 0⟩ = some [0, 1] ∧ quay.deriveBelts ⟨0, 0, [⟨0, 0⟩], 1⟩ = none
    ∧ (∀ e ∈ quay.tables.routes[(0 : RouteIx)], e.users = 0) ∧ (∃ e ∈ working.tables.routes[(0 : RouteIx)], 0 < e.users)
    ∧ working.addressed (ask (routeWords 1)) ∧ actionOf (paramAt (ask [1, 0x2201]) 0) = 2 := by decide +kernel

/-- The words of a DEFINE of a station at address 50, and of its entry. -/
def stationDefine (contents : List Word) : List Word := [0, 0x1132] ++ contents

/-- The hypotheses on the first definition of a station at address 50. -/
abbrev defines (contents : List Word) (e : StationEntry) : Prop :=
  quay.addressed (ask (stationDefine contents)) ∧ quay.ringOfMessage (ask (stationDefine contents)) = 0
    ∧ selectorOf (paramAt (ask (stationDefine contents)) 0) = 1 ∧ actionOf (paramAt (ask (stationDefine contents)) 0) = 1
    ∧ indexOf (paramAt (ask (stationDefine contents)) 0) = 50
    ∧ (parseStation (quay.addressTaken 50) contents).toOption = some (some e)
    ∧ quay.tables.stations[(50 : Addr)] = none ∧ quay.stationInUse 50 (some e) = false

theorem witness_StationIsDefined :
    defines [0x0203, 0x0314, 600, 100, 500, 50, 600, 400, 0x1428] ⟨3, 20, .unloader 2 (unloaderData 600 100 500 50)⟩
    ∧ defines [0x0303, 0x0314, 400, 1000, 150, 100, 0x0101] ⟨3, 20, .belt 2 ⟨400, 1000, 150, 100, .bin 0⟩⟩
    ∧ defines [0x0402, 0x0300, 0x020A, 0x0101, 0x0202, 0, 0] ⟨3, 0, .diverter 1 ⟨[.bin 0, .belt 1], 10⟩⟩
    ∧ defines [0x0500, 0x0100] ⟨1, 0, .supervisor⟩ :=
  by and_intros <;> decide +kernel

/-- The small quay without its route, and with a pending divert or without. -/
def unrouted (pending : Option Telegram) : State :=
  (quay.setRoute 0 none).setDiverter 0 (some ⟨some 0, pending, pending.map fun _ => ⟨0, 10000⟩⟩)

/-- Writes of stations: a deletion of nothing, one of a station in use, one of a diverter with a pending divert, and
those that are stored; the words are those of a DELETE, and of the contents NONE. -/
theorem witness_StationIsDefined_writes :
    (∀ w ∈ [[0, 0x122D], [0, 0x120A], [0, 0x121E], [0, 0x1132, 0x0100]],
      quay.addressed (ask w) ∧ quay.ringOfMessage (ask w) = 0 ∧ selectorOf (paramAt (ask w) 0) = 1)
    ∧ (parseStation (quay.addressTaken 50) [0x0100]).toOption = some none
    ∧ quay.tables.stations[(45 : Addr)] = none ∧ quay.tables.stations[(50 : Addr)] = none
    ∧ quay.writeMeetsUse 10 none ∧ ¬ (unrouted none).writeMeetsUse 30 none
    ∧ ¬ (unrouted (some (divertTo 1))).writeMeetsUse 30 none
    ∧ (unrouted none).tables.stations[(30 : Addr)] = some ⟨3, 20, .diverter 0 ⟨[.belt 1, .bin 1], 10⟩⟩
    ∧ (unrouted (some (divertTo 1))).seg.diverters[(0 : DiverterIx)]
      = some ⟨some 0, some (divertTo 1), some ⟨0, 10000⟩⟩ := by
  simp only [← stationInUse_iff]
  decide +kernel

/-- The entries that a rewrite, a deletion or a change of the kind finds: an unloader with a source and one without, a
belt whose head is clear and one whose head is not, a diverter, a panel (R7, R8). -/
theorem witness_StationIsDefined_changes :
    (∀ a : Addr, a ∈ [10, 11, 20, 30, 40] → (quay.tables.stations[a]).isSome)
    ∧ fed.tracker.sources[(0 : UnloaderIx)] = some ⟨0, 0⟩ ∧ quay.tracker.sources[(0 : UnloaderIx)] = none
    ∧ (∀ r ∈ quay.tracker.belts[(0 : BeltIx)], ∀ z ∈ r.queue, z.stage = .travelling)
    ∧ ¬ (∀ r ∈ (withQueue quay [{ slug 0 none none 0 with stage := .approaching }]).tracker.belts[(0 : BeltIx)],
      ∀ z ∈ r.queue, z.stage = .travelling)
    ∧ (StationKind.belt 0 ⟨400, 1000, 150, 100, .diverter 0⟩).sameIndex (.belt 0 ⟨500, 1000, 150, 100, .bin 0⟩) = true
    ∧ (StationKind.unloader 0 (unloaderData 600 100 500 50)).sameIndex (.unloader 0 (unloaderData 700 100 500 50)) = true
    ∧ (StationKind.unloader 0 (unloaderData 600 100 500 50)).sameIndex (.unloader 1 (unloaderData 600 100 500 50)) = false
    ∧ (StationKind.belt 0 ⟨400, 1000, 150, 100, .diverter 0⟩).sameIndex .panel = false := by decide +kernel

theorem witness_LegStartIsChecked :
    quay.serves (ask [1, 7, 1, 1, 0]) 1 4 ∧ quay.serves (ask [1, 6, 19, 1, 0]) 1 4
    ∧ quay.legs[(0 : UnloaderIx)].state = .idle ∧ working.legs[(0 : UnloaderIx)].state = .active
    ∧ working.serves (ask [1, 1, 18, 32, 1]) 1 4 ∧ ended.serves (ask [1, 1, 18, 32, 1]) 1 4
    ∧ ended.legs[(0 : UnloaderIx)].state = .ended
    ∧ quay.unloaderStation 5 = none ∧ (∀ k : SlotIx, (quay.nv.slots[(1 : UnloaderIx)])[k] = none) := by decide +kernel

/-- A leg that may be started on hold 1 and route 1, and the states in which a check of R29 or R30 refuses it. -/
abbrev startable (s : State) : Prop :=
  s.serves (ask [1, 1, 1, 1, 0]) 1 4 ∧ s.legs[(0 : UnloaderIx)].state = .idle ∧ (s.unloaderStation 0).isSome
    ∧ ((s.nv.slots[(0 : UnloaderIx)])[(0 : SlotIx)]).isSome

/-- The states in which checks 4 to 10 refuse a start of leg 1, in their order. -/
def refusing : List State :=
  [quay.setHold 0 none, quay.setHold 0 (some ⟨1, 3, none, 1000000, 900, .undeclared, 0⟩),
    quay.setHold 0 (some ⟨1, 3, some 0, 1000000, 900, .empty, 0⟩),
    quay.setRoute 0 none, quay.setRoute 0 (some ⟨1, 0, [⟨0, 0⟩], 0, [0, 1], 0⟩),
    quay.setLot 0 (some ⟨1, 0, 2#48, [], 0, 0⟩), quay.setBin 0 (some ⟨1000000, 1000, false, none, 0⟩),
    quay.setBin 0 (some ⟨1000000, 1000, true, some 1, 0⟩),
    quay.setLeg 1 { legIn .active 0 0 0 with lot := some 1 },
    quay.setLeg 1 { legIn .active 0 0 0 with belts := [1, 0] }, quay.setLeg 1 { legIn .active 0 0 0 with bin := some 1 },
    (quay.setRoute 1 (some ⟨1, 0, [⟨0, 1⟩], 0, [0, 1], 1⟩)).setLeg 1 { legIn .active 0 0 0 with route := some 1 }]

theorem test_leg_start_refusals :
    (∀ s ∈ refusing, startable s)
    ∧ refusing.map (fun s => seen (.legStart .a (ask [1, 1, 1, 1, 0])) s fun t => t.path.egressA) =
      [4, 4, 9, 10, 10, 11, 12, 13, 14, 15, 15, 15].map fun r => some [.own 1 .reply [5, r] none] :=
  ⟨by decide +kernel, by decide +kernel⟩

/-- Lists that go on alike from their first shared belt, and lists that do not (R30). -/
theorem witness_LegStartIsChecked_merging :
    joinsCleanly [0, 1] [2, 1] ∧ ¬ joinsCleanly [0, 1] [1, 0] := by
  refine ⟨⟨[0], 1, [], [2], rfl, by decide, rfl, by decide⟩, ?_⟩
  rintro ⟨before, c, after, start, h1, h2, h3, h4⟩
  cases before with
  | nil =>
    cases h1
    have := congrArg (List.getLast? ·) h3
    simp at this
  | cons x before =>
    exact h2 x (by simp) (by rw [← (List.cons.inj h1).1]; decide)

/-- The small quay with two ACTIVE legs to be started beside leg 1: leg 2 is calibrated, with a route to bin 1. -/
def twoLegs : State :=
  let s := working.setRoute 1 (some ⟨1, 1, [], 0, [1], 0⟩)
  { s with nv := { s.nv with slots := put s.nv.slots 1 (put (Vector.replicate 4 none) 0 (some 1000)) } }

theorem witness_LegStartAccepted :
    twoLegs.serves (ask [1, 2, 1, 2, 0]) 1 4 ∧ twoLegs.legs[(1 : UnloaderIx)].state = .idle
    ∧ twoLegs.unloaderStation 1 = some (11, unloaderData 600 100 500 50)
    ∧ (twoLegs.nv.slots[(1 : UnloaderIx)])[(0 : SlotIx)] ≠ none
    ∧ twoLegs.tables.holds[(0 : HoldIx)] = some ⟨1, 3, some 0, 1000000, 900, .freeDig, 0⟩
    ∧ twoLegs.tables.routes[(1 : RouteIx)] = some ⟨1, 1, [], 0, [1], 0⟩
    ∧ twoLegs.tables.lots[(0 : LotIx)] = some ⟨1, 0, 3, [], 0, 0⟩
    ∧ twoLegs.tables.bins[(0 : BinIx)] = some ⟨1000000, 1000, true, none, 0⟩ ∧ (3#48).getLsbD 0 = true
    ∧ (∀ j : UnloaderIx, twoLegs.legs[j].state = .active → sharesBelt [1] twoLegs.legs[j].belts = true →
      (twoLegs.legs[j].lot = some 0 ∧ twoLegs.compatible 0 0 = true) ∧ twoLegs.legs[j].bin = some 0
        ∧ sameFromFirstShared [1] twoLegs.legs[j].belts = true
        ∧ settingsDiffer [] (twoLegs.legSettings twoLegs.legs[j]) = false)
    ∧ seen (.legStart .a (ask [1, 2, 1, 2, 0])) twoLegs (fun t => (t.legs[(1 : UnloaderIx)].state, t.legs[(0 : UnloaderIx)].g))
      = some (.active, 0) := by decide +kernel

/-- The accounts of lot 1 that a start finds (R133). -/
theorem witness_LegStartAccepted_lines :
    (∀ k : Fin 4, (account twoLegs 0 0 k).serves (ask [1, 2, 1, 2, 0]) 1 4
      ∧ (account twoLegs 0 0 k).legStartRefusal 1 0 1 = none)
    ∧ accountIs (account twoLegs 0 0 0) 0 0 true true true ∧ accountIs (account twoLegs 0 0 1) 0 0 false true true
    ∧ accountIs (account twoLegs 0 0 2) 0 0 false false true
    ∧ accountIs (account twoLegs 0 0 3) 0 0 false false false :=
  by and_intros <;> decide +kernel


theorem witness_LegStopEndsTheLeg :
    working.serves (ask [1, 1, 2]) 1 2 ∧ working.legs[(0 : UnloaderIx)].state = .active
    ∧ quay.serves (ask [1, 6, 1]) 1 2 ∧ quay.legs[(5 : UnloaderIx)].state ≠ .active
    ∧ quay.serves (ask [1, 7, 1]) 1 2 := by decide +kernel

theorem witness_LegClearEmptiesTheRecord :
    ended.serves (ask [1, 1]) 1 1 ∧ ended.legs[(0 : UnloaderIx)].state = .ended
    ∧ working.serves (ask [1, 1]) 1 1 ∧ working.legs[(0 : UnloaderIx)].state = .active
    ∧ quay.serves (ask [1, 6]) 1 1 ∧ quay.legs[(5 : UnloaderIx)].state = .idle ∧ quay.serves (ask [1, 7]) 1 1 := by
  decide +kernel

theorem witness_SetAllocatorSetsTheNext :
    quay.serves (ask [1, 20001, 100]) 1 2 ∧ (paramAt (ask [1, 20001, 100]) 1).toNat = 100
    ∧ quay.serves (ask [1, 20000, 300]) 1 2 ∧ (paramAt (ask [1, 20000, 300]) 1).toNat = 300 := by decide +kernel

theorem witness_BinResetEmptiesTheBin :
    quay.serves (ask [1, 1]) 1 1 ∧ (quay.tables.bins[(0 : BinIx)]).isSome
    ∧ ¬ ((∃ i : UnloaderIx, quay.legs[i].state = .active ∧ quay.legs[i].bin = some 0)
      ∨ ∃ k : BeltIx, ∃ r ∈ quay.tracker.belts[k], ∃ y ∈ r.queue, ∃ g ∈ y.grain, g.bin = 0)
    ∧ working.serves (ask [1, 1]) 1 1
    ∧ (∃ i : UnloaderIx, working.legs[i].state = .active ∧ working.legs[i].bin = some 0)
    ∧ quay.serves (ask [1, 48]) 1 1 ∧ quay.tables.bins[(47 : BinIx)] = none ∧ quay.serves (ask [1, 49]) 1 1 := by
  decide +kernel

theorem witness_SnapshotCopiesTheLot :
    quay.serves (ask [3, 1]) 3 1 ∧ (quay.tables.lots[(0 : LotIx)]).isSome ∧ quay.serves (ask [3, 16]) 3 1
    ∧ quay.tables.lots[(15 : LotIx)] = none ∧ quay.serves (ask [3, 17]) 3 1 := by decide +kernel

/-- The small quay with all four slots of unloader 1 written. -/
def slotsFull : State :=
  { quay with nv := { quay.nv with slots := put quay.nv.slots 0 (Vector.replicate 4 (some 100)) } }

theorem witness_WritesAreStarted :
    quay.serves (ask [0, 1, 60000]) 0 2 ∧ quay.legs[(0 : UnloaderIx)].state ≠ .active ∧ quay.writer = .idle
    ∧ (quay.nv.slots[(0 : UnloaderIx)])[(1 : SlotIx)] = none
    ∧ (∀ j : SlotIx, j < 1 → (quay.nv.slots[(0 : UnloaderIx)])[j] ≠ none)
    ∧ slotsFull.serves (ask [0, 1, 100]) 0 2 ∧ (∀ k : SlotIx, (slotsFull.nv.slots[(0 : UnloaderIx)])[k] ≠ none)
    ∧ working.serves (ask [0, 1, 100]) 0 2 ∧ working.legs[(0 : UnloaderIx)].state = .active
    ∧ quay.serves (ask [0, 1, 99]) 0 2
    ∧ Addresses.valid ⟨50, 1⟩ ∧ quay.tables.stations[(50 : Addr)] = none ∧ quay.mgmt.writing = none
    ∧ (quay.tables.stations[(10 : Addr)]).isSome ∧ quay.serves (ask [0, 62, 62]) 0 2 := by decide +kernel

theorem witness_FlagsAreClearedAndMasked :
    quay.serves (ask [1, 1023, 63, 1]) 1 3 ∧ (paramAt (ask [1, 1023, 63, 1]) 0).toNat < 2 ^ 10
    ∧ (paramAt (ask [1, 1023, 63, 1]) 1).toNat < 2 ^ 6 ∧ quay.serves (ask [1, 1024, 0, 0]) 1 3
    ∧ quay.serves (ask [1, 1, 64, 0]) 1 3 ∧ ((1 : Word).getLsbD 0 = true ∧ 2 ^ 6 ≤ (64 : Word).toNat)
    ∧ quay.serves (ask [1, 2, 64, 0]) 1 3 ∧ (2 : Word).getLsbD 0 = false
    ∧ quay.serves (ask [1, 1023]) 1 1 ∧ quay.serves (ask [1, 1024]) 1 1
    ∧ 2 ^ 10 ≤ (paramAt (ask [1, 1024]) 0).toNat := by decide +kernel

theorem witness_CursorOpensAndExpires :
    quay.addressed (ask [1, 5, 48, 1]) ∧ quay.ringOfMessage (ask [1, 5, 48, 1]) ≤ quay.ringNeeded 17 (ask [1, 5, 48, 1])
    ∧ tableOf 5 = some .bin ∧ Table.first .bin ≤ 48 ∧ 48 + 1 - 1 ≤ Table.last .bin ∧ Table.last .bin < 48 + 2 - 1
    ∧ quay.ringOfMessage (ask [1, 5, 48, 2]) ≤ quay.ringNeeded 17 (ask [1, 5, 48, 2]) ∧ tableOf 6 = none
    ∧ quay.power = .on ∧ quay.mgmt.cursor = none
    ∧ ({ quay with mgmt := { quay.mgmt with cursor := some ⟨40, .bin, 12, 2, 30000⟩ } } : State).mgmt.cursor
      = some ⟨40, .bin, 12, 2, 30000⟩
    ∧ ({ quay with mgmt := { quay.mgmt with cursor := some ⟨40, .bin, 12, 0, 30000⟩ } } : State).mgmt.cursor
      = some ⟨40, .bin, 12, 0, 30000⟩
    ∧ (∀ x ∈ some (Cursor.mk 40 .bin 12 2 29999), x.idle < 30000) ∧ (∀ x ∈ (none : Option Cursor), x.idle < 30000)
    ∧ seen .cursorIdleExpiry { quay with mgmt := { quay.mgmt with cursor := some ⟨40, .bin, 12, 2, 29999⟩ } }
      (fun t => (t.mgmt.cursor, t.notices.flags.cursorExpired)) = some (some ⟨40, .bin, 12, 2, 29999⟩, false) := by
  decide +kernel

/-- The small quay with a cursor on the bin table, at bin 10. -/
def bulk (owner : Addr) (remaining : Nat) : State :=
  { quay with mgmt := { quay.mgmt with cursor := some ⟨owner, .bin, 10, remaining, 5000⟩ } }

/-- The words of a BULK DATA for bin 10, of 800 000 kg. -/
def binWords : List Word := [1, 0x510A, 12, 13568, 0, 20000, 1]

theorem witness_BulkDataWritesTheEntry :
    (bulk 1 4).addressed (ask binWords) ∧ (bulk 1 4).ringOfMessage (ask binWords) ≤ (bulk 1 4).ringNeeded 18 (ask binWords)
    ∧ firstMissing (writeLayout (bulk 1 4).cursorTable (binWords.drop 1)) (binWords.length - 1) 1 = none
    ∧ indexOf (paramAt (ask binWords) 0) = 10 ∧ selectorOf (paramAt (ask binWords) 0) = Table.code .bin
    ∧ (bulk 1 0).addressed (ask binWords)
    ∧ actionOf (paramAt (ask binWords) 0) = 1 ∧ 7 ≤ (ask binWords).words.length
    ∧ (parseBin ((ask binWords).words.drop 2)).toOption = some ⟨800000, 20000, true⟩
    ∧ (bulk 1 4).tables.bins[(9 : BinIx)] = none ∧ num (9 : BinIx) = 10
    ∧ (bulk 40 4).addressed (ask binWords) ∧ (∀ x ∈ (bulk 40 4).mgmt.cursor, x.owner ≠ (ask binWords).source)
    ∧ quay.ringOfMessage (ask binWords) ≤ quay.ringNeeded 18 (ask binWords) ∧ quay.mgmt.cursor = none
    ∧ firstMissing (writeLayout quay.cursorTable (binWords.drop 1)) (binWords.length - 1) 1 = none := by decide +kernel

/-- A quay with something of everything in flight: leg 1 with its forwarded feed, a guard order of an idle leg that was
to be followed by a FEED 0, a pending divert, COMMISSION replies in both queues. -/
def inFlight : State :=
  let s := working.setDiverter 0 (some ⟨some 0, some (divertTo 1), some ⟨500, 10000⟩⟩)
  { s with path := { s.path with
    egressA := [waiting, .own 1 .reply [19, 0, 50, 1] (some ⟨50, 1⟩)]
    forwardB := [.own 1 .reply [19, 0, 51, 1] (some ⟨51, 1⟩), .forwarded ⟨11, 2, .order, 0, [1, 0]⟩]
    guardB := [⟨1, 11, 420⟩] } }

theorem witness_RestartGivesUpWhatIsInFlight :
    inFlight.passes 1 (ask [0]) ∧ inFlight.ringOfMessage (ask [0]) = 0 ∧ (ask [0]).dest = inFlight.mgmt.inForce.own
    ∧ inFlight.passes 1 ⟨63, 1, 0, [0]⟩ ∧ inFlight.ringOfMessage ⟨63, 1, 0, [0]⟩ = 0
    ∧ (63 : Addr) ≠ inFlight.mgmt.inForce.own ∧ (63 : Addr) = broadcast
    ∧ 0 < inFlight.legs[(0 : UnloaderIx)].f ∧ (inFlight.unloaderStation 0).isSome := by decide +kernel

/-- Section 8.8: the reply first, the answers behind it; every guard order carries 0, that of the leg whose forwarded
feed is 0 already too, in its place; the copy of a broadcast RESTART at the head of the other queue. -/
theorem test_restart :
    seen (.restart .a (ask [0])) inFlight (fun t => (t.path.egressA, t.path.forwardB, t.path.guardB, t.mgmt.inForce.own))
      = some ([.own 1 .reply [20, 0] none, .own 2 .answer [30, 2, 8, 1] none], [], [⟨1, 11, 0⟩, ⟨0, 10, 0⟩], 51)
    ∧ seen (.restart .b ⟨63, 1, 0, [0]⟩) inFlight (fun t => (t.path.egressA, t.path.forwardB))
      = some ([.forwarded ⟨63, 1, .request, 0, [20, 0]⟩, .own 2 .answer [30, 2, 8, 1] none],
        [.own 1 .reply [20, 0] none]) := by decide +kernel

theorem witness_CausesSetFlagsAndSendNotices :
    quay.notices.flags.get .breach = false ∧ maskEnables quay.notices.mask Cause.breach = true
    ∧ ({ quay with notices := { quay.notices with mask := 0 } } : State).notices.mask = 0
    ∧ maskEnables 0 Cause.breach = false := by decide +kernel

/-- The small quay with leg 1 ACTIVE and a budget for it. -/
def allowed : State := { working with alloc := { working.alloc with budgetInUse := 1000 } }

/-- The small quay with two ACTIVE legs that share belt 2. -/
def apart : State := twoLegs.setLeg 1 { legIn .active 0 0 0 with route := some 1, belts := [1] }

theorem inRange_allowed : allowed.RangeLaw := by
  have h : ∀ a : Addr, ∀ e ∈ allowed.tables.stations[a],
      e.ringCeiling ∈ [0, 1, 3] ∧ e.silenceLimit ≠ 1 ∧ e.silenceLimit ≤ 255
        ∧ e.kind ∈ [.unloader 0 (unloaderData 600 100 500 50), .unloader 1 (unloaderData 600 100 500 50),
          .belt 0 ⟨400, 1000, 150, 100, .diverter 0⟩, .belt 1 ⟨600, 800, 200, 100, .bin 0⟩,
          .diverter 0 ⟨[.belt 1, .bin 1], 10⟩, .panel] ∧ (e.kind = .panel → e.silenceLimit = 0) := by
    decide +kernel
  intro a e he
  obtain ⟨h1, h2, h3, hk, hp⟩ := h a e he
  refine ⟨h1, h2, h3, ?_⟩
  simp only [List.mem_cons, List.not_mem_nil, or_false] at hk
  rcases hk with hk | hk | hk | hk | hk | hk <;> rw [hk] <;> simp only [StationKind.inRange]
  · decide
  · decide
  · decide
  · decide
  · exact ⟨by decide, by decide, by simp⟩
  · exact hp hk

theorem witness_step_laws :
    working.FeedLaw ∧ working.AllocatorLaw ∧ fed.SlugLaw ∧ working.TimerLaw ∧ working.QueueLaw ∧ working.AddressLaw
    ∧ working.StationLaw :=
  by and_intros <;> decide +kernel

theorem witness_StepKeepsCalibration : working.CalibrationLaw ∧ (quay68 none 0 0).AccountLaw :=
  ⟨⟨by decide +kernel, trivial⟩, test_accounts_sound⟩

theorem witness_StepKeepsGrantsWithinLimits : allowed.Grants :=
  ⟨inRange_allowed, ⟨by decide +kernel, by decide +kernel⟩, by decide +kernel, by decide +kernel, by decide +kernel⟩

theorem witness_StepKeepsLegsApart : apart.MergeLaw :=
  ⟨by decide +kernel, by decide +kernel, by decide +kernel⟩

/-- Every state has a step. -/
theorem witness_step_answers : ∃ t, step { working with pending := [.allocationPeriodExpiry] } = .next t := ⟨_, rfl⟩

end Sys2Proof.Tests
end

