-- ==== Sys2Proof/Proofs/HoldAndBinWrites.lean ====
section
/-!
PROOFS. A write and a deletion of a hold (R16, R17), and BIN RESET (R22).
-/

namespace Sys2Proof.Machine

/-! ### The write of a hold (R16, R17) -/

/-- A DEFINE of a hold needs the table word and the five words of its contents (R161). -/
theorem firstMissing_defineHold {m : Message} (hl : 7 ≤ m.words.length) :
    firstMissing (writeLayout (some .hold) (m.words.drop 1)) (m.words.length - 1) 1 = none := by
  obtain ⟨extra, words⟩ : ∃ extra, m.words.length - 1 = extra + 6 := ⟨m.words.length - 7, by omega⟩
  rw [words]
  unfold writeLayout contentsLayout
  dsimp only
  split <;> simp [firstMissing, tableWordGroup, twoFields, oneField]

/-- A vessel and hold number are taken exactly where another entry of the table has them (R16). -/
theorem holdPairTaken_iff (s : State) (n : HoldIx) (vessel number : Nat) : s.holdPairTaken n vessel number = true ↔
    ∃ k : HoldIx, k ≠ n ∧ ∃ h ∈ s.tables.holds[k], h.vessel = vessel ∧ h.number = number := by
  unfold State.holdPairTaken
  rw [List.any_eq_true]
  simp only [mem_allIx, true_and, Bool.and_eq_true, bne_iff_ne]
  refine exists_congr fun k => and_congr_right fun _ => ?_
  cases s.tables.holds[k] <;> simp

/-- An amount that is the old one for the same vessel and hold number, and 0 otherwise, is the one kept (R17). -/
theorem keptDischarged_eq {old : Option Hold} {x : HoldWrite} {d : Nat}
    (same : ∀ h, old = some h → h.vessel = x.vessel ∧ h.number = x.number → d = h.discharged)
    (other : (∀ h ∈ old, ¬ (h.vessel = x.vessel ∧ h.number = x.number)) → d = 0) : keptDischarged old x = d := by
  unfold keptDischarged
  cases old with
  | none => exact (other (by simp)).symm
  | some h =>
    dsimp only
    split
    next e => exact (same h rfl e).symm
    next e => exact (other (by simpa using e)).symm

/-- A hold write that meets no refusal stores the entry (R16, R17). -/
theorem writeHold_written {n : HoldIx} {x : HoldWrite} {s : State} (free : s.holdInUse n = false)
    (pair : s.holdPairTaken n x.vessel x.number = false) (lots : ∀ lot ∈ x.lot, (s.tables.lots[lot]).isSome) :
    writeHold n x s = written (s.setHold n (some
      { vessel := x.vessel, number := x.number, lot := x.lot, declared := x.declared
        threshold := x.threshold, phase := if x.lot = none then .undeclared else .freeDig
        discharged := keptDischarged s.tables.holds[n] x })) := by
  unfold writeHold
  rw [free, pair]
  cases hx : x.lot with
  | none => simp
  | some lot =>
    have defined : s.tables.lots[lot] ≠ none := Option.isSome_iff_ne_none.1 (lots lot hx)
    simpa using fun absent => absurd absent defined

/-- A deletion of a defined hold that is not in use discards the entry (R16, R17). -/
theorem deleteHold_written {n : HoldIx} {s : State} (here : (s.tables.holds[n]).isSome)
    (free : s.holdInUse n = false) : deleteHold n s = written (s.setHold n none) := by
  unfold deleteHold
  rw [Option.isNone_eq_false_iff.2 here, free]
  rfl

/-- A DEFINE of a hold whose contents are in range is its write (R1, R16). -/
theorem writeEntry_defineHold {n : HoldIx} {index action : Nat} {ws : List Word} {x : HoldWrite} {s : State}
    (hi : index = num n) (ha : action = 1) (hx : parseHold ws = .ok x) :
    writeEntry .hold index action ws s = writeHold n x s := by
  subst ha
  show writeAt .hold index true ws s = _
  unfold writeAt
  simp only [ixOf_num n hi, hx, if_true]
  rfl

/-- A DELETE of a hold is its deletion (R1, R16). -/
theorem writeEntry_deleteHold {n : HoldIx} {index action : Nat} {ws : List Word} {s : State}
    (hi : index = num n) (ha : action = 2) : writeEntry .hold index action ws s = deleteHold n s := by
  subst ha
  show writeAt .hold index false ws s = _
  unfold writeAt
  simp only [ixOf_num n hi]
  rfl

/-- Settles O37: a write that meets no refusal stores the entry with its phase and kept amount, and a deletion
of a hold that is not in use clears it. -/
theorem holdWriteSetsPhase : Obligations.HoldWriteSetsPhase := by
  intro port m s n addressed ring sel ix free
  have table : tableOf (selectorOf (paramAt m 0)) = some .hold := by rw [sel]; rfl
  refine ⟨fun x len act parsed pair lots d same other => ?_, fun len act here => ?_⟩
  · have untaken : s.holdPairTaken n x.vessel x.number = false := by
      rw [Bool.eq_false_iff, ne_eq, holdPairTaken_iff]
      rintro ⟨k, hk, h, hh, e⟩
      exact pair k hk h hh e
    have wrote := (writeEntry_defineHold ix act parsed).trans (writeHold_written free untaken lots)
    rw [keptDischarged_eq same other] at wrote
    exact tableWrite_served addressed table ring (firstMissing_defineHold len) _ wrote
  · have wrote := (writeEntry_deleteHold (ws := m.words.drop 2) ix act).trans (deleteHold_written here free)
    exact tableWrite_served addressed table ring (firstMissing_delete act len) _ wrote

/-! ### BIN RESET (R22) -/

/-- What BIN RESET comes to for the bin that its number names, once its ring and its parameter are there (R22). -/
def binResetAnswer (port : Port) (m : Message) (s : State) : Option BinIx → State
  | none => replied port m 9 3 [] s
  | some n =>
    match s.tables.bins[n] with
    | none => replied port m 9 4 [] s
    | some b =>
      if s.binBusy n then replied port m 9 5 [] s
      else replied port m 9 0 [] (s.setBin n (some { b with lot := none, fill := 0 }))

/-- A BIN RESET with the ring and the parameter it needs is answered by the bin that its number names (R22). -/
theorem binReset_served {port : Port} {m : Message} {s : State} (h : s.serves m 1 1) :
    exec (.binReset port m) s = .next (binResetAnswer port m s (ixOf 48 (paramAt m 0).toNat)) := by
  show Host.Outcome.next (whenOn (requestArrives port m 9 (served takeBinReset)) s) = _
  refine next_congr ((served_own h fun _ _ => rfl).trans ?_)
  rw [params_taken]
  cases ixOf 48 (paramAt m 0).toNat with
  | none => rfl
  | some n =>
    dsimp only [binResetAnswer]
    cases s.tables.bins[n] with
    | none => rfl
    | some b => by_cases busy : s.binBusy n <;> simp only [busy] <;> rfl

/-- The answer for a bin that is not defined (R22). -/
theorem binResetAnswer_undefined {port : Port} {m : Message} {s : State} {n : BinIx} (h : s.tables.bins[n] = none) :
    binResetAnswer port m s (some n) = replied port m 9 4 [] s := by
  simp only [binResetAnswer, h]

/-- The answer for a defined bin turns on what is bound for it (R22). -/
theorem binResetAnswer_defined {port : Port} {m : Message} {s : State} {n : BinIx} {b : Bin}
    (h : s.tables.bins[n] = some b) : binResetAnswer port m s (some n) =
      if s.binBusy n then replied port m 9 5 [] s
      else replied port m 9 0 [] (s.setBin n (some { b with lot := none, fill := 0 })) := by
  simp only [binResetAnswer, h]

/-- Settles O46: the bin that the number names, and what is bound for it, decide the answer. -/
theorem binResetEmptiesTheBin : Obligations.BinResetEmptiesTheBin := by
  intro port m s serves
  refine ⟨fun n b used ix here use => ?_, fun n ix absent => ?_, fun outside => ?_⟩
  · have busy : s.binBusy n = true ↔ used := (binBusy_iff s n).trans use.symm
    rw [binReset_served serves, ixOf_num n ix, binResetAnswer_defined here]
    exact ⟨fun free => next_congr (if_neg (mt busy.1 free)), fun u => next_congr (if_pos (busy.2 u))⟩
  · rw [binReset_served serves, ixOf_num n ix, binResetAnswer_undefined absent]
  · rw [binReset_served serves, ixOf_none outside]
    rfl

end Sys2Proof.Machine
end

