-- ==== Sys2Proof/Proofs/PowerOnValues.lean ====
section
/-!
PROOFS. The supply: what POWER_ON gives the legs, weighing and the notices, and what POWER_LOSS keeps (R48, R145,
R199).
-/

namespace Sys2Proof.Machine

/-- What the supply coming on leaves: the values of power-on over the records that outlast it (R189). -/
theorem exec_powerOn (s : State) :
    exec .powerOn s = .next (State.volatileReset .on s.nv s.freeUsed s.pending) := rfl

/-- What the loss of the supply leaves (R189; log entry 3). -/
theorem exec_powerLoss (s : State) :
    exec .powerLoss s = .next (State.volatileReset .off s.nv s.freeUsed s.pending) := rfl

/-! ### Each entry at power-on -/

section
variable (power : Power) (nv : Nonvolatile) (freeUsed : Nat) (pending : List Instr)

theorem volatileReset_leg (i : UnloaderIx) :
    (State.volatileReset power nv freeUsed pending).legs[i] = Leg.atRest := replicate_get _ i

theorem volatileReset_route (k : RouteIx) :
    (State.volatileReset power nv freeUsed pending).tables.routes[k] = none := replicate_get _ k

theorem volatileReset_lot (i : LotIx) :
    (State.volatileReset power nv freeUsed pending).tables.lots[i] = none := replicate_get _ i

theorem volatileReset_weigher (i : UnloaderIx) :
    (State.volatileReset power nv freeUsed pending).weighing.weighers[i] = Weigher.atPowerOn := replicate_get _ i

theorem volatileReset_block (k : BlockIx) :
    (State.volatileReset power nv freeUsed pending).weighing.pool[k] = [] := replicate_get _ k

/-- With no lot defined, no chain holds a block (R132, R145). -/
theorem volatileReset_blockFree (k : BlockIx) :
    (State.volatileReset power nv freeUsed pending).blockFree k = true := by
  rw [blockFree_iff]
  intro i l here
  rw [volatileReset_lot] at here
  cases here

end

/-- Every flag is clear, those of the legs too (R199). -/
theorem Flags.get_allClear (f : Flag) : Flags.allClear.get f = false := by
  cases f with
  | legEnded i => exact replicate_get _ i
  | breach | stationSilent | stationBack | divertTimeout | weigherGlitch | poolExhausted | trackerFull | powerShort
  | cursorExpired => rfl

/-- Settles O4: each entry of the legs, the weighers and the pool reads its power-on value, and the nonvolatile
records go through both commands as they are. -/
theorem powerOnLegsAndWeighing : Obligations.PowerOnLegsAndWeighing := by
  intro s
  refine ⟨⟨_, exec_powerOn s, fun i => ?legs, fun i => Flags.get_allClear _, fun k => ?routes, fun i => ?weighers,
    rfl, rfl, fun k => ⟨?free, ?lines⟩, fun i => ?lots, rfl, rfl, rfl, Flags.get_allClear _, Flags.get_allClear _⟩,
    _, exec_powerLoss s, rfl⟩
  case legs => exact volatileReset_leg _ _ _ _ i
  case routes => exact volatileReset_route _ _ _ _ k
  case weighers => exact volatileReset_weigher _ _ _ _ i
  case free => exact volatileReset_blockFree _ _ _ _ k
  case lines => exact volatileReset_block _ _ _ _ k
  case lots => exact volatileReset_lot _ _ _ _ i

end Sys2Proof.Machine
end

