-- ==== Sys2Proof/Proofs/LegStartChecks.lean ====
section
/-!
PROOFS. The checks of LEG START: its parameters (R27), its leg and unloader (R28), its hold, route and bin (R29),
and the other ACTIVE legs (R30).
-/

namespace Sys2Proof.Machine

/-! ### The parameters (R27, R161) -/

theorem exists_num {n k : Nat} (h : 1 ≤ k ∧ k ≤ n) : ∃ i : Fin n, k = num i :=
  ⟨⟨k - 1, by omega⟩, by simp only [num]; omega⟩

/-- A number within the indices of a kind names one. -/
theorem ixOf_within {n k : Nat} (h : 1 ≤ k ∧ k ≤ n) : ∃ i : Fin n, ixOf n k = some i := by
  obtain ⟨i, hi⟩ := exists_num h
  exact ⟨i, ixOf_num i hi⟩

theorem yesNo_above {w : Word} (h : 1 < w.toNat) : yesNo w = none := by
  have not1 : w ≠ 1 := by rintro rfl; exact absurd h (by decide)
  have not0 : w ≠ 0 := by rintro rfl; exact absurd h (by decide)
  unfold yesNo
  rw [if_neg not1, if_neg not0]

theorem yesNo_upTo_one {w : Word} (h : w.toNat ≤ 1) : ∃ d, yesNo w = some d := by
  obtain rfl | rfl : w = 0 ∨ w = 1 := by bv_omega
  · exact ⟨false, rfl⟩
  · exact ⟨true, rfl⟩

section
variable {q : Request} {i : UnloaderIx} {n : HoldIx} {k : RouteIx}

theorem parseStart_noLeg (leg : ixOf 6 (q.at 0).toNat = none) : parseStart q = .error 1 := by
  unfold parseStart
  rw [leg]
  rfl

theorem parseStart_noHold (leg : ixOf 6 (q.at 0).toNat = some i) (hold : ixOf 18 (q.at 1).toNat = none) :
    parseStart q = .error 2 := by
  unfold parseStart
  rw [leg, hold]
  rfl

theorem parseStart_noRoute (leg : ixOf 6 (q.at 0).toNat = some i) (hold : ixOf 18 (q.at 1).toNat = some n)
    (route : ixOf 32 (q.at 2).toNat = none) : parseStart q = .error 3 := by
  unfold parseStart
  rw [leg, hold, route]
  rfl

theorem parseStart_noYesNo (leg : ixOf 6 (q.at 0).toNat = some i) (hold : ixOf 18 (q.at 1).toNat = some n)
    (route : ixOf 32 (q.at 2).toNat = some k) (disable : yesNo (q.at 3) = none) : parseStart q = .error 4 := by
  unfold parseStart
  rw [leg, hold, route, disable]
  rfl

theorem parseStart_ok {d : Bool} (leg : ixOf 6 (q.at 0).toNat = some i) (hold : ixOf 18 (q.at 1).toNat = some n)
    (route : ixOf 32 (q.at 2).toNat = some k) (disable : yesNo (q.at 3) = some d) :
    parseStart q = .ok ⟨i, n, k, d⟩ := by
  unfold parseStart
  rw [leg, hold, route, disable]
  rfl

end

/-! ### How a refusal is answered (R181) -/

/-- A parameter out of range is answered with its position, and nothing else changes (R27). -/
theorem legStart_outOfRange {port : Port} {m : Message} {s : State} {position : Nat} (h : s.serves m 1 4)
    (bad : parseStart (requestTaken port m 5) = .error position) :
    exec (.legStart port m) s = .next (replied port m 5 3 [word position] s) := by
  show Host.Outcome.next (whenOn (requestArrives port m 5 (served takeLegStart)) s) = _
  refine next_congr ((served_own h fun _ _ => rfl).trans ?_)
  rw [bad]
  rfl

/-- The first check that fails within range is the answer, and nothing else changes (R28 to R30). -/
theorem legStart_refused {port : Port} {m : Message} {s : State} {i : UnloaderIx} {n : HoldIx} {k : RouteIx}
    {r : Result} (h : s.serves m 1 4) (leg : (paramAt m 0).toNat = num i) (hold : (paramAt m 1).toNat = num n)
    (route : (paramAt m 2).toNat = num k) (disable : (paramAt m 3).toNat ≤ 1)
    (refused : s.legStartRefusal i n k = some r) :
    exec (.legStart port m) s = .next (replied port m 5 r.code [] s) := by
  obtain ⟨d, hd⟩ := yesNo_upTo_one disable
  have read : parseStart (requestTaken port m 5) = .ok ⟨i, n, k, d⟩ := by
    apply parseStart_ok <;> rw [params_taken]
    exacts [ixOf_num i leg, ixOf_num n hold, ixOf_num k route, hd]
  show Host.Outcome.next (whenOn (requestArrives port m 5 (served takeLegStart)) s) = _
  refine next_congr ((served_own h fun _ _ => rfl).trans ?_)
  rw [read]
  dsimp only
  unfold legStartInRange
  rw [refused]
  rfl

/-! ### Lots and paths in the words of the rules (R14, R30) -/

/-- Two lots are compatible where they are one lot or of one group above 0 (R14). -/
theorem compatible_iff (s : State) (p q : LotIx) : s.compatible p q = true ↔
    p = q ∨ ∃ x ∈ s.tables.lots[p], ∃ y ∈ s.tables.lots[q], x.group = y.group ∧ x.group ≠ 0 := by
  unfold State.compatible
  rw [Bool.or_eq_true, beq_iff_eq]
  refine or_congr Iff.rfl ?_
  cases s.tables.lots[p] with
  | none => simp
  | some x => cases s.tables.lots[q] <;> simp

theorem calibrated_iff (s : State) (i : UnloaderIx) :
    s.calibrated i = true ↔ ∃ k : SlotIx, (s.nv.slots[i])[k] ≠ none := by
  unfold State.calibrated
  rw [List.any_eq_true]
  simp only [mem_allIx, true_and, Option.isSome_iff_ne_none]

theorem activeLegs_any_iff (s : State) (p : UnloaderIx → Bool) :
    s.activeLegs.any p = true ↔ ∃ j : UnloaderIx, s.legs[j].state = .active ∧ p j = true := by
  unfold State.activeLegs
  rw [List.any_eq_true]
  simp only [List.mem_filter, mem_allIx, true_and, beq_iff_eq]

theorem sharesBelt_iff (new old : List BeltIx) : sharesBelt new old = true ↔ ∃ c ∈ new, c ∈ old := by
  simp [sharesBelt]

theorem settingsDiffer_iff (xs ys : List Setting) : settingsDiffer xs ys = true ↔
    ∃ x ∈ xs, ∃ y ∈ ys, x.diverter = y.diverter ∧ x.position ≠ y.position := by
  simp [settingsDiffer]

/-- What a list drops up to a belt that it holds ends at the belt's first place. -/
theorem dropWhile_ne_eq_cons {c : BeltIx} {l after : List BeltIx} (h : l.dropWhile (· != c) = c :: after) :
    ∃ start, l = start ++ c :: after ∧ c ∉ start := by
  refine ⟨l.takeWhile (· != c), by rw [← h, List.takeWhile_append_dropWhile], fun mem => ?_⟩
  simpa using List.mem_takeWhile_imp mem

theorem dropWhile_ne_append {c : BeltIx} {start after : List BeltIx} (h : c ∉ start) :
    (start ++ c :: after).dropWhile (· != c) = c :: after := by
  rw [List.dropWhile_append_of_pos fun x hx => by simpa using fun e : x = c => h (e ▸ hx)]
  simp

/-- Lists that share a belt agree from their first shared belt on exactly where they join cleanly (R30). -/
theorem sameFromFirstShared_iff {new old : List BeltIx} (share : ∃ c ∈ new, c ∈ old) :
    sameFromFirstShared new old = true ↔ joinsCleanly new old := by
  unfold sameFromFirstShared
  cases first : new.find? fun b => old.contains b with
  | none =>
    obtain ⟨c, hn, ho⟩ := share
    exact absurd ho (by simpa using List.find?_eq_none.1 first c hn)
  | some b =>
    obtain ⟨shared, before, after, split, fresh⟩ := List.find?_eq_some_iff_append.1 first
    have inOld : b ∈ old := by simpa using shared
    have unshared : ∀ x ∈ before, x ∉ old := fun x hx => by simpa using fresh x hx
    have dropNew : new.dropWhile (· != b) = b :: after := by
      rw [split]
      exact dropWhile_ne_append fun mem => unshared b mem inOld
    dsimp only
    rw [beq_iff_eq, dropNew]
    constructor
    · intro same
      obtain ⟨start, ho, hs⟩ := dropWhile_ne_eq_cons same.symm
      exact ⟨before, b, after, start, split, unshared, ho, hs⟩
    · rintro ⟨before', c, after', start, split', unshared', ho, hs⟩
      have inOld' : c ∈ old := by simp [ho]
      have firstIsC : new.find? (fun b => old.contains b) = some c :=
        List.find?_eq_some_iff_append.2 ⟨by simpa using inOld', before', after', split',
          fun x hx => by simpa using unshared' x hx⟩
      obtain rfl : b = c := Option.some.inj (first.symm.trans firstIsC)
      rw [← dropNew, split', ho, dropWhile_ne_append hs, dropWhile_ne_append fun mem => unshared' b mem inOld']

/-- A leg stands against a start by its lot where the lists share a belt and the lots are not compatible (R30). -/
theorem lotConflict_iff (s : State) (lot : LotIx) (e : Route) (l : Leg) : s.lotConflict lot e l = true ↔
    (∃ c ∈ e.belts, c ∈ l.belts) ∧ ∀ x, l.lot = some x → s.compatible x lot = false := by
  unfold State.lotConflict
  rw [Bool.and_eq_true, sharesBelt_iff]
  refine and_congr_right fun _ => ?_
  cases l.lot <;> simp

/-- A leg stands against a start by its path where the lists share a belt and do not merge cleanly (R30). -/
theorem routeConflict_iff (s : State) (e : Route) (l : Leg) : s.routeConflict e l = true ↔
    (∃ c ∈ e.belts, c ∈ l.belts) ∧ (¬ joinsCleanly e.belts l.belts ∨ l.bin ≠ some e.bin
      ∨ ∃ x ∈ e.settings, ∃ y ∈ s.legSettings l, x.diverter = y.diverter ∧ x.position ≠ y.position) := by
  unfold State.routeConflict
  rw [Bool.and_eq_true, sharesBelt_iff]
  refine and_congr_right fun share => ?_
  rw [Bool.or_eq_true, Bool.or_eq_true, settingsDiffer_iff, or_assoc, Bool.not_eq_true', bne_iff_ne,
    ← sameFromFirstShared_iff share, Bool.not_eq_true]

/-! ### The refusals in their order (R28 to R30) -/

theorem legStartRefusal_active {s : State} {i : UnloaderIx} (h : s.legs[i].state = .active) (n : HoldIx)
    (k : RouteIx) : s.legStartRefusal i n k = some .busy := by
  unfold State.legStartRefusal
  rw [h]

theorem legStartRefusal_ended {s : State} {i : UnloaderIx} (h : s.legs[i].state = .ended) (n : HoldIx)
    (k : RouteIx) : s.legStartRefusal i n k = some .notCleared := by
  unfold State.legStartRefusal
  rw [h]

theorem legStartRefusal_uncalibrated {s : State} {i : UnloaderIx} (idle : s.legs[i].state = .idle)
    (h : s.unloaderStation i = none ∨ ∀ k : SlotIx, (s.nv.slots[i])[k] = none) (n : HoldIx) (k : RouteIx) :
    s.legStartRefusal i n k = some .uncalibrated := by
  have fails : ((s.unloaderStation i).isNone || !s.calibrated i) = true := by
    rw [Bool.or_eq_true, Option.isNone_iff_eq_none, Bool.not_eq_true', ← Bool.not_eq_true, calibrated_iff]
    simpa using h
  unfold State.legStartRefusal
  rw [idle]
  dsimp only
  rw [if_pos fails]

/-- A leg that the checks of R28 let start. -/
structure State.ready (s : State) (i : UnloaderIx) : Prop where
  idle : s.legs[i].state = .idle
  station : s.unloaderStation i ≠ none
  slot : ∃ j : SlotIx, (s.nv.slots[i])[j] ≠ none

/-- The checks of a start on a lot and a route against the lot's bins and the bin (R29), then against the other
ACTIVE legs (R30). -/
def State.placeRefusal (s : State) (lot : LotIx) (e : Route) (l : Lot) (b : Bin) : Option Result :=
  if l.permitted.getLsbD e.bin.val = false then some .notPermitted
  else if b.isOpen = false then some .binClosed
  else if b.lot.any fun m => !s.compatible m lot then some .binLot
  else if s.activeLegs.any fun j => s.lotConflict lot e s.legs[j] then some .lotConflict
  else if s.activeLegs.any fun j => s.routeConflict e s.legs[j] then some .routeConflict
  else none

section
variable {s : State} {i : UnloaderIx} {n : HoldIx} {k : RouteIx} {h : Hold} {lot : LotIx}

theorem State.ready.passes (r : s.ready i) : ((s.unloaderStation i).isNone || !s.calibrated i) = false := by
  rw [(calibrated_iff s i).2 r.slot, Option.isNone_eq_false_iff.2 (Option.isSome_iff_ne_none.2 r.station)]
  rfl

theorem legStartRefusal_noHold (r : s.ready i) (hh : ∀ h, s.tables.holds[n] = some h → h.lot = none) :
    s.legStartRefusal i n k = some .notFound := by
  unfold State.legStartRefusal
  simp only [r.idle, r.passes]
  cases found : s.tables.holds[n] with
  | none => rfl
  | some h => simp only [hh h found]; rfl

theorem legStartRefusal_emptyHold (r : s.ready i) (hh : s.tables.holds[n] = some h) (hl : h.lot = some lot)
    (empty : h.phase = .empty) : s.legStartRefusal i n k = some .holdEmpty := by
  unfold State.legStartRefusal
  simp only [r.idle, r.passes, hh, hl, empty]
  rfl

theorem legStartRefusal_noRoute (r : s.ready i) (hh : s.tables.holds[n] = some h) (hl : h.lot = some lot)
    (phase : h.phase ≠ .empty) (he : ∀ e, s.tables.routes[k] = some e → e.unloader ≠ i) :
    s.legStartRefusal i n k = some .routeInvalid := by
  unfold State.legStartRefusal
  simp only [r.idle, r.passes, hh, hl, if_neg phase]
  cases found : s.tables.routes[k] with
  | none => rfl
  | some e => simp only [if_pos (he e found)]; rfl

/-- Past its hold and its route, a start is checked by its place and its neighbours (R29, R30). -/
theorem legStartRefusal_place (r : s.ready i) (hh : s.tables.holds[n] = some h) (hl : h.lot = some lot)
    (phase : h.phase ≠ .empty) {e : Route} (he : s.tables.routes[k] = some e) (own : e.unloader = i) {l : Lot}
    (lots : s.tables.lots[lot] = some l) {b : Bin} (bins : s.tables.bins[e.bin] = some b) :
    s.legStartRefusal i n k = s.placeRefusal lot e l b := by
  unfold State.legStartRefusal State.placeRefusal
  simp only [r.idle, r.passes, hh, hl, if_neg phase, he, if_neg (not_not.2 own), lots, bins, Bool.not_eq_true',
    Bool.false_eq_true, if_false]

end

section
variable {s : State} {lot : LotIx} {e : Route} {l : Lot} {b : Bin}

theorem placeRefusal_notPermitted (h : l.permitted.getLsbD e.bin.val = false) :
    s.placeRefusal lot e l b = some .notPermitted := by
  unfold State.placeRefusal
  rw [if_pos h]

theorem placeRefusal_binClosed (permitted : l.permitted.getLsbD e.bin.val = true) (h : b.isOpen = false) :
    s.placeRefusal lot e l b = some .binClosed := by
  unfold State.placeRefusal
  rw [if_neg (by simp [permitted]), if_pos h]

theorem placeRefusal_binLot (permitted : l.permitted.getLsbD e.bin.val = true) (isOpen : b.isOpen = true)
    (h : ∃ x ∈ b.lot, s.compatible x lot = false) : s.placeRefusal lot e l b = some .binLot := by
  have holds : (b.lot.any fun m => !s.compatible m lot) = true := by simpa [Option.any_eq_true] using h
  unfold State.placeRefusal
  rw [if_neg (by simp [permitted]), if_neg (by simp [isOpen]), if_pos holds]

/-- A bin that takes the lot leaves the two checks against the other ACTIVE legs (R30). -/
theorem placeRefusal_neighbours (permitted : l.permitted.getLsbD e.bin.val = true) (isOpen : b.isOpen = true)
    (binLot : ∀ x ∈ b.lot, s.compatible x lot = true) : s.placeRefusal lot e l b =
      if s.activeLegs.any fun j => s.lotConflict lot e s.legs[j] then some .lotConflict
      else if s.activeLegs.any fun j => s.routeConflict e s.legs[j] then some .routeConflict
      else none := by
  have holds : (b.lot.any fun m => !s.compatible m lot) = false := by simpa [Option.any_eq_false] using binLot
  unfold State.placeRefusal
  rw [if_neg (by simp [permitted]), if_neg (by simp [isOpen]), if_neg (by simp [holds])]

theorem placeRefusal_lotConflict (permitted : l.permitted.getLsbD e.bin.val = true) (isOpen : b.isOpen = true)
    (binLot : ∀ x ∈ b.lot, s.compatible x lot = true)
    (h : ∃ j : UnloaderIx, s.legs[j].state = .active ∧ s.lotConflict lot e s.legs[j] = true) :
    s.placeRefusal lot e l b = some .lotConflict := by
  rw [placeRefusal_neighbours permitted isOpen binLot, if_pos ((activeLegs_any_iff s _).2 h)]

theorem placeRefusal_routeConflict (permitted : l.permitted.getLsbD e.bin.val = true) (isOpen : b.isOpen = true)
    (binLot : ∀ x ∈ b.lot, s.compatible x lot = true)
    (lots : ∀ j : UnloaderIx, s.legs[j].state = .active → s.lotConflict lot e s.legs[j] ≠ true)
    (h : ∃ j : UnloaderIx, s.legs[j].state = .active ∧ s.routeConflict e s.legs[j] = true) :
    s.placeRefusal lot e l b = some .routeConflict := by
  have noLot : ¬ (s.activeLegs.any fun j => s.lotConflict lot e s.legs[j]) = true := by
    rw [activeLegs_any_iff]
    rintro ⟨j, active, conflict⟩
    exact lots j active conflict
  rw [placeRefusal_neighbours permitted isOpen binLot, if_neg noLot, if_pos ((activeLegs_any_iff s _).2 h)]

end

/-! ### The obligation -/

/-- Settles O41: each premise selects the first check that fails, and that check is the answer. -/
theorem legStartIsChecked : Obligations.LegStartIsChecked := by
  rintro port m s _ _ _ _ serves rfl rfl rfl rfl answer answered
  simp only [answered]
  refine ⟨fun out => ?leg, fun legIn out => ?hold, fun legIn holdIn out => ?route,
    fun legIn holdIn routeIn out => ?disable, fun holdIn routeIn disable i leg => ?unloader, compatible_iff s,
    fun i n k leg hold route disable idle station slot => ?place⟩
  case leg =>
    refine legStart_outOfRange serves (parseStart_noLeg ?_)
    rw [params_taken]
    exact ixOf_none (by omega)
  case hold =>
    obtain ⟨i, hi⟩ := ixOf_within legIn
    refine legStart_outOfRange serves (parseStart_noHold (i := i) ?_ ?_) <;> rw [params_taken]
    exacts [hi, ixOf_none (by omega)]
  case route =>
    obtain ⟨i, hi⟩ := ixOf_within legIn
    obtain ⟨n, hn⟩ := ixOf_within holdIn
    refine legStart_outOfRange serves (parseStart_noRoute (i := i) (n := n) ?_ ?_ ?_) <;> rw [params_taken]
    exacts [hi, hn, ixOf_none (by omega)]
  case disable =>
    obtain ⟨i, hi⟩ := ixOf_within legIn
    obtain ⟨n, hn⟩ := ixOf_within holdIn
    obtain ⟨k, hk⟩ := ixOf_within routeIn
    refine legStart_outOfRange serves (parseStart_noYesNo (i := i) (n := n) (k := k) ?_ ?_ ?_ ?_) <;>
      rw [params_taken]
    exacts [hi, hn, hk, yesNo_above out]
  case unloader =>
    obtain ⟨n, hold⟩ := exists_num holdIn
    obtain ⟨k, route⟩ := exists_num routeIn
    exact ⟨fun active => legStart_refused serves leg hold route disable (legStartRefusal_active active n k),
      fun ended => legStart_refused serves leg hold route disable (legStartRefusal_ended ended n k),
      fun idle lacks =>
        legStart_refused serves leg hold route disable (legStartRefusal_uncalibrated idle lacks n k)⟩
  case place =>
    have ready : s.ready i := ⟨idle, station, slot⟩
    have refuse {r : Result} := legStart_refused (port := port) (r := r) serves leg hold route disable
    refine ⟨fun noHold => refuse (legStartRefusal_noHold ready noHold), fun h lot hh hl =>
      ⟨fun empty => refuse (legStartRefusal_emptyHold ready hh hl empty),
      fun phase noRoute => refuse (legStartRefusal_noRoute ready hh hl phase noRoute),
      fun e l b phase he own lots bins => ?_⟩⟩
    have place := legStartRefusal_place ready hh hl phase he own lots bins
    refine ⟨fun no => refuse (place.trans (placeRefusal_notPermitted no)),
      fun permitted closed => refuse (place.trans (placeRefusal_binClosed permitted closed)),
      fun permitted isOpen other => refuse (place.trans (placeRefusal_binLot permitted isOpen other)),
      fun shares permitted isOpen binLot sharing => ⟨?lotConflict, ?routeConflict⟩⟩
    case lotConflict =>
      rintro ⟨j, sh, x, hx, clash⟩
      obtain ⟨active, belt⟩ := (sharing j).1 sh
      have conflict : s.lotConflict lot e s.legs[j] = true :=
        (lotConflict_iff ..).2 ⟨belt, fun y hy => Option.some.inj (hx.symm.trans hy) ▸ clash⟩
      exact refuse (place.trans (placeRefusal_lotConflict permitted isOpen binLot ⟨j, active, conflict⟩))
    case routeConflict =>
      rintro compatible ⟨j, sh, clash⟩
      obtain ⟨active, belt⟩ := (sharing j).1 sh
      have noLot : ∀ j : UnloaderIx, s.legs[j].state = .active → s.lotConflict lot e s.legs[j] ≠ true := by
        intro j active conflict
        obtain ⟨belt, differ⟩ := (lotConflict_iff ..).1 conflict
        obtain ⟨x, hx, same⟩ := compatible j ((sharing j).2 ⟨active, belt⟩)
        exact absurd same (by simp [differ x hx])
      have conflict := (routeConflict_iff ..).2 ⟨belt, clash⟩
      exact refuse (place.trans (placeRefusal_routeConflict permitted isOpen binLot noLot ⟨j, active, conflict⟩))

end Sys2Proof.Machine
end

