-- ==== Sys2Proof/Proofs/FeedOrders.lean ====
section
/-!
PROOFS. A FEED order on port A: how it reaches its leg (R163 to R167), what joins the forward queue (R171), and what
an ACTIVE leg makes of it (R68 to R70).
-/

namespace Sys2Proof.Machine

/-! ### The forward queue (R171) -/

theorem forwardHasPlace_iff (s : State) : s.forwardHasPlace = true ↔ s.path.forwardB.length < 16 := decide_eq_true_iff

/-- With a place in the forward queue, a telegram takes the last one (R171). -/
theorem joinForward_place {s : State} (place : s.path.forwardB.length < 16) (q : Queued) :
    joinForward q s = { s with path := { s.path with forwardB := s.path.forwardB ++ [q] } } :=
  if_pos ((forwardHasPlace_iff s).2 place)

/-- At a full forward queue, a telegram that the part only passes on is dropped and counted, and nothing else
changes (R171). -/
theorem joinForward_full {s : State} (full : 16 ≤ s.path.forwardB.length) (t : Telegram) :
    joinForward (.forwarded t) s =
      { s with path := { s.path with dropsB := min (s.path.dropsB + 1) 65535 } } :=
  if_neg (mt (forwardHasPlace_iff s).1 (by omega))

/-! ### A FEED order for an ACTIVE leg (R68 to R70) -/

section
variable {s : State} {i : UnloaderIx}

/-- With a place in the forward queue, the order is forwarded clamped, taken by its leg and answered where it was
clamped (R68, R69). -/
theorem feedActive_place (place : s.path.forwardB.length < 16) (t : Telegram) {value : Nat}
    (clamped : value = min t.setpointRead s.legs[i].g) : feedActive t i s =
      let u := { s with
        legs := put s.legs i { s.legs[i] with r := t.setpointRead, f := value }
        path := { s.path with forwardB := s.path.forwardB ++ [.forwarded (t.withSetpoint value)] } }
      if value < t.setpoint.toNat then answer t feedWord .clamped (word value) u else u := by
  subst clamped
  unfold feedActive
  dsimp only
  rw [if_pos ((forwardHasPlace_iff s).2 place), joinForward_place place]
  rfl

/-- At a full forward queue, the order is dropped and its leg takes nothing of it (R70). -/
theorem feedActive_full (full : 16 ≤ s.path.forwardB.length) (t : Telegram) : feedActive t i s =
    { s with path := { s.path with dropsB := min (s.path.dropsB + 1) 65535 } } := by
  unfold feedActive
  dsimp only
  rw [if_neg (mt (forwardHasPlace_iff s).1 (by omega)), joinForward_full full]

end

/-! ### The way of a FEED order to its leg (R163 to R167) -/

section
variable {m : Message} {s : State}

/-- An order for another address that passes reception is no misuse of the own address (R164). -/
theorem misused_order (ordered : s.ordered m) (first : List Word) :
    s.misused (messageTelegram m .order first) = false := by
  obtain ⟨⟨_, _, source⟩, dest⟩ := ordered
  simp [State.misused, messageTelegram, source, dest]

/-- A FEED order for one station, with a setpoint, is handled as one (R163 to R167). -/
theorem feedOrder_handled (ordered : s.ordered m) (single : m.dest ≠ broadcast) {w : Word} {rest : List Word}
    (words : m.words = w :: rest) :
    exec (.feedOrder m) s = .next (handleFeed (messageTelegram m .order [feedWord]) s) := by
  obtain ⟨on, wellFormed, _⟩ := ordered.1
  have inRange : (messageTelegram m .order [feedWord]).inRange = true :=
    (messageTelegram_inRange m .order [feedWord]).trans wellFormed
  have governed : handleOrderA (messageTelegram m .order [feedWord]) s =
      handleGoverned (messageTelegram m .order [feedWord]) feedWord s := by
    simp [handleOrderA, messageTelegram, words]
  show Host.Outcome.next (whenOn _ s) = _
  rw [whenOn_on on, arrive_handled inRange (misused_order ordered _), governed]
  unfold handleGoverned
  rw [if_pos rfl, if_neg (by exact single)]

end

/-- A FEED order to an UNLOADER entry with an ACTIVE leg is that leg's (R37, R68). -/
theorem handleFeed_active {t : Telegram} {s : State} {e : StationEntry} {i : UnloaderIx} {d : UnloaderData}
    (entry : s.tables.stations[t.dest] = some e) (kind : e.kind = .unloader i d)
    (active : s.legs[i].state = .active) : handleFeed t s = feedActive t i s := by
  have unloader : e.unloader? = some (i, d) := by simp only [StationEntry.unloader?, kind]
  unfold handleFeed
  rw [entry, Option.bind_some, unloader]
  exact if_pos active

/-! ### The obligation -/

/-- Settles O23: the order reaches its ACTIVE leg, and the forward queue decides what comes of it. -/
theorem feedOrderForActiveLeg : Obligations.FeedOrderForActiveLeg := by
  intro m s e i d w rest value ordered single words entry kind active clamped
  have setpoint : (messageTelegram m .order [feedWord]).setpoint = w := by
    simp [Telegram.setpoint, messageTelegram, words]
  have read : (messageTelegram m .order [feedWord]).setpointRead = min w.toNat 1200 := by
    rw [Telegram.setpointRead, setpoint]
    rfl
  have sent : (messageTelegram m .order [feedWord]).withSetpoint value =
      ⟨m.dest, m.source, .order, m.seq, 1 :: word value :: rest⟩ := by
    simp [Telegram.withSetpoint, messageTelegram, words, feedWord]
  rw [feedOrder_handled ordered single words, handleFeed_active (by exact entry) kind active]
  refine ⟨fun place u taken => next_congr ?_, fun full => next_congr (feedActive_full full _)⟩
  rw [feedActive_place (value := value) place _ (by rw [read]; exact clamped), read, sent, setpoint, taken]
  rfl

end Sys2Proof.Machine
end

