-- ==== Sys2Proof/Proofs/HoldTimers.lean ====
section
/-!
PROOFS. The expiry of a hold timer: when it takes place, and what becomes of the pending divert (R112, R113).
-/

namespace Sys2Proof.Machine

section
variable {k : DiverterIx} {s : State} {r : DiverterRecord}

/-- A hold timer is at its end exactly where it runs and has reached its timeout (R104, R112). -/
theorem holdOut_iff (record : s.seg.diverters[k] = some r) :
    s.holdOut k = true ↔ ∃ x, r.holdTimer = some x ∧ x.timeout ≤ x.elapsed := by
  unfold State.holdOut
  rw [record, Option.any_some, Option.any_eq_true]
  exact exists_congr fun _ => and_congr_right fun _ => decide_eq_true_iff

/-- The divert that is given up is answered TOO_LATE and discarded, its timer stops, and the flag names the diverter
and the discarded position (R112). -/
theorem giveUpDivert_pending (record : s.seg.diverters[k] = some r) {t : Telegram} (pending : r.pending = some t) :
    giveUpDivert k s = raiseFlag .divertTimeout (num k) t.divertPosition.toNat false
      ((answerDivert t .tooLate s).setDiverter k (some { r with pending := none, holdTimer := none })) := by
  unfold giveUpDivert
  rw [record]
  dsimp only
  rw [pending]

/-- A hold timer at its end gives up the pending divert: neither the legs nor the head are read (R112). -/
theorem holdTimerExpires_out (record : s.seg.diverters[k] = some r) {x : HoldTimer} (timer : r.holdTimer = some x)
    (reached : x.timeout ≤ x.elapsed) : holdTimerExpires k s = giveUpDivert k s :=
  if_pos ((holdOut_iff record).2 ⟨x, timer, reached⟩)

/-- A hold timer that is stopped, or has not reached its timeout since it was started again, does not expire
(R113). -/
theorem holdTimerExpires_running (record : s.seg.diverters[k] = some r)
    (running : ∀ x, r.holdTimer = some x → x.elapsed < x.timeout) : holdTimerExpires k s = s :=
  if_neg fun out =>
    let ⟨x, timer, reached⟩ := (holdOut_iff record).1 out
    absurd reached (Nat.not_le.2 (running x timer))

/-- With the supply present, HOLD_TIMER_EXPIRY is the expiry of its diverter's timer (R112). -/
theorem holdTimerExpiry_taken (on : s.power = .on) :
    exec (.holdTimerExpiry k) s = .next (holdTimerExpires k s) := next_congr (whenOn_on on)

end

/-! ### The obligation -/

/-- Settles O29: the timer decides whether the expiry takes place, and the pending divert what it does. -/
theorem holdTimerExpiry : Obligations.HoldTimerExpiry := by
  intro k s r on record
  rw [holdTimerExpiry_taken on]
  refine ⟨fun t x pending timer reached => next_congr ?_,
    fun running => next_congr (holdTimerExpires_running record running)⟩
  rw [holdTimerExpires_out record timer reached, giveUpDivert_pending record pending]
  rfl

end Sys2Proof.Machine
end

