-- ==== Sys2Proof/Proofs/LotSnapshots.lean ====
section
/-!
PROOFS. SNAPSHOT LOT: the copy of a lot's account, its number, and the refusals (R137).
-/

namespace Sys2Proof.Machine

/-! ### The copy (R137) -/

/-- The number of a snapshot that is taken is the next one, and 0 follows 255 (R137). -/
theorem takeSnapshot_snapshotNumber (i : LotIx) (l : Lot) (s : State) :
    (takeSnapshot i l s).weighing.snapshotNumber.toNat = (s.weighing.snapshotNumber.toNat + 1) % 256 :=
  BitVec.toNat_add _ _

/-- The reply data of a snapshot that is taken: its number, the lot, how many lines the lot's chain has, and the
lot's two totals (R137). -/
theorem snapshotHead_takeSnapshot (i : LotIx) (l : Lot) (s : State) :
    snapshotHead (takeSnapshot i l s) =
      [word ((s.weighing.snapshotNumber.toNat + 1) % 256), word (num i), word (s.linesOf l.chain).length]
        ++ kgWords l.total ++ kgWords l.unattributed := by
  rw [← takeSnapshot_snapshotNumber i l s]
  rfl

/-! ### The request (R137, R181) -/

/-- What SNAPSHOT LOT comes to for the lot that its number names, once its ring and its parameter are there
(R137). -/
def snapshotLotAnswer (port : Port) (m : Message) (s : State) : Option LotIx → State
  | none => replied port m 11 3 [] s
  | some i =>
    match s.tables.lots[i] with
    | none => replied port m 11 4 [] s
    | some l => replied port m 11 0 (snapshotHead (takeSnapshot i l s)) (takeSnapshot i l s)

/-- A SNAPSHOT LOT with the ring and the parameter it needs is answered by the lot that its number names (R137). -/
theorem snapshotLot_served {port : Port} {m : Message} {s : State} (h : s.serves m 3 1) :
    exec (.snapshotLot port m) s = .next (snapshotLotAnswer port m s (ixOf 16 (paramAt m 0).toNat)) := by
  show Host.Outcome.next (whenOn (requestArrives port m 11 (served takeSnapshotLot)) s) = _
  refine next_congr ((served_own h fun _ _ => rfl).trans ?_)
  rw [params_taken]
  cases ixOf 16 (paramAt m 0).toNat with
  | none => rfl
  | some i =>
    dsimp only [snapshotLotAnswer]
    cases s.tables.lots[i] with
    | none => rfl
    | some l => rfl

/-- The answer for a lot that is not defined (R137). -/
theorem snapshotLotAnswer_undefined {port : Port} {m : Message} {s : State} {i : LotIx}
    (h : s.tables.lots[i] = none) : snapshotLotAnswer port m s (some i) = replied port m 11 4 [] s := by
  simp only [snapshotLotAnswer, h]

/-- The answer for a defined lot is the head of the copy that has replaced the buffer (R137). -/
theorem snapshotLotAnswer_defined {port : Port} {m : Message} {s : State} {i : LotIx} {l : Lot}
    (h : s.tables.lots[i] = some l) : snapshotLotAnswer port m s (some i) =
      replied port m 11 0 (snapshotHead (takeSnapshot i l s)) (takeSnapshot i l s) := by
  simp only [snapshotLotAnswer, h]

/-- Settles O47: the lot that the number names decides the answer, and the head of the copy is its reply data. -/
theorem snapshotCopiesTheLot : Obligations.SnapshotCopiesTheLot := by
  intro port m s serves
  refine ⟨fun i l ix here => ?_, fun i ix absent => ?_, fun outside => ?_⟩
  · rw [snapshotLot_served serves, ixOf_num i ix, snapshotLotAnswer_defined here, snapshotHead_takeSnapshot]
    rfl
  · rw [snapshotLot_served serves, ixOf_num i ix, snapshotLotAnswer_undefined absent]
  · rw [snapshotLot_served serves, ixOf_none outside]
    rfl

end Sys2Proof.Machine
end

