-- ==== Sys2Proof/Proofs/PersistenceFilters.lean ====
section
/-!
PROOFS. The persistence filters: the second agreeing sample in a row changes a filter, and the sweep filter that
sets sends the hold of its unloader's ACTIVE leg to SWEEP (R155, R156).
-/

namespace Sys2Proof.Machine

/-! ### The filters (R155, R156) -/

/-- The first agreeing sample is seen and changes nothing yet. -/
theorem Filter.take_first (state : Bool) : Filter.take ⟨state, false⟩ true = ⟨state, true⟩ := rfl

/-- The second agreeing sample in a row changes the state, and the count starts again. -/
theorem Filter.take_second (state : Bool) : Filter.take ⟨state, true⟩ true = ⟨!state, false⟩ := rfl

/-- A sample that does not agree undoes an agreeing sample seen. -/
theorem Filter.take_other (state seen : Bool) : Filter.take ⟨state, seen⟩ false = ⟨state, false⟩ := rfl

/-- For a choke filter that is CLEAR, a vacuum at or above the choke threshold agrees (R155). -/
theorem Filter.takeVacuum_clear (seen : Bool) (d : UnloaderData) (vacuum : Nat) :
    Filter.takeVacuum ⟨false, seen⟩ d vacuum = Filter.take ⟨false, seen⟩ (decide (d.chokeThreshold ≤ vacuum)) := by
  simp [Filter.takeVacuum]

/-- For a choke filter that is SET, a vacuum at or below the release threshold agrees (R155). -/
theorem Filter.takeVacuum_set (seen : Bool) (d : UnloaderData) (vacuum : Nat) :
    Filter.takeVacuum ⟨true, seen⟩ d vacuum = Filter.take ⟨true, seen⟩ (decide (vacuum ≤ d.releaseThreshold)) := by
  simp [Filter.takeVacuum]

/-- A sweep-selected field other than the sweep filter's state agrees (R156). -/
theorem Filter.takeSelected_other (state seen : Bool) :
    Filter.takeSelected ⟨state, seen⟩ (!state) = Filter.take ⟨state, seen⟩ true := by
  simp [Filter.takeSelected]

/-- A sweep-selected field that is the sweep filter's state does not agree (R156). -/
theorem Filter.takeSelected_same (state seen : Bool) :
    Filter.takeSelected ⟨state, seen⟩ state = Filter.take ⟨state, seen⟩ false := by
  simp [Filter.takeSelected]

/-- The sweep filter becomes SET exactly where it was CLEAR with one agreeing sample seen and the sample reports
sweep selected (R156). -/
theorem Filter.takeSelected_sets_iff (x : Filter) (selected : Bool) :
    ((x.takeSelected selected).isSet && !x.isSet) = true ↔ x = ⟨false, true⟩ ∧ selected = true := by
  obtain ⟨state, seen⟩ := x
  revert state seen selected
  decide

/-! ### The hold of the leg (R18, R156) -/

/-- A sweep filter that sets sends the hold of its unloader's ACTIVE leg from FREE_DIG to SWEEP (R156). -/
theorem sweepFilterSets_freeDig {i : UnloaderIx} {s : State} {n : HoldIx} {h : Hold}
    (active : s.legs[i].state = .active) (hold : s.legs[i].hold = some n) (entry : s.tables.holds[n] = some h)
    (phase : h.phase = .freeDig) :
    sweepFilterSets i s = s.setHold n (some { h with phase := .sweep }) := by
  unfold sweepFilterSets
  rw [if_pos active, hold]
  dsimp only
  unfold sweepHold
  rw [entry]
  exact if_pos phase

/-- A hold that is not in FREE_DIG is not swept (R18). -/
theorem sweepHold_kept {n : HoldIx} {s : State} (other : ∀ h ∈ s.tables.holds[n], h.phase ≠ .freeDig) :
    sweepHold n s = s := by
  unfold sweepHold
  split
  next h entry => exact if_neg (other h entry)
  next => rfl

/-- The leg of an unloader is not ACTIVE, or not on a hold in FREE_DIG (R156). -/
def State.nothingToSweep (i : UnloaderIx) (s : State) : Prop :=
  s.legs[i].state ≠ .active ∨ s.legs[i].hold = none
    ∨ ∃ n, s.legs[i].hold = some n ∧ ∀ h ∈ s.tables.holds[n], h.phase ≠ .freeDig

/-- Where there is nothing to sweep, a sweep filter that sets changes nothing (R156). -/
theorem sweepFilterSets_kept {i : UnloaderIx} {s : State} (kept : s.nothingToSweep i) : sweepFilterSets i s = s := by
  unfold sweepFilterSets
  obtain idle | unheld | ⟨n, hold, other⟩ := kept
  · exact if_neg idle
  · rw [unheld]
    exact ite_self s
  · rw [hold]
    dsimp only
    rw [sweepHold_kept other, ite_self]

/-- Sweeping a hold changes the holds at most (R18). -/
theorem sweepHold_frame (n : HoldIx) (s : State) : ∃ holds,
    sweepHold n s = { s with tables := { s.tables with holds := holds } } := by
  unfold sweepHold
  split
  · split
    · exact ⟨_, rfl⟩
    · exact ⟨_, rfl⟩
  · exact ⟨_, rfl⟩

/-- A sweep filter that sets changes the holds at most (R156). -/
theorem sweepFilterSets_frame (i : UnloaderIx) (s : State) : ∃ holds,
    sweepFilterSets i s = { s with tables := { s.tables with holds := holds } } := by
  unfold sweepFilterSets
  split
  · split
    next n _ => exact sweepHold_frame n s
    next => exact ⟨_, rfl⟩
  · exact ⟨_, rfl⟩

/-! ### The sample (R148) -/

/-- A watch record whose filters have taken a sample (R148, step 5). -/
def WatchRecord.filtered (w : WatchRecord) (d : UnloaderData) (vacuum : Nat) (selected : Bool) : WatchRecord :=
  { w with choke := w.choke.takeVacuum d vacuum, sweep := w.sweep.takeSelected selected }

section
variable {a : Addr} {i : UnloaderIx} {d : UnloaderData} {vacuum : Nat} {selected : Bool} {s : State} {w : WatchRecord}

/-- Where the sample sets the sweep filter, the hold is seen to once the record is stored (R156). -/
theorem takeFilters_sets (record : s.watch[a] = some w) (sets : w.sweep = ⟨false, true⟩ ∧ selected = true) :
    takeFilters a i d vacuum selected s =
      sweepFilterSets i (s.setWatch a (some (w.filtered d vacuum selected))) := by
  unfold takeFilters
  rw [record]
  exact if_pos ((Filter.takeSelected_sets_iff _ _).2 sets)

/-- Where the sample does not set the sweep filter, the record alone changes (R148, R156). -/
theorem takeFilters_keeps (record : s.watch[a] = some w) (keeps : ¬ (w.sweep = ⟨false, true⟩ ∧ selected = true)) :
    takeFilters a i d vacuum selected s = s.setWatch a (some (w.filtered d vacuum selected)) := by
  unfold takeFilters
  rw [record]
  exact if_neg (mt (Filter.takeSelected_sets_iff _ _).1 keeps)

/-- The filters' sample changes the record and the holds at most (R148, R156). -/
theorem takeFilters_frame (record : s.watch[a] = some w) : ∃ holds, takeFilters a i d vacuum selected s =
    { s with
      watch := put s.watch a (some (w.filtered d vacuum selected))
      tables := { s.tables with holds := holds } } := by
  by_cases sets : w.sweep = ⟨false, true⟩ ∧ selected = true
  · rw [takeFilters_sets record sets]
    exact sweepFilterSets_frame i _
  · exact ⟨s.tables.holds, takeFilters_keeps record sets⟩

/-- The hold in FREE_DIG of the ACTIVE leg goes to SWEEP where the sample sets the sweep filter (R156). -/
theorem takeFilters_sweeps (record : s.watch[a] = some w) {n : HoldIx} {h : Hold}
    (active : s.legs[i].state = .active) (hold : s.legs[i].hold = some n) (entry : s.tables.holds[n] = some h)
    (phase : h.phase = .freeDig) (sets : w.sweep = ⟨false, true⟩ ∧ selected = true) :
    (takeFilters a i d vacuum selected s).tables.holds =
      put s.tables.holds n (some { h with phase := .sweep }) := by
  rw [takeFilters_sets record sets, sweepFilterSets_freeDig (s := s.setWatch a _) active hold entry phase]
  rfl

/-- No hold changes where there is none to sweep, or the sample does not set the sweep filter (R156). -/
theorem takeFilters_keeps_holds (record : s.watch[a] = some w)
    (kept : s.nothingToSweep i ∨ ¬ (w.sweep = ⟨false, true⟩ ∧ selected = true)) :
    (takeFilters a i d vacuum selected s).tables.holds = s.tables.holds := by
  by_cases sets : w.sweep = ⟨false, true⟩ ∧ selected = true
  · have nothing : s.nothingToSweep i := kept.resolve_right (not_not_intro sets)
    rw [takeFilters_sets record sets, sweepFilterSets_kept (s := s.setWatch a _) nothing]
    rfl
  · rw [takeFilters_keeps record sets]
    rfl

end

/-! ### The obligation -/

/-- Settles O19: the tables of R155 and R156 row by row, and the hold by whether the sample sets the sweep
filter. -/
theorem filtersPersist : Obligations.FiltersPersist := by
  refine ⟨fun d vacuum seen => ?choke, fun state => ?sweep, fun a i d vacuum selected s w record => ?hold⟩
  case choke =>
    refine ⟨fun high => ?_, fun low => ?_, fun low => ?_, fun high => ?_⟩
    · simp only [Filter.takeVacuum_clear, decide_eq_true high]
      exact ⟨Filter.take_first false, Filter.take_second false⟩
    · rw [Filter.takeVacuum_clear, decide_eq_false (Nat.not_le.2 low), Filter.take_other]
    · simp only [Filter.takeVacuum_set, decide_eq_true low]
      exact ⟨Filter.take_first true, Filter.take_second true⟩
    · rw [Filter.takeVacuum_set, decide_eq_false (Nat.not_le.2 high), Filter.take_other]
  case sweep =>
    simp only [Filter.takeSelected_other, Filter.takeSelected_same]
    exact ⟨Filter.take_first state, Filter.take_second state, Filter.take_other state⟩
  case hold =>
    obtain ⟨holds, frame⟩ := takeFilters_frame (i := i) (d := d) (vacuum := vacuum) (selected := selected) record
    have same : (takeFilters a i d vacuum selected s).tables.holds = holds := by rw [frame]
    refine ⟨holds, frame, fun n h active hold entry phase seen yes => ?_, fun kept => ?_⟩
    · rw [← same, takeFilters_sweeps record active hold entry phase ⟨seen, yes⟩]
    · have nothing : s.nothingToSweep i ∨ ¬ (w.sweep = ⟨false, true⟩ ∧ selected = true) := by
        simpa only [State.nothingToSweep, not_and_or, Bool.not_eq_true, or_assoc] using kept
      rw [← same, takeFilters_keeps_holds record nothing]

end Sys2Proof.Machine
end

