-- ==== Sys2Proof/Proofs/OwnAddressMisuse.lean ====
section
/-!
PROOFS. A telegram that misuses the own address (R164), as octets and as a command: its octets pass reception as the
telegram itself (R160 to R163), and both ways end in the same arrival.
-/

namespace Sys2Proof.Machine

/-! ### The octets of a telegram (R160, R163) -/

@[simp] theorem wordOf_octets (w : Word) : wordOf (hiOctet w) (loOctet w) = w := by
  apply BitVec.eq_of_toNat_eq
  simp only [wordOf, hiOctet, loOctet, BitVec.toNat_ofNat]
  omega

@[simp] theorem wordsOf_octetsOf (ws : List Word) : wordsOf (octetsOf ws) = ws := by
  induction ws with
  | nil => rfl
  | cons w ws ih => rw [octetsOf, wordsOf, wordOf_octets, ih]

@[simp] theorem length_octetsOf (ws : List Word) : (octetsOf ws).length = 2 * ws.length := by
  induction ws with
  | nil => rfl
  | cons w ws ih =>
    simp only [octetsOf, List.length_cons, ih]
    omega

theorem kindOf_octet (k : Kind) : kindOf (BitVec.ofNat 8 k.code).toNat = some k := by
  cases k <;> rfl

theorem toNat_addressOctet (a : Addr) : (BitVec.ofNat 8 a.val).toNat = a.val := by
  rw [BitVec.toNat_ofNat]
  omega

theorem Telegram.toNat_lengthOctet {t : Telegram} (inRange : t.inRange = true) :
    (BitVec.ofNat 8 t.payload.length).toNat = t.payload.length := by
  have short : t.payload.length ≤ 12 := of_decide_eq_true (Bool.and_eq_true_iff.1 inRange).1
  rw [BitVec.toNat_ofNat]
  omega

theorem Telegram.length_body (t : Telegram) : t.body.length = 5 + 2 * t.payload.length := by
  simp only [Telegram.body, List.length_cons, length_octetsOf]
  omega

/-- The octets of a telegram in range pass the three checks of reception as that telegram (R163). -/
theorem received_wire {t : Telegram} (inRange : t.inRange = true) : received t.wire = some t := by
  have payload : (octetsOf t.payload ++ octetsOf [check t.body]).take (2 * t.payload.length) = octetsOf t.payload :=
    List.take_left' (length_octetsOf _)
  have last : (octetsOf t.payload ++ octetsOf [check t.body]).drop (2 * t.payload.length) = octetsOf [check t.body] :=
    List.drop_left' (length_octetsOf _)
  have covered : t.wire.take (5 + 2 * t.payload.length) = t.body := List.take_left' t.length_body
  simp only [Telegram.wire, Telegram.body, List.cons_append] at covered last payload ⊢
  simp [-BitVec.toNat_ofNat, received, toNat_addressOctet, kindOf_octet, Telegram.toNat_lengthOctet inRange, payload,
    last, covered, inRange]

/-- A telegram in range that is received as octets arrives as the telegram it is (R163). -/
theorem exec_receiveTelegram_wire {t : Telegram} (inRange : t.inRange = true) (port : Port) (s : State) :
    exec (.receiveTelegram port t.wire) s = .next (whenOn (arrive port t (classify port t)) s) := by
  have received : receiveOctets port t.wire = arrive port t (classify port t) := by
    funext s
    rw [receiveOctets, received_wire inRange]
  rw [← received]
  rfl

/-! ### The commands that carry a telegram (R160, R165) -/

/-- A command that carries a telegram is the arrival of that telegram; only its handling is the command's own
(R163 to R165). -/
theorem exec_carried {c : Instr} {port : Port} {t : Telegram} (carried : carriedBy c = some (port, t)) :
    ∃ handle, ∀ s, exec c s = .next (whenOn (arrive port t handle) s) := by
  cases c with
  | unloaderSample m | beltSample m | diverterSample m | feedOrder m | divertOrder m =>
    cases carried
    exact ⟨_, fun _ => rfl⟩
  | unknownRequest p m | status p m | tableRead p m | tableWrite p m | legRead p m | legStart p m | legStop p m
  | legClear p m | setAllocator p m | binReset p m | readAccounts p m | snapshotLot p m | readSnapshot p m
  | calibrate p m | flagsRead p m | flagsClear p m | noticeMask p m | bulkOpen p m | bulkData p m | commission p m
  | restart p m =>
    cases carried
    exact ⟨_, fun _ => rfl⟩
  | _ => nomatch carried

/-! ### Misuse of the own address (R164) -/

theorem misused_iff (s : State) (t : Telegram) : s.misused t = true ↔
    t.source = s.mgmt.inForce.own ∨ (t.dest = s.mgmt.inForce.own ∧ t.kind ≠ .request) := by
  simp [State.misused]

/-- A telegram in range that misuses the own address is counted, whatever would handle it (R164). -/
theorem arrive_misused {t : Telegram} {s : State} (inRange : t.inRange = true) (misused : s.misused t = true)
    (port : Port) (handle : State → State) : arrive port t handle s = countMisuse s := by
  unfold arrive
  rw [inRange, misused]
  rfl

/-- Settles O11: octets and commands both end in the arrival of the telegram, which counts the misuse before any
handling. -/
theorem ownAddressMisuse : Obligations.OwnAddressMisuse := by
  intro port t s on inRange misuse c comes
  have arrives : ∃ handle, exec c s = .next (whenOn (arrive port t handle) s) := by
    obtain rfl | carried := comes
    · exact ⟨_, exec_receiveTelegram_wire inRange port s⟩
    · exact (exec_carried carried).imp fun _ arrival => arrival s
  obtain ⟨handle, arrival⟩ := arrives
  rw [arrival, whenOn_on on, arrive_misused inRange ((misused_iff s t).2 misuse)]
  rfl

end Sys2Proof.Machine
end

