-- ==== Sys2Proof/Proofs/BroadcastOrders.lean ====
section
/-!
PROOFS. A broadcast ORDER on port A: FEED and DIVERT are answered and go no further, another subkind is forwarded
(R165 to R167).
-/

namespace Sys2Proof.Machine

section
variable {m : Message} {s : State}

/-! ### The way of an order to its handling (R163 to R165) -/

theorem messageTelegram_order_inRange (ordered : s.ordered m) (subkind : Word) :
    (messageTelegram m .order [subkind]).inRange = true :=
  (messageTelegram_inRange m .order [subkind]).trans ordered.1.2.1

/-- An order for another address that passes reception is handled (R163, R164). -/
theorem order_handled (ordered : s.ordered m) (subkind : Word) (port : Port) (handle : State → State) :
    whenOn (arrive port (messageTelegram m .order [subkind]) handle) s = handle s := by
  rw [whenOn_on ordered.1.1,
    arrive_handled (messageTelegram_order_inRange ordered subkind) (misused_order ordered [subkind])]

/-- A FEED or DIVERT order with a word after its subkind is long enough (R166). -/
theorem handleOrderA_governed {subkind w : Word} {rest : List Word} (words : m.words = w :: rest)
    (governed : subkind = feedWord ∨ subkind = divertWord) :
    handleOrderA (messageTelegram m .order [subkind]) s =
      handleGoverned (messageTelegram m .order [subkind]) subkind s := by
  simp [handleOrderA, messageTelegram, words, governed]

/-- An order of another subkind is forwarded to port B (R165). -/
theorem handleOrderA_other {subkind : Word} (feed : subkind ≠ feedWord) (divert : subkind ≠ divertWord) :
    handleOrderA (messageTelegram m .order [subkind]) s =
      joinForward (.forwarded (messageTelegram m .order [subkind])) s := by
  have other : ¬ (subkind = feedWord ∨ subkind = divertWord) := not_or.2 ⟨feed, divert⟩
  simp only [handleOrderA, messageTelegram, List.singleton_append, if_neg other]
  rfl

end

/-! ### The answers to a broadcast (R167) -/

theorem answer_broadcast {t : Telegram} (all : t.dest = broadcast) (subkind : Word) (c : AnswerCode) (value : Word)
    (s : State) : answer t subkind c value s =
      joinEgress (.own t.source .answer [63, subkind, word c.code, value] none) s := by
  rw [answer, answerTo, all]
  rfl

/-- A broadcast FEED is answered NO_LEG, with its setpoint as read (R167). -/
theorem handleGoverned_feed_broadcast {t : Telegram} (all : t.dest = broadcast) (s : State) :
    handleGoverned t feedWord s = joinEgress (.own t.source .answer [63, 1, 3, word t.setpointRead] none) s := by
  rw [handleGoverned, if_pos rfl, if_pos all, answer_broadcast all]
  rfl

/-- A broadcast DIVERT is answered ROUTE_IN_USE, with its position as carried (R167). -/
theorem handleGoverned_divert_broadcast {t : Telegram} (all : t.dest = broadcast) (s : State) :
    handleGoverned t divertWord s = joinEgress (.own t.source .answer [63, 2, 7, t.divertPosition] none) s := by
  rw [handleGoverned, if_neg (by decide), if_pos all, answer_broadcast all]
  rfl

/-! ### The obligation -/

/-- Settles O26: the order reaches its handling, which goes by the subkind. -/
theorem broadcastOrdersAnswered : Obligations.BroadcastOrdersAnswered := by
  intro m s w rest ordered all words
  refine ⟨?feed, ?divert, fun subkind feed divert => ?other⟩
  case feed =>
    have read : (messageTelegram m .order [feedWord]).setpointRead = min w.toNat 1200 := by
      simp [Telegram.setpointRead, Telegram.setpoint, messageTelegram, words, Config.maxFeed]
    refine next_congr ((order_handled ordered feedWord .a _).trans ?_)
    rw [handleOrderA_governed words (.inl rfl), handleGoverned_feed_broadcast (by exact all), read]
    rfl
  case divert =>
    have position : (messageTelegram m .order [divertWord]).divertPosition = w := by
      simp [Telegram.divertPosition, messageTelegram, words]
    refine next_congr ((order_handled ordered divertWord .a _).trans ?_)
    rw [handleOrderA_governed words (.inr rfl), handleGoverned_divert_broadcast (by exact all), position]
    rfl
  case other =>
    rw [exec_receiveTelegram_wire (messageTelegram_order_inRange ordered subkind), order_handled ordered]
    exact next_congr (handleOrderA_other feed divert)

end Sys2Proof.Machine
end

