-- ==== Sys2Proof/Proofs/EveryStep.lean ====
section
/-!
PROOFS. What every command and every step does: it is taken, it leaves the queue of commands, and it keeps each law of
the device. Every command but those of the supply evolves the state (`Evolves`); those two leave the state of power-on,
in which the laws hold of themselves or are those of the nonvolatile records.
-/

namespace Sys2Proof.Machine

/-! ### The laws at power-on -/

section
variable (power : Power) (nv : Nonvolatile) (freeUsed : Nat) (pending : List Instr)

theorem volatileReset_station (a : Addr) :
    (State.volatileReset power nv freeUsed pending).tables.stations[a] = none := replicate_get _ a

theorem volatileReset_belt (b : BeltIx) :
    (State.volatileReset power nv freeUsed pending).tracker.belts[b] = none := replicate_get _ b

theorem volatileReset_diverter (d : DiverterIx) :
    (State.volatileReset power nv freeUsed pending).seg.diverters[d] = none := replicate_get _ d

/-- Nothing is found in an empty station table (R23). -/
theorem volatileReset_findStation {α : Type} (look : StationEntry → Option α) :
    (State.volatileReset power nv freeUsed pending).findStation look = none := by
  unfold State.findStation
  rw [List.findSome?_eq_none_iff]
  intro a _
  rw [volatileReset_station]

theorem volatileReset_feedLaw : (State.volatileReset power nv freeUsed pending).FeedLaw := by
  intro i
  rw [volatileReset_leg]
  simp [Leg.FeedLaw, Leg.atRest, Config.maxFeed]

theorem volatileReset_allocatorLaw : (State.volatileReset power nv freeUsed pending).AllocatorLaw := by
  change 0 ≤ _ ∧ 0 ≤ _ ∧ 500 ∈ Config.periods ∧ 500 ∈ Config.periods ∧ 500 ≤ 500
  decide

theorem volatileReset_slugLaw : (State.volatileReset power nv freeUsed pending).SlugLaw := by
  intro b r record
  rw [volatileReset_belt] at record
  cases record

theorem volatileReset_timerLaw : (State.volatileReset power nv freeUsed pending).TimerLaw := by
  intro d r record
  rw [volatileReset_diverter] at record
  cases record

theorem volatileReset_queueLaw : (State.volatileReset power nv freeUsed pending).QueueLaw :=
  ⟨Nat.zero_le _, Nat.zero_le _, List.nodup_nil⟩

theorem volatileReset_stationLaw : (State.volatileReset power nv freeUsed pending).StationLaw := by
  refine ⟨volatileReset_station _ _ _ _ _, volatileReset_station _ _ _ _ _, fun a b x entry => ?_⟩
  rw [volatileReset_station] at entry
  cases entry

theorem volatileReset_accountLaw : (State.volatileReset power nv freeUsed pending).AccountLaw := by
  refine ⟨fun i l entry => ?_, fun i j l entry => ?_⟩
  all_goals
    rw [volatileReset_lot] at entry
    cases entry

theorem volatileReset_inactive (i : UnloaderIx) :
    (State.volatileReset power nv freeUsed pending).legs[i].state ≠ .active := by
  rw [volatileReset_leg]
  decide

theorem volatileReset_mergeLaw : (State.volatileReset power nv freeUsed pending).MergeLaw := by
  refine ⟨fun k e entry => ?_, fun i active => ?_, fun i j _ active => ?_⟩
  · rw [volatileReset_route] at entry
    cases entry
  all_goals exact absurd active (volatileReset_inactive _ _ _ _ i)

/-- At power-on there is neither budget nor load, so there is no headroom (R61, R74). -/
theorem volatileReset_headroom : (State.volatileReset power nv freeUsed pending).headroom = 0 := by
  have load : (State.volatileReset power nv freeUsed pending).basePower = 0 := by
    unfold State.basePower State.activeSum
    simp only [if_neg (volatileReset_inactive power nv freeUsed pending _), List.map_const', List.sum_replicate,
      smul_zero]
  have budget : (State.volatileReset power nv freeUsed pending).alloc.budgetInUse = 0 := rfl
  simp only [State.headroom, load, budget, sub_self, zero_mul]

theorem volatileReset_grants : (State.volatileReset power nv freeUsed pending).Grants := by
  refine ⟨fun a e entry => ?range, ⟨fun k e entry => ?routes, fun i active => ?legs⟩, fun i => ?grants,
    fun b d entry => ?belts, ?power⟩
  case range =>
    rw [volatileReset_station] at entry
    cases entry
  case routes =>
    rw [volatileReset_route] at entry
    cases entry
  case legs => exact absurd active (volatileReset_inactive _ _ _ _ i)
  case grants =>
    rw [volatileReset_leg]
    exact Nat.zero_le _
  case belts =>
    rw [State.beltData, State.beltStation, volatileReset_findStation] at entry
    cases entry
  case power =>
    rw [State.PowerLaw, if_pos (volatileReset_headroom _ _ _ _).le]
    exact fun i active => absurd active (volatileReset_inactive _ _ _ _ i)

/-- The only pair of addresses at power-on is that of the commissioning record (R189, R191). -/
theorem volatileReset_addressLaw (valid : nv.record.valid) :
    (State.volatileReset power nv freeUsed pending).AddressLaw := by
  intro x here
  have only : x = nv.record := by
    have all : x ∈ [nv.record, nv.record] := here
    simpa using all
  rw [only, volatileReset_station]
  exact ⟨valid, rfl⟩

end

/-! ### What a step keeps -/

/-- From one state to another every law is kept, and what is stored stays. -/
structure KeepsLaws (s t : State) : Prop where
  feeds       : s.FeedLaw → t.FeedLaw
  grants      : s.Grants → t.Grants
  allocator   : s.AllocatorLaw → t.AllocatorLaw
  slugs       : s.SlugLaw → t.SlugLaw
  timers      : s.TimerLaw → t.TimerLaw
  queues      : s.QueueLaw → t.QueueLaw
  calibration : s.CalibrationLaw → t.CalibrationLaw ∧ keepsStorage s t
  addresses   : s.AddressLaw → t.AddressLaw
  stations    : s.StationLaw → t.StationLaw
  accounts    : s.AccountLaw → t.AccountLaw
  merge       : s.MergeLaw → t.MergeLaw

/-- What evolves keeps every law. -/
theorem Evolves.keepsLaws {s t : State} (h : Evolves s t) : KeepsLaws s t where
  feeds := h.feeds
  grants := h.grants
  allocator := h.allocator
  slugs := h.slugs
  timers := h.timers
  queues := h.queues
  calibration sound := ⟨h.calibration sound, h.storage sound⟩
  addresses := h.addresses
  stations := h.stations
  accounts := h.accounts
  merge := h.merge

/-- The supply coming on or going keeps every law (R48, R145, R189). -/
theorem volatileReset_keepsLaws (power : Power) (s : State) :
    KeepsLaws s (State.volatileReset power s.nv s.freeUsed s.pending) where
  feeds _ := volatileReset_feedLaw _ _ _ _
  grants _ := volatileReset_grants _ _ _ _
  allocator _ := volatileReset_allocatorLaw _ _ _ _
  slugs _ := volatileReset_slugLaw _ _ _ _
  timers _ := volatileReset_timerLaw _ _ _ _
  queues _ := volatileReset_queueLaw _ _ _ _
  calibration sound := ⟨⟨sound.1, trivial⟩, keepsStorage_refl s⟩
  addresses sound := volatileReset_addressLaw _ _ _ _ (sound s.nv.record (by simp [State.addresses])).1
  stations _ := volatileReset_stationLaw _ _ _ _
  accounts _ := volatileReset_accountLaw _ _ _ _
  merge _ := volatileReset_mergeLaw _ _ _ _

/-- A request that is served evolves the state, whatever its code. -/
theorem whenOn_requestArrives_evolves {serve : Service} (sound : serve.Sound) (port : Port) (m : Message) (code : Nat)
    (s : State) : Evolves s (whenOn (requestArrives port m code serve) s) :=
  whenOn_evolves (requestArrives_evolves sound port m code s)

/-- Every command has an effect: it evolves the state, or is one of the two of the supply. -/
theorem exec_effect (c : Instr) (s : State) : ∃ t, exec c s = .next t
    ∧ (Evolves s t ∨ ∃ power, t = State.volatileReset power s.nv s.freeUsed s.pending) := by
  cases c with
  | powerOn => exact ⟨_, exec_powerOn s, .inr ⟨_, rfl⟩⟩
  | powerLoss => exact ⟨_, exec_powerLoss s, .inr ⟨_, rfl⟩⟩
  | receiveTelegram port octets => exact ⟨_, rfl, .inl (whenOn_evolves (receiveOctets_evolves port octets s))⟩
  | unloaderSample m | beltSample m | diverterSample m =>
    exact ⟨_, rfl, .inl (whenOn_evolves (arrive_evolves (handleSample_evolves _ _ s)))⟩
  | feedOrder m | divertOrder m =>
    exact ⟨_, rfl, .inl (whenOn_evolves (arrive_evolves (handleOrderA_evolves _ s)))⟩
  | allocationPeriodExpiry => exact ⟨_, rfl, .inl (whenOn_evolves (periodExpires_evolves s))⟩
  | silenceTimerExpiry a => exact ⟨_, rfl, .inl (whenOn_evolves (silenceExpires_evolves a s))⟩
  | holdTimerExpiry d => exact ⟨_, rfl, .inl (whenOn_evolves (holdTimerExpires_evolves d s))⟩
  | cursorIdleExpiry => exact ⟨_, rfl, .inl (whenOn_evolves (cursorExpires_evolves s))⟩
  | calibrationWriteCompletion => exact ⟨_, rfl, .inl (whenOn_evolves (completeCalibration_evolves s))⟩
  | grandTotalWriteStart => exact ⟨_, rfl, .inl (whenOn_evolves (startGrandTotal_evolves s))⟩
  | grandTotalWriteCompletion => exact ⟨_, rfl, .inl (whenOn_evolves (completeGrandTotal_evolves s))⟩
  | commissioningWriteCompletion => exact ⟨_, rfl, .inl (whenOn_evolves (completeCommission_evolves s))⟩
  | transmissionBegin port => exact ⟨_, rfl, .inl (whenOn_evolves (beginSending_evolves port s))⟩
  | transmissionEnd port => exact ⟨_, rfl, .inl (whenOn_evolves (endSending_evolves port s))⟩
  | unknownRequest port m =>
    exact ⟨_, rfl, .inl (whenOn_evolves (arrive_evolves (handleRequest_evolves serveByCode_sound port _ s)))⟩
  | status p m => exact ⟨_, rfl, .inl (whenOn_requestArrives_evolves (served_sound takeStatus_evolves) p m 1 s)⟩
  | tableRead p m => exact ⟨_, rfl, .inl (whenOn_requestArrives_evolves (served_sound takeTableRead_evolves) p m 2 s)⟩
  | tableWrite p m => exact ⟨_, rfl, .inl (whenOn_requestArrives_evolves (served_sound takeTableWrite_evolves) p m 3 s)⟩
  | legRead p m => exact ⟨_, rfl, .inl (whenOn_requestArrives_evolves (served_sound takeLegRead_evolves) p m 4 s)⟩
  | legStart p m => exact ⟨_, rfl, .inl (whenOn_requestArrives_evolves (served_sound takeLegStart_evolves) p m 5 s)⟩
  | legStop p m => exact ⟨_, rfl, .inl (whenOn_requestArrives_evolves (served_sound takeLegStop_evolves) p m 6 s)⟩
  | legClear p m => exact ⟨_, rfl, .inl (whenOn_requestArrives_evolves (served_sound takeLegClear_evolves) p m 7 s)⟩
  | setAllocator p m =>
    exact ⟨_, rfl, .inl (whenOn_requestArrives_evolves (served_sound takeSetAllocator_evolves) p m 8 s)⟩
  | binReset p m => exact ⟨_, rfl, .inl (whenOn_requestArrives_evolves (served_sound takeBinReset_evolves) p m 9 s)⟩
  | readAccounts p m =>
    exact ⟨_, rfl, .inl (whenOn_requestArrives_evolves (served_sound takeReadAccounts_evolves) p m 10 s)⟩
  | snapshotLot p m =>
    exact ⟨_, rfl, .inl (whenOn_requestArrives_evolves (served_sound takeSnapshotLot_evolves) p m 11 s)⟩
  | readSnapshot p m =>
    exact ⟨_, rfl, .inl (whenOn_requestArrives_evolves (served_sound takeReadSnapshot_evolves) p m 12 s)⟩
  | calibrate p m => exact ⟨_, rfl, .inl (whenOn_requestArrives_evolves (served_sound takeCalibrate_evolves) p m 13 s)⟩
  | flagsRead p m => exact ⟨_, rfl, .inl (whenOn_requestArrives_evolves (served_sound takeFlagsRead_evolves) p m 14 s)⟩
  | flagsClear p m =>
    exact ⟨_, rfl, .inl (whenOn_requestArrives_evolves (served_sound takeFlagsClear_evolves) p m 15 s)⟩
  | noticeMask p m =>
    exact ⟨_, rfl, .inl (whenOn_requestArrives_evolves (served_sound takeNoticeMask_evolves) p m 16 s)⟩
  | bulkOpen p m => exact ⟨_, rfl, .inl (whenOn_requestArrives_evolves (served_sound takeBulkOpen_evolves) p m 17 s)⟩
  | bulkData p m => exact ⟨_, rfl, .inl (whenOn_requestArrives_evolves (served_sound takeBulkData_evolves) p m 18 s)⟩
  | commission p m =>
    exact ⟨_, rfl, .inl (whenOn_requestArrives_evolves (served_sound takeCommission_evolves) p m 19 s)⟩
  | restart p m => exact ⟨_, rfl, .inl (whenOn_requestArrives_evolves takeRestart_evolves p m 20 s)⟩

/-- Every command keeps every law. -/
theorem exec_keepsLaws {c : Instr} {s t : State} (h : exec c s = .next t) : KeepsLaws s t := by
  obtain ⟨u, taken, evolves | ⟨power, reset⟩⟩ := exec_effect c s
  all_goals
    rw [taken] at h
    cases h
  · exact evolves.keepsLaws
  · exact reset ▸ volatileReset_keepsLaws power s

/-- With no command waiting, a step is a millisecond of the timers (log entry 1). -/
theorem step_idle {s : State} (idle : s.pending = []) : step s = .next (tick s) := by
  unfold step
  rw [idle]

/-- With a command waiting, a step runs it (log entry 1). -/
theorem step_front {s : State} {c : Instr} {rest : List Instr} (front : s.pending = c :: rest) :
    step s = exec c { s with pending := rest } := by
  unfold step
  rw [front]

/-- No law reads the queue of commands. -/
theorem KeepsLaws.of_pending {s t : State} (waiting : List Instr) (h : KeepsLaws { s with pending := waiting } t) :
    KeepsLaws s t :=
  ⟨h.feeds, h.grants, h.allocator, h.slugs, h.timers, h.queues, h.calibration, h.addresses, h.stations, h.accounts,
    h.merge⟩

/-- Every step keeps every law. -/
theorem step_keepsLaws {s t : State} (h : step s = .next t) : KeepsLaws s t := by
  cases waiting : s.pending with
  | nil =>
    rw [step_idle waiting] at h
    cases h
    exact (tick_evolves s).keepsLaws.of_pending _
  | cons c rest =>
    rw [step_front waiting] at h
    exact (exec_keepsLaws h).of_pending _

/-! ### The obligations -/

/-- Settles O54: the laws of the feeds and of the allocator are among those that every step keeps. -/
theorem stepKeepsFeedsInOrder : Obligations.StepKeepsFeedsInOrder :=
  fun _ _ h => ⟨(step_keepsLaws h).feeds, (step_keepsLaws h).allocator⟩

/-- Settles O55: the laws of the grants are kept together. -/
theorem stepKeepsGrantsWithinLimits : Obligations.StepKeepsGrantsWithinLimits :=
  fun _ _ h => (step_keepsLaws h).grants

/-- Settles O56: the laws of the slug queues, of the hold timers and of the port queues are among those kept. -/
theorem stepKeepsQueues : Obligations.StepKeepsQueues :=
  fun _ _ h => ⟨(step_keepsLaws h).slugs, (step_keepsLaws h).timers, (step_keepsLaws h).queues⟩

/-- Settles O57: the law of the lot accounts is among those kept. -/
theorem stepKeepsLotAccounts : Obligations.StepKeepsLotAccounts :=
  fun _ _ h => (step_keepsLaws h).accounts

/-- Settles O58: the law of calibration is kept, and under it what is stored stays. -/
theorem stepKeepsCalibration : Obligations.StepKeepsCalibration :=
  fun _ _ h => (step_keepsLaws h).calibration

/-- Settles O59: the laws of the addresses and of the stations are among those kept. -/
theorem stepKeepsAddresses : Obligations.StepKeepsAddresses :=
  fun _ _ h => ⟨(step_keepsLaws h).addresses, (step_keepsLaws h).stations⟩

/-- Settles O60: the law that LEG START upholds is among those kept. -/
theorem stepKeepsLegsApart : Obligations.StepKeepsLegsApart :=
  fun _ _ h => (step_keepsLaws h).merge

/-- Settles O1: the queue's front decides the step. -/
theorem stepRunsFrontCommand : Obligations.StepRunsFrontCommand :=
  fun _ _ _ front => step_front front

/-- Settles O3: every command has an effect, and neither an evolving one nor the supply changes the queue. -/
theorem everyCommandIsTaken : Obligations.EveryCommandIsTaken := by
  intro c s
  obtain ⟨t, taken, evolves | ⟨power, reset⟩⟩ := exec_effect c s
  · exact ⟨t, taken, evolves.pending⟩
  · exact ⟨t, taken, by rw [reset]; rfl⟩

/-- Settles O7: reset is the state of power-on over blank records, which are sound. -/
theorem resetIsSound : Obligations.ResetIsSound := by
  have slot (i : UnloaderIx) (k : SlotIx) : (Nonvolatile.blank.slots[i])[k] = none := by
    simp [Nonvolatile.blank]
  have total (i : UnloaderIx) : Nonvolatile.blank.totals[i] = 0 := replicate_get _ i
  refine ⟨volatileReset_feedLaw _ _ _ _, volatileReset_grants _ _ _ _, volatileReset_allocatorLaw _ _ _ _,
    volatileReset_slugLaw _ _ _ _, volatileReset_timerLaw _ _ _ _, volatileReset_queueLaw _ _ _ _,
    ⟨fun i => ⟨fun j k _ written => ?first, fun k v written => ?range, ?total⟩, trivial⟩,
    volatileReset_addressLaw _ _ _ _ (by decide), volatileReset_stationLaw _ _ _ _, volatileReset_accountLaw _ _ _ _,
    volatileReset_mergeLaw _ _ _ _⟩
  case first =>
    rw [show (State.reset.nv.slots[i])[k] = none from slot i k] at written
    cases written
  case range =>
    rw [show (State.reset.nv.slots[i])[k] = none from slot i k] at written
    cases written
  case total => exact (total i).le.trans (Nat.zero_le _)

/-- Settles O2: the millisecond of `runTimers` piece by piece, and the expiries that join the queue behind it. -/
theorem idleStepRunsTimers : Obligations.IdleStepRunsTimers := by
  intro s idle
  refine ⟨fun off => ?_, fun on => ?_⟩
  · rw [step_idle idle, tick, off]
  · have wait : (runTimers s).pending ++ (runTimers s).expiries = (runTimers s).expiries := by
      rw [show (runTimers s).pending = [] from idle, List.nil_append]
    refine ⟨{ runTimers s with pending := (runTimers s).expiries }, ?_, ?_, fun c => mem_expiries _ c,
      expiries_nodup _, rfl, rfl, fun d => map_get _ _ d, rfl, ?_, fun a => ?_⟩
    · rw [step_idle idle, tick, on]
      dsimp only
      rw [wait]
    · intro p unlisted
      cases p with
      | alloc | seg | watch | mgmt | clock | pending => simp at unlisted
      | power | tables | legs | tracker | weighing | writer | nv | path | notices | freeUsed => rfl
    · by_cases early : s.clock + 1 < 100
      · rw [if_pos early]
        simp [runTimers, watchStep, Nat.not_le.2 early]
      · rw [if_neg early]
        simp [runTimers, watchStep, Nat.not_lt.1 early]
    · by_cases early : s.clock + 1 < 100
      · rw [if_pos early]
        simp [runTimers, watchStep, Nat.not_le.2 early]
      · rw [if_neg early]
        simp [runTimers, watchStep, Nat.not_lt.1 early]
        rfl

end Sys2Proof.Machine
end

