-- ==== Sys2Proof/Proofs/SupplyAndReception.lean ====
section
/-!
PROOFS. The supply (R23, R74, R102, R123, R143, R159, R176, R185, R189), the reception of octets (R160 to R163), and
what is only handed on (R165, R166).
-/

namespace Sys2Proof.Machine

/-! ### The supply -/

theorem allOnes_enables (c : Cause) : maskEnables (BitVec.allOnes 10) c = true := by
  cases c <;> rfl

section
variable (power : Power) (nv : Nonvolatile) (freeUsed : Nat) (pending : List Instr)

theorem volatileReset_hold (n : HoldIx) :
    (State.volatileReset power nv freeUsed pending).tables.holds[n] = none := replicate_get _ n

theorem volatileReset_bin (n : BinIx) :
    (State.volatileReset power nv freeUsed pending).tables.bins[n] = none := replicate_get _ n

theorem volatileReset_source (i : UnloaderIx) :
    (State.volatileReset power nv freeUsed pending).tracker.sources[i] = none := replicate_get _ i

theorem volatileReset_watch (a : Addr) :
    (State.volatileReset power nv freeUsed pending).watch[a] = none := replicate_get _ a

end

/-- Settles O5: each entry reads its power-on value, and the rest are those values as written. -/
theorem powerOnOtherBlocks : Obligations.PowerOnOtherBlocks := by
  intro s
  exact ⟨_, exec_powerOn s, rfl, fun a => volatileReset_station _ _ _ _ a, fun n => volatileReset_hold _ _ _ _ n,
    fun n => volatileReset_bin _ _ _ _ n, rfl, fun b => volatileReset_belt _ _ _ _ b,
    fun i => volatileReset_source _ _ _ _ i, fun d => volatileReset_diverter _ _ _ _ d, rfl, rfl,
    fun a => volatileReset_watch _ _ _ _ a, rfl, rfl, fun f => Flags.get_allClear f, fun c => allOnes_enables c,
    rfl, rfl⟩

/-- Every command but those of the supply acts only on a part that has it (log entry 3). -/
theorem exec_whenOn {c : Instr} (on : c ≠ .powerOn) (loss : c ≠ .powerLoss) :
    ∃ act, ∀ s, exec c s = .next (whenOn act s) := by
  cases c with
  | powerOn => exact absurd rfl on
  | powerLoss => exact absurd rfl loss
  | _ => exact ⟨_, fun _ => rfl⟩

/-- Settles O6: POWER_LOSS leaves what POWER_ON does, without the supply, and a part without it takes no other
command. -/
theorem powerLossKeepsNonvolatile : Obligations.PowerLossKeepsNonvolatile := by
  refine ⟨fun s => ?_, fun c s off on loss => ?_⟩
  · exact ⟨_, _, exec_powerLoss s, exec_powerOn s, rfl, rfl, rfl, rfl, rfl, rfl,
      fun i => ⟨volatileReset_leg _ _ _ _ i, volatileReset_source _ _ _ _ i⟩,
      fun b => volatileReset_belt _ _ _ _ b, fun d => volatileReset_diverter _ _ _ _ d,
      fun a => ⟨volatileReset_station _ _ _ _ a, volatileReset_watch _ _ _ _ a⟩, rfl, rfl, rfl, rfl⟩
  · obtain ⟨act, taken⟩ := exec_whenOn on loss
    rw [taken, whenOn_off off]

/-! ### The octets that pass reception (R160, R162, R163) -/

theorem hiOctet_wordOf (hi lo : Octet) : hiOctet (wordOf hi lo) = hi := by
  apply BitVec.eq_of_toNat_eq
  simp only [wordOf, hiOctet, BitVec.toNat_ofNat]
  omega

theorem loOctet_wordOf (hi lo : Octet) : loOctet (wordOf hi lo) = lo := by
  apply BitVec.eq_of_toNat_eq
  simp only [wordOf, loOctet, BitVec.toNat_ofNat]
  omega

/-- Octets in pairs are those of their words. -/
theorem octetsOf_wordsOf {n : Nat} {os : List Octet} (pairs : os.length = 2 * n) :
    octetsOf (wordsOf os) = os ∧ (wordsOf os).length = n := by
  induction n generalizing os with
  | zero =>
    obtain rfl : os = [] := List.length_eq_zero_iff.1 pairs
    exact ⟨rfl, rfl⟩
  | succ n ih =>
    match os, pairs with
    | hi :: lo :: rest, pairs =>
      obtain ⟨same, count⟩ := ih (os := rest) (by simp only [List.length_cons] at pairs; omega)
      exact ⟨by rw [wordsOf, octetsOf, hiOctet_wordOf, loOctet_wordOf, same], by rw [wordsOf, List.length_cons, count]⟩
    | [_], pairs => simp only [List.length_cons, List.length_nil] at pairs; omega

theorem kindOf_some {n : Nat} {k : Kind} (h : kindOf n = some k) : n = k.code := by
  unfold kindOf at h
  split at h <;> cases h <;> rfl

theorem ofNat_of_toNat {o : Octet} {n : Nat} (h : o.toNat = n) : BitVec.ofNat 8 n = o := by
  subst h
  exact BitVec.eq_of_toNat_eq (by simp)

/-- Octets that pass the three checks of reception are those of the telegram they pass as (R163). -/
theorem wire_of_received {os : List Octet} {t : Telegram} (h : received os = some t) :
    t.inRange = true ∧ os = t.wire := by
  unfold received at h
  split at h
  next d src k q len rest =>
    split at h
    next size =>
      dsimp only at h
      split at h
      next checked =>
        split at h
        next kind named =>
          split at h
          next fits =>
            split at h
            next inRange =>
              obtain rfl := Option.some.inj h
              refine ⟨inRange, ?_⟩
              obtain ⟨payload, count⟩ := octetsOf_wordsOf (n := len.toNat) (os := rest.take (2 * len.toNat))
                (by rw [List.length_take]; omega)
              obtain ⟨last, _⟩ := octetsOf_wordsOf (n := 1) (os := rest.drop (2 * len.toNat))
                (by rw [List.length_drop]; omega)
              have body : (⟨⟨d.toNat, fits.1⟩, ⟨src.toNat, fits.2⟩, kind, q, wordsOf (rest.take (2 * len.toNat))⟩ :
                  Telegram).body = (d :: src :: k :: q :: len :: rest).take (5 + 2 * len.toNat) := by
                rw [show 5 + 2 * len.toNat = 2 * len.toNat + 1 + 1 + 1 + 1 + 1 by omega]
                simp only [Telegram.body, List.take_succ_cons, payload, count, ofNat_of_toNat rfl,
                  ofNat_of_toNat (kindOf_some named)]
              rw [Telegram.wire, body, ← checked, last]
              rw [show rest.drop (2 * len.toNat) =
                (d :: src :: k :: q :: len :: rest).drop (5 + 2 * len.toNat) by
                  rw [show 5 + 2 * len.toNat = 2 * len.toNat + 1 + 1 + 1 + 1 + 1 by omega]
                  rfl]
              exact (List.take_append_drop _ _).symm
            next => cases h
          next => cases h
        next => cases h
      next => cases h
    next => cases h
  next => cases h

/-- Settles O8: what passes reception is the wire form of the telegram in range that it passes as, and only that. -/
theorem wireRoundTrip : Obligations.WireRoundTrip := by
  refine fun os t => ⟨wire_of_received, fun ⟨inRange, wire⟩ => ?_⟩
  rw [wire, received_wire inRange]

theorem countCheckError_eq (port : Port) (s : State) : countCheckError port s = checkErrorCounted port s := by
  cases port <;> rfl

/-- Settles O9: a run that is the wire form of no telegram in range passes as none. -/
theorem receptionDiscards : Obligations.ReceptionDiscards := by
  intro port os s on none
  have discarded : received os = .none := by
    cases passes : received os with
    | none => rfl
    | some t => exact absurd (wire_of_received passes).2 (none t (wire_of_received passes).1)
  refine next_congr ((whenOn_on on).trans ?_)
  rw [receiveOctets, discarded]
  exact countCheckError_eq port s

/-- The handling of a telegram by its kind is that of the command that carries it (R165, R179). -/
theorem exec_carried_classify {c : Instr} {port : Port} {t : Telegram} (carried : carriedBy c = some (port, t))
    (s : State) : exec c s = .next (whenOn (arrive port t (classify port t)) s) := by
  cases c with
  | unloaderSample m | beltSample m | diverterSample m | feedOrder m | divertOrder m =>
    cases carried
    rfl
  | unknownRequest p m | status p m | tableRead p m | tableWrite p m | legRead p m | legStart p m | legStop p m
  | legClear p m | setAllocator p m | binReset p m | readAccounts p m | snapshotLot p m | readSnapshot p m
  | calibrate p m | flagsRead p m | flagsClear p m | noticeMask p m | bulkOpen p m | bulkData p m | commission p m
  | restart p m =>
    cases carried
    rfl
  | _ => nomatch carried

/-- Settles O10: both ways end in the arrival of the telegram and its handling by kind. -/
theorem receivedTelegramIsItsCommand : Obligations.ReceivedTelegramIsItsCommand := by
  intro c port t s carried inRange
  rw [exec_receiveTelegram_wire inRange, exec_carried_classify carried]

/-! ### What is only handed on (R165, R166) -/

/-- A telegram in range that does not misuse the own address is handled by its kind (R163 to R165). -/
theorem exec_receiveTelegram_classify {port : Port} {t : Telegram} {s : State} (on : s.power = .on)
    (inRange : t.inRange = true) (proper : s.misused t = false) :
    exec (.receiveTelegram port t.wire) s = .next (classify port t s) := by
  rw [exec_receiveTelegram_wire inRange, whenOn_on on, arrive_handled inRange proper]

theorem handleRequest_other {t : Telegram} {s : State} (own : t.dest ≠ s.mgmt.inForce.own) (all : t.dest ≠ broadcast)
    (serve : Service) (port : Port) : handleRequest serve port t s = forward port t s := by
  rw [handleRequest, if_neg own, if_neg all]

/-- An order on port A of no governed subkind is forwarded (R165). -/
theorem handleOrderA_ungoverned {t : Telegram} (feed : t.payload.head? ≠ some 1) (divert : t.payload.head? ≠ some 2)
    (s : State) : handleOrderA t s = forward .a t s := by
  unfold handleOrderA
  cases payload : t.payload with
  | nil => rfl
  | cons subkind rest =>
    rw [payload, List.head?_cons] at feed divert
    exact if_neg (by rintro (rfl | rfl); exacts [feed rfl, divert rfl])

/-- A DIVERT order to a station that is no diverter is forwarded (R165). -/
theorem handleOrderA_noDiverter {t : Telegram} {s : State} (divert : t.payload.head? = some 2)
    (long : 2 ≤ t.payload.length) (all : t.dest ≠ broadcast)
    (other : ∀ e ∈ s.tables.stations[t.dest], e.diverter? = none) : handleOrderA t s = forward .a t s := by
  have noDiverter : s.tables.stations[t.dest].bind StationEntry.diverter? = none :=
    Option.bind_eq_none_iff.2 other
  unfold handleOrderA
  match payload : t.payload with
  | [] => simp [payload] at divert
  | [_] => simp [payload] at long
  | subkind :: w :: rest =>
    rw [payload] at divert
    obtain rfl : subkind = divertWord := Option.some.inj divert
    have : ¬ divertWord = feedWord := by decide
    simp only [handleGoverned, handleDivert, noDiverter, if_neg all, this, if_false, or_true, if_true,
      List.cons_ne_nil]

/-- A SAMPLE that is long enough, and not one from port B for a watch record, is only forwarded (R147, R165). -/
theorem handleSample_unwatched {port : Port} {t : Telegram} {s : State} (out : port = .a ∨ s.watch[t.source] = none)
    (long : ∀ e ∈ s.tables.stations[t.source], e.kind.wordsNeeded ≤ t.payload.length) :
    handleSample port t s = forward port t s := by
  have enough : ¬ t.payload.length < s.wordsNeededFrom t.source := by
    unfold State.wordsNeededFrom
    cases entry : s.tables.stations[t.source] with
    | none => exact Nat.not_lt_zero _
    | some e => exact Nat.not_lt.2 (long e entry)
  unfold handleSample
  rw [if_neg enough]
  cases port with
  | a => rfl
  | b =>
    have unwatched : s.watch[t.source] = none := out.resolve_left (by simp)
    have kept : handSample t s = s := by
      unfold handSample takeSample
      rw [unwatched]
      split <;> rfl
    exact congrArg (forward .b t) kept

/-- Settles O12: by the kind of the telegram, each of these comes to being forwarded. -/
theorem otherTelegramsForwarded : Obligations.OtherTelegramsForwarded := by
  intro port t s on inRange source request only
  have proper : s.misused t = false := by
    rw [Bool.eq_false_iff, ne_eq, misused_iff]
    rintro (own | ⟨own, kind⟩)
    exacts [source own, kind (request own)]
  rw [exec_receiveTelegram_classify on inRange proper]
  refine next_congr ?_
  change classify port t s = forward port t s
  unfold classify
  obtain hand | ⟨kind, own, all⟩ | ⟨kind, rfl⟩ | ⟨kind, rfl, feed, divert⟩ | ⟨kind, rfl, divert, long, all, other⟩
    | ⟨kind, out, long⟩ := only
  · cases kind : t.kind <;> simp only [kind, List.mem_cons, List.not_mem_nil, reduceCtorEq, or_self] at hand ⊢
  · rw [kind]
    exact handleRequest_other own all _ _
  · rw [kind]
    rfl
  · rw [kind]
    exact handleOrderA_ungoverned feed divert s
  · rw [kind]
    exact handleOrderA_noDiverter divert long all other
  · rw [kind]
    exact handleSample_unwatched out long

end Sys2Proof.Machine
end

