-- ==== Sys2Proof/Proofs/QueuesAndFlags.lean ====
section
/-!
PROOFS. The port queues (R170 to R172), the transmitters (R173, R191), the flags and their notices (R194, R195), the
silence timers (R150 to R154), and the nonvolatile writer (R141, R143, R191).
-/

namespace Sys2Proof.Machine

/-! ### Joining a queue (R170, R171, R191) -/

/-- The addresses in force after some may have come into force (R191). -/
theorem takeForce_eq (s : State) (x : Option Addresses) :
    s.takeForce x = { s with mgmt := { s.mgmt with inForce := x.getD s.mgmt.inForce } } := by
  cases x <;> rfl

theorem joinEgress_place {s : State} (place : s.path.egressA.length < 16) (q : Queued) :
    joinEgress q s = { s with path := { s.path with egressA := s.path.egressA ++ [q] } } :=
  if_pos place

theorem joinEgress_full {s : State} (full : 16 ≤ s.path.egressA.length) (q : Queued) :
    joinEgress q s = { s with
      path := { s.path with dropsA := min (s.path.dropsA + 1) 65535 }
      mgmt := { s.mgmt with inForce := q.takesForce.getD s.mgmt.inForce } } := by
  rw [joinEgress, if_neg (show ¬ s.path.egressA.length < Config.egressPlaces from Nat.not_lt.2 full), takeForce_eq]
  rfl

theorem joinForward_dropped {s : State} (full : 16 ≤ s.path.forwardB.length) (q : Queued) :
    joinForward q s = { s with
      path := { s.path with dropsB := min (s.path.dropsB + 1) 65535 }
      mgmt := { s.mgmt with inForce := q.takesForce.getD s.mgmt.inForce } } := by
  have noPlace : s.forwardHasPlace = false := by
    rw [Bool.eq_false_iff, ne_eq, forwardHasPlace_iff]
    exact Nat.not_lt.2 full
  rw [joinForward, noPlace, takeForce_eq]
  rfl

/-- A telegram that brings no addresses changes the telegram path alone. -/
theorem joinEgress_path {q : Queued} (brings : q.takesForce = none) (s : State) :
    joinEgress q s = { s with path := (joinEgress q s).path } := by
  obtain place | full := Nat.lt_or_ge s.path.egressA.length 16
  · rw [joinEgress_place place]
  · rw [joinEgress_full full, brings]
    rfl

/-! ### The guard queue (R67, R172) -/

/-- Orders for other unloaders stay as they are where one is replaced. -/
theorem guardsWith_map_others {q : List Guard} {g : Guard} (others : ∀ x ∈ q, x.unloader ≠ g.unloader) :
    (q.map fun x => if x.unloader = g.unloader then g else x) = q :=
  (List.map_congr_left fun x here => if_neg (others x here)).trans (List.map_id' q)

/-- A guard order takes the place of the one that waits for its unloader (R172). -/
theorem guardsWith_replaces {before after : List Guard} {x g : Guard} (same : x.unloader = g.unloader)
    (once : ((before ++ x :: after).map (·.unloader)).Nodup) :
    guardsWith (before ++ x :: after) g = before ++ g :: after := by
  rw [List.map_append, List.map_cons, List.nodup_append, List.nodup_cons] at once
  obtain ⟨-, ⟨notAfter, -⟩, apart⟩ := once
  have before_others : ∀ y ∈ before, y.unloader ≠ g.unloader := fun y here =>
    same ▸ apart _ (List.mem_map_of_mem here) _ List.mem_cons_self
  have after_others : ∀ y ∈ after, y.unloader ≠ g.unloader := fun y here e =>
    notAfter (List.mem_map.2 ⟨y, here, e.trans same.symm⟩)
  have waits : (before ++ x :: after).any (fun y => y.unloader == g.unloader) = true :=
    List.any_eq_true.2 ⟨x, by simp, beq_iff_eq.2 same⟩
  rw [guardsWith, if_pos waits, List.map_append, List.map_cons, guardsWith_map_others before_others,
    guardsWith_map_others after_others, if_pos same]

/-- A guard order joins at the tail where none waits for its unloader (R172). -/
theorem guardsWith_joins {q : List Guard} {g : Guard} (others : ∀ x ∈ q, x.unloader ≠ g.unloader) :
    guardsWith q g = q ++ [g] := by
  refine if_neg fun waits => ?_
  obtain ⟨x, here, same⟩ := List.any_eq_true.1 waits
  exact others x here (beq_iff_eq.1 same)

/-- A guard order that has an address to go to (R67). -/
theorem handGuard_found {i : UnloaderIx} {s : State} {a : Addr} {d : UnloaderData}
    (station : s.unloaderStation i = some (a, d)) (n : Nat) :
    handGuard i n s = { s with path := { s.path with
      guardB := guardsWith s.path.guardB ⟨i, a, n⟩
      forwardB := s.path.forwardB.filter fun q => !q.isFeedTo a } } := by
  rw [handGuard, station]

/-- Settles O13: whether the queue has a place decides a joining, and the orders that wait a guard order. -/
theorem queuesTakeTelegrams : Obligations.QueuesTakeTelegrams := by
  refine ⟨fun q s => ⟨fun place => joinEgress_place place q, fun full => joinEgress_full full q,
    fun place => joinForward_place place q, fun full => joinForward_dropped full q⟩,
    fun i n s a d station once => ?_⟩
  have unique := guardsWith_nodup ⟨i, a, n⟩ once
  refine ⟨_, handGuard_found station n, fun before x after waits same => ?_, fun others => guardsWith_joins others,
    unique, ?_⟩
  · rw [waits] at once ⊢
    exact guardsWith_replaces (g := ⟨i, a, n⟩) same once
  · simpa using unique.length_le_card

/-! ### Transmission (R173, R191) -/

section
variable {s : State}

theorem beginA_head {q : Queued} {rest : List Queued} (idle : s.path.sendingA = none)
    (queue : s.path.egressA = q :: rest) : beginA s = { s with path := { s.path with
      egressA := rest, sendingA := some (s.sendingOf q), originCount := s.path.countAfter q } } := by
  rw [beginA, idle, queue]

theorem beginB_guard {x : Guard} {rest : List Guard} (idle : s.path.sendingB = none)
    (queue : s.path.guardB = x :: rest) : beginB s = { s with path := { s.path with
      guardB := rest, sendingB := some (s.sendingOf x.queued)
      originCount := s.path.countAfter x.queued } } := by
  rw [beginB, idle, queue]

theorem beginB_forward {q : Queued} {rest : List Queued} (idle : s.path.sendingB = none)
    (guards : s.path.guardB = []) (queue : s.path.forwardB = q :: rest) :
    beginB s = { s with path := { s.path with
      forwardB := rest, sendingB := some (s.sendingOf q), originCount := s.path.countAfter q } } := by
  rw [beginB, idle, guards, queue]

/-- Port A is sending or has nothing to send, and does not begin (log entry 2). -/
theorem beginA_stays (h : s.path.sendingA ≠ none ∨ s.path.egressA = []) : beginA s = s := by
  unfold beginA
  split
  next idle queue =>
    rw [idle, queue] at h
    simp at h
  next => rfl

/-- Port B is sending or has nothing to send, and does not begin (log entry 2). -/
theorem beginB_stays (h : s.path.sendingB ≠ none ∨ (s.path.guardB = [] ∧ s.path.forwardB = [])) :
    beginB s = s := by
  unfold beginB
  split
  next idle guards =>
    rw [idle, guards] at h
    simp at h
  next idle guards queue =>
    rw [idle, queue] at h
    simp at h
  next => rfl

theorem transmissionBegin_taken (on : s.power = .on) (port : Port) :
    exec (.transmissionBegin port) s = .next (beginSending port s) := next_congr (whenOn_on on)

theorem transmissionEnd_taken (on : s.power = .on) (port : Port) :
    exec (.transmissionEnd port) s = .next (endSending port s) := next_congr (whenOn_on on)

theorem endSending_idleA (idle : s.path.sendingA = none) : endSending .a s = s := by
  rw [endSending, idle]

theorem endSending_idleB (idle : s.path.sendingB = none) : endSending .b s = s := by
  rw [endSending, idle]

theorem endSending_a {x : Sending} (sending : s.path.sendingA = some x) :
    endSending .a s = beginA { s with
      path := { s.path with sendingA := none }
      mgmt := { s.mgmt with inForce := x.takesForce.getD s.mgmt.inForce } } := by
  rw [endSending, sending]
  exact congrArg beginA (takeForce_eq _ _)

theorem endSending_b {x : Sending} (sending : s.path.sendingB = some x) :
    endSending .b s = beginB { s with
      path := { s.path with sendingB := none }
      mgmt := { s.mgmt with inForce := x.takesForce.getD s.mgmt.inForce } } := by
  rw [endSending, sending]
  exact congrArg beginB (takeForce_eq _ _)

end

/-- Settles O14: the transmitter and the queues decide what begins, and an end comes to a beginning. -/
theorem transmissionsBeginAndEnd : Obligations.TransmissionsBeginAndEnd := by
  intro s on
  refine ⟨fun q rest idle queue => ?_, fun x rest idle queue => ?_, fun q rest idle guards queue => ?_, fun _ => rfl,
    fun _ _ _ _ => rfl, fun h => ?_, fun h => ?_, fun x sending => ?_, fun x sending => ?_, fun idle => ?_,
    fun idle => ?_⟩
  · exact (transmissionBegin_taken on .a).trans (next_congr (beginA_head idle queue))
  · exact (transmissionBegin_taken on .b).trans (next_congr (beginB_guard idle queue))
  · exact (transmissionBegin_taken on .b).trans (next_congr (beginB_forward idle guards queue))
  · exact (transmissionBegin_taken on .a).trans (next_congr (beginA_stays h))
  · exact (transmissionBegin_taken on .b).trans (next_congr (beginB_stays h))
  · rw [transmissionEnd_taken on, endSending_a sending]
    exact (transmissionBegin_taken (by exact on) .a).symm
  · rw [transmissionEnd_taken on, endSending_b sending]
    exact (transmissionBegin_taken (by exact on) .b).symm
  · exact (transmissionEnd_taken on .a).trans (next_congr (endSending_idleA idle))
  · exact (transmissionEnd_taken on .b).trans (next_congr (endSending_idleB idle))

/-! ### Flags and notices (R194, R195) -/

theorem Flags.get_setFlag_same (x : Flags) (f : Flag) : (x.setFlag f).get f = true := by
  cases f with
  | legEnded i => exact put_get_same x.legEnded i true
  | breach | stationSilent | stationBack | divertTimeout | weigherGlitch | poolExhausted | trackerFull | powerShort
  | cursorExpired => rfl

theorem Flags.get_setFlag_other (x : Flags) {f g : Flag} (other : g ≠ f) : (x.setFlag f).get g = x.get g := by
  cases f with
  | legEnded i =>
    cases g with
    | legEnded j => exact put_get_other x.legEnded true fun same => other (congrArg Flag.legEnded same)
    | _ => rfl
  | breach | stationSilent | stationBack | divertTimeout | weigherGlitch | poolExhausted | trackerFull | powerShort
  | cursorExpired => cases g <;> simp only [Flags.setFlag, Flags.get, ne_eq, not_true_eq_false] at other ⊢

/-- A flag that is set already: nothing more happens (R195). -/
theorem raiseFlag_set {f : Flag} {s : State} (set : s.notices.flags.get f = true) (subject value : Nat)
    (disabled : Bool) : raiseFlag f subject value disabled s = s := if_pos set

/-- A flag that was clear sets, and its notice goes out where it is enabled (R194, R195). -/
theorem raiseFlag_clear {f : Flag} {s : State} (clear : s.notices.flags.get f = false) (subject value : Nat)
    (disabled : Bool) : raiseFlag f subject value disabled s =
      if maskEnables s.notices.mask f.cause && !disabled then
        joinEgress (noticeOf f.cause subject value)
          { s with notices := { s.notices with flags := s.notices.flags.setFlag f } }
      else { s with notices := { s.notices with flags := s.notices.flags.setFlag f } } := by
  rw [raiseFlag, if_neg (by rw [clear]; exact Bool.false_ne_true)]

/-- What joins the egress queue does not depend on the notices. -/
theorem joinEgress_path_notices (q : Queued) (s : State) (x : Notices) :
    (joinEgress q { s with notices := x }).path = (joinEgress q s).path := by
  obtain place | full := Nat.lt_or_ge s.path.egressA.length 16
  · rw [joinEgress_place place, joinEgress_place (s := { s with notices := x }) place]
  · rw [joinEgress_full full, joinEgress_full (s := { s with notices := x }) full]

/-- A cause changes the notices and the telegram path at most (R194, R195). -/
theorem raiseFlag_frame (f : Flag) (subject value : Nat) (disabled : Bool) (s : State) :
    raiseFlag f subject value disabled s = { s with
      notices := (raiseFlag f subject value disabled s).notices
      path := (raiseFlag f subject value disabled s).path } := by
  cases clear : s.notices.flags.get f with
  | true => rw [raiseFlag_set clear]
  | false =>
    rw [raiseFlag_clear clear]
    split
    · rw [joinEgress_path rfl]
    · rfl

/-- The notices after a cause that was clear (R194). -/
theorem raiseFlag_notices {f : Flag} {s : State} (clear : s.notices.flags.get f = false) (subject value : Nat)
    (disabled : Bool) : (raiseFlag f subject value disabled s).notices =
      { s.notices with flags := s.notices.flags.setFlag f } := by
  rw [raiseFlag_clear clear]
  split
  · exact joinEgress_notices _ _
  · rfl

theorem raiseFlag_get_same (f : Flag) (subject value : Nat) (disabled : Bool) (s : State) :
    (raiseFlag f subject value disabled s).notices.flags.get f = true := by
  cases clear : s.notices.flags.get f with
  | true => rw [raiseFlag_set clear, clear]
  | false => rw [raiseFlag_notices clear, Flags.get_setFlag_same]

theorem raiseFlag_get_other {f g : Flag} (other : g ≠ f) (subject value : Nat) (disabled : Bool) (s : State) :
    (raiseFlag f subject value disabled s).notices.flags.get g = s.notices.flags.get g := by
  cases clear : s.notices.flags.get f with
  | true => rw [raiseFlag_set clear]
  | false => rw [raiseFlag_notices clear, Flags.get_setFlag_other _ other]

theorem raiseFlag_mask (f : Flag) (subject value : Nat) (disabled : Bool) (s : State) :
    (raiseFlag f subject value disabled s).notices.mask = s.notices.mask := by
  cases clear : s.notices.flags.get f with
  | true => rw [raiseFlag_set clear]
  | false => rw [raiseFlag_notices clear]

/-- A cause leaves every other piece of the state alone (R194, R195). -/
theorem raiseFlag_sameBut (f : Flag) (subject value : Nat) (disabled : Bool) (s : State) :
    sameBut [.notices, .path] s (raiseFlag f subject value disabled s) := by
  intro p unlisted
  rw [raiseFlag_frame]
  cases p with
  | notices | path => simp at unlisted
  | _ => rfl

/-- Settles O53: whether the flag was set, and whether its notice is enabled, decide what the cause does. -/
theorem causesSetFlagsAndSendNotices : Obligations.CausesSetFlagsAndSendNotices := by
  intro f subject value disabled s
  refine ⟨raiseFlag_get_same _ _ _ _ _, fun g other => raiseFlag_get_other other _ _ _ _, raiseFlag_mask _ _ _ _ _,
    raiseFlag_sameBut _ _ _ _ _, fun clear enabled notDisabled => ?_, fun quiet => ?_⟩
  · rw [raiseFlag_clear clear, enabled, notDisabled]
    exact joinEgress_path_notices _ _ _
  · cases clear : s.notices.flags.get f with
    | true => rw [raiseFlag_set clear]
    | false =>
      rw [raiseFlag_clear clear, if_neg]
      rw [clear] at quiet
      obtain set | masked | notDisabled := quiet
      · cases set
      · simp [masked]
      · simp [notDisabled]

/-! ### The silence timer (R150 to R154) -/

theorem silenceOut_iff {a : Addr} {s : State} {w : WatchRecord} (record : s.watch[a] = some w) :
    s.silenceOut a = true ↔ w.timer = some 0 := by
  rw [State.silenceOut, record]
  exact beq_iff_eq

/-- A station's silence, its effects by its kind (R151, R152). -/
theorem fallSilent_eq {a : Addr} {s : State} {e : StationEntry} {w : WatchRecord}
    (entry : s.tables.stations[a] = some e) (record : s.watch[a] = some w) :
    fallSilent a s = raiseFlag .stationSilent a.val e.kind.index false
      (silenceEffects e.kind (s.setWatch a (some w.silenced))) := by
  rw [fallSilent, record, entry]

theorem setPosition_eq {d : DiverterIx} {s : State} {r : DiverterRecord} (record : s.seg.diverters[d] = some r)
    (p : Option PositionIx) : setPosition d p s = s.setDiverter d (some { r with position := p }) := by
  rw [setPosition, record]

/-- Settles O28: the timer decides whether the expiry takes place, and the kind of the station what it does. -/
theorem silenceExpiry : Obligations.SilenceExpiry := by
  intro a s e w on entry record
  have taken : exec (.silenceTimerExpiry a) s = .next (silenceExpires a s) := next_congr (whenOn_on on)
  refine ⟨fun out u silenced => ?_, fun running => ?_⟩
  · have expires : exec (.silenceTimerExpiry a) s =
        .next (raiseFlag .stationSilent a.val e.kind.index false (silenceEffects e.kind u)) := by
      rw [taken, silenceExpires, whenOut, (silenceOut_iff record).2 out, if_pos rfl, fallSilent_eq entry record,
        silenced]
      rfl
    refine ⟨fun i d kind => ?_, fun b d kind => ?_, fun k d r kind diverter => ?_⟩
    · rw [expires, kind]
      rfl
    · rw [expires, kind]
      rfl
    · rw [expires, kind, silenceEffects, setPosition_eq (s := u) (by rw [silenced]; exact diverter)]
      rfl
  · rw [taken, silenceExpires, whenOut, if_neg (mt (silenceOut_iff record).1 running)]

/-! ### The nonvolatile writer (R141, R143, R191) -/

theorem joinPort_inForce (port : Port) (q : Queued) (s : State) : (joinPort port q s).mgmt.inForce =
    if (match port with
      | .a => s.path.egressA.length
      | .b => s.path.forwardB.length) < 16 then s.mgmt.inForce else q.takesForce.getD s.mgmt.inForce := by
  cases port with
  | a =>
    obtain place | full := Nat.lt_or_ge s.path.egressA.length 16
    · exact (congrArg (·.mgmt.inForce) (joinEgress_place place q)).trans (if_pos place).symm
    · exact (congrArg (·.mgmt.inForce) (joinEgress_full full q)).trans (if_neg (Nat.not_lt.2 full)).symm
  | b =>
    obtain place | full := Nat.lt_or_ge s.path.forwardB.length 16
    · exact (congrArg (·.mgmt.inForce) (joinForward_place place q)).trans (if_pos place).symm
    · exact (congrArg (·.mgmt.inForce) (joinForward_dropped full q)).trans (if_neg (Nat.not_lt.2 full)).symm

section
variable {s : State}

theorem calibrationWrite_taken (on : s.power = .on) :
    exec .calibrationWriteCompletion s = .next (completeCalibration s) := next_congr (whenOn_on on)

theorem grandTotalWrite_taken (on : s.power = .on) :
    exec .grandTotalWriteCompletion s = .next (completeGrandTotal s) := next_congr (whenOn_on on)

theorem commissioningWrite_taken (on : s.power = .on) :
    exec .commissioningWriteCompletion s = .next (completeCommission s) := next_congr (whenOn_on on)

theorem grandTotalWriteStart_taken (on : s.power = .on) :
    exec .grandTotalWriteStart s = .next (startGrandTotal s) := next_congr (whenOn_on on)

/-- A commissioning write completes: the record changes, and the reply brings the addresses (R191). -/
theorem completeCommission_eq {w : CommissionWrite} (writing : s.mgmt.writing = some w) :
    completeCommission s = joinPort w.port (.own w.requester .reply
      [19, 0, word w.addresses.own.val, word w.addresses.station.val] (some w.addresses)) { s with
        nv := { s.nv with record := w.addresses }
        mgmt := { s.mgmt with writing := none } } := by
  rw [completeCommission, writing]
  rfl

end

/-- Settles O30: the writer and the commissioning write in progress decide what completes. -/
theorem nonvolatileWritesComplete : Obligations.NonvolatileWritesComplete := by
  intro s on
  refine ⟨fun i k v a port writing => ?_, fun i batch writing => ?_, fun w writing => ?_, fun w t writing done => ?_,
    fun other => ?_, fun other => ?_, fun idle => ?_⟩
  · rw [calibrationWrite_taken on, completeCalibration, writing]
    rfl
  · rw [grandTotalWrite_taken on, completeGrandTotal, writing]
    rfl
  · rw [commissioningWrite_taken on, completeCommission_eq writing]
  · rw [commissioningWrite_taken on, completeCommission_eq writing] at done
    cases done
    exact joinPort_inForce _ _ _
  · rw [calibrationWrite_taken on, completeCalibration]
    split
    next writing => exact absurd writing (other _ _ _ _ _)
    next => rfl
  · rw [grandTotalWrite_taken on, completeGrandTotal]
    split
    next writing => exact absurd writing (other _ _)
    next => rfl
  · rw [commissioningWrite_taken on, completeCommission, idle]

/-- The index that the writer serves in a place of its order (R143). -/
theorem servingOrder_get (last : UnloaderIx) {n : Nat} (h : n < (servingOrder last).length) :
    ((servingOrder last)[n]).val = (last.val + 1 + n) % 6 := by
  have small : n < 6 := by simpa [servingOrder, allIx] using h
  simp only [servingOrder, allIx, List.getElem_map, List.getElem_finRange, Fin.val_add, Fin.val_cast]
  omega

/-- Settles O31: the index served is the first of the order that has pending tonnes. -/
theorem grandTotalWriteStarts : Obligations.GrandTotalWriteStarts := by
  intro s on
  have size : (servingOrder s.weighing.lastServed).length = 6 := by simp [servingOrder, allIx]
  refine ⟨fun n small i idle place tonnes before => ?_, fun none => ?_⟩
  · have next : s.nextServed = some i := by
      refine List.find?_eq_some_iff_getElem.2 ⟨decide_eq_true tonnes, n, by omega, Fin.ext ?_, fun k earlier => ?_⟩
      · rw [servingOrder_get, place]
      · have empty := before k earlier _ (servingOrder_get s.weighing.lastServed (n := k) (by omega))
        simp only [empty, Nat.lt_irrefl, decide_false, Bool.not_false]
    rw [grandTotalWriteStart_taken on, startGrandTotal, idle, next]
    rfl
  · rw [grandTotalWriteStart_taken on, startGrandTotal]
    split
    next i idle served =>
      obtain busy | empty := none
      · exact absurd idle busy
      · have tonnes := List.find?_some served
        simp only [empty i, Nat.lt_irrefl, decide_false, Bool.false_eq_true] at tonnes
    next => rfl

end Sys2Proof.Machine
end

