-- ==== Sys2Proof/Proofs/SamplesAndOrders.lean ====
section
/-!
PROOFS. SAMPLEs on port B: accepted, duplicate, too short, and weighed (R126 to R128, R148, R149, R153, R166). ORDERs
on port A: a FEED without an ACTIVE leg (R37), and a DIVERT (R107 to R111).
-/

namespace Sys2Proof.Machine

/-! ### What a cause leaves alone (R194, R195) -/

section
variable (f : Flag) (subject value : Nat) (disabled : Bool) (s : State)

@[simp] theorem raiseFlag_tables : (raiseFlag f subject value disabled s).tables = s.tables :=
  by rw [raiseFlag_frame]

@[simp] theorem raiseFlag_legs : (raiseFlag f subject value disabled s).legs = s.legs :=
  by rw [raiseFlag_frame]

@[simp] theorem raiseFlag_tracker : (raiseFlag f subject value disabled s).tracker = s.tracker :=
  by rw [raiseFlag_frame]

@[simp] theorem raiseFlag_seg : (raiseFlag f subject value disabled s).seg = s.seg :=
  by rw [raiseFlag_frame]

@[simp] theorem raiseFlag_weighing : (raiseFlag f subject value disabled s).weighing = s.weighing :=
  by rw [raiseFlag_frame]

@[simp] theorem raiseFlag_watch : (raiseFlag f subject value disabled s).watch = s.watch :=
  by rw [raiseFlag_frame]

@[simp] theorem raiseFlag_nv : (raiseFlag f subject value disabled s).nv = s.nv :=
  by rw [raiseFlag_frame]

end

/-! ### A SAMPLE on its way to its station's records (R163 to R166) -/

section
variable {m : Message} {e : StationEntry} {w : WatchRecord} {s : State}

/-- A SAMPLE that passes reception is handled (R163, R164). -/
theorem sample_handled (hears : s.hears m e w) (handle : State → State) :
    whenOn (arrive .b (messageTelegram m .sample []) handle) s = handle s := by
  obtain ⟨⟨on, wellFormed, source⟩, dest, -, -⟩ := hears
  have inRange : (messageTelegram m .sample []).inRange = true :=
    (messageTelegram_inRange m .sample []).trans wellFormed
  have proper : s.misused (messageTelegram m .sample []) = false := by
    simp [State.misused, messageTelegram, source, dest]
  rw [whenOn_on on, arrive_handled inRange proper]

theorem wordsNeededFrom_eq (hears : s.hears m e w) :
    s.wordsNeededFrom (messageTelegram m .sample []).source = e.kind.wordsNeeded := by
  obtain ⟨-, -, entry, -⟩ := hears
  unfold State.wordsNeededFrom
  rw [show s.tables.stations[(messageTelegram m .sample []).source] = some e from entry]

/-- A SAMPLE that is too short for its station is counted and forwarded (R166). -/
theorem handleSample_short (hears : s.hears m e w) (short : m.words.length < e.kind.wordsNeeded) :
    handleSample .b (messageTelegram m .sample []) s =
      joinEgress (.forwarded (messageTelegram m .sample [])) (checkErrorCounted .b s) := by
  unfold handleSample
  rw [wordsNeededFrom_eq hears, if_pos (by exact short)]
  rfl

/-- A SAMPLE that is long enough is taken by station watch, and forwarded (R148, R165). -/
theorem handleSample_long (hears : s.hears m e w) (long : e.kind.wordsNeeded ≤ m.words.length) :
    handleSample .b (messageTelegram m .sample []) s =
      joinEgress (.forwarded (messageTelegram m .sample []))
        (takeSample m.source e (messageTelegram m .sample []) s) := by
  obtain ⟨-, -, entry, -⟩ := id hears
  unfold handleSample
  rw [wordsNeededFrom_eq hears, if_neg (by exact Nat.not_lt.2 long)]
  dsimp only
  unfold handSample
  rw [show s.tables.stations[(messageTelegram m .sample []).source] = some e from entry]
  rfl

/-- A duplicate is counted (R149). -/
theorem takeSample_duplicate (hears : s.hears m e w) (same : w.lastSeq = some m.seq) :
    takeSample m.source e (messageTelegram m .sample []) s =
      s.setWatch m.source (some { w with duplicates := min (w.duplicates + 1) 255 }) := by
  obtain ⟨-, -, -, record⟩ := hears
  unfold takeSample
  rw [record]
  exact if_pos same

/-- Any other sample is accepted (R148). -/
theorem takeSample_new (hears : s.hears m e w) (other : w.lastSeq ≠ some m.seq) :
    takeSample m.source e (messageTelegram m .sample []) s =
      acceptSample m.source e w (messageTelegram m .sample []) s := by
  obtain ⟨-, -, -, record⟩ := hears
  unfold takeSample
  rw [record]
  exact if_neg other

end

/-- A sample is accepted: its record, the return, and then its owners (R148, R153). -/
theorem acceptSample_eq (a : Addr) (e : StationEntry) (w : WatchRecord) (t : Telegram) (s : State) :
    acceptSample a e w t s = applySample a e.kind w.returnDue t
      (if w.returnDue = true ∧ w.state = .silent then
        raiseFlag .stationBack a.val e.kind.index false (s.setWatch a (some (w.accepting t.seq e.silenceLimit)))
      else s.setWatch a (some (w.accepting t.seq e.silenceLimit))) := by
  simp only [acceptSample, Bool.and_eq_true, beq_iff_eq]

/-- Settles O15: the sample is accepted, and the kind of its station says who takes it. -/
theorem sampleAccepted : Obligations.SampleAccepted := by
  intro m e w s hears other long back s1 s2 record returned
  have stored : back = s.setWatch m.source (some (w.accepting m.seq e.silenceLimit)) := by
    obtain ⟨state, timer, rfl, rfl, rfl⟩ := record
    rfl
  have taken : handleSample .b (messageTelegram m .sample []) s =
      joinEgress (.forwarded (messageTelegram m .sample []))
        (applySample m.source e.kind w.returnDue (messageTelegram m .sample []) s1) := by
    rw [handleSample_long hears long, takeSample_new hears other, acceptSample_eq, returned, stored]
    rfl
  have unmoved : s1.seg = s.seg := by
    rw [returned, stored]
    split
    · exact raiseFlag_seg _ _ _ _ _
    · rfl
  refine ⟨fun i d kind owner => ?_, fun b d kind => ?_, fun k d r kind diverter => ?_⟩
  · refine next_congr ((sample_handled hears _).trans ?_)
    rw [taken, kind, owner]
    rfl
  · refine next_congr ((sample_handled hears _).trans ?_)
    rw [taken, kind]
    rfl
  · refine next_congr ((sample_handled hears _).trans ?_)
    rw [taken, kind, applySample, setPosition_eq (r := r) (by rw [unmoved]; exact diverter)]
    rfl

/-- A FEED or DIVERT order without a word after its subkind is too short (R166). -/
theorem handleOrderA_short {m : Message} {s : State} {subkind : Word} (words : m.words = [])
    (governed : subkind = feedWord ∨ subkind = divertWord) :
    handleOrderA (messageTelegram m .order [subkind]) s = checkErrorCounted .a s := by
  simp only [handleOrderA, messageTelegram, words, List.append_nil, if_pos governed, if_true]
  exact countCheckError_eq .a s

/-- Settles O16: the sequence tells a duplicate, and the length what is too short. -/
theorem duplicateAndShortTelegrams : Obligations.DuplicateAndShortTelegrams := by
  refine ⟨fun m e w s hears c any => ?_, fun m s ordered words => ⟨?_, ?_⟩⟩
  · have arrives : exec c s = .next (handleSample .b (messageTelegram m .sample []) s) := by
      simp only [List.mem_cons, List.not_mem_nil, or_false] at any
      obtain rfl | rfl | rfl := any
      all_goals exact next_congr (sample_handled hears _)
    rw [arrives]
    refine ⟨fun same long => next_congr ?_, fun short => next_congr (handleSample_short hears short)⟩
    rw [handleSample_long hears long, takeSample_duplicate hears same]
  · exact next_congr ((order_handled ordered _ _ _).trans (handleOrderA_short words (.inl rfl)))
  · exact next_congr ((order_handled ordered _ _ _).trans (handleOrderA_short words (.inr rfl)))

/-! ### Weighing (R126 to R128, R139) -/

section
variable {i : UnloaderIx} {s : State}

/-- The active slot is the highest that is written (R139). -/
theorem activeSlot_eq {k : SlotIx} {v : Nat} (written : (s.nv.slots[i])[k] = some v)
    (above : ∀ j : SlotIx, k < j → (s.nv.slots[i])[j] = none) : s.activeSlot i = some k := by
  have size : (allIx 4).reverse.length = 4 := by simp [allIx]
  have place (n : Nat) (h : n < (allIx 4).reverse.length) : ((allIx 4).reverse[n]).val = 3 - n := by
    simp [allIx]
  refine List.find?_eq_some_iff_getElem.2 ⟨by rw [written]; rfl, 3 - k.val, by omega, Fin.ext ?_, fun n before => ?_⟩
  · rw [place]
    omega
  · rw [above _ (Fin.lt_def.2 (by rw [place]; omega))]
    rfl

theorem activeSlot_none (erased : ∀ k : SlotIx, (s.nv.slots[i])[k] = none) : s.activeSlot i = none := by
  refine List.find?_eq_none.2 fun k _ => ?_
  rw [erased k]
  exact Bool.false_ne_true

theorem gramsPerPulse_eq {k : SlotIx} {v : Nat} (written : (s.nv.slots[i])[k] = some v)
    (above : ∀ j : SlotIx, k < j → (s.nv.slots[i])[j] = none) : s.gramsPerPulse i = some v := by
  rw [State.gramsPerPulse, activeSlot_eq written above]
  exact written

theorem gramsPerPulse_none (erased : ∀ k : SlotIx, (s.nv.slots[i])[k] = none) : s.gramsPerPulse i = none := by
  rw [State.gramsPerPulse, activeSlot_none erased]
  rfl

/-- The kilograms of a sample are booked, or they are too many (R126, R127). -/
theorem weigh_measured {last : Word} {grams : Nat} (counted : s.weighing.weighers[i].lastCount = some last)
    (calibrated : s.gramsPerPulse i = some grams) (count : Word) {mass : Nat}
    (weighs : mass = (count - last).toNat * grams + s.weighing.weighers[i].remainder) :
    weigh i count s =
      let x := s.weighing.weighers[i]
      if mass / 1000 ≤ 5000 then
        book i (mass / 1000) (s.setWeigher i { x with lastCount := some count, remainder := mass % 1000 })
      else raiseFlag .weigherGlitch (num i) (min (x.glitches + 1) 255) false
        (s.setWeigher i { x with lastCount := some count, glitches := min (x.glitches + 1) 255 }) := by
  subst weighs
  unfold weigh
  dsimp only
  rw [counted, calibrated]
  rfl

/-- Without a last count or a written slot, the count is only taken (R128). -/
theorem weigh_unmeasured (h : s.weighing.weighers[i].lastCount = none ∨ s.gramsPerPulse i = none) (count : Word) :
    weigh i count s = s.setWeigher i { s.weighing.weighers[i] with lastCount := some count } := by
  unfold weigh
  dsimp only
  split
  next counted calibrated =>
    rw [counted, calibrated] at h
    simp at h
  next => rfl

end

/-- Settles O17: the mass is measured where there is a last count and a written slot, and its kilograms decide. -/
theorem sampleIsWeighed : Obligations.SampleIsWeighed := by
  intro i count s x weigher
  subst weigher
  refine ⟨fun last grams mass counted calibrated weighs => ?_, fun h => weigh_unmeasured (h.imp_right gramsPerPulse_none)
    count, fun k v written above => gramsPerPulse_eq written above⟩
  rw [weigh_measured counted calibrated count weighs]
  refine ⟨fun light => ⟨mass / 1000, mass % 1000, by omega, by omega, if_pos (by omega)⟩,
    fun heavy => if_neg (by omega)⟩

/-! ### A FEED order without an ACTIVE leg (R37) -/

/-- A FEED order to an UNLOADER entry without an ACTIVE leg becomes the pending feed (R37). -/
theorem handleFeed_pended {t : Telegram} {s : State} {e : StationEntry} {i : UnloaderIx} {d : UnloaderData}
    (entry : s.tables.stations[t.dest] = some e) (kind : e.kind = .unloader i d)
    (inactive : s.legs[i].state ≠ .active) : handleFeed t s = feedPended t i s := by
  have unloader : e.unloader? = some (i, d) := by simp only [StationEntry.unloader?, kind]
  unfold handleFeed
  rw [entry, Option.bind_some, unloader]
  exact if_neg inactive

/-- A FEED order to a station that is no unloader has no leg (R37). -/
theorem handleFeed_noLeg {t : Telegram} {s : State}
    (other : ∀ e ∈ s.tables.stations[t.dest], ∀ i d, e.kind ≠ .unloader i d) : handleFeed t s = feedNoLeg t s := by
  have none : s.tables.stations[t.dest].bind StationEntry.unloader? = none := by
    refine Option.bind_eq_none_iff.2 fun e entry => ?_
    unfold StationEntry.unloader?
    split
    next i d kind => exact absurd kind (other e entry i d)
    next => rfl
  unfold handleFeed
  rw [none]

/-- Settles O24: the order reaches its handling, which goes by the station and its leg. -/
theorem feedOrderKeptOrWithoutLeg : Obligations.FeedOrderKeptOrWithoutLeg := by
  intro m s w rest ordered single words
  have read : (messageTelegram m .order [feedWord]).setpointRead = min w.toNat 1200 := by
    simp [Telegram.setpointRead, Telegram.setpoint, messageTelegram, words, Config.maxFeed]
  rw [feedOrder_handled ordered single words]
  refine ⟨fun e i d entry kind inactive => next_congr ?_, fun other => ⟨_, next_congr (handleFeed_noLeg other)⟩⟩
  rw [handleFeed_pended (by exact entry) kind inactive, feedPended, read]
  rfl

/-! ### A DIVERT order (R107 to R111) -/

theorem divertConflict_iff (s : State) (d : DiverterIx) (p : Word) : s.divertConflict d p = true ↔
    ∃ i : UnloaderIx, s.legs[i].state = .active ∧ ∃ x ∈ s.legSettings s.legs[i],
      x.diverter = d ∧ x.position.val ≠ p.toNat := by
  rw [State.divertConflict, activeLegs_any_iff]
  simp only [List.any_eq_true, Bool.and_eq_true, beq_iff_eq, bne_iff_ne]

section
variable {s : State} {t : Telegram} {d : DiverterIx} {e : DiverterData} {r : DiverterRecord}

theorem takeDivert_conflict (conflict : s.divertConflict d t.divertPosition = true) :
    takeDivert t d e s = answerDivert t .routeInUse s := by
  rw [takeDivert, conflict, if_pos rfl]

theorem takeDivert_free (free : ¬ s.divertConflict d t.divertPosition = true)
    (record : s.seg.diverters[d] = some r) : takeDivert t d e s =
      if s.headClear d && r.pending.isNone then forwardDivert t s else holdDivert t d e r s := by
  rw [takeDivert, if_neg free, record]

theorem headClearReport_nothing (record : s.seg.diverters[d] = some r) (nothing : r.pending = none) :
    headClearReport d s = s := by
  rw [headClearReport, record]
  dsimp only
  rw [nothing]

/-- A held order is rechecked against the legs (R111). -/
theorem headClearReport_pending (record : s.seg.diverters[d] = some r) (pending : r.pending = some t) :
    headClearReport d s = if s.divertConflict d t.divertPosition then
        answerDivert t .routeInUse (s.setDiverter d (some { r with pending := none, holdTimer := none }))
      else forwardDivert t (s.setDiverter d (some { r with pending := none, holdTimer := none })) := by
  rw [headClearReport, record]
  dsimp only
  rw [pending]

end

/-- A DIVERT order to a DIVERTER entry is the diverter's (R108, R165). -/
theorem divertOrder_handled {m : Message} {s : State} {w : Word} {rest : List Word} {e : StationEntry}
    {k : DiverterIx} {d : DiverterData} (ordered : s.ordered m) (single : m.dest ≠ broadcast)
    (words : m.words = w :: rest) (entry : s.tables.stations[m.dest] = some e) (kind : e.kind = .diverter k d) :
    exec (.divertOrder m) s = .next (takeDivert (messageTelegram m .order [divertWord]) k d s) := by
  have diverter : e.diverter? = some (k, d) := by simp only [StationEntry.diverter?, kind]
  refine next_congr ((order_handled ordered _ _ _).trans ?_)
  rw [handleOrderA_governed words (.inr rfl), handleGoverned, if_neg (by decide), if_neg (by exact single)]
  unfold handleDivert
  rw [show s.tables.stations[(messageTelegram m .order [divertWord]).dest] = some e from entry, Option.bind_some,
    diverter]

/-- Settles O25: the legs, the head and what is held decide an order; the legs alone a held one, once its head is
clear. -/
theorem divertOrderAdmitted : Obligations.DivertOrderAdmitted := by
  refine ⟨fun m s e k d r w rest t conflict ordered single words entry kind record carried conflicts => ?_,
    fun k s r record => ⟨headClearReport_nothing record, fun t conflict u pending conflicts stopped => ?_⟩⟩
  · have position : (messageTelegram m .order [divertWord]).divertPosition = w := by
      simp [Telegram.divertPosition, messageTelegram, words]
    have conflicts : s.divertConflict k (messageTelegram m .order [divertWord]).divertPosition = true ↔ conflict := by
      rw [position, divertConflict_iff, conflicts]
    have answers (c : AnswerCode) (u : State) : answerDivert (messageTelegram m .order [divertWord]) c u =
        joinEgress (.own m.source .answer [word m.dest.val, 2, word c.code, w] none) u := by
      rw [answerDivert, answer, answerTo, position]
      rfl
    rw [divertOrder_handled ordered single words entry kind]
    refine ⟨fun yes => next_congr ?_, fun no clear nothing => next_congr ?_,
      fun no held u superseded => next_congr ?_⟩
    · rw [takeDivert_conflict (conflicts.2 yes), answers]
      rfl
    · rw [takeDivert_free (mt conflicts.1 no) record, clear, nothing, carried]
      rfl
    · have hold : ¬ (s.headClear k && r.pending.isNone) = true := by
        rw [Bool.and_eq_true, Option.isNone_iff_eq_none]
        rintro ⟨clear, nothing⟩
        exact held.elim (fun h => by rw [clear] at h; cases h) (· nothing)
      rw [takeDivert_free (mt conflicts.1 no) record, if_neg hold, holdDivert, answers, superseded, carried]
      cases r.pending <;> rfl
  · have conflicts : s.divertConflict k t.divertPosition = true ↔ conflict := by
      rw [divertConflict_iff, conflicts]
      rfl
    rw [headClearReport_pending record pending, ← stopped]
    exact ⟨fun yes => if_pos (conflicts.2 yes), fun no => if_neg (mt conflicts.1 no)⟩

end Sys2Proof.Machine
end

