-- ==== Sys2Proof/Proofs/LegAndPartRequests.lean ====
section
/-!
PROOFS. LEG STOP, LEG CLEAR and SET ALLOCATOR (R33, R38, R53), CALIBRATE and COMMISSION (R140, R190), FLAGS CLEAR and
NOTICE MASK (R196, R197), and the bulk cursor's opening and expiry (R186, R187).
-/

namespace Sys2Proof.Machine

/-- An index that is not named by a number of its range: 0, or above it. -/
theorem ixOf_outside {n : Nat} {w : Word} (h : w.toNat = 0 ∨ n < w.toNat) : ixOf n w.toNat = none := ixOf_none h

/-! ### LEG STOP (R33 to R35) -/

/-- Nothing changes where an entry is put back. -/
theorem put_self {α : Type} {n : Nat} (v : Vector α n) (i : Fin n) : put v i v[i] = v :=
  Vector.ext fun j h => by
    by_cases same : (⟨j, h⟩ : Fin n) = i
    · subst same
      exact put_get_same v ⟨j, h⟩ _
    · exact put_get_other v v[i] same

theorem setHold_self (s : State) (n : HoldIx) : s.setHold n s.tables.holds[n] = s := by
  rw [State.setHold, put_self]

theorem setRoute_self (s : State) (k : RouteIx) : s.setRoute k s.tables.routes[k] = s := by
  rw [State.setRoute, put_self]

/-- The hold of a leg goes to EMPTY where it is defined (R18, R33). -/
theorem emptyHold_eq {l : Leg} {n : HoldIx} (hold : l.hold = some n) (s : State) :
    emptyHold l s = s.setHold n (s.tables.holds[n].map fun h => { h with phase := .empty }) := by
  rw [emptyHold, hold]
  dsimp only
  cases entry : s.tables.holds[n] with
  | none => exact (entry ▸ (setHold_self s n).symm :)
  | some h => rfl

/-- A route has a user less where it is defined (R12). -/
theorem releaseRoute_eq (k : RouteIx) (s : State) :
    releaseRoute (some k) s = s.setRoute k (s.tables.routes[k].map fun e => { e with users := e.users - 1 }) := by
  rw [releaseRoute]
  cases entry : s.tables.routes[k] with
  | none => exact (entry ▸ (setRoute_self s k).symm :)
  | some e => rfl

/-- The ending of an ACTIVE leg, in the order of its steps (R34). -/
theorem endLeg_active {i : UnloaderIx} {s : State} (active : s.legs[i].state = .active) (reason : EndReason) :
    endLeg i reason s = raiseFlag (.legEnded i) (num i) reason.code s.legs[i].noticeDisable
      (releaseRoute s.legs[i].route
        (if 0 < s.legs[i].f then handGuard i 0 (s.setLeg i (s.legs[i].endedBy reason))
        else s.setLeg i (s.legs[i].endedBy reason))) := if_pos active

/-- Emptying a hold leaves the legs alone. -/
theorem emptyHold_legs (l : Leg) (s : State) : (emptyHold l s).legs = s.legs := by
  unfold emptyHold
  split
  · rfl
  · split <;> rfl

/-- Settles O43: the leg and the reason decide whether the leg ends, and its ending goes step by step. -/
theorem legStopEndsTheLeg : Obligations.LegStopEndsTheLeg := by
  intro port m s serves
  have taken : exec (.legStop port m) s = _ := next_congr (served_own serves fun _ _ => rfl)
  simp only [params_taken] at taken
  rw [taken]
  refine ⟨fun i reason leg active why s1 s2 s3 s4 emptied ended guarded released => next_congr ?_,
    fun i leg inactive why => next_congr ?_, fun outside => next_congr ?_⟩
  · have named : stopReasonOf (paramAt m 1) = some reason ∧ reason.code = (paramAt m 1).toNat := by
      obtain ⟨code, rfl⟩ | ⟨code, rfl⟩ := why
      all_goals
        rw [stopReasonOf, code]
        exact ⟨rfl, rfl⟩
    have hold : s1 = if reason = .holdEmpty then emptyHold s.legs[i] s else s := by
      rw [emptied]
      cases hold : s.legs[i].hold with
      | none =>
        have kept : emptyHold s.legs[i] s = s := by rw [emptyHold, hold]
        rw [kept, ite_self]
        cases reason <;> rfl
      | some n =>
        cases reason
        case holdEmpty => exact (emptyHold_eq hold s).symm
        all_goals rfl
    have legs : s1.legs = s.legs := by
      rw [hold]
      split
      · exact emptyHold_legs _ _
      · rfl
    have stops : stopLeg i reason s =
        raiseFlag (.legEnded i) (num i) (paramAt m 1).toNat s.legs[i].noticeDisable s4 := by
      rw [stopLeg, ← hold, endLeg_active (by rw [legs]; exact active), legs, named.2, released, guarded, ended]
      cases s.legs[i].route with
      | none => rfl
      | some k => rw [releaseRoute_eq]; rfl
    simp only [ixOf_num i leg, named.1, active, if_true, stops]
    exact reply_taken ..
  · obtain ⟨reason, named⟩ : ∃ reason, stopReasonOf (paramAt m 1) = some reason := by
      obtain code | code : (paramAt m 1).toNat = 1 ∨ (paramAt m 1).toNat = 2 := by omega
      all_goals
        rw [stopReasonOf, code]
        exact ⟨_, rfl⟩
    simp only [ixOf_num i leg, named, inactive, if_false]
    exact reply_taken ..
  · have none : ixOf 6 (paramAt m 0).toNat = .none ∨ stopReasonOf (paramAt m 1) = .none := by
      obtain leg | leg | reason | reason := outside
      · exact .inl (ixOf_outside (.inl leg))
      · exact .inl (ixOf_outside (.inr leg))
      all_goals
        refine .inr ?_
        unfold stopReasonOf
        split
        · omega
        · omega
        · rfl
    split
    next i reason leg named => simp [leg, named] at none
    next => exact reply_taken ..

/-! ### LEG CLEAR (R38) -/

/-- Settles O44: the state of the leg that the number names decides the answer. -/
theorem legClearEmptiesTheRecord : Obligations.LegClearEmptiesTheRecord := by
  intro port m s serves
  have taken : exec (.legClear port m) s = _ := next_congr (served_own serves fun _ _ => rfl)
  simp only [params_taken] at taken
  rw [taken]
  refine ⟨fun i leg => ⟨fun ended => next_congr ?_, fun idle => next_congr ?_, fun active => next_congr ?_⟩,
    fun outside => next_congr ?_⟩
  · simp only [ixOf_num i leg, ended]
    exact reply_taken ..
  · simp only [ixOf_num i leg, idle]
    exact reply_taken ..
  · simp only [ixOf_num i leg, active]
    exact reply_taken ..
  · simp only [ixOf_outside outside]
    exact reply_taken ..

/-! ### SET ALLOCATOR (R53) -/

/-- Settles O45: the period decides the answer. -/
theorem setAllocatorSetsTheNext : Obligations.SetAllocatorSetsTheNext := by
  intro port m s budget period serves budgets periods
  have taken : exec (.setAllocator port m) s = _ := next_congr (served_own serves fun _ _ => rfl)
  simp only [params_taken, ← periods] at taken
  rw [taken]
  refine ⟨fun named => next_congr ?_, fun a b c d => next_congr ?_⟩
  · rw [if_pos (by simpa [Config.periods] using named), budgetRead, budgets]
    exact reply_taken ..
  · rw [if_neg (by simp [Config.periods, a, b, c, d])]
    exact reply_taken ..

/-! ### CALIBRATE (R140) -/

theorem erasedSlot_none {i : UnloaderIx} {s : State} (written : ∀ k : SlotIx, (s.nv.slots[i])[k] ≠ none) :
    s.erasedSlot i = none := by
  refine List.find?_eq_none.2 fun k _ => ?_
  rw [Option.isNone_iff_eq_none]
  exact written k

theorem erasedSlot_eq {i : UnloaderIx} {s : State} {k : SlotIx} (erased : (s.nv.slots[i])[k] = none)
    (below : ∀ j : SlotIx, j < k → (s.nv.slots[i])[j] ≠ none) : s.erasedSlot i = some k := by
  refine List.find?_eq_some_iff_getElem.2
    ⟨by rw [erased]; rfl, k.val, by simp [allIx], by simp [allIx], fun n before => ?_⟩
  have written := below ⟨n, by omega⟩ before
  simpa [allIx, Option.isSome_iff_ne_none] using written

/-! ### COMMISSION (R190) -/

theorem stationAddress_eq {w : Word} {a : Addr} (h : w.toNat = a.val) (range : 1 ≤ a.val ∧ a.val ≤ 62) :
    stationAddress w = some a := by
  rw [stationAddress, dif_pos (by omega)]
  exact congrArg some (Fin.ext h)

theorem stationAddress_none {w : Word} (h : w.toNat = 0 ∨ 62 < w.toNat) : stationAddress w = none :=
  dif_neg (by omega)

theorem addressesOf_eq {x y : Word} {own station : Addr} (first : x.toNat = own.val) (second : y.toNat = station.val)
    (valid : Addresses.valid ⟨own, station⟩) : addressesOf x y = some ⟨own, station⟩ := by
  obtain ⟨a, b, c, d, e⟩ := valid
  rw [addressesOf, stationAddress_eq first ⟨a, b⟩, stationAddress_eq second ⟨c, d⟩]
  exact if_neg e

theorem addressesOf_none {x y : Word}
    (h : x.toNat = 0 ∨ 62 < x.toNat ∨ y.toNat = 0 ∨ 62 < y.toNat ∨ x.toNat = y.toNat) : addressesOf x y = none := by
  unfold addressesOf
  split
  next a b first second =>
    have one := stationAddress_range first
    have two := stationAddress_range second
    unfold stationAddress at first second
    split at first
    · split at second
      · obtain rfl := Option.some.inj first
        obtain rfl := Option.some.inj second
        exact if_pos (Fin.ext (by dsimp only; omega))
      · cases second
    · cases first
  next => rfl

/-- Settles O48: the checks of the two requests in their order. -/
theorem writesAreStarted : Obligations.WritesAreStarted := by
  intro port m s serves
  have calibrate : exec (.calibrate port m) s = _ := next_congr (served_own serves fun _ _ => rfl)
  have commission : exec (.commission port m) s = _ := next_congr (served_own serves fun _ _ => rfl)
  simp only [params_taken] at calibrate commission
  rw [calibrate, commission]
  refine ⟨fun i v leg value low high => ?_, fun outside => next_congr ?_, fun own station first second valid => ?_,
    fun outside => next_congr ?_⟩
  · have inRange : within 100 60000 (paramAt m 1).toNat = some v := by
      rw [within, if_pos (by omega), value]
    simp only [ixOf_num i leg, inRange]
    refine ⟨fun busy => next_congr ?_, fun inactive idle written => next_congr ?_,
      fun k inactive idle erased below => next_congr ?_⟩
    · by_cases active : s.legs[i].state = .active
      · rw [if_pos active]
        exact reply_taken ..
      · rw [if_neg active, if_pos (busy.resolve_left active)]
        exact reply_taken ..
    · simp only [if_neg inactive, idle, ne_eq, not_true_eq_false, if_false, erasedSlot_none written]
      exact reply_taken ..
    · simp only [if_neg inactive, idle, ne_eq, not_true_eq_false, if_false, erasedSlot_eq erased below]
      rfl
  · have none : ixOf 6 (paramAt m 0).toNat = .none ∨ within 100 60000 (paramAt m 1).toNat = .none := by
      obtain leg | leg | value | value := outside
      · exact .inl (ixOf_outside (.inl leg))
      · exact .inl (ixOf_outside (.inr leg))
      all_goals exact .inr (if_neg (by omega))
    split
    next i v leg value => simp [leg, value] at none
    next => exact reply_taken ..
  · simp only [addressesOf_eq first second valid]
    refine ⟨fun taken => next_congr ?_, fun free busy => next_congr ?_, fun free idle => next_congr ?_⟩
    · rw [if_pos taken]
      exact reply_taken ..
    · rw [if_neg (by rw [free]; exact Bool.false_ne_true), if_pos (Option.isSome_iff_ne_none.2 busy)]
      exact reply_taken ..
    · rw [if_neg (by rw [free]; exact Bool.false_ne_true), if_neg (by rw [idle]; exact Bool.false_ne_true)]
      rfl
  · simp only [addressesOf_none outside]
    exact reply_taken ..

/-! ### FLAGS CLEAR and NOTICE MASK (R196 to R198) -/

theorem toNat_le_one {w : Word} (h : w.toNat ≤ 1) : w = 0 ∨ w = 1 := by
  obtain zero | one : w.toNat = 0 ∨ w.toNat = 1 := by omega
  · exact .inl (BitVec.eq_of_toNat_eq zero)
  · exact .inr (BitVec.eq_of_toNat_eq one)

/-- Whether FLAGS CLEAR names a flag: its cause, and for LEG_ENDED its leg (R196). -/
theorem Flags.get_clearNamed (x : Flags) (causes legs : Word) (f : Flag) :
    (x.clearNamed causes legs).get f = (x.get f && !(causes.getLsbD (f.cause.code - 1) && (match f with
      | .legEnded i => legs.getLsbD i.val
      | _ => true))) := by
  cases f with
  | legEnded i => exact ofFn_get _ i
  | breach | stationSilent | stationBack | divertTimeout | weigherGlitch | poolExhausted | trackerFull | powerShort
  | cursorExpired => simp only [Flags.clearNamed, Flags.get, causesName, Flag.cause, Bool.and_true]

theorem clearInRange_iff (causes legs : Word) : clearInRange causes legs = true ↔
    causes.toNat < 2 ^ 10 ∧ (causes.getLsbD 0 = true → legs.toNat < 2 ^ 6) := by
  have named : causesName causes .legEnded = causes.getLsbD 0 := rfl
  simp only [clearInRange, causesInRange, legsInRange, named, Bool.and_eq_true, decide_eq_true_eq, Bool.or_eq_true,
    Bool.not_eq_true', ← Bool.not_eq_true, imp_iff_not_or]

/-- Clearing the counters leaves the notices alone (R196, R198). -/
theorem clearCounters_notices (s : State) : (clearCounters s).notices = s.notices := rfl

theorem clearFlags_notices (causes legs : Word) (counters : Bool) (s : State) :
    (clearFlags causes legs counters s).notices =
      { s.notices with flags := s.notices.flags.clearNamed causes legs } := by
  cases counters <;> rfl

theorem clearFlags_counters (causes legs : Word) (s : State) : clearFlags causes legs true s =
    clearCounters { s with notices := { s.notices with flags := s.notices.flags.clearNamed causes legs } } := rfl

/-- A mask enables the causes of the set it is given (R197). -/
theorem maskEnables_setWidth (w : Word) (c : Cause) :
    maskEnables (w.setWidth 10) c = w.getLsbD (c.code - 1) := by
  have small : c.code - 1 < 10 := by cases c <;> decide
  rw [maskEnables, BitVec.getLsbD_setWidth, decide_eq_true small, Bool.true_and]

/-- Settles O49: the three parameters decide the answer, and the flags named are those that clear. -/
theorem flagsAreClearedAndMasked : Obligations.FlagsAreClearedAndMasked := by
  refine ⟨fun port m s causes legs option serves first second third named names => ?_, fun port m s serves => ?_⟩
  · have taken : exec (.flagsClear port m) s = _ := next_congr (served_own serves fun _ _ => rfl)
    simp only [params_taken, ← first, ← second, ← third] at taken
    rw [taken]
    refine ⟨fun a b c => ?_, fun outside => next_congr ?_⟩
    · have inRange := (clearInRange_iff causes legs).2 ⟨a, b⟩
      obtain ⟨counters, read⟩ := yesNo_upTo_one c
      refine ⟨clearFlags causes legs counters s, _, ?_, rfl, fun f => ?_, ?_, fun no => ?_, fun yes => ?_⟩
      · simp only [read, inRange, if_true]
        exact next_congr (reply_taken ..)
      · rw [clearFlags_notices, names]
        exact Flags.get_clearNamed _ _ _ _
      · rw [clearFlags_notices]
      · obtain rfl : counters = false := by
          rw [no] at read
          exact (Option.some.inj read).symm
        rfl
      · obtain rfl : counters = true := by
          rw [yes] at read
          exact (Option.some.inj read).symm
        rw [clearFlags_counters]
        refine ⟨fun p unlisted => ?_, rfl, fun a => map_get _ _ a, rfl, fun i => map_get _ _ i, rfl⟩
        cases p with
        | notices | path | watch | weighing | seg => simp at unlisted
        | _ => rfl
    · cases read : yesNo option with
      | none => exact reply_taken ..
      | some counters =>
        have small : option.toNat ≤ 1 := by
          by_contra large
          rw [yesNo_above (Nat.not_le.1 large)] at read
          cases read
        have out : ¬ clearInRange causes legs = true := by
          rw [clearInRange_iff]
          rintro ⟨a, b⟩
          obtain h | ⟨h, g⟩ | h := outside
          · omega
          · have := b h
            omega
          · omega
        dsimp only
        rw [if_neg out]
        exact reply_taken ..
  · have taken : exec (.noticeMask port m) s = _ := next_congr (served_own serves fun _ _ => rfl)
    simp only [params_taken] at taken
    rw [taken]
    refine ⟨fun small => ⟨_, next_congr ?_, fun c => maskEnables_setWidth _ c⟩, fun large => next_congr ?_⟩
    · rw [if_pos (show causesInRange (paramAt m 0) = true from decide_eq_true small)]
      exact reply_taken ..
    · rw [if_neg (by rw [causesInRange, decide_eq_true_eq]; omega)]
      exact reply_taken ..

/-! ### The bulk cursor (R186, R187) -/

/-- The ring that a request about a table needs, by the number of its table (R181). -/
theorem ringOf_tableOf (n : Nat) : ringOf (tableOf n) = if n = 1 then 0 else 1 := by
  unfold tableOf
  split
  · rfl
  all_goals
    rw [if_neg (by omega)]
    rfl

theorem code_tableOf {n : Nat} {t : Table} (h : tableOf n = some t) : t.code = n := by
  unfold tableOf at h
  split at h <;> cases h <;> rfl

theorem holdsRun_iff (t : Table) (first count : Nat) : t.holdsRun first count = true ↔
    t.first ≤ first ∧ first ≤ t.last ∧ 1 ≤ count ∧ count ≤ 64 ∧ first + count - 1 ≤ t.last := by
  simp only [Table.holdsRun, Table.holds, Bool.and_eq_true, decide_eq_true_eq, and_assoc]

theorem cursorOut_iff {s : State} {x : Cursor} (cursor : s.mgmt.cursor = some x) :
    s.cursorOut = true ↔ 30000 ≤ x.idle := by
  rw [State.cursorOut, cursor]
  exact decide_eq_true_iff

theorem closeCursor_eq {s : State} {x : Cursor} (cursor : s.mgmt.cursor = some x) : closeCursor s =
    if 0 < x.remaining then raiseFlag .cursorExpired x.owner.val x.remaining false (s.setCursor none)
    else s.setCursor none := by
  rw [closeCursor, cursor]

theorem toNat_eq_one {w : Word} : w.toNat = 1 ↔ w = 1 :=
  ⟨fun one => BitVec.eq_of_toNat_eq one, fun one => by rw [one]; rfl⟩

theorem ringNeeded_bulkOpen (s : State) (m : Message) :
    s.ringNeeded 17 m = if paramAt m 0 = 1 then 0 else 1 := rfl

/-- A BULK OPEN with the ring and the parameters it needs gets its own rule (R181, R187). -/
theorem bulkOpen_served {port : Port} {m : Message} {s : State} (h : s.addressed m)
    (ring : s.ringOfMessage m ≤ s.ringNeeded 17 m) (words : 4 ≤ m.words.length) {act : State → State}
    (rule : takeBulkOpen (requestTaken port m 17) s = checked (requestTaken port m 17)
      (ringOf (requestTaken port m 17).openTable) (List.replicate 3 oneField) act s) :
    exec (.bulkOpen port m) s = .next (act s) := by
  have needed : ringOf (requestTaken port m 17).openTable = s.ringNeeded 17 m := by
    rw [Request.openTable, params_taken, ringOf_tableOf, ringNeeded_bulkOpen]
    simp only [toNat_eq_one]
  refine next_congr ((requestArrives_own h).trans ?_)
  show takeBulkOpen _ s = _
  rw [rule, needed, checked_passes ring (firstMissing_words (by omega) _)]

/-- Settles O50: the run decides an opening, and the idle timer and what remains of the run an expiry. -/
theorem cursorOpensAndExpires : Obligations.CursorOpensAndExpires := by
  refine ⟨fun port m s first count addressed ring words firsts counts => ?_, fun s on => ?_⟩
  · have taken : exec (.bulkOpen port m) s = _ := bulkOpen_served addressed ring words rfl
    simp only [Request.openTable, params_taken, ← firsts, ← counts] at taken
    rw [taken]
    refine ⟨fun table previous selected a b c d e owner => next_congr ?_, fun outside => next_congr ?_⟩
    · have code : word table.code = paramAt m 0 := by
        rw [code_tableOf selected]
        exact BitVec.eq_of_toNat_eq (by simp [word])
      have before : previousOwner s.mgmt.cursor m.source = word previous := by
        unfold previousOwner
        rw [owner]
        cases s.mgmt.cursor with
        | none => rfl
        | some x => exact (apply_ite word _ _ _).symm
      simp only [selected, if_pos ((holdsRun_iff table first count).2 ⟨a, b, c, d, e⟩)]
      rw [code, ← before]
      exact reply_taken ..
    · cases selected : tableOf (paramAt m 0).toNat with
      | none => exact reply_taken ..
      | some table =>
        have out : ¬ table.holdsRun first count = true := by
          have := outside table selected
          rw [holdsRun_iff]
          omega
        dsimp only
        rw [if_neg out]
        exact reply_taken ..
  · have taken : exec .cursorIdleExpiry s = .next (cursorExpires s) := next_congr (whenOn_on on)
    rw [taken]
    refine ⟨fun x cursor idle left => next_congr ?_, fun x cursor idle left => next_congr ?_,
      fun running => next_congr ?_⟩
    · rw [cursorExpires, whenOut, if_pos ((cursorOut_iff cursor).2 idle), closeCursor_eq cursor, if_pos left]
      rfl
    · rw [cursorExpires, whenOut, if_pos ((cursorOut_iff cursor).2 idle), closeCursor_eq cursor,
        if_neg (by omega)]
      rfl
    · refine if_neg fun out => ?_
      cases cursor : s.mgmt.cursor with
      | none => simp [State.cursorOut, cursor] at out
      | some x => exact absurd ((cursorOut_iff cursor).1 out) (Nat.not_le.2 (running x cursor))

end Sys2Proof.Machine
end

