-- ==== Sys2Proof/Proofs/RequestChecks.lean ====
section
/-!
PROOFS. The first checks of every request (R179 to R181), requests for other stations (R165), and the reads: in parts
(R2, R46, R144, R182, R183), of the flags (R196) and of the snapshot (R138).
-/

namespace Sys2Proof.Machine

/-! ### All twenty requests at once (R165, R179 to R181) -/

/-- The command of a code carries the REQUEST with that code (R160, R179). -/
theorem carriedBy_requestWith {code : Nat} (low : 1 ≤ code) (high : code ≤ 20) (port : Port) (m : Message) :
    carriedBy (requestWith code port m) = some (port, messageTelegram m .request [word code]) := by
  interval_cases code <;> rfl

/-- A REQUEST that passes reception is handled by its code (R163 to R165, R179). -/
theorem requestWith_handled {code : Nat} (low : 1 ≤ code) (high : code ≤ 20) {m : Message} {s : State}
    (passes : s.passes 1 m) (port : Port) : exec (requestWith code port m) s =
      .next (handleRequest serveByCode port (messageTelegram m .request [word code]) s) := by
  rw [exec_carried_classify (carriedBy_requestWith low high port m)]
  exact next_congr (requestArrives_handled passes)

/-- A REQUEST for the part is served by its code (R165, R179). -/
theorem requestWith_served {code : Nat} (low : 1 ≤ code) (high : code ≤ 20) {m : Message} {s : State}
    (addressed : s.addressed m) (port : Port) :
    exec (requestWith code port m) s = .next (serveByCode (requestTaken port m code) none s) := by
  rw [requestWith_handled low high addressed.1]
  exact next_congr (if_pos (by exact addressed.2))

/-- The words that the parameters of a code need, field by field (R161, R179). -/
def State.layoutOf (s : State) (code : Nat) (m : Message) : List Group :=
  match code with
  | 2 => [tableWordGroup, oneField]
  | 3 => writeLayout (tableOf (selectorOf (paramAt m 0))) (m.words.drop 1)
  | 18 => writeLayout s.cursorTable (m.words.drop 1)
  | _ => List.replicate (wordParams code) oneField

/-- A RESTART for the part is checked like any other request, and has no parameters (R181, R192). -/
theorem takeRestart_checked (q : Request) (s : State) :
    takeRestart q none s = checked q 0 [] (restartPart q none) s := by
  unfold takeRestart checked
  cases checks : refusal q 0 [] s with
  | none => rfl
  | some x =>
    obtain ⟨r, data⟩ := x
    rfl

/-- The ring that a BULK DATA needs is that of the cursor's table (R181). -/
theorem ringNeeded_bulkData (s : State) (m : Message) : s.ringNeeded 18 m = ringOf s.cursorTable := by
  have read : s.ringNeeded 18 m = match s.mgmt.cursor with
    | some x => if x.table = .station then 0 else 1
    | none => 1 := rfl
  rw [read, State.cursorTable]
  cases cursor : s.mgmt.cursor with
  | none => rfl
  | some x =>
    dsimp only [Option.map_some, ringOf]
    cases x.table <;> rfl

/-- A request served by a meaning that checks it first (R181). -/
theorem checked_of {q : Request} {s : State} {f : Request → State → State} {needed : Nat} {layout : List Group}
    {act : State → State} (serves : serveByCode q none s = f q s) (rule : f q s = checked q needed layout act s) :
    ∃ act, serveByCode q none s = checked q needed layout act s := ⟨act, serves.trans rule⟩

/-- Every request is checked for the ring and the parameters of its code, and then has its own rule (R181). -/
theorem serveByCode_checked {code : Nat} (low : 1 ≤ code) (high : code ≤ 20) (port : Port) (m : Message) (s : State) :
    ∃ act, serveByCode (requestTaken port m code) none s =
      checked (requestTaken port m code) (s.ringNeeded code m) (s.layoutOf code m) act s := by
  have ring3 : s.ringNeeded 3 m = ringOf (tableOf (selectorOf ((requestTaken port m 3).at 0))) := by
    rw [params_taken]
    exact (ringOf_tableOf _).symm
  have ring17 : s.ringNeeded 17 m = ringOf (tableOf ((requestTaken port m 17).at 0).toNat) := by
    simp only [ringNeeded_bulkOpen, params_taken, ringOf_tableOf, toNat_eq_one]
  have layout3 : s.layoutOf 3 m = writeLayout (tableOf (selectorOf ((requestTaken port m 3).at 0))) (m.words.drop 1) := by
    rw [params_taken]
    rfl
  match code, low, high with
  | 1, _, _ => exact checked_of (f := takeStatus) rfl rfl
  | 2, _, _ => exact checked_of (f := takeTableRead) rfl rfl
  | 3, _, _ => rw [ring3, layout3]; exact checked_of (f := takeTableWrite) rfl rfl
  | 4, _, _ => exact checked_of (f := takeLegRead) rfl rfl
  | 5, _, _ => exact checked_of (f := takeLegStart) rfl rfl
  | 6, _, _ => exact checked_of (f := takeLegStop) rfl rfl
  | 7, _, _ => exact checked_of (f := takeLegClear) rfl rfl
  | 8, _, _ => exact checked_of (f := takeSetAllocator) rfl rfl
  | 9, _, _ => exact checked_of (f := takeBinReset) rfl rfl
  | 10, _, _ => exact checked_of (f := takeReadAccounts) rfl rfl
  | 11, _, _ => exact checked_of (f := takeSnapshotLot) rfl rfl
  | 12, _, _ => exact checked_of (f := takeReadSnapshot) rfl rfl
  | 13, _, _ => exact checked_of (f := takeCalibrate) rfl rfl
  | 14, _, _ => exact checked_of (f := takeFlagsRead) rfl rfl
  | 15, _, _ => exact checked_of (f := takeFlagsClear) rfl rfl
  | 16, _, _ => exact checked_of (f := takeNoticeMask) rfl rfl
  | 17, _, _ => rw [ring17]; exact checked_of (f := takeBulkOpen) rfl rfl
  | 18, _, _ => rw [ringNeeded_bulkData]; exact checked_of (f := takeBulkData) rfl rfl
  | 19, _, _ => exact checked_of (f := takeCommission) rfl rfl
  | 20, _, _ => exact ⟨_, takeRestart_checked _ s⟩
  | n + 21, _, high => exact absurd high (by omega)

/-! ### The refusals (R179 to R181) -/

section
variable {port : Port} {m : Message} {code needed : Nat} {layout : List Group} {act : State → State} {s : State}

/-- A request without the ring it needs is refused RING (R180). -/
theorem checked_ring (ring : needed < s.ringOfMessage m) :
    checked (requestTaken port m code) needed layout act s =
      replied port m code 2 [word (s.ringOfMessage m), word needed] s := by
  unfold checked refusal
  rw [effectiveRing_taken, if_pos ring]
  rfl

/-- A request with the ring but without a parameter is refused RANGE, with its position (R179). -/
theorem checked_missing (ring : s.ringOfMessage m ≤ needed) {position : Nat}
    (missing : firstMissing layout (m.words.length - 1) 1 = some position) :
    checked (requestTaken port m code) needed layout act s = replied port m code 3 [word position] s := by
  have count : (requestTaken port m code).params.length = m.words.length - 1 := by
    simp [Request.params, requestTaken]
  unfold checked refusal
  rw [effectiveRing_taken, if_neg (by omega), count, missing]
  rfl

end

/-- Of parameters of one word each, the first that is missing is the one after those that are there (R179). -/
theorem firstMissing_short {n available : Nat} (short : available < n) (position : Nat) :
    firstMissing (List.replicate n oneField) available position = some (position + available) := by
  induction n generalizing available position with
  | zero => exact absurd short (Nat.not_lt_zero _)
  | succ n ih =>
    rw [List.replicate_succ, firstMissing]
    cases available with
    | zero => rfl
    | succ available =>
      rw [if_neg (by simp [oneField]), show available + 1 - oneField.words = available from rfl,
        ih (by omega), show position + oneField.fields = position + 1 from rfl]
      congr 1
      omega

/-- The parameters of a code that has parameters of one word each (R161). -/
theorem layoutOf_words {code : Nat} (words : 0 < wordParams code) (s : State) (m : Message) :
    s.layoutOf code m = List.replicate (wordParams code) oneField := by
  unfold State.layoutOf
  split
  · exact absurd words (by decide)
  · exact absurd words (by decide)
  · exact absurd words (by decide)
  · rfl

/-- A write without its table word lacks its first field (R161). -/
theorem firstMissing_writeLayout (t : Option Table) (params : List Word) :
    firstMissing (writeLayout t params) 0 1 = some 1 := by
  unfold writeLayout
  split
  · rfl
  · split <;> rfl

theorem serveByCode_unknown {q : Request} (unknown : q.code.toNat = 0 ∨ 20 < q.code.toNat) (s : State) :
    serveByCode q none s = takeUnknown q s := by
  have other : serveByCode q = served takeUnknown q := by
    unfold serveByCode
    split
    case h_21 => rfl
    all_goals omega
  rw [other]
  rfl

/-- Settles O32: no known code first, then for all twenty codes the ring, then what is missing. -/
theorem requestsAreChecked : Obligations.RequestsAreChecked := by
  refine ⟨fun port m s passes own unknown => ?_, fun code port m s low high addressed => ?_⟩
  · obtain ⟨on, wellFormed, source⟩ := passes
    have inRange : (messageTelegram m .request []).inRange = true :=
      (messageTelegram_inRange m .request []).trans wellFormed
    have proper : s.misused (messageTelegram m .request []) = false := by
      simp [State.misused, messageTelegram, source]
    have code : (requestOf port (messageTelegram m .request [])).code = m.words.getD 0 0 := by
      simp only [requestOf, messageTelegram, List.nil_append]
      cases m.words <;> rfl
    refine next_congr ((whenOn_on on).trans ((arrive_handled inRange proper).trans ?_))
    rw [handleRequest, if_pos (by exact own), serveByCode_unknown, takeUnknown, reply, replyTo, code]
    · rfl
    · rw [code]
      obtain none | ⟨w, rest, words, out⟩ := unknown
      · rw [none]
        exact .inl rfl
      · rw [words]
        exact out
  · obtain ⟨act, rule⟩ := serveByCode_checked low high port m s
    rw [requestWith_served low high addressed, rule]
    refine ⟨fun ring => next_congr (checked_ring ring), fun ring => ⟨fun short => next_congr ?_,
      fun which short => next_congr ?_, fun which short => next_congr ?_⟩⟩
    · refine checked_missing ring ?_
      rw [layoutOf_words (by omega), firstMissing_short short]
      congr 1
      omega
    · refine checked_missing (position := 1) ring ?_
      rw [show m.words.length - 1 = 0 by omega]
      simp only [List.mem_cons, List.not_mem_nil, or_false] at which
      obtain rfl | rfl | rfl := which
      · rfl
      · exact firstMissing_writeLayout _ _
      · exact firstMissing_writeLayout _ _
    · subst which
      refine checked_missing (position := 4) ring ?_
      rw [short]
      rfl

/-! ### Requests for other stations (R165) -/

/-- Every service but that of RESTART forwards the copy of a broadcast after it has served (R165; log entry 8). -/
theorem serveByCode_copy {q : Request} (other : q.code.toNat ≠ 20) (t : Telegram) (s : State) :
    serveByCode q (some t) s = forward q.port t (serveByCode q none s) := by
  suffices h : ∀ f, f = serveByCode q → f (some t) s = forward q.port t (f none s) from h _ rfl
  intro f service
  unfold serveByCode at service
  split at service
  case h_20 restart => exact absurd restart other
  all_goals
    rw [service]
    rfl

/-- Settles O33: the destination decides, and the copy of a broadcast follows what serving it has left. -/
theorem requestsForOthersForwarded : Obligations.RequestsForOthersForwarded := by
  intro code port m s low high passes own
  refine ⟨fun single => ?_, fun all other => ?_⟩
  · rw [requestWith_handled low high passes]
    exact next_congr (handleRequest_other (by exact own) (by exact single) _ _)
  · refine ⟨_, requestWith_served (m := { m with dest := s.mgmt.inForce.own }) low high ⟨by exact passes, rfl⟩ port, ?_⟩
    rw [requestWith_handled low high passes, handleRequest, if_neg (by exact own), if_pos (by exact all)]
    refine next_congr (serveByCode_copy ?_ _ s)
    show (word code).toNat ≠ 20
    rw [word, BitVec.toNat_ofNat]
    omega

/-! ### The reads in parts (R2, R46, R144, R182, R183) -/

/-- A request with its ring and its parameters gets its own rule (R181). -/
theorem served_rule {port : Port} {m : Message} {code needed : Nat} {layout : List Group}
    {f act : Request → State → State} {s : State} (entitled : s.entitled m needed)
    (here : firstMissing layout (m.words.length - 1) 1 = none)
    (rule : ∀ q s, f q s = checked q needed layout (act q) s) :
    whenOn (requestArrives port m code (served f)) s = act (requestTaken port m code) s := by
  rw [requestArrives_own entitled.1]
  show f _ s = _
  rw [rule, checked_passes entitled.2 here]

theorem inParts_eq (k : Nat) (data : List Word) : inParts k data =
    word (max 1 ((data.length + 8) / 9)) :: (data.drop (9 * (k - 1))).take 9 := by
  rw [Nat.mul_comm]
  rfl

theorem partNumberOf_eq {w : Word} {k : Nat} (number : w.toNat = k) (low : 1 ≤ k) (high : k ≤ 32) :
    partNumberOf w = some k := by
  rw [partNumberOf, within, number, if_pos ⟨low, high⟩]

theorem partNumberOf_none {w : Word} (outside : w.toNat = 0 ∨ 32 < w.toNat) : partNumberOf w = none := by
  rw [partNumberOf, within, if_neg (by simp only [Config.maxPart]; omega)]

theorem holds_iff (t : Table) (index : Nat) : t.holds index = true ↔ t.first ≤ index ∧ index ≤ t.last := by
  simp only [Table.holds, Bool.and_eq_true, decide_eq_true_eq]

/-- Settles O34: the parameters of each read decide its answer. -/
theorem readsAnswerInParts : Obligations.ReadsAnswerInParts := by
  intro port m s part parts
  have eq (k : Nat) (data : List Word) : inParts k data = part k data := (inParts_eq k data).trans (parts k data).symm
  have status (h : s.serves m 3 2) : exec (.status port m) s = _ := next_congr (served_own h fun _ _ => rfl)
  have legRead (h : s.serves m 3 2) : exec (.legRead port m) s = _ := next_congr (served_own h fun _ _ => rfl)
  have readAccounts (h : s.serves m 3 3) : exec (.readAccounts port m) s = _ :=
    next_congr (served_own h fun _ _ => rfl)
  have present (h : s.serves m 3 2) : firstMissing [tableWordGroup, oneField] (m.words.length - 1) 1 = none := by
    obtain ⟨extra, words⟩ : ∃ extra, m.words.length - 1 = extra + 2 := ⟨m.words.length - 3, by have := h.2; omega⟩
    rw [words]
    simp [firstMissing, tableWordGroup, oneField]
  have tableRead (h : s.serves m 3 2) : exec (.tableRead port m) s = _ :=
    next_congr (served_rule h.1 (present h) fun _ _ => rfl)
  simp only [params_taken] at status legRead readAccounts tableRead
  refine ⟨fun x k h named number low high => ?_, fun i k h leg number low high => ?_,
    fun x k h named number low high => ?_, fun table k h named number low high first last => ?_,
    fun bad range => ⟨fun h out => ?_, fun h out => ?_, fun h out => ?_, fun h out => ?_⟩⟩
  · simp only [status h, named, partNumberOf_eq number low high, eq]
    exact next_congr (reply_taken ..)
  · simp only [legRead h, ixOf_num i leg, partNumberOf_eq number low high, eq]
    exact next_congr (reply_taken ..)
  · simp only [readAccounts h, named, partNumberOf_eq number low high, eq]
    exact next_congr (reply_taken ..)
  · simp only [tableRead h, named, partNumberOf_eq number low high, if_pos ((holds_iff _ _).2 ⟨first, last⟩)]
    refine ⟨fun data defined => next_congr ?_, fun undefined => next_congr ?_⟩
    · simp only [defined, eq]
      exact reply_taken ..
    · simp only [undefined]
      exact reply_taken ..
  · rw [status h]
    refine next_congr ?_
    split
    next x k named number =>
      obtain none | none := out
      · simp [none] at named
      · simp [partNumberOf_none ((range _).1 none)] at number
    next => exact reply_taken ..
  · rw [legRead h]
    refine next_congr ?_
    split
    next i k leg number =>
      obtain none | none | none := out
      · simp [ixOf_outside (n := 6) (.inl none)] at leg
      · simp [ixOf_outside (n := 6) (.inr none)] at leg
      · simp [partNumberOf_none ((range _).1 none)] at number
    next => exact reply_taken ..
  · rw [readAccounts h]
    refine next_congr ?_
    split
    next x k named number =>
      obtain none | none := out
      · simp [none] at named
      · simp [partNumberOf_none ((range _).1 none)] at number
    next => exact reply_taken ..
  · rw [tableRead h]
    refine next_congr ?_
    split
    next table k named number =>
      obtain outside | none := out
      · have outside := outside table named
        rw [if_neg (by rw [holds_iff]; omega)]
        exact reply_taken ..
      · simp [partNumberOf_none ((range _).1 none)] at number
    next => exact reply_taken ..

/-! ### The flags and the mask in words (R161, R196) -/

/-- The number of which the bits are those of a list, the least significant first. -/
def bitsNumber (l : List Bool) : Nat := l.foldr Nat.bit 0

theorem testBit_bitsNumber (l : List Bool) (i : Nat) : (bitsNumber l).testBit i = l.getD i false := by
  induction l generalizing i with
  | nil => simp [bitsNumber]
  | cons b l ih =>
    rw [bitsNumber, List.foldr_cons]
    cases i with
    | zero => exact Nat.testBit_bit_zero _ _
    | succ i => exact (Nat.testBit_bit_succ _ _ _).trans (ih i)

theorem bitOf_eq (n : Nat) (b : Bool) : bitOf n b = 2 ^ n * b.toNat := by
  cases b <;> simp [bitOf]

theorem getLsbD_word_bitsNumber (l : List Bool) {i : Nat} (small : i < 16) :
    (word (bitsNumber l)).getLsbD i = l.getD i false := by
  rw [word, BitVec.getLsbD_ofNat, decide_eq_true small, Bool.true_and, testBit_bitsNumber]

/-- The legs whose LEG_ENDED flag is set, in leg number order. -/
theorem legsWord_eq (x : Flags) : x.legsWord = word (bitsNumber ((allIx 6).map fun i => x.get (.legEnded i))) := by
  have legs : allIx 6 = [0, 1, 2, 3, 4, 5] := rfl
  rw [Flags.legsWord, legs]
  simp only [List.map_cons, List.map_nil, List.sum_cons, List.sum_nil, bitOf_eq, bitsNumber, List.foldr_cons,
    List.foldr_nil, Nat.bit_val, Flags.get]
  congr 1
  simp
  omega

/-- The causes whose flag is set, in the order of their codes. -/
theorem causesWord_eq (x : Flags) : x.causesWord = word (bitsNumber
    [(allIx 6).any fun i => x.get (.legEnded i), x.breach, x.stationSilent, x.stationBack, x.divertTimeout,
      x.weigherGlitch, x.poolExhausted, x.trackerFull, x.powerShort, x.cursorExpired]) := by
  rw [Flags.causesWord]
  simp only [bitOf_eq, bitsNumber, List.foldr_cons, List.foldr_nil, Nat.bit_val, Flags.get]
  congr 1
  omega

theorem legsWord_bit (x : Flags) (i : UnloaderIx) : x.legsWord.getLsbD i.val = x.get (.legEnded i) := by
  rw [legsWord_eq, getLsbD_word_bitsNumber _ (by omega), List.getD_eq_getElem?_getD, List.getElem?_map]
  simp [allIx]

theorem causesWord_bit (x : Flags) {f : Flag} (other : f.cause ≠ .legEnded) :
    x.causesWord.getLsbD (f.cause.code - 1) = x.get f := by
  rw [causesWord_eq]
  cases f with
  | legEnded i => exact absurd rfl other
  | breach | stationSilent | stationBack | divertTimeout | weigherGlitch | poolExhausted | trackerFull | powerShort
  | cursorExpired => exact getLsbD_word_bitsNumber _ (by decide)

theorem causesWord_legEnded (x : Flags) :
    x.causesWord.getLsbD 0 = true ↔ ∃ i : UnloaderIx, x.get (.legEnded i) = true := by
  rw [causesWord_eq, getLsbD_word_bitsNumber _ (by decide)]
  simp [allIx]

theorem maskWord_bit (mask : BitVec 10) (c : Cause) : (maskWord mask).getLsbD (c.code - 1) = maskEnables mask c := by
  have small : c.code - 1 < 16 := by cases c <;> decide
  rw [maskWord, BitVec.getLsbD_setWidth, decide_eq_true small, Bool.true_and]
  rfl

/-! ### READ SNAPSHOT (R138) -/

theorem Snapshot.partWords_eq (x : Snapshot) {k : Nat} (low : 1 ≤ k) : x.partWords k =
    word2 x.number.toNat (num x.lot) :: word x.lines.length ::
      ((x.lines.drop (2 * k - 2)).take 2).flatMap fun l =>
        [word (l.vessel * 4096 + l.number * 256 + num l.bin), word (l.kg / 2 ^ 32), word (l.kg / 2 ^ 16), word l.kg] := by
  rw [Snapshot.partWords, show 2 * (k - 1) = 2 * k - 2 by omega]
  rfl

/-- Settles O35: each bit of the two words is that of its flag, and the part number decides the lines. -/
theorem flagsAndSnapshotAreRead : Obligations.FlagsAndSnapshotAreRead := by
  intro port m s
  refine ⟨fun entitled => ?_, fun k serves number => ?_⟩
  · have taken : exec (.flagsRead port m) s = _ := next_congr (served_rule entitled rfl fun _ _ => rfl)
    exact ⟨_, _, _, taken.trans (next_congr (reply_taken ..)), legsWord_bit _, fun f other => causesWord_bit _ other,
      causesWord_legEnded _, maskWord_bit _⟩
  · have taken : exec (.readSnapshot port m) s = _ := next_congr (served_own serves fun _ _ => rfl)
    simp only [params_taken, number] at taken
    rw [taken]
    refine ⟨fun out => next_congr ?_, fun low high empty => next_congr ?_, fun x low high copy => next_congr ?_⟩
    · simp only [within, if_neg (show ¬ (1 ≤ k ∧ k ≤ 48) by omega)]
      exact reply_taken ..
    · simp only [within, if_pos (show 1 ≤ k ∧ k ≤ 48 from ⟨low, high⟩), empty]
      exact reply_taken ..
    · simp only [within, if_pos (show 1 ≤ k ∧ k ≤ 48 from ⟨low, high⟩), copy, x.partWords_eq low]
      exact reply_taken ..

end Sys2Proof.Machine
end

