-- ==== Sys2Proof/Proofs/TableWrites.lean ====
section
/-!
PROOFS. The writes of the quay tables: what a write may touch (R1, R8, R184), lots and bins (R13, R15, R20), the
write of a route (R11, R12), and the entries of BULK DATA (R188).
-/

namespace Sys2Proof.Machine

/-! ### What two states share -/

theorem sameBut_refl (changed : List Piece) (s : State) : sameBut changed s s := by
  intro p _
  cases p <;> rfl

theorem sameBut_trans {changed : List Piece} {s t u : State} (first : sameBut changed s t)
    (second : sameBut changed t u) : sameBut changed s u := by
  intro p unlisted
  have st := first p unlisted
  have tu := second p unlisted
  cases p <;> exact tu.trans st

theorem sameBut_mono {few many : List Piece} {s t : State} (h : sameBut few s t) (within : few ⊆ many) :
    sameBut many s t := fun p unlisted => h p (mt (@within p) unlisted)

/-- A state that is another with a new tracker shares all else with it. -/
theorem sameBut_tracker {s t : State} (frame : t = { s with tracker := t.tracker }) : sameBut [.tracker] s t := by
  rw [frame]
  intro p unlisted
  cases p with
  | tracker => simp at unlisted
  | _ => rfl

theorem sameBut_tables {s : State} (x : Tables) : sameBut [.tables] s { s with tables := x } := by
  intro p unlisted
  cases p with
  | tables => simp at unlisted
  | _ => rfl

theorem sameBut_watch {s : State} (a : Addr) (w : Option WatchRecord) : sameBut [.watch] s (s.setWatch a w) := by
  intro p unlisted
  cases p with
  | watch => simp at unlisted
  | _ => rfl

theorem sameBut_weigher {s : State} (i : UnloaderIx) (w : Weigher) : sameBut [.weighing] s (s.setWeigher i w) := by
  intro p unlisted
  cases p with
  | weighing => simp at unlisted
  | _ => rfl

theorem sameBut_diverter {s : State} (d : DiverterIx) (r : Option DiverterRecord) :
    sameBut [.seg] s (s.setDiverter d r) := by
  intro p unlisted
  cases p with
  | seg => simp at unlisted
  | _ => rfl

/-! ### The head clear report touches the diverters and the queues (R95, R111) -/

/-- A telegram that brings no addresses changes the queues alone (R171, R191). -/
theorem joinForward_path {q : Queued} (brings : q.takesForce = none) (s : State) :
    joinForward q s = { s with path := (joinForward q s).path } := by
  rw [joinForward]
  split
  · rfl
  · rw [brings]
    rfl

theorem sameBut_path {s t : State} (frame : t = { s with path := t.path }) : sameBut [.path] s t := by
  rw [frame]
  intro p unlisted
  cases p with
  | path => simp at unlisted
  | _ => rfl

theorem headClearReport_sameBut (d : DiverterIx) (s : State) : sameBut [.seg, .path] s (headClearReport d s) := by
  cases record : s.seg.diverters[d] with
  | none =>
    have nothing : headClearReport d s = s := by rw [headClearReport, record]
    rw [nothing]
    exact sameBut_refl _ s
  | some r =>
    cases held : r.pending with
    | none =>
      rw [headClearReport_nothing record held]
      exact sameBut_refl _ s
    | some t =>
      have released : sameBut [.seg, .path] s
          (s.setDiverter d (some { r with pending := none, holdTimer := none })) :=
        sameBut_mono (sameBut_diverter d _) (by simp)
      rw [headClearReport_pending record held]
      refine sameBut_trans released ?_
      split
      · exact sameBut_mono (sameBut_path (joinEgress_path rfl _)) (by simp)
      · exact sameBut_mono (sameBut_path (joinForward_path rfl _)) (by simp)

/-! ### What a write may touch (R1, R8, R184) -/

/-- The pieces that a write of an entry may touch (R8, R17, R111, R135). -/
def writable : List Piece := [.tables, .watch, .tracker, .weighing, .seg, .path]

theorem reportHead_sameBut (out : Outlet) (before after : Bool) (s : State) :
    sameBut writable s (reportHead out before after s) := by
  unfold reportHead
  split
  · split
    · exact sameBut_mono (headClearReport_sameBut _ s) (by simp [writable])
    · exact sameBut_refl _ s
  · exact sameBut_refl _ s

theorem setWatch_writable (s : State) (a : Addr) (w : Option WatchRecord) : sameBut writable s (s.setWatch a w) :=
  sameBut_mono (sameBut_watch a w) (by simp [writable])

theorem setDiverter_writable (s : State) (d : DiverterIx) (r : Option DiverterRecord) :
    sameBut writable s (s.setDiverter d r) := sameBut_mono (sameBut_diverter d r) (by simp [writable])

theorem setWeigher_writable (s : State) (i : UnloaderIx) (w : Weigher) : sameBut writable s (s.setWeigher i w) :=
  sameBut_mono (sameBut_weigher i w) (by simp [writable])

theorem tracker_writable {s t : State} (frame : t = { s with tracker := t.tracker }) : sameBut writable s t :=
  sameBut_mono (sameBut_tracker frame) (by simp [writable])

theorem tables_writable (s : State) (x : Tables) : sameBut writable s { s with tables := x } :=
  sameBut_mono (sameBut_tables x) (by simp [writable])

theorem deleteStation_sameBut (old : State) (a : Addr) (k : StationKind) (s : State) :
    sameBut writable s (deleteStation old a k s) := by
  refine sameBut_trans (setWatch_writable s a none) ?_
  cases k with
  | unloader i d =>
    refine sameBut_trans ?_ (setWeigher_writable _ i _)
    split
    next ref _ =>
      refine tracker_writable ?_
      rw [closeSource_frame]
      rfl
    · exact sameBut_refl _ _
  | belt b d =>
    refine sameBut_trans ?_ (reportHead_sameBut _ _ _ _)
    refine tracker_writable ?_
    rw [drop_frame]
    rfl
  | diverter d e => exact setDiverter_writable _ d none
  | supervisor => exact sameBut_refl _ _
  | panel => exact sameBut_refl _ _

/-- A first definition touches the records of its kind and the watch record alone (R8). -/
theorem defineStation_records (a : Addr) (e : StationEntry) (s : State) :
    sameBut [.watch, .tracker, .weighing, .seg] s (defineStation a e s) := by
  have watched : sameBut [.watch, .tracker, .weighing, .seg] s
      (s.setWatch a (some (WatchRecord.fresh e.silenceLimit))) := sameBut_mono (sameBut_watch a _) (by simp)
  unfold defineStation
  cases e.kind with
  | unloader i d => exact sameBut_trans watched (sameBut_mono (sameBut_weigher i _) (by simp))
  | belt b d =>
    exact sameBut_trans watched (sameBut_mono (sameBut_tracker rfl) (by simp))
  | diverter d x => exact sameBut_trans watched (sameBut_mono (sameBut_diverter d _) (by simp))
  | supervisor => exact sameBut_refl _ s
  | panel => exact sameBut_refl _ s

theorem defineStation_sameBut (a : Addr) (e : StationEntry) (s : State) :
    sameBut writable s (defineStation a e s) := sameBut_mono (defineStation_records a e s) (by simp [writable])

theorem rewriteStation_sameBut (old : State) (a : Addr) (x y : StationEntry) (s : State) :
    sameBut writable s (rewriteStation old a x y s) := by
  refine sameBut_trans (setWatch_writable s a (s.watch[a].map fun w => w.rewritten y.silenceLimit)) ?_
  unfold rewriteStation
  dsimp only
  split
  next b _ _ _ _ _ =>
    have unsure (t : State) : sameBut writable t (enterUnsure b t) := tracker_writable (enterUnsure_frame b t)
    unfold rewriteBelt
    dsimp only
    split
    · exact unsure _
    · exact sameBut_trans (unsure _) (reportHead_sameBut _ _ _ _)
  · exact sameBut_refl _ _

theorem storeStation_sameBut (a : Addr) (new : Option StationEntry) (s : State) :
    sameBut writable s (storeStation a new s) := by
  refine sameBut_trans (tables_writable s { s.tables with stations := put s.tables.stations a new }) ?_
  unfold storeStation
  dsimp only
  split
  · split
    · exact rewriteStation_sameBut _ _ _ _ _
    · exact sameBut_trans (deleteStation_sameBut _ _ _ _) (defineStation_sameBut _ _ _)
  · exact deleteStation_sameBut _ _ _ _
  · exact defineStation_sameBut _ _ _
  · exact sameBut_refl _ _

/-- A write is refused or without effect and leaves the state as it was, or it touches only what it may (R1). -/
def Written.Sound (s : State) (w : Written) : Prop :=
  (w.result.code ≠ 0 → w.state = s) ∧ sameBut writable s w.state

theorem refused_sound (r : Result) (s : State) : (refused r s).Sound s := ⟨fun _ => rfl, sameBut_refl _ s⟩

theorem refusedAt_sound (position : Nat) (s : State) : (refusedAt position s).Sound s :=
  ⟨fun _ => rfl, sameBut_refl _ s⟩

theorem done_sound {s t : State} (data : List Word) (h : sameBut writable s t) : (Written.mk .done data t).Sound s :=
  ⟨fun other => absurd rfl other, h⟩

theorem parsedWrite_sound {α : Type} (x : Except Nat α) {write : α → State → Written} {s : State}
    (h : ∀ v, (write v s).Sound s) : (parsedWrite x write s).Sound s := by
  cases x with
  | ok v => exact h v
  | error position => exact refusedAt_sound position s

theorem writeStation_sound (a : Addr) (new : Option StationEntry) (s : State) : (writeStation a new s).Sound s := by
  unfold writeStation
  split
  · exact refused_sound _ s
  split
  · exact refused_sound _ s
  split
  · exact refused_sound _ s
  · exact done_sound [] (storeStation_sameBut a new s)

theorem writeRoute_sound (k : RouteIx) (x : RouteWrite) (s : State) : (writeRoute k x s).Sound s := by
  unfold writeRoute
  split
  · exact refused_sound _ s
  split
  · exact refused_sound _ s
  · exact done_sound _ (tables_writable s _)

theorem deleteRoute_sound (k : RouteIx) (s : State) : (deleteRoute k s).Sound s := by
  unfold deleteRoute
  split
  · exact refused_sound _ s
  split
  · exact refused_sound _ s
  · exact done_sound [] (tables_writable s _)

theorem writeLot_sound (n : LotIx) (x : LotWrite) (s : State) : (writeLot n x s).Sound s := by
  unfold writeLot
  split
  · exact done_sound [] (tables_writable s _)
  split
  · exact refused_sound _ s
  · exact done_sound [] (tables_writable s _)

theorem freeBlocks_sameBut (chain : List BlockIx) (s : State) : sameBut writable s (freeBlocks chain s) := by
  rw [freeBlocks_frame]
  intro p unlisted
  cases p with
  | weighing => simp [writable] at unlisted
  | _ => rfl

theorem deleteLot_sound (n : LotIx) (s : State) : (deleteLot n s).Sound s := by
  unfold deleteLot
  split
  · exact refused_sound _ s
  split
  · exact refused_sound _ s
  · exact done_sound [] (sameBut_trans (tables_writable s _) (freeBlocks_sameBut _ _))

theorem writeHold_sound (n : HoldIx) (x : HoldWrite) (s : State) : (writeHold n x s).Sound s := by
  unfold writeHold
  split
  · exact refused_sound _ s
  split
  · exact refused_sound _ s
  · exact done_sound [] (tables_writable s _)

theorem deleteHold_sound (n : HoldIx) (s : State) : (deleteHold n s).Sound s := by
  unfold deleteHold
  split
  · exact refused_sound _ s
  split
  · exact refused_sound _ s
  · exact done_sound [] (tables_writable s _)

theorem writeBin_sound (n : BinIx) (x : BinWrite) (s : State) : (writeBin n x s).Sound s := by
  unfold writeBin
  split
  · exact done_sound [] (tables_writable s _)
  split
  · exact refused_sound _ s
  · exact done_sound [] (tables_writable s _)

theorem deleteBin_sound (n : BinIx) (s : State) : (deleteBin n s).Sound s := by
  unfold deleteBin
  split
  · exact refused_sound _ s
  split
  · exact refused_sound _ s
  · exact done_sound [] (tables_writable s _)

theorem writeAt_sound (t : Table) (index : Nat) (define : Bool) (ws : List Word) (s : State) :
    (writeAt t index define ws s).Sound s := by
  cases t with
  | station =>
    unfold writeAt
    dsimp only
    split
    · split
      · exact parsedWrite_sound _ fun v => writeStation_sound _ v s
      · exact writeStation_sound _ none s
    · exact refusedAt_sound 3 s
  | route =>
    unfold writeAt
    dsimp only
    split
    · split
      · exact parsedWrite_sound _ fun v => writeRoute_sound _ v s
      · exact deleteRoute_sound _ s
    · exact refusedAt_sound 3 s
  | lot =>
    unfold writeAt
    dsimp only
    split
    · split
      · exact parsedWrite_sound _ fun v => writeLot_sound _ v s
      · exact deleteLot_sound _ s
    · exact refusedAt_sound 3 s
  | hold =>
    unfold writeAt
    dsimp only
    split
    · split
      · exact parsedWrite_sound _ fun v => writeHold_sound _ v s
      · exact deleteHold_sound _ s
    · exact refusedAt_sound 3 s
  | bin =>
    unfold writeAt
    dsimp only
    split
    · split
      · exact parsedWrite_sound _ fun v => writeBin_sound _ v s
      · exact deleteBin_sound _ s
    · exact refusedAt_sound 3 s

theorem writeEntry_sound (t : Table) (index action : Nat) (ws : List Word) (s : State) :
    (writeEntry t index action ws s).Sound s := by
  unfold writeEntry
  split
  · exact writeAt_sound _ _ _ _ s
  · exact writeAt_sound _ _ _ _ s
  · exact refusedAt_sound 2 s

/-! ### The words that a write needs (R161, R179) -/

/-- A payload with as many words as its groups take lacks none (R179). -/
theorem firstMissing_enough {layout : List Group} {available : Nat}
    (enough : (layout.map (·.words)).sum ≤ available) (position : Nat) :
    firstMissing layout available position = none := by
  induction layout generalizing available position with
  | nil => rfl
  | cons x xs ih =>
    simp only [List.map_cons, List.sum_cons] at enough
    rw [firstMissing, if_neg (by omega)]
    exact ih (by omega) _

/-- A write needs at most its table word and the words of its contents (R161). -/
theorem firstMissing_define {t : Table} {m : Message}
    (enough : 2 + ((contentsLayout t (m.words.drop 2)).map (·.words)).sum ≤ m.words.length) :
    firstMissing (writeLayout (some t) (m.words.drop 1)) (m.words.length - 1) 1 = none := by
  refine firstMissing_enough ?_ 1
  unfold writeLayout
  dsimp only
  split
  · simp only [List.drop_drop, Nat.reduceAdd, List.map_cons, List.sum_cons, tableWordGroup]
    omega
  · simp only [List.map_cons, List.map_nil, List.sum_cons, List.sum_nil, tableWordGroup]
    omega

theorem within_eq {low high n v : Nat} (h : within low high n = some v) : v = n := by
  unfold within at h
  split at h
  · exact (Option.some.inj h).symm
  · cases h

theorem parseSettings_length : ∀ {n position : Nat} {ws : List Word} {seen l : List Setting},
    parseSettings n position ws seen = .ok l → l.length = seen.length + n
  | 0, _, _, _, _, h => by cases h; rfl
  | n + 1, _, _, _, _, h => by
    obtain ⟨d, _, h⟩ := bind_ok h
    obtain ⟨p, _, h⟩ := bind_ok h
    rw [parseSettings_length h, List.length_append, List.length_singleton]
    omega

/-- A route has as many settings as its pair count says (R9). -/
theorem parseRoute_pairs {ws : List Word} {x : RouteWrite} (h : parseRoute ws = .ok x) :
    pairsNeeded (hi (ws.getD 1 0)) = x.settings.length := by
  obtain ⟨i, _, h⟩ := bind_ok h
  obtain ⟨b, _, h⟩ := bind_ok h
  obtain ⟨n, count, h⟩ := bind_ok h
  obtain ⟨bin, _, h⟩ := bind_ok h
  obtain ⟨settings, pairs, h⟩ := bind_ok h
  cases h
  have number := within_eq (need_ok count)
  have most := (within_ok (need_ok count)).2
  rw [parseSettings_length pairs, ← number, pairsNeeded, if_pos most]
  simp

theorem firstMissing_defineRoute {m : Message} {x : RouteWrite} (parsed : parseRoute (m.words.drop 2) = .ok x)
    (words : 4 + x.settings.length ≤ m.words.length) :
    firstMissing (writeLayout (some .route) (m.words.drop 1)) (m.words.length - 1) 1 = none := by
  refine firstMissing_define ?_
  rw [contentsLayout, parseRoute_pairs parsed]
  simp only [List.map_cons, List.map_replicate, List.sum_cons, List.sum_replicate, twoFields, smul_eq_mul, mul_one]
  omega

/-! ### A write of an entry is the write of its table (R1) -/

theorem writeEntry_defineLot {n : LotIx} {index action : Nat} {ws : List Word} {x : LotWrite} {s : State}
    (hi : index = num n) (ha : action = 1) (hx : parseLot ws = .ok x) :
    writeEntry .lot index action ws s = writeLot n x s := by
  subst ha
  show writeAt .lot index true ws s = _
  unfold writeAt
  simp only [ixOf_num n hi, hx, if_true]
  rfl

theorem writeEntry_deleteLot {n : LotIx} {index action : Nat} {ws : List Word} {s : State}
    (hi : index = num n) (ha : action = 2) : writeEntry .lot index action ws s = deleteLot n s := by
  subst ha
  show writeAt .lot index false ws s = _
  unfold writeAt
  simp only [ixOf_num n hi]
  rfl

theorem writeEntry_defineBin {n : BinIx} {index action : Nat} {ws : List Word} {x : BinWrite} {s : State}
    (hi : index = num n) (ha : action = 1) (hx : parseBin ws = .ok x) :
    writeEntry .bin index action ws s = writeBin n x s := by
  subst ha
  show writeAt .bin index true ws s = _
  unfold writeAt
  simp only [ixOf_num n hi, hx, if_true]
  rfl

theorem writeEntry_deleteBin {n : BinIx} {index action : Nat} {ws : List Word} {s : State}
    (hi : index = num n) (ha : action = 2) : writeEntry .bin index action ws s = deleteBin n s := by
  subst ha
  show writeAt .bin index false ws s = _
  unfold writeAt
  simp only [ixOf_num n hi]
  rfl

theorem writeEntry_defineRoute {k : RouteIx} {index action : Nat} {ws : List Word} {x : RouteWrite} {s : State}
    (hi : index = num k) (ha : action = 1) (hx : parseRoute ws = .ok x) :
    writeEntry .route index action ws s = writeRoute k x s := by
  subst ha
  show writeAt .route index true ws s = _
  unfold writeAt
  simp only [ixOf_num k hi, hx, if_true]
  rfl

theorem writeEntry_deleteRoute {k : RouteIx} {index action : Nat} {ws : List Word} {s : State}
    (hi : index = num k) (ha : action = 2) : writeEntry .route index action ws s = deleteRoute k s := by
  subst ha
  show writeAt .route index false ws s = _
  unfold writeAt
  simp only [ixOf_num k hi]
  rfl

/-! ### Lots and bins (R13, R15, R20) -/

section
variable {s : State}

theorem writeLot_first {n : LotIx} (absent : s.tables.lots[n] = none) (x : LotWrite) : writeLot n x s =
    written (s.setLot n (some { cargoClass := x.cargoClass, group := x.group, permitted := x.permitted, chain := []
                                total := 0, unattributed := 0 })) := by
  rw [writeLot, absent]

theorem writeLot_defined {n : LotIx} {l : Lot} (entry : s.tables.lots[n] = some l) (x : LotWrite) : writeLot n x s =
    if l.group ≠ x.group ∧ s.lotReferred n then refused .inUse s
    else written (s.setLot n (some
      { l with cargoClass := x.cargoClass, group := x.group, permitted := x.permitted })) := by
  rw [writeLot, entry]

theorem deleteLot_absent {n : LotIx} (absent : s.tables.lots[n] = none) : deleteLot n s = refused .noEffect s := by
  rw [deleteLot, absent]

theorem deleteLot_defined {n : LotIx} {l : Lot} (entry : s.tables.lots[n] = some l) : deleteLot n s =
    if s.lotReferred n then refused .inUse s else written (freeBlocks l.chain (s.setLot n none)) := by
  rw [deleteLot, entry]

/-- Every block of a chain that is given back is empty (R135). -/
theorem freeBlocks_freed : ∀ (chain : List BlockIx) (s : State) (q : BlockIx), q ∈ chain →
    (freeBlocks chain s).weighing.pool[q] = []
  | [], _, _, listed => absurd listed List.not_mem_nil
  | k :: chain, s, q, listed => by
    show (freeBlocks chain (s.setBlock k [])).weighing.pool[q] = []
    by_cases later : q ∈ chain
    · exact freeBlocks_freed chain _ q later
    · rw [freeBlocks_pool chain _ q later, (List.mem_cons.1 listed).resolve_right later]
      exact put_get_same _ _ _

theorem writeBin_first {n : BinIx} (absent : s.tables.bins[n] = none) (x : BinWrite) : writeBin n x s =
    written (s.setBin n (some
      { capacity := x.capacity, margin := x.margin, isOpen := x.isOpen, lot := none, fill := 0 })) := by
  rw [writeBin, absent]

theorem writeBin_defined {n : BinIx} {b : Bin} (entry : s.tables.bins[n] = some b) (x : BinWrite) : writeBin n x s =
    if !x.isOpen && s.binBusy n then refused .inUse s
    else written (s.setBin n (some
      { b with capacity := x.capacity, margin := x.margin, isOpen := x.isOpen })) := by
  rw [writeBin, entry]

theorem deleteBin_absent {n : BinIx} (absent : s.tables.bins[n] = none) : deleteBin n s = refused .noEffect s := by
  rw [deleteBin, absent]
  rfl

theorem deleteBin_defined {n : BinIx} (entry : s.tables.bins[n] ≠ none) : deleteBin n s =
    if s.binInUse n then refused .inUse s else written (s.setBin n none) := by
  rw [deleteBin, Option.isNone_eq_false_iff.2 (Option.isSome_iff_ne_none.2 entry)]
  rfl

end

/-- A TABLE WRITE from a station with the ring it needs is answered, and is sound (R1, R181, R184). -/
theorem tableWrite_sound {port : Port} {m : Message} {s : State} (addressed : s.addressed m)
    (ring : s.ringOfMessage m ≤ s.ringNeeded 3 m) :
    ∃ result data u, exec (.tableWrite port m) s = .next (replied port m 3 result data u)
      ∧ (result ≠ 0 → u = s) ∧ sameBut writable s u := by
  have taken : exec (.tableWrite port m) s = .next (takeTableWrite (requestTaken port m 3) s) :=
    next_congr (requestArrives_own addressed)
  have named : (requestTaken port m 3).table = tableOf (selectorOf (paramAt m 0)) := by
    rw [Request.table, params_taken]
  have entitled : s.ringOfMessage m ≤ ringOf (requestTaken port m 3).table := by
    rw [named, ringOf_tableOf]
    exact ring
  cases here : firstMissing (writeLayout (requestTaken port m 3).table (requestTaken port m 3).params)
      (m.words.length - 1) 1 with
  | some position =>
    exact ⟨3, _, s, taken.trans (next_congr (checked_missing entitled here)), fun _ => rfl, sameBut_refl _ s⟩
  | none =>
    cases table : tableOf (selectorOf (paramAt m 0)) with
    | none =>
      refine ⟨3, [word 1], s, taken.trans (next_congr ?_), fun _ => rfl, sameBut_refl _ s⟩
      rw [takeTableWrite, checked_passes entitled here]
      dsimp only
      rw [named, table]
      rfl
    | some t =>
      rw [named, table] at here entitled
      obtain ⟨refusal, frame⟩ := writeEntry_sound t (indexOf (paramAt m 0)) (actionOf (paramAt m 0)) (m.words.drop 2) s
      exact ⟨_, _, _, tableWrite_served addressed table entitled here _ rfl, refusal, frame⟩

/-- Settles O36: every write is sound, and the writes of lots and bins have an equation for each case. -/
theorem tableWriteIsAnswered : Obligations.TableWriteIsAnswered := by
  refine ⟨fun port m s addressed ring => tableWrite_sound addressed ring,
    fun port m s answer addressed ring words rule => ⟨?lot, ?bin⟩⟩
  case lot =>
    intro n referred sel ix refers
    have table : tableOf (selectorOf (paramAt m 0)) = some .lot := by rw [sel]; rfl
    have inUse : s.lotReferred n = true ↔ referred := (lotReferred_iff s n).trans refers.symm
    refine ⟨fun x act len parsed => ?define, fun act => ?delete⟩
    case define =>
      have here : firstMissing (writeLayout (some .lot) (m.words.drop 1)) (m.words.length - 1) 1 = none :=
        firstMissing_define len
      have wrote := writeEntry_defineLot (s := s) ix act parsed
      refine ⟨fun absent => (rule _ _).2 (tableWrite_served addressed table ring here _
        (wrote.trans (writeLot_first absent x))), fun l entry => ⟨fun other used => ?_, fun free => ?_⟩⟩
      · exact (rule _ _).2 (tableWrite_served addressed table ring here _
          ((wrote.trans (writeLot_defined entry x)).trans (if_pos ⟨other, inUse.2 used⟩)))
      · refine (rule _ _).2 (tableWrite_served addressed table ring here _
          ((wrote.trans (writeLot_defined entry x)).trans (if_neg ?_)))
        rintro ⟨other, used⟩
        exact free.elim other fun unused => unused (inUse.1 used)
    case delete =>
      have here := firstMissing_delete (t := .lot) act words
      have wrote := writeEntry_deleteLot (ws := m.words.drop 2) (s := s) ix act
      refine ⟨fun absent => (rule _ _).2 (tableWrite_served addressed table ring here _
        (wrote.trans (deleteLot_absent absent))), fun l entry => ⟨fun used => ?_, fun unused => ?_⟩⟩
      · exact (rule _ _).2 (tableWrite_served addressed table ring here _
          ((wrote.trans (deleteLot_defined entry)).trans (if_pos (inUse.2 used))))
      · refine ⟨(freeBlocks l.chain (s.setLot n none)).weighing.pool, (rule _ _).2 (tableWrite_served addressed table
          ring here _ (((wrote.trans (deleteLot_defined entry)).trans (if_neg (mt inUse.1 unused))).trans
            (congrArg written (freeBlocks_frame _ _)))), fun q => ?_⟩
        split
        next listed => exact freeBlocks_freed l.chain _ q listed
        next unlisted => exact freeBlocks_pool l.chain _ q unlisted
  case bin =>
    intro n sel ix
    have table : tableOf (selectorOf (paramAt m 0)) = some .bin := by rw [sel]; rfl
    refine ⟨fun x busy act len parsed busyRule => ?define, fun used act usedRule => ?delete⟩
    case define =>
      have bound : s.binBusy n = true ↔ busy := (binBusy_iff s n).trans busyRule.symm
      have here : firstMissing (writeLayout (some .bin) (m.words.drop 1)) (m.words.length - 1) 1 = none :=
        firstMissing_define len
      have wrote := writeEntry_defineBin (s := s) ix act parsed
      refine ⟨fun absent => (rule _ _).2 (tableWrite_served addressed table ring here _
        (wrote.trans (writeBin_first absent x))), fun b entry => ⟨fun closing meets => ?_, fun free => ?_⟩⟩
      · exact (rule _ _).2 (tableWrite_served addressed table ring here _
          ((wrote.trans (writeBin_defined entry x)).trans (if_pos (by rw [closing, bound.2 meets]; rfl))))
      · refine (rule _ _).2 (tableWrite_served addressed table ring here _
          ((wrote.trans (writeBin_defined entry x)).trans (if_neg ?_)))
        rw [Bool.and_eq_true, Bool.not_eq_true', Bool.eq_false_iff, bound]
        rintro ⟨closing, meets⟩
        exact free.elim closing fun quiet => quiet meets
    case delete =>
      have inUse : s.binInUse n = true ↔ used := (binInUse_iff s n).trans usedRule.symm
      have here := firstMissing_delete (t := .bin) act words
      have wrote := writeEntry_deleteBin (ws := m.words.drop 2) (s := s) ix act
      refine ⟨fun absent => (rule _ _).2 (tableWrite_served addressed table ring here _
        (wrote.trans (deleteBin_absent absent))), fun entry meets => ?_, fun entry free => ?_⟩
      · exact (rule _ _).2 (tableWrite_served addressed table ring here _
          ((wrote.trans (deleteBin_defined entry)).trans (if_pos (inUse.2 meets))))
      · exact (rule _ _).2 (tableWrite_served addressed table ring here _
          ((wrote.trans (deleteBin_defined entry)).trans (if_neg (mt inUse.1 free))))

/-! ### The write of a route (R11, R12) -/

section
variable {s : State} {k : RouteIx}

theorem routeUsed_iff : s.routeUsed k = true ↔ ∃ e ∈ s.tables.routes[k], 0 < e.users := by
  unfold State.routeUsed
  cases s.tables.routes[k] <;> simp

theorem routeUsed_free (unused : ∀ e ∈ s.tables.routes[k], e.users = 0) : ¬ s.routeUsed k = true := by
  rw [routeUsed_iff]
  rintro ⟨e, entry, used⟩
  exact absurd (unused e entry) (by omega)

theorem writeRoute_failed {x : RouteWrite} (unused : ∀ e ∈ s.tables.routes[k], e.users = 0)
    (fails : s.deriveBelts x = none) : writeRoute k x s = refused .routeInvalid s := by
  rw [writeRoute, if_neg (routeUsed_free unused), fails]

theorem writeRoute_stored {x : RouteWrite} {belts : List BeltIx} (unused : ∀ e ∈ s.tables.routes[k], e.users = 0)
    (derived : s.deriveBelts x = some belts) : writeRoute k x s = ⟨.done, beltListWords belts,
      s.setRoute k (some ⟨x.unloader, x.firstBelt, x.settings, x.bin, belts, 0⟩)⟩ := by
  rw [writeRoute, if_neg (routeUsed_free unused), derived]

theorem deleteRoute_defined {e : Route} (entry : s.tables.routes[k] = some e) : deleteRoute k s =
    if 0 < e.users then refused .inUse s else written (s.setRoute k none) := by
  rw [deleteRoute, entry]

end

/-- Settles O39: a write of a route turns on its users and its walk, a deletion on its users. -/
theorem routeWriteStoresTheWalk : Obligations.RouteWriteStoresTheWalk := by
  intro port m s k addressed ring sel ix
  have table : tableOf (selectorOf (paramAt m 0)) = some .route := by rw [sel]; rfl
  refine ⟨fun x act parsed words => ?write, fun e act words entry => ?delete⟩
  case write =>
    have here := firstMissing_defineRoute parsed words
    have wrote := writeEntry_defineRoute (s := s) ix act parsed
    refine ⟨fun used => ?_, fun unused fails => ?_, fun belts unused derived => ?_⟩
    · exact tableWrite_served addressed table ring here _ (wrote.trans (if_pos (routeUsed_iff.2 used)))
    · exact tableWrite_served addressed table ring here _ (wrote.trans (writeRoute_failed unused fails))
    · exact tableWrite_served addressed table ring here _ (wrote.trans (writeRoute_stored unused derived))
  case delete =>
    have here := firstMissing_delete (t := .route) act words
    have wrote := (writeEntry_deleteRoute (ws := m.words.drop 2) ix act).trans (deleteRoute_defined entry)
    refine ⟨fun unused => ?_, fun used => ?_⟩
    · exact tableWrite_served addressed table ring here _ (wrote.trans (if_neg (by omega)))
    · exact tableWrite_served addressed table ring here _ (wrote.trans (if_pos used))

/-! ### BULK DATA (R188) -/

/-- A BULK DATA with the ring and the words it needs gets its own rule (R181, R188). -/
theorem bulkData_served {port : Port} {m : Message} {s : State} (addressed : s.addressed m)
    (ring : s.ringOfMessage m ≤ s.ringNeeded 18 m)
    (here : firstMissing (writeLayout s.cursorTable (m.words.drop 1)) (m.words.length - 1) 1 = none)
    {act : State → State} (rule : takeBulkData (requestTaken port m 18) s = checked (requestTaken port m 18)
      (ringOf s.cursorTable) (writeLayout s.cursorTable (requestTaken port m 18).params) act s) :
    exec (.bulkData port m) s = .next (act s) := by
  refine next_congr ((requestArrives_own addressed).trans ?_)
  show takeBulkData _ s = _
  rw [ringNeeded_bulkData] at ring
  exact rule.trans (checked_passes ring here)

/-- The owner of the cursor is served as the run and the position say (R188). -/
theorem bulkData_owned {port : Port} {m : Message} {s : State} {x : Cursor} (addressed : s.addressed m)
    (ring : s.ringOfMessage m ≤ s.ringNeeded 18 m) (cursor : s.mgmt.cursor = some x) (owner : x.owner = m.source)
    (here : firstMissing (writeLayout (some x.table) (m.words.drop 1)) (m.words.length - 1) 1 = none) :
    exec (.bulkData port m) s = .next (bulkStep (requestTaken port m 18) x s) := by
  have table : s.cursorTable = some x.table := by rw [State.cursorTable, cursor]; rfl
  rw [← table] at here
  refine (bulkData_served addressed ring here rfl).trans (next_congr ?_)
  simp only [cursor]
  exact if_pos owner

theorem bulkStep_misplaced {q : Request} {x : Cursor} {s : State}
    (misplaced : x.remaining = 0 ∨ indexOf (q.at 0) ≠ x.next) : bulkStep q x s =
      reply q .cursorAt [word x.next, word x.remaining] (s.setCursor (some { x with idle := 0 })) :=
  if_pos misplaced

theorem bulkStep_placed {q : Request} {x : Cursor} {s : State} (left : 0 < x.remaining)
    (place : indexOf (q.at 0) = x.next) : bulkStep q x s =
      bulkEntry q { x with idle := 0 } (s.setCursor (some { x with idle := 0 })) :=
  if_neg (by rintro (none | other); exacts [absurd none (by omega), other place])

theorem accepts_iff (r : Result) : r.accepts = true ↔ r.code ≤ 1 := by
  cases r <;> decide

/-- The entry of a BULK DATA is answered by the result of its write (R188). -/
theorem bulkEntry_taken {port : Port} {m : Message} {x : Cursor} {s : State} {w : Written}
    (wrote : writeEntry x.table (indexOf (paramAt m 0)) (actionOf (paramAt m 0)) (m.words.drop 2) s = w) :
    bulkEntry (requestTaken port m 18) x s = if w.result.code ≤ 1 then
        replied port m 18 w.result.code (word (x.next + 1) :: word (x.remaining - 1) :: w.data)
          (w.state.setCursor (some x.advanced))
      else replied port m 18 w.result.code w.data w.state := by
  have contents : (requestTaken port m 18).contents = m.words.drop 2 := by
    simp [Request.contents, Request.params, requestTaken]
  unfold bulkEntry
  dsimp only
  rw [params_taken, contents, wrote]
  by_cases accepted : w.result.accepts = true
  · rw [if_pos accepted, if_pos ((accepts_iff _).1 accepted)]
    rfl
  · rw [if_neg accepted, if_neg (mt (accepts_iff _).2 accepted)]
    rfl

/-- Settles O51: the ownership, the run and the position are checked in turn, and the entry that passes is
written as a TABLE WRITE of the cursor's table writes it. -/
theorem bulkDataWritesTheEntry : Obligations.BulkDataWritesTheEntry := by
  intro port m s addressed ring
  refine ⟨fun foreign here => ?unowned, fun x t cursor owner ht => ⟨?misplaced, ?placed, ?bin⟩⟩
  case unowned =>
    refine (bulkData_served addressed ring here rfl).trans (next_congr ?_)
    cases cursor : s.mgmt.cursor with
    | none => rfl
    | some x => exact if_neg (foreign x cursor)
  case misplaced =>
    intro misplaced here
    refine (bulkData_owned addressed ring cursor owner here).trans (next_congr ?_)
    rw [bulkStep_misplaced (by rwa [params_taken]), ht]
    rfl
  case placed =>
    intro left place sel here
    have table : tableOf (selectorOf (paramAt m 0)) = some x.table := by
      rw [sel]
      cases x.table <;> rfl
    have entitled : s.ringOfMessage m ≤ x.table.ring := by
      rw [ringNeeded_bulkData, State.cursorTable, cursor] at ring
      exact ring
    subst ht
    have wrote := tableWrite_served (port := port) (s := s.setCursor (some { x with idle := 0 })) addressed table
      entitled here _ rfl
    refine ⟨_, _, _, wrote,
      (bulkData_owned addressed ring cursor owner here).trans (next_congr ?_)⟩
    rw [bulkStep_placed left (by rwa [params_taken]), bulkEntry_taken rfl]
    rfl
  case bin =>
    intro n y kind left next place act words parsed absent
    have here : firstMissing (writeLayout (some x.table) (m.words.drop 1)) (m.words.length - 1) 1 = none := by
      rw [kind]
      exact firstMissing_define words
    have fresh : ({ x with idle := 0 } : Cursor) = ⟨x.owner, .bin, num n, x.remaining, 0⟩ := by rw [← kind, ← next]
    have wrote := (writeEntry_defineBin place act parsed).trans
      (writeBin_first (s := s.setCursor (some ⟨x.owner, .bin, num n, x.remaining, 0⟩)) absent y)
    refine (bulkData_owned addressed ring cursor owner here).trans (next_congr ?_)
    rw [bulkStep_placed left (by rw [params_taken, place, next]), fresh,
      bulkEntry_taken (x := ⟨x.owner, .bin, num n, x.remaining, 0⟩) wrote]
    rfl

end Sys2Proof.Machine
end

