-- ==== Sys2Proof/Proofs/RouteWalks.lean ====
section
/-!
PROOFS. The route walk gives a belt list exactly where the belts lead (R10).
-/

namespace Sys2Proof.Machine

/-- The diverters that the outlet of a belt names (R10). -/
def State.met (s : State) (b : BeltIx) : List DiverterIx :=
  match s.beltData b with
  | none => []
  | some d =>
    match d.outlet with
    | .diverter x => [x]
    | _ => []

/-- The walk after it has left a belt by an outlet (R10). -/
def continueWalk (s : State) (settings : List Setting) (n : Nat) (seen : List BeltIx) (visited : List DiverterIx) :
    Outlet → Option Walk
  | .bin k => some ⟨seen, visited, k⟩
  | .belt c => walkFrom s settings n c seen visited
  | .diverter _ => none

/-- The belts lead along a list, to a bin at its end (R10). -/
def State.follows (s : State) (settings : List Setting) (k : BinIx) : List BeltIx → Prop
  | [] => False
  | [b] => s.leadsTo settings b (.bin k)
  | b :: c :: rest => s.leadsTo settings b (.belt c) ∧ s.follows settings k (c :: rest)

theorem met_iff {s : State} {b : BeltIx} {x : DiverterIx} :
    x ∈ s.met b ↔ ∃ d ∈ s.beltData b, d.outlet = .diverter x := by
  unfold State.met
  cases s.beltData b with
  | none => simp
  | some d => cases h : d.outlet <;> simp [h, eq_comm]

section
variable {s : State} {settings : List Setting}

/-- Of settings for different diverters, the one listed for a diverter is the one found (R10). -/
theorem setting_found (once : (settings.map (·.diverter)).Nodup) {y : Setting} (listed : y ∈ settings) :
    settings.find? (fun z => z.diverter == y.diverter) = some y := by
  obtain ⟨z, found⟩ : ∃ z, settings.find? (fun z => z.diverter == y.diverter) = some z :=
    Option.isSome_iff_exists.1 (List.find?_isSome.2 ⟨y, listed, beq_self_eq_true _⟩)
  have same : z.diverter = y.diverter := by simpa using List.find?_some found
  rw [found, List.inj_on_of_nodup_map once (List.mem_of_find?_eq_some found) listed same]

/-- The walk goes on by the outlet to which a belt leads (R10). -/
theorem walkFrom_leads (once : (settings.map (·.diverter)).Nodup) {b : BeltIx} {out : Outlet}
    (leads : s.leadsTo settings b out) (n : Nat) {seen : List BeltIx} (new : b ∉ seen) (visited : List DiverterIx) :
    walkFrom s settings (n + 1) b seen visited = continueWalk s settings n (seen ++ [b]) (s.met b ++ visited) out := by
  obtain ⟨d, data, straight, way⟩ := leads
  have unseen : seen.contains b = false := by simpa using new
  have data : s.beltData b = some d := data
  rcases way with own | ⟨y, listed, names, e, diverter, at_⟩
  · simp only [walkFrom, State.met, data, unseen, own]
    cases out with
    | bin k => rfl
    | belt c => rfl
    | diverter x => exact absurd rfl (straight x)
  · have diverter : s.diverterData y.diverter = some e := diverter
    simp only [walkFrom, State.met, data, unseen, names, diverter, setting_found once listed, at_]
    cases out with
    | bin k => rfl
    | belt c => rfl
    | diverter x => exact absurd rfl (straight x)

/-- A walk that does not fail leaves its belt, new to it, by an outlet to which the belt leads (R10). -/
theorem walkFrom_left {n : Nat} {b : BeltIx} {seen : List BeltIx} {visited : List DiverterIx} {w : Walk}
    (walked : walkFrom s settings (n + 1) b seen visited = some w) :
    b ∉ seen ∧ ∃ out, s.leadsTo settings b out
      ∧ continueWalk s settings n (seen ++ [b]) (s.met b ++ visited) out = some w := by
  unfold walkFrom at walked
  unfold State.met
  cases data : s.beltData b with
  | none => rw [data] at walked; cases walked
  | some d =>
    rw [data] at walked
    dsimp only at walked ⊢
    split at walked
    · cases walked
    next new =>
      refine ⟨by simpa using new, ?_⟩
      cases own : d.outlet with
      | bin k =>
        rw [own] at walked
        exact ⟨.bin k, ⟨d, data, by simp, .inl own⟩, walked⟩
      | belt c =>
        rw [own] at walked
        exact ⟨.belt c, ⟨d, data, by simp, .inl own⟩, walked⟩
      | diverter x =>
        rw [own] at walked
        dsimp only at walked
        split at walked
        next e y diverter found =>
          obtain rfl : y.diverter = x := by simpa using List.find?_some found
          have listed := List.mem_of_find?_eq_some found
          split at walked
          next k at_ => exact ⟨.bin k, ⟨d, data, by simp, .inr ⟨y, listed, own, e, diverter, at_⟩⟩, walked⟩
          next c at_ => exact ⟨.belt c, ⟨d, data, by simp, .inr ⟨y, listed, own, e, diverter, at_⟩⟩, walked⟩
          · cases walked
        · cases walked

/-- A walk of so many belts at most gives a list along which the belts lead, each once (R10). -/
theorem walkFrom_iff (once : (settings.map (·.diverter)).Nodup) (w : Walk) : ∀ (n : Nat) (b : BeltIx)
    (seen : List BeltIx) (visited : List DiverterIx), walkFrom s settings n b seen visited = some w ↔
      ∃ rest, s.follows settings w.bin (b :: rest) ∧ (b :: rest).length ≤ n ∧ (b :: rest).Nodup
        ∧ (∀ y ∈ b :: rest, y ∉ seen) ∧ w.belts = seen ++ b :: rest
        ∧ w.diverters = (b :: rest).foldl (fun v y => s.met y ++ v) visited
  | 0, b, seen, visited => by
    constructor
    · intro walked
      cases walked
    · rintro ⟨rest, _, short, _⟩
      simp at short
  | n + 1, b, seen, visited => by
    constructor
    · intro walked
      obtain ⟨new, out, leads, on⟩ := walkFrom_left walked
      cases out with
      | bin k =>
        cases on
        exact ⟨[], leads, by simp, List.nodup_singleton b, by simpa using new, rfl, rfl⟩
      | belt c =>
        obtain ⟨rest, follows, short, nodup, unseen, belts, met⟩ := (walkFrom_iff once w n c _ _).1 on
        simp only [List.mem_append, List.mem_singleton, not_or] at unseen
        refine ⟨c :: rest, ⟨leads, follows⟩, by simpa using short, List.nodup_cons.2 ⟨fun again =>
          (unseen b again).2 rfl, nodup⟩, List.forall_mem_cons.2 ⟨new, fun y hy => (unseen y hy).1⟩, ?_, met⟩
        rw [belts, List.append_assoc, List.singleton_append]
      | diverter x => cases on
    · rintro ⟨rest, follows, short, nodup, unseen, belts, met⟩
      have new : b ∉ seen := unseen b List.mem_cons_self
      cases rest with
      | nil =>
        rw [walkFrom_leads once follows n new]
        obtain ⟨l, v, k⟩ := w
        cases belts
        cases met
        rfl
      | cons c rest =>
        obtain ⟨leads, follows⟩ := follows
        rw [walkFrom_leads once leads n new]
        refine (walkFrom_iff once w n c _ _).2 ⟨rest, follows, by simpa using short, (List.nodup_cons.1 nodup).2,
          fun y hy => ?_, ?_, met⟩
        · rw [List.mem_append, List.mem_singleton, not_or]
          refine ⟨unseen y (List.mem_cons_of_mem b hy), ?_⟩
          rintro rfl
          exact (List.nodup_cons.1 nodup).1 hy
        · rw [belts, List.append_assoc, List.singleton_append]

theorem mem_foldl_met (x : DiverterIx) : ∀ (l : List BeltIx) (visited : List DiverterIx),
    x ∈ l.foldl (fun v y => s.met y ++ v) visited ↔ x ∈ visited ∨ ∃ b ∈ l, x ∈ s.met b
  | [], visited => by simp
  | b :: l, visited => by
    rw [List.foldl_cons, mem_foldl_met x l, List.mem_append]
    simp only [List.mem_cons, exists_eq_or_imp]
    tauto

/-- The belts lead along a list exactly where each leads to the next and the last to the bin (R10). -/
theorem follows_iff (k : BinIx) : ∀ l : List BeltIx, s.follows settings k l ↔ l ≠ []
    ∧ (∀ i b c, l[i]? = some b → l[i + 1]? = some c → s.leadsTo settings b (.belt c))
    ∧ ∀ b, l.getLast? = some b → s.leadsTo settings b (.bin k)
  | [] => by simp [State.follows]
  | [b] => by simp [State.follows]
  | b :: c :: rest => by
    rw [State.follows, follows_iff k (c :: rest)]
    constructor
    · rintro ⟨leads, _, along, last⟩
      refine ⟨by simp, fun i x y hx hy => ?_, fun x hx => last x (by simpa using hx)⟩
      cases i with
      | zero =>
        cases hx
        cases hy
        exact leads
      | succ i => exact along i x y hx hy
    · rintro ⟨_, along, last⟩
      exact ⟨along 0 b c rfl rfl, by simp, fun i x y hx hy => along (i + 1) x y hx hy,
        fun x hx => last x (by simpa using hx)⟩

/-- A belt list is derived exactly where the walk has it and ends as the route says (R10). -/
theorem deriveBelts_iff (x : RouteWrite) (belts : List BeltIx) : s.deriveBelts x = some belts ↔
    ∃ w, walkFrom s x.settings 6 x.firstBelt [] [] = some w ∧ w.belts = belts ∧ w.bin = x.bin
      ∧ (s.tables.bins[x.bin]).isSome ∧ (s.unloaderStation x.unloader).isSome
      ∧ ∀ y ∈ x.settings, y.diverter ∈ w.diverters := by
  unfold State.deriveBelts
  rw [show Config.cascadeBelts = 6 from rfl]
  cases walkFrom s x.settings 6 x.firstBelt [] [] with
  | none => simp
  | some w =>
    simp only [List.all_eq_true, List.contains_iff_mem, Option.some.injEq, exists_eq_left']
    split
    next ends => exact ⟨fun list => ⟨Option.some.inj list, ends⟩, fun h => congrArg some h.1⟩
    next fails =>
      simp only [reduceCtorEq, false_iff]
      rintro ⟨_, bin, defined, unloader, met⟩
      exact fails ⟨bin, defined, unloader, met⟩

end

/-- Settles O38: the walk follows the belts, and the belts along a list are its walk. -/
theorem routeWalkFollowsTheBelts : Obligations.RouteWalkFollowsTheBelts := by
  intro s x belts once
  rw [deriveBelts_iff]
  simp only [walkFrom_iff once]
  constructor
  · rintro ⟨w, ⟨rest, follows, short, nodup, _, list, met⟩, rfl, bin, defined, unloader, listed⟩
    rw [List.nil_append] at list
    obtain ⟨_, along, last⟩ := (follows_iff _ _).1 follows
    rw [list]
    refine ⟨rfl, nodup, short, along, fun b hb => bin ▸ last b hb, defined, unloader, fun y hy => ?_⟩
    obtain ⟨b, hb, names⟩ := ((mem_foldl_met _ _ _).1 (met ▸ listed y hy)).resolve_left List.not_mem_nil
    exact ⟨b, hb, met_iff.1 names⟩
  · rintro ⟨head, nodup, short, along, last, defined, unloader, listed⟩
    obtain ⟨rest, rfl⟩ : ∃ rest, belts = x.firstBelt :: rest := by
      cases belts with
      | nil => cases head
      | cons b rest =>
        cases head
        exact ⟨rest, rfl⟩
    refine ⟨⟨x.firstBelt :: rest, (x.firstBelt :: rest).foldl (fun v y => s.met y ++ v) [], x.bin⟩,
      ⟨rest, (follows_iff _ _).2 ⟨by simp, along, last⟩, short, nodup, by simp, rfl, rfl⟩, rfl, rfl, defined, unloader,
      fun y hy => ?_⟩
    obtain ⟨b, hb, names⟩ := listed y hy
    exact (mem_foldl_met _ _ _).2 (.inr ⟨b, hb, met_iff.2 names⟩)

end Sys2Proof.Machine
end

