-- ==== Sys2Proof/Proofs/StationWrites.lean ====
section
/-!
PROOFS. The writes of the station table: when one is refused, and what a first definition, a rewrite, a deletion
and a change of the kind do to the other blocks (R7, R8, R102, R147, R150).
-/

namespace Sys2Proof.Machine

/-! ### The contents that a station needs, and when it is busy (R7, R161) -/

/-- The words of a write of a station, by the kind it names; none for kind NONE (R161). -/
def stationNeeds : Option StationKind → Nat
  | some (.unloader _ _) => 11
  | some (.belt _ _) => 9
  | some (.diverter _ _) => 5
  | some .supervisor => 4
  | some .panel => 4
  | none => 3

theorem parsePlain_entry {k : StationKind} {ws : List Word} {new : Option StationEntry}
    (parsed : parsePlain k ws = .ok new) : new.map (·.kind) = some k := by
  obtain ⟨_, _, parsed⟩ := bind_ok parsed
  obtain ⟨_, _, parsed⟩ := bind_ok parsed
  obtain ⟨_, _, parsed⟩ := bind_ok parsed
  cases parsed
  rfl

/-- The contents of a station take the words of its kind (R161). -/
theorem stationNeeds_eq {taken : Bool} {ws : List Word} {new : Option StationEntry}
    (parsed : parseStation taken ws = .ok new) :
    2 + ((contentsLayout .station ws).map (·.words)).sum = stationNeeds (new.map (·.kind)) := by
  rw [contentsLayout]
  unfold parseStation at parsed
  obtain ⟨_, _, parsed⟩ := bind_ok parsed
  split at parsed
  next kind =>
    obtain ⟨_, _, parsed⟩ := bind_ok parsed
    cases parsed
    rw [kind]
    rfl
  next kind =>
    obtain ⟨_, _, parsed⟩ := bind_ok parsed
    obtain ⟨_, _, parsed⟩ := bind_ok parsed
    obtain ⟨_, _, parsed⟩ := bind_ok parsed
    obtain ⟨_, _, parsed⟩ := bind_ok parsed
    cases parsed
    rw [kind]
    rfl
  next kind =>
    obtain ⟨_, _, parsed⟩ := bind_ok parsed
    obtain ⟨_, _, parsed⟩ := bind_ok parsed
    obtain ⟨_, _, parsed⟩ := bind_ok parsed
    obtain ⟨_, _, parsed⟩ := bind_ok parsed
    cases parsed
    rw [kind]
    rfl
  next kind =>
    obtain ⟨_, _, parsed⟩ := bind_ok parsed
    obtain ⟨_, _, parsed⟩ := bind_ok parsed
    obtain ⟨_, _, parsed⟩ := bind_ok parsed
    obtain ⟨_, _, parsed⟩ := bind_ok parsed
    cases parsed
    rw [kind]
    rfl
  next kind =>
    rw [parsePlain_entry parsed, kind]
    rfl
  next kind =>
    rw [parsePlain_entry parsed, kind]
    rfl
  · cases parsed

theorem stationBusy_iff (s : State) (a : Addr) : s.stationBusy a = true ↔
    ∃ e ∈ s.tables.stations[a], ∃ k d, e.kind = .diverter k d ∧ ∃ r ∈ s.seg.diverters[k], r.pending ≠ none := by
  unfold State.stationBusy
  cases s.tables.stations[a] with
  | none => simp
  | some e =>
    dsimp only
    cases kind : e.kind with
    | diverter k d =>
      have held (r : Option DiverterRecord) : r.any (fun r => r.pending.isSome) = true ↔
          ∃ x ∈ r, x.pending ≠ none := by
        cases r <;> simp [Option.isSome_iff_ne_none]
      simp only [held, Option.mem_def, Option.some.injEq, exists_eq_left', kind, StationKind.diverter.injEq]
      exact ⟨fun h => ⟨k, d, ⟨rfl, rfl⟩, h⟩, fun ⟨_, _, ⟨same, _⟩, h⟩ => same ▸ h⟩
    | _ => simp [kind]

/-- The write of a station that a TABLE WRITE gives: a deletion, or a DEFINE with its contents (R1). -/
def writesStation (s : State) (m : Message) (a : Addr) (new : Option StationEntry) : Prop :=
  actionOf (paramAt m 0) = 2 ∧ new = none ∧ 2 ≤ m.words.length
    ∨ actionOf (paramAt m 0) = 1 ∧ parseStation (s.addressTaken a) (m.words.drop 2) = .ok new
      ∧ stationNeeds (new.map (·.kind)) ≤ m.words.length

theorem writeEntry_station {a : Addr} {index action : Nat} {ws : List Word} {new : Option StationEntry} {s : State}
    (ix : index = a.val) (write : action = 2 ∧ new = none ∨ action = 1 ∧ parseStation (s.addressTaken a) ws = .ok new) :
    writeEntry .station index action ws s = writeStation a new s := by
  subst ix
  rcases write with ⟨rfl, rfl⟩ | ⟨rfl, parsed⟩
  · exact dif_pos a.isLt
  · refine (dif_pos a.isLt).trans ?_
    rw [if_pos rfl]
    show parsedWrite (parseStation (s.addressTaken a) ws) (writeStation a) s = _
    rw [parsed]
    rfl

/-- A TABLE WRITE of a station, with the ring and the words it needs, is answered as its write comes out (R1). -/
theorem stationWrite_served {port : Port} {m : Message} {s : State} {a : Addr} {new : Option StationEntry}
    (addressed : s.addressed m) (ring : s.ringOfMessage m = 0) (sel : selectorOf (paramAt m 0) = 1)
    (ix : indexOf (paramAt m 0) = a.val) (write : writesStation s m a new) {w : Written}
    (wrote : writeStation a new s = w) :
    exec (.tableWrite port m) s = .next (replied port m 3 w.result.code w.data w.state) := by
  have table : tableOf (selectorOf (paramAt m 0)) = some .station := by rw [sel]; rfl
  have entitled : s.ringOfMessage m ≤ Table.ring .station := by rw [ring]; exact Nat.zero_le _
  rcases write with ⟨act, gone, words⟩ | ⟨act, parsed, words⟩
  · exact tableWrite_served addressed table entitled (firstMissing_delete act words) _
      ((writeEntry_station ix (.inl ⟨act, gone⟩)).trans wrote)
  · rw [← stationNeeds_eq parsed] at words
    exact tableWrite_served addressed table entitled (firstMissing_define words) _
      ((writeEntry_station ix (.inr ⟨act, parsed⟩)).trans wrote)

section
variable {s : State} {a : Addr} {new : Option StationEntry}

theorem writeStation_nothing (absent : s.tables.stations[a] = none) (gone : new = none) :
    writeStation a new s = refused .noEffect s := by
  rw [writeStation, absent, gone]
  rfl

/-- A write that does something is refused where it meets use, then where a diverter is busy (R7). -/
theorem writeStation_effect (effect : s.tables.stations[a] ≠ none ∨ new ≠ none) : writeStation a new s =
    if s.stationInUse a new then refused .inUse s
    else if s.stationBusy a then refused .busy s
    else written (storeStation a new s) := by
  refine if_neg ?_
  rw [Bool.and_eq_true, Option.isNone_iff_eq_none, Option.isNone_iff_eq_none]
  rintro ⟨absent, gone⟩
  exact effect.elim (fun h => h absent) fun h => h gone

theorem storeStation_first {e : StationEntry} (absent : s.tables.stations[a] = none) :
    storeStation a (some e) s = defineStation a e (s.setStation a (some e)) := by
  unfold storeStation
  dsimp only
  rw [absent]

theorem storeStation_gone {x : StationEntry} (entry : s.tables.stations[a] = some x) :
    storeStation a none s = deleteStation s a x.kind (s.setStation a none) := by
  unfold storeStation
  dsimp only
  rw [entry]

theorem storeStation_same {x y : StationEntry} (entry : s.tables.stations[a] = some x)
    (same : x.kind.sameIndex y.kind = true) :
    storeStation a (some y) s = rewriteStation s a x y (s.setStation a (some y)) := by
  unfold storeStation
  dsimp only
  rw [entry]
  exact if_pos same

theorem storeStation_other {x y : StationEntry} (entry : s.tables.stations[a] = some x)
    (other : x.kind.sameIndex y.kind = false) :
    storeStation a (some y) s = defineStation a y (deleteStation s a x.kind (s.setStation a (some y))) := by
  unfold storeStation
  dsimp only
  rw [entry]
  exact if_neg (by simp [other])

end

/-! ### The head clear report of a write (R95, R102) -/

theorem beltHeadClear_iff (s : State) (b : BeltIx) :
    s.beltHeadClear b = true ↔ ∀ r ∈ s.tracker.belts[b], ∀ z ∈ r.queue, z.stage = .travelling := by
  unfold State.beltHeadClear
  cases s.tracker.belts[b] <;> simp

theorem reportHead_now {out : Outlet} {n : DiverterIx} (names : out = .diverter n) (s : State) :
    reportHead out false true s = headClearReport n s := by
  rw [names]
  rfl

theorem reportHead_stays {out : Outlet} {before : Bool} (h : (∀ n, out ≠ .diverter n) ∨ before = true) (after : Bool)
    (s : State) : reportHead out before after s = s := by
  unfold reportHead
  split
  next n =>
    rw [h.resolve_left fun no => no n rfl]
    rfl
  · rfl

/-! ### A rewrite (R8, R102, R150) -/

theorem rewritten_eq (w : WatchRecord) (limit : Nat) : w.rewritten limit =
    { w with
      state := if limit = 0 then .unwatched else if w.state = .unwatched then .heard else w.state
      timer := if limit = 0 then none else some limit } := by
  unfold WatchRecord.rewritten
  split <;> rfl

theorem rewriteStation_belt {old s : State} {a : Addr} {x y : StationEntry} {b : BeltIx} {d d' : BeltData}
    (kind : x.kind = .belt b d) (after : y.kind = .belt b d') : rewriteStation old a x y s =
      rewriteBelt b d.outlet d'.outlet (old.beltHeadClear b)
        (s.setWatch a (s.watch[a].map fun w => w.rewritten y.silenceLimit)) := by
  unfold rewriteStation
  rw [kind, after]

theorem rewriteStation_plain {old s : State} {a : Addr} {x y : StationEntry} (other : ∀ b d, x.kind ≠ .belt b d) :
    rewriteStation old a x y s = s.setWatch a (s.watch[a].map fun w => w.rewritten y.silenceLimit) := by
  unfold rewriteStation
  dsimp only
  split
  next b d _ _ kind _ => exact absurd kind (other b d)
  · rfl

/-- A belt whose rewrite leaves its outlet, or whose head was clear, only enters UNSURE (R102). -/
theorem rewriteBelt_quiet {b : BeltIx} {old new : Outlet} {before : Bool}
    (quiet : ∀ n, old = .diverter n → new = .diverter n ∨ before = true) (s : State) :
    rewriteBelt b old new before s = enterUnsure b s := by
  unfold rewriteBelt
  dsimp only
  split
  · rfl
  next changed =>
    refine reportHead_stays ?_ true _
    by_cases served : ∃ n, old = .diverter n
    · obtain ⟨n, names⟩ := served
      exact .inr ((quiet n names).resolve_left fun same => changed (names.trans same.symm))
    · exact .inl fun n names => served ⟨n, names⟩

theorem rewriteBelt_clears {b : BeltIx} {old new : Outlet} {n : DiverterIx} (names : old = .diverter n)
    (changed : new ≠ .diverter n) (s : State) :
    rewriteBelt b old new false s = headClearReport n (enterUnsure b s) := by
  unfold rewriteBelt
  dsimp only
  rw [if_neg (fun same => changed (same.symm.trans names)), reportHead_now names]

/-! ### A deletion (R8, R102) -/

section
variable {old s : State} {a : Addr} {i : UnloaderIx} {d : UnloaderData}

theorem deleteUnloader_shut (shut : s.tracker.sources[i] = none) : deleteStation old a (.unloader i d) s =
    (s.setWatch a none).setWeigher i { s.weighing.weighers[i] with lastCount := none, remainder := 0 } := by
  have shut : (s.setWatch a none).tracker.sources[i] = none := shut
  unfold deleteStation
  simp only [shut]
  rfl

theorem deleteUnloader_open {ref : SourceRef} (source : s.tracker.sources[i] = some ref) :
    deleteStation old a (.unloader i d) s =
      ((closeSource ref.belt ref.place (s.setWatch a none)).setSource i none).setWeigher i
        { s.weighing.weighers[i] with lastCount := none, remainder := 0 } := by
  have source : (s.setWatch a none).tracker.sources[i] = some ref := source
  unfold deleteStation
  simp only [source]
  have weighing : (closeSource ref.belt ref.place (s.setWatch a none)).weighing = s.weighing := by
    rw [closeSource_frame]
    rfl
  exact congrArg (fun w : Weighing =>
    ((closeSource ref.belt ref.place (s.setWatch a none)).setSource i none).setWeigher i
      { w.weighers[i] with lastCount := none, remainder := 0 }) weighing

end

/-! ### What a station's own records do not see (R8) -/

section
variable (a : Addr) (e : Option StationEntry) (s : State)

theorem closeSource_setStation (b : BeltIx) (p : Place) :
    closeSource b p (s.setStation a e) = (closeSource b p s).setStation a e := by
  unfold closeSource
  show (match s.tracker.belts[b] with | none => _ | some r => _) = _
  cases s.tracker.belts[b] <;> rfl

theorem closeAll_setStation : ∀ (q : List Slug) (s : State),
    q.foldl (fun t y => closeHandOver y.handOver t) (s.setStation a e) =
      (q.foldl (fun t y => closeHandOver y.handOver t) s).setStation a e
  | [], _ => rfl
  | y :: q, s => by
    have closed : closeHandOver y.handOver (s.setStation a e) = (closeHandOver y.handOver s).setStation a e := by
      cases y.handOver with
      | belt n p => exact closeSource_setStation a e s n p
      | _ => rfl
    rw [List.foldl_cons, List.foldl_cons, closed, closeAll_setStation q]

theorem closeDownstream_setStation (b : BeltIx) :
    closeDownstream b (s.setStation a e) = (closeDownstream b s).setStation a e := by
  unfold closeDownstream
  show (match s.tracker.belts[b] with | none => _ | some r => _) = _
  cases s.tracker.belts[b] with
  | none => rfl
  | some r => exact closeAll_setStation a e r.queue s

theorem joinEgress_setStation (q : Queued) : joinEgress q (s.setStation a e) = (joinEgress q s).setStation a e := by
  unfold joinEgress
  show (if s.path.egressA.length < Config.egressPlaces then _ else _) = _
  split
  · rfl
  · cases q.takesForce <;> rfl

theorem joinForward_setStation (q : Queued) : joinForward q (s.setStation a e) = (joinForward q s).setStation a e := by
  unfold joinForward
  show (if s.forwardHasPlace then _ else _) = _
  split
  · rfl
  · cases q.takesForce <;> rfl

theorem headClearReport_setStation (d : DiverterIx) :
    headClearReport d (s.setStation a e) = (headClearReport d s).setStation a e := by
  cases record : s.seg.diverters[d] with
  | none =>
    have nothing (t : State) (same : t.seg = s.seg) : headClearReport d t = t := by
      rw [headClearReport, same, record]
    rw [nothing s rfl, nothing (s.setStation a e) rfl]
  | some r =>
    cases held : r.pending with
    | none => rw [headClearReport_nothing (s := s.setStation a e) record held, headClearReport_nothing record held]
    | some t =>
      rw [headClearReport_pending (s := s.setStation a e) record held, headClearReport_pending record held]
      show (if s.divertConflict d t.divertPosition then _ else _) = _
      split
      · exact joinEgress_setStation a e (s.setDiverter d _) _
      · exact joinForward_setStation a e (s.setDiverter d _) _

theorem reportHead_setStation (out : Outlet) (before after : Bool) :
    reportHead out before after (s.setStation a e) = (reportHead out before after s).setStation a e := by
  cases out with
  | diverter n =>
    unfold reportHead
    dsimp only
    split
    · exact headClearReport_setStation a e s n
    · rfl
  | _ => rfl

/-- The deletion of a station does to the other blocks the same whatever the table holds (R8). -/
theorem deleteStation_setStation (old : State) (k : StationKind) :
    deleteStation old a k (s.setStation a e) = (deleteStation old a k s).setStation a e := by
  cases k with
  | unloader i d =>
    cases source : s.tracker.sources[i] with
    | none => rw [deleteUnloader_shut (s := s.setStation a e) source, deleteUnloader_shut source]; rfl
    | some ref =>
      rw [deleteUnloader_open (s := s.setStation a e) source, deleteUnloader_open source]
      exact congrArg (fun t : State => (t.setSource i none).setWeigher i
        { s.weighing.weighers[i] with lastCount := none, remainder := 0 })
          (closeSource_setStation a e (s.setWatch a none) ref.belt ref.place)
  | belt b d =>
    have dropped : dropSources b (closeDownstream b ((s.setWatch a none).setStation a e)) =
        (dropSources b (closeDownstream b (s.setWatch a none))).setStation a e := by
      rw [closeDownstream_setStation]
      rfl
    refine Eq.trans ?_ (reportHead_setStation a e _ d.outlet (old.beltHeadClear b) true)
    exact congrArg (fun t : State => reportHead d.outlet (old.beltHeadClear b) true (t.setBelt b none)) dropped
  | _ => rfl

end

/-! ### The writes of a station (R1, R7, R8) -/

/-- A rewrite that keeps the kind and the index keeps the watch record but for its state and its timer (R150). -/
theorem storeStation_sameIndex_kept {a : Addr} {y : StationEntry} {s : State} :
    (s.setStation a (some y)).setWatch a (s.watch[a].map fun w => w.rewritten y.silenceLimit) = { s with
      tables := { s.tables with stations := put s.tables.stations a (some y) }
      watch := put s.watch a (s.watch[a].map fun w =>
        { w with
          state := if y.silenceLimit = 0 then .unwatched else if w.state = .unwatched then .heard else w.state
          timer := if y.silenceLimit = 0 then none else some y.silenceLimit }) } := by
  simp only [rewritten_eq]
  rfl

/-- Settles O40: a write of a station turns on what it meets, and what it does on the stations before and after. -/
theorem stationIsDefined : Obligations.StationIsDefined := by
  refine ⟨?first, ?answer, ?rewrite, ?deletion, ?change⟩
  case first =>
    intro port m s a e addressed ring sel act ix parsed words absent unused
    have needs : stationNeeds ((some e).map (·.kind)) ≤ m.words.length := by
      obtain ⟨ceiling, limit, kind⟩ := e
      cases kind <;> exact words
    have busy : s.stationBusy a = false := by
      rw [State.stationBusy, absent]
    have wrote : writeStation a (some e) s = written (defineStation a e (s.setStation a (some e))) := by
      rw [writeStation_effect (.inr (by simp)), unused, busy, storeStation_first absent]
      rfl
    have keeps := defineStation_records a e (s.setStation a (some e))
    refine ⟨_, stationWrite_served addressed ring sel ix (.inr ⟨act, parsed, needs⟩) wrote, keeps .tables (by decide),
      sameBut_trans (sameBut_mono (sameBut_tables _) (by simp)) (sameBut_mono keeps (by simp)), ?_⟩
    obtain ⟨ceiling, limit, kind⟩ := e
    cases kind with
    | unloader i d =>
      refine ⟨?_, by simp, by simp, by simp, fun _ => rfl⟩
      rintro i d ⟨⟩
      exact ⟨rfl, rfl, rfl⟩
    | belt b d =>
      refine ⟨by simp, ?_, by simp, by simp, fun _ => rfl⟩
      rintro b d ⟨⟩
      exact ⟨rfl, rfl, rfl⟩
    | diverter k d =>
      refine ⟨by simp, by simp, ?_, by simp, fun _ => rfl⟩
      rintro k d ⟨⟩
      exact ⟨rfl, rfl, rfl⟩
    | supervisor => exact ⟨by simp, by simp, by simp, fun _ => rfl, fun record => absurd rfl (record _ rfl).1⟩
    | panel => exact ⟨by simp, by simp, by simp, fun _ => rfl, fun record => absurd rfl (record _ rfl).2⟩
  case answer =>
    intro port m s a new busy addressed ring sel ix write busyRule
    have writes : writesStation s m a new := by
      refine write.imp_right fun ⟨act, parsed, words⟩ => ⟨act, parsed, ?_⟩
      cases new with
      | none => exact words
      | some e =>
        obtain ⟨ceiling, limit, kind⟩ := e
        cases kind <;> exact words
    have inUse := stationInUse_iff s a new
    have isBusy : s.stationBusy a = true ↔ busy := (stationBusy_iff s a).trans busyRule.symm
    refine ⟨fun absent gone => ?_, fun effect => ⟨fun used => ?_, fun unused held => ?_, fun unused free => ?_⟩⟩
    · exact stationWrite_served addressed ring sel ix writes (writeStation_nothing absent gone)
    · exact stationWrite_served addressed ring sel ix writes
        ((writeStation_effect effect).trans (if_pos (inUse.2 used)))
    · exact stationWrite_served addressed ring sel ix writes
        ((writeStation_effect effect).trans ((if_neg (mt inUse.1 unused)).trans (if_pos (isBusy.2 held))))
    · exact stationWrite_served addressed ring sel ix writes
        ((writeStation_effect effect).trans ((if_neg (mt inUse.1 unused)).trans (if_neg (mt isBusy.1 free))))
  case rewrite =>
    intro s a x y kept entry same hk
    rw [hk, ← storeStation_sameIndex_kept, storeStation_same entry same]
    refine ⟨fun other => rewriteStation_plain other, fun b d d' kind after clear clearRule => ⟨?_, ?_⟩⟩
    · intro n names changed unclear
      rw [rewriteStation_belt kind after,
        Bool.eq_false_iff.2 (mt (beltHeadClear_iff s b).1 (mt clearRule.2 unclear))]
      exact rewriteBelt_clears names changed _
    · intro quiet
      rw [rewriteStation_belt kind after]
      exact rewriteBelt_quiet (fun n names => (quiet n names).imp_right fun c =>
        (beltHeadClear_iff s b).2 (clearRule.1 c)) _
  case deletion =>
    intro s a x gone entry hg
    subst hg
    rw [storeStation_gone entry]
    refine ⟨fun i d kind v opened shut => ?_, fun k d kind => ?_, fun kind => ?_, fun b d kind clear clearRule => ?_⟩
    · rw [kind]
      cases source : s.tracker.sources[i] with
      | none =>
        rw [shut source, deleteUnloader_shut (s := s.setStation a none) source]
        rfl
      | some ref =>
        rw [opened ref source, deleteUnloader_open (s := s.setStation a none) source]
        rfl
    · rw [kind]
      rfl
    · rcases kind with kind | kind <;> rw [kind] <;> rfl
    · rw [kind]
      refine ⟨(dropSources b (closeDownstream b ((s.setStation a none).setWatch a none))).setBelt b none, ?_,
        put_get_same _ _ _, sameBut_tracker ?_, fun n names unclear => ?_, fun quiet => ?_⟩
      · obtain ⟨sources, belts⟩ := letsGo_drop b ((s.setStation a none).setWatch a none)
        refine ⟨sources, fun c other => ?_⟩
        rw [State.setBelt_belts, put_get_other _ _ other]
        exact belts c other
      · rw [drop_frame]
        rfl
      · have before := Bool.eq_false_iff.2 (mt (beltHeadClear_iff s b).1 (mt clearRule.2 unclear))
        exact (congrArg (fun c => reportHead d.outlet c true _) before).trans (reportHead_now names _)
      · exact reportHead_stays (quiet.imp_right fun c => (beltHeadClear_iff s b).2 (clearRule.1 c)) true _
  case change =>
    intro s a x y entry other
    have vacant : (storeStation a none s).tables.stations[a] = none := by
      rw [storeStation_gone entry, deleteStation_setStation]
      exact put_get_same _ _ _
    have again : ((deleteStation s a x.kind s).setStation a none).setStation a (some y) =
        (deleteStation s a x.kind s).setStation a (some y) := by
      unfold State.setStation put
      simp
    rw [storeStation_other entry other, storeStation_first vacant, storeStation_gone entry, deleteStation_setStation,
      deleteStation_setStation, again]

end Sys2Proof.Machine
end

