-- ==== Sys2Proof/Proofs/Breaches.lean ====
section
/-!
PROOFS. A breach and its answer (R119, R120), and the arrivals at a bin and at a diverter (R115 to R117).
-/

namespace Sys2Proof.Machine

/-! ### The ending of a leg (R34) -/

/-- What the end of a leg may touch: the legs, the flags, the queues, and the user counts of the routes (R34). -/
def endsLegs (s t : State) : Prop :=
  sameBut [.legs, .notices, .path, .tables] s t ∧ t.tables = { s.tables with routes := t.tables.routes }

theorem endsLegs_refl (s : State) : endsLegs s s := ⟨sameBut_refl _ s, rfl⟩

theorem endsLegs_trans {s t u : State} (first : endsLegs s t) (second : endsLegs t u) : endsLegs s u := by
  obtain ⟨st, tables⟩ := first
  obtain ⟨tu, tables'⟩ := second
  refine ⟨sameBut_trans st tu, ?_⟩
  rw [tables', tables]

section
variable {s : State} {i : UnloaderIx}

/-- The state at the end of a leg, before its notice (R34). -/
def beforeNotice (i : UnloaderIx) (reason : EndReason) (s : State) : State :=
  releaseRoute s.legs[i].route
    (if 0 < s.legs[i].f then handGuard i 0 (s.setLeg i (s.legs[i].endedBy reason))
    else s.setLeg i (s.legs[i].endedBy reason))

theorem beforeNotice_frame (i : UnloaderIx) (reason : EndReason) (s : State) : beforeNotice i reason s = { s with
    legs := put s.legs i (s.legs[i].endedBy reason)
    path := (beforeNotice i reason s).path
    tables := { s.tables with routes := (beforeNotice i reason s).tables.routes } } := by
  unfold beforeNotice
  rw [releaseRoute_frame]
  split
  · rw [handGuard_frame]
    rfl
  · rfl

theorem endLeg_notice (active : s.legs[i].state = .active) (reason : EndReason) : endLeg i reason s =
    raiseFlag (.legEnded i) (num i) reason.code s.legs[i].noticeDisable (beforeNotice i reason s) :=
  endLeg_active active reason

theorem endLeg_inactive (inactive : s.legs[i].state ≠ .active) (reason : EndReason) : endLeg i reason s = s :=
  if_neg inactive

theorem endLeg_legs (active : s.legs[i].state = .active) (reason : EndReason) :
    (endLeg i reason s).legs = put s.legs i (s.legs[i].endedBy reason) := by
  rw [endLeg_notice active, raiseFlag_legs, beforeNotice_frame]

/-- The end of a leg sets the flag of its leg, and no other (R34). -/
theorem endLeg_flag (active : s.legs[i].state = .active) (reason : EndReason) (f : Flag) :
    (endLeg i reason s).notices.flags.get f = if f = .legEnded i then true else s.notices.flags.get f := by
  rw [endLeg_notice active]
  split
  next own =>
    rw [own]
    exact raiseFlag_get_same _ _ _ _ _
  next other =>
    rw [raiseFlag_get_other other, beforeNotice_frame]

theorem endLeg_endsLegs (i : UnloaderIx) (reason : EndReason) (s : State) : endsLegs s (endLeg i reason s) := by
  by_cases active : s.legs[i].state = .active
  · rw [endLeg_notice active]
    refine endsLegs_trans (t := beforeNotice i reason s) ⟨?_, ?_⟩
      ⟨sameBut_mono (raiseFlag_sameBut _ _ _ _ _) (by simp), ?_⟩
    · rw [beforeNotice_frame]
      intro p unlisted
      cases p with
      | legs | path | tables => simp at unlisted
      | _ => rfl
    · rw [beforeNotice_frame]
    · rw [raiseFlag_tables]
  · rw [endLeg_inactive active]
    exact endsLegs_refl s

end

/-! ### The legs that a breach ends (R120) -/

/-- A leg is ACTIVE and its belt list holds a belt (R120). -/
def State.runsOn (s : State) (b : BeltIx) (i : UnloaderIx) : Prop :=
  s.legs[i].state = .active ∧ s.legs[i].belts.contains b = true

/-- The leg of an index ends for a breach, where it runs on the belt (R120). -/
def endLegOn (b : BeltIx) (s : State) (i : UnloaderIx) : State :=
  if s.legs[i].belts.contains b then endLeg i .breach s else s

theorem endLegsOn_eq (b : BeltIx) (s : State) : endLegsOn b s = (allIx 6).foldl (endLegOn b) s := rfl

section
variable {s : State} {b : BeltIx} {i : UnloaderIx}

theorem endLegOn_stays (off : ¬ s.runsOn b i) : endLegOn b s i = s := by
  unfold endLegOn
  split
  next listed => exact endLeg_inactive (fun active => off ⟨active, listed⟩) .breach
  · rfl

theorem endLegOn_legs (on : s.runsOn b i) : (endLegOn b s i).legs = put s.legs i (s.legs[i].endedBy .breach) := by
  rw [endLegOn, if_pos on.2, endLeg_legs on.1]

theorem endLegOn_flag (on : s.runsOn b i) (f : Flag) : (endLegOn b s i).notices.flags.get f =
    if f = .legEnded i then true else s.notices.flags.get f := by
  rw [endLegOn, if_pos on.2, endLeg_flag on.1]

end

theorem endLegOn_endsLegs (b : BeltIx) (s : State) (i : UnloaderIx) : endsLegs s (endLegOn b s i) := by
  unfold endLegOn
  split
  · exact endLeg_endsLegs i .breach s
  · exact endsLegs_refl s

/-- A leg is as before where another one is taken, or where it does not run on the belt (R120). -/
theorem endLegOn_other {s : State} {b : BeltIx} {j i : UnloaderIx} (h : j ≠ i ∨ ¬ s.runsOn b i) :
    (endLegOn b s j).legs[i] = s.legs[i]
      ∧ (endLegOn b s j).notices.flags.get (.legEnded i) = s.notices.flags.get (.legEnded i) := by
  by_cases on : s.runsOn b j
  · have other : i ≠ j := fun same => (h.resolve_left (not_not_intro same.symm)) (same ▸ on)
    have flag : Flag.legEnded i ≠ .legEnded j := fun same => other (by injection same)
    rw [endLegOn_legs on, put_get_other _ _ other, endLegOn_flag on, if_neg flag]
    exact ⟨rfl, rfl⟩
  · rw [endLegOn_stays on]
    exact ⟨rfl, rfl⟩

section
variable {b : BeltIx} {i : UnloaderIx}

theorem endLegs_other : ∀ (l : List UnloaderIx) {s : State}, i ∉ l ∨ ¬ s.runsOn b i →
    (l.foldl (endLegOn b) s).legs[i] = s.legs[i]
      ∧ (l.foldl (endLegOn b) s).notices.flags.get (.legEnded i) = s.notices.flags.get (.legEnded i)
  | [], _, _ => ⟨rfl, rfl⟩
  | j :: l, s, h => by
    obtain ⟨leg, flag⟩ := endLegOn_other (s := s) (b := b) (j := j) (i := i)
      (h.imp_left fun absent same => absent (same ▸ List.mem_cons_self))
    obtain ⟨legs, flags⟩ := endLegs_other l (s := endLegOn b s j)
      (h.imp (fun absent listed => absent (List.mem_cons_of_mem j listed)) fun off on =>
        off (by rwa [State.runsOn, leg] at on))
    exact ⟨legs.trans leg, flags.trans flag⟩

theorem endLegs_ended (l : List UnloaderIx) {s : State} (listed : i ∈ l) (on : s.runsOn b i) :
    (l.foldl (endLegOn b) s).legs[i] = s.legs[i].endedBy .breach
      ∧ (l.foldl (endLegOn b) s).notices.flags.get (.legEnded i) = true := by
  induction l generalizing s with
  | nil => exact absurd listed List.not_mem_nil
  | cons j l ih =>
    rw [List.foldl_cons]
    by_cases same : i = j
    · subst same
      have leg : (endLegOn b s i).legs[i] = s.legs[i].endedBy .breach := by
        rw [endLegOn_legs on]
        exact put_get_same _ _ _
      have off : ¬ (endLegOn b s i).runsOn b i := by
        rw [State.runsOn, leg]
        simp [Leg.endedBy]
      obtain ⟨legs, flags⟩ := endLegs_other l (.inr off)
      exact ⟨legs.trans leg, flags.trans ((endLegOn_flag on _).trans (if_pos rfl))⟩
    · obtain ⟨leg, _⟩ := endLegOn_other (s := s) (b := b) (.inl (Ne.symm same))
      have still : (endLegOn b s j).runsOn b i := by rwa [State.runsOn, leg]
      obtain ⟨legs, flags⟩ := ih ((List.mem_cons.1 listed).resolve_left same) still
      exact ⟨legs.trans (congrArg (fun x : Leg => x.endedBy .breach) leg), flags⟩

end

theorem endLegs_endsLegs (b : BeltIx) : ∀ (l : List UnloaderIx) (s : State), endsLegs s (l.foldl (endLegOn b) s)
  | [], s => endsLegs_refl s
  | j :: l, s => endsLegs_trans (endLegOn_endsLegs b s j) (endLegs_endsLegs b l _)

theorem endLegs_breachFlag (b : BeltIx) : ∀ (l : List UnloaderIx) (s : State),
    (l.foldl (endLegOn b) s).notices.flags.get .breach = s.notices.flags.get .breach
  | [], _ => rfl
  | j :: l, s => by
    refine (endLegs_breachFlag b l _).trans ?_
    by_cases on : s.runsOn b j
    · rw [endLegOn_flag on, if_neg (by simp)]
    · rw [endLegOn_stays on]

/-! ### A breach (R119, R120) -/

section
variable (b : Breach) (s : State)

/-- A breach is recorded before it is answered (R119). -/
theorem recordBreach_sameBut : sameBut [.seg, .notices, .path] s (recordBreach b s) := by
  refine sameBut_trans (t := { s with seg := { s.seg with breach := some b, breachCount := _ } }) ?_
    (sameBut_mono (raiseFlag_sameBut _ _ _ _ _) (by simp))
  intro p unlisted
  cases p with
  | seg => simp at unlisted
  | _ => rfl

theorem recordBreach_legEnded (i : UnloaderIx) :
    (recordBreach b s).notices.flags.get (.legEnded i) = s.notices.flags.get (.legEnded i) :=
  raiseFlag_get_other (by simp) _ _ _ _

theorem raiseBreach_eq : raiseBreach b s = (allIx 6).foldl (endLegOn b.belt) (recordBreach b s) := rfl

theorem recordBreach_legs : (recordBreach b s).legs = s.legs := recordBreach_sameBut b s .legs (by decide)

theorem recordBreach_runsOn (c : BeltIx) (i : UnloaderIx) : (recordBreach b s).runsOn c i ↔ s.runsOn c i := by
  rw [State.runsOn, recordBreach_legs]
  exact Iff.rfl

theorem raiseBreach_seg : (raiseBreach b s).seg =
    { s.seg with breach := some b, breachCount := min (s.seg.breachCount + 1) 255 } := by
  obtain ⟨shared, _⟩ := endLegs_endsLegs b.belt (allIx 6) (recordBreach b s)
  refine (shared .seg (by decide)).trans ?_
  unfold recordBreach
  rw [raiseFlag_seg]
  rfl

theorem raiseBreach_tables : (raiseBreach b s).tables = { s.tables with routes := (raiseBreach b s).tables.routes } := by
  obtain ⟨_, tables⟩ := endLegs_endsLegs b.belt (allIx 6) (recordBreach b s)
  rw [← raiseBreach_eq, recordBreach_sameBut b s .tables (by decide)] at tables
  exact tables

theorem raiseBreach_sameBut : sameBut [.legs, .seg, .notices, .path, .tables] s (raiseBreach b s) :=
  sameBut_trans (sameBut_mono (recordBreach_sameBut b s) (by simp))
    (sameBut_mono (endLegs_endsLegs b.belt (allIx 6) (recordBreach b s)).1 (by simp))

theorem raiseBreach_bins : (raiseBreach b s).tables.bins = s.tables.bins := by rw [raiseBreach_tables]

theorem raiseBreach_beltStation (c : BeltIx) : (raiseBreach b s).beltStation c = s.beltStation c := by
  unfold State.beltStation State.findStation
  rw [raiseBreach_tables]

end

/-! ### An arrival at a bin (R117) -/

section
variable {n : BinIx} {b : BeltIx} {via : Option DiverterIx} {g : Grain} {s : State} {x : Bin}

theorem arriveAtBin_closed (entry : s.tables.bins[n] = some x) (closed : x.isOpen = false) :
    arriveAtBin n b via g s = raiseBreach ⟨.binMix, b, via, some n, g.lot,
      match x.lot with
      | some m => .lot m
      | none => .absent⟩ s := by
  simp only [arriveAtBin, entry, closed]
  rfl

theorem arriveAtBin_vacant (entry : s.tables.bins[n] = some x) (isOpen : x.isOpen = true) (vacant : x.lot = none) :
    arriveAtBin n b via g s = s.setBin n (some { x with lot := some g.lot }) := by
  simp only [arriveAtBin, entry, isOpen, vacant]
  rfl

theorem arriveAtBin_lot {m : LotIx} (entry : s.tables.bins[n] = some x) (isOpen : x.isOpen = true)
    (lot : x.lot = some m) : arriveAtBin n b via g s =
      if s.compatible m g.lot then s else raiseBreach ⟨.binMix, b, via, some n, g.lot, .lot m⟩ s := by
  simp only [arriveAtBin, entry, isOpen, lot]
  rfl

/-- An arrival leaves a bin its lot, or gives it the slug's where it is OPEN and has none (R117). -/
theorem arriveAtBin_bin (entry : s.tables.bins[n] = some x) : (arriveAtBin n b via g s).tables.bins[n] =
    some { x with lot := if x.isOpen = true ∧ x.lot = none then some g.lot else x.lot } := by
  by_cases isOpen : x.isOpen = true
  · cases lot : x.lot with
    | none =>
      rw [arriveAtBin_vacant entry isOpen lot, if_pos ⟨isOpen, rfl⟩]
      exact put_get_same _ _ _
    | some m =>
      have kept : s.tables.bins[n] = some { x with
          lot := if x.isOpen = true ∧ some m = none then some g.lot else some m } := by
        rw [entry, if_neg (by simp), ← lot]
      rw [arriveAtBin_lot entry isOpen lot]
      split
      · exact kept
      · exact (congrArg (fun bins : Vector (Option Bin) 48 => bins[n]) (raiseBreach_bins _ s)).trans kept
  · rw [arriveAtBin_closed entry (Bool.eq_false_iff.2 isOpen), raiseBreach_bins, entry,
      if_neg fun h => isOpen h.1]

end

/-! ### An arrival at a diverter (R115, R116) -/

section
variable {n : DiverterIx} {b : BeltIx} {g : Grain} {s : State} {e : DiverterData} {r : DiverterRecord}

theorem arriveAtDiverter_undefined (absent : s.diverterData n = none) :
    arriveAtDiverter n b g s = (raiseBreach ⟨.divert, b, some n, none, g.lot, .absent⟩ s, none) := by
  simp only [arriveAtDiverter, absent]

theorem arriveAtDiverter_unknown (data : s.diverterData n = some e) (record : s.seg.diverters[n] = some r)
    (unknown : r.position = none) :
    arriveAtDiverter n b g s = (raiseBreach ⟨.divert, b, some n, none, g.lot, .absent⟩ s, none) := by
  simp only [arriveAtDiverter, data, record, unknown]

section
variable {p : PositionIx} (data : s.diverterData n = some e) (record : s.seg.diverters[n] = some r)
  (position : r.position = some p)
include data record position

theorem arriveAtDiverter_outside (outside : e.outlets[p.val]? = none) :
    arriveAtDiverter n b g s = (raiseBreach ⟨.divert, b, some n, none, g.lot, .absent⟩ s, none) := by
  simp only [arriveAtDiverter, data, record, position, DiverterData.outletAt, outside]

theorem arriveAtDiverter_bin {m : BinIx} (out : e.outlets[p.val]? = some (.bin m)) {s1 : State}
    (step : s1 = if g.nextStep b = some (.bin m) then s
      else raiseBreach ⟨.divert, b, some n, some m, g.lot, .absent⟩ s) :
    arriveAtDiverter n b g s = if (s1.tables.bins[m]).isSome then (arriveAtBin m b (some n) g s1, some (.bin m))
      else (s1, none) := by
  rw [step]
  simp only [arriveAtDiverter, data, record, position, DiverterData.outletAt, out]

theorem arriveAtDiverter_belt {k : BeltIx} (out : e.outlets[p.val]? = some (.belt k)) {s1 : State}
    (step : s1 = if g.nextStep b = some (.belt k) then s
      else raiseBreach ⟨.divert, b, some n, none, g.lot, .absent⟩ s) :
    arriveAtDiverter n b g s = if (s1.beltStation k).isSome then (s1, some (.belt k)) else (s1, none) := by
  rw [step]
  simp only [arriveAtDiverter, data, record, position, DiverterData.outletAt, out]

end

/-- The state of grain that takes its next step, or strays from it (R116). -/
theorem nextStep_state {out : Outlet} {strayed s1 : State} (leads : g.leads b out → s1 = s)
    (strays : ¬ g.leads b out → s1 = strayed) : s1 = if g.nextStep b = some out then s else strayed := by
  split
  next step => exact leads ((nextStep_iff g b out).1 step)
  next other => exact strays (mt (nextStep_iff g b out).2 other)

end

/-- Settles O22: a breach ends the legs of its belt one by one, and the arrivals have an equation for each case. -/
theorem breachesAreAnswered : Obligations.BreachesAreAnswered := by
  refine ⟨fun b s => ⟨raiseBreach_seg b s, ?flag, fun i active listed => ?ended, fun i off => ?others,
    raiseBreach_sameBut b s, raiseBreach_tables b s⟩, fun n b via g s x entry => ⟨?_, ?_, ?_, ?_, ?_⟩,
    fun n b g s stray strays => ⟨fun absent => ?_, fun e r data record => ⟨fun unknown => ?_, fun p position outside => ?_,
      fun p m s1 position out leads strayed => ?bin, fun p k s1 position out leads strayed => ?belt⟩⟩⟩
  case flag =>
    rw [raiseBreach_eq, endLegs_breachFlag]
    exact raiseFlag_get_same _ _ _ _ _
  case ended =>
    rw [raiseBreach_eq]
    obtain ⟨leg, flag⟩ := endLegs_ended (allIx 6) (mem_allIx i) ((recordBreach_runsOn b s b.belt i).2 ⟨active, listed⟩)
    rw [recordBreach_legs] at leg
    exact ⟨leg, flag⟩
  case others =>
    rw [raiseBreach_eq]
    have stays : ¬ (recordBreach b s).runsOn b.belt i := by
      rw [recordBreach_runsOn]
      rintro ⟨active, listed⟩
      exact off.elim (fun h => h active) fun h => Bool.false_ne_true (h.symm.trans listed)
    obtain ⟨leg, flag⟩ := endLegs_other (allIx 6) (.inr stays)
    rw [recordBreach_legs] at leg
    exact ⟨leg, flag.trans (recordBreach_legEnded b s i)⟩
  · exact fun closed => arriveAtBin_closed entry closed
  · exact fun isOpen vacant => arriveAtBin_vacant entry isOpen vacant
  · exact fun m isOpen lot same => (arriveAtBin_lot entry isOpen lot).trans (if_pos same)
  · exact fun m isOpen lot other => (arriveAtBin_lot entry isOpen lot).trans (if_neg (by simp [other]))
  · exact arriveAtBin_bin entry
  · rw [strays]
    exact arriveAtDiverter_undefined absent
  · rw [strays]
    exact arriveAtDiverter_unknown data record unknown
  · rw [strays]
    exact arriveAtDiverter_outside data record position outside
  case bin =>
    rw [strays] at strayed
    have step := nextStep_state leads strayed
    have bins : s1.tables.bins = s.tables.bins := by
      rw [step]
      split
      · rfl
      · exact raiseBreach_bins _ s
    have arrives := arriveAtDiverter_bin (b := b) (g := g) data record position out step
    rw [bins] at arrives
    exact ⟨fun defined => arrives.trans (if_pos defined), fun absent => arrives.trans (if_neg (by simp [absent]))⟩
  case belt =>
    rw [strays] at strayed
    have step := nextStep_state leads strayed
    have station : s1.beltStation k = s.beltStation k := by
      rw [step]
      split
      · rfl
      · exact raiseBreach_beltStation _ s k
    have arrives := arriveAtDiverter_belt (b := b) (g := g) data record position out step
    rw [station] at arrives
    exact ⟨fun defined => arrives.trans (if_pos defined), fun absent => arrives.trans (if_neg (by simp [absent]))⟩

end Sys2Proof.Machine
end

