-- ==== Sys2Proof/Proofs/TrackerSources.lean ====
section
/-!
PROOFS. An unloader's source opens and closes (R84 to R89).
-/

namespace Sys2Proof.Machine

/-! ### Closing (R89) -/

/-- A slug of a queue after a source at a place has closed (R89). -/
theorem lessOne_eq (y : Slug) (p : Place) (position : Mark) : (if y.place = p then y.lessOne position else y) =
    if y.place = p ∧ y.sources ≠ 0 then
      { y with
        sources := y.sources - 1
        rear := if y.sources = 1 then some position else y.rear }
    else y := by
  unfold Slug.lessOne
  by_cases own : y.place = p
  · by_cases none : y.sources = 0
    · simp [own, none]
    · by_cases last : y.sources = 1 <;> simp [own, none, last]
  · simp [own]

/-- A source that closes on a belt changes the slug that it feeds (R89). -/
theorem closeSource_eq {b : BeltIx} {r : BeltRecord} {s : State} (record : s.tracker.belts[b] = some r) (p : Place) :
    closeSource b p s = s.setBelt b (some { r with queue := r.queue.map fun y =>
      if y.place = p ∧ y.sources ≠ 0 then
        { y with
          sources := y.sources - 1
          rear := if y.sources = 1 then some r.position else y.rear }
      else y }) := by
  simp only [closeSource, record, mapSlug, lessOne_eq]

theorem closeSource_absent {b : BeltIx} {s : State} (absent : s.tracker.belts[b] = none) (p : Place) :
    closeSource b p s = s := by
  rw [closeSource, absent]

/-! ### An unloader's feed actual (R84, R85) -/

section
variable {i : UnloaderIx} {d : UnloaderData} {feed : Nat} {s : State}

theorem readFeed_closes {ref : SourceRef} (source : s.tracker.sources[i] = some ref) (low : feed < d.flowThreshold) :
    readFeed i d feed s = (closeSource ref.belt ref.place s).setSource i none := by
  simp only [readFeed, source, if_pos low]

theorem readFeed_flows {ref : SourceRef} (source : s.tracker.sources[i] = some ref) (high : d.flowThreshold ≤ feed) :
    readFeed i d feed s = s := by
  simp only [readFeed, source, if_neg (Nat.not_lt.2 high)]

theorem readFeed_quiet (source : s.tracker.sources[i] = none)
    (quiet : feed < d.flowThreshold ∨ s.legs[i].state = .idle) : readFeed i d feed s = s := by
  unfold readFeed
  rw [source]
  refine if_neg ?_
  rintro ⟨high, working⟩
  exact quiet.elim (fun low => absurd high (Nat.not_le.2 low)) working

theorem readFeed_opens {g : Grain} {b : BeltIx} {rest : List BeltIx} (source : s.tracker.sources[i] = none)
    (high : d.flowThreshold ≤ feed) (working : s.legs[i].state ≠ .idle) (grain : s.legs[i].grain = some g)
    (belts : s.legs[i].belts = b :: rest) (defined : (s.beltStation b).isSome) : readFeed i d feed s =
      (openSource b g s).state.setSource i ((openSource b g s).place.map fun p => ⟨b, p⟩) := by
  unfold readFeed
  rw [source]
  refine (if_pos ⟨high, working⟩).trans ?_
  simp only [grain, belts, List.head?_cons, if_pos defined]

end

/-! ### Opening (R86 to R88) -/

section
variable {b : BeltIx} {g : Grain} {s : State} {x : BeltData} {r : BeltRecord}

theorem openSource_joins {y : Slug} (data : s.beltData b = some x) (record : s.tracker.belts[b] = some r)
    (places : (r.queue.map (·.place)).Nodup) (youngest : r.queue.getLast? = some y) (joins : s.joins x r g y = true) :
    openSource b g s = ⟨s.setBelt b (some { r with queue := r.queue.dropLast ++ [y.plusOne] }), some y.place, []⟩ := by
  simp only [openSource, data, record, youngest, if_pos joins, mapSlug_last places youngest]

theorem openSource_appends (data : s.beltData b = some x) (record : s.tracker.belts[b] = some r)
    (other : ∀ y, r.queue.getLast? = some y → ¬ s.joins x r g y = true) : openSource b g s = appendSource x r b g s := by
  cases youngest : r.queue.getLast? with
  | none => simp only [openSource, data, record, youngest]
  | some y => simp only [openSource, data, record, youngest, if_neg (other y youngest)]

/-- The GAP test, by what the youngest slug is (R87). -/
theorem gapTest_eq {s1 : State}
    (youngest : ∀ y, r.queue.getLast? = some y →
      (¬ s.goesWith y g.lot g.bin → y.near x r.position → s1 = raiseBreach (gapBreach b g y) s)
      ∧ (s.goesWith y g.lot g.bin ∨ ¬ y.near x r.position → s1 = s))
    (empty : r.queue = [] → s1 = s) : gapTest x r b g s = s1 := by
  unfold gapTest State.gapBlocker
  cases last : r.queue.getLast? with
  | none => exact (empty (List.getLast?_eq_none_iff.1 last)).symm
  | some y =>
    obtain ⟨breaches, passes⟩ := youngest y last
    have blocks : (s.incompatibleSlug y g.lot g.bin && nearLoading x r y) = true ↔
        ¬ s.goesWith y g.lot g.bin ∧ y.near x r.position := by
      rw [Bool.and_eq_true, incompatibleSlug_iff, nearLoading_iff]
    by_cases blocked : ¬ s.goesWith y g.lot g.bin ∧ y.near x r.position
    · simp only [if_pos (blocks.2 blocked)]
      exact (breaches blocked.1 blocked.2).symm
    · simp only [if_neg (mt blocks.1 blocked)]
      refine (passes ?_).symm
      rwa [not_and_or, not_not] at blocked

/-- An opening that has a place appends a slug (R87). -/
theorem appendSource_room {s1 : State} (gap : gapTest x r b g s = s1) (room : r.queue.length < 6) :
    appendSource x r b g s = ⟨s1.setBelt b (some { r with queue := r.queue ++
      [{ place := freePlace r.queue, grain := some g, front := r.position, rear := none, sources := 1
         stage := if x.length = 0 then .crossing else if x.length ≤ x.guardLength then .approaching
           else .travelling
         handOver := .absent }] }), some (freePlace r.queue), []⟩ := by
  have stage : stageAt x 0 = if x.length = 0 then .crossing else if x.length ≤ x.guardLength then .approaching
      else .travelling := by
    simp only [stageAt, Nat.le_zero, Nat.sub_eq_zero_iff_le]
  rw [← stage]
  unfold appendSource
  rw [gap]
  exact if_pos room

/-- An opening on a full belt overflows (R88). -/
theorem appendSource_full {s1 : State} (gap : gapTest x r b g s = s1) (full : 6 ≤ r.queue.length) :
    appendSource x r b g s = ⟨(unsureCascade b (raiseFlag .trackerFull (num b) (num g.lot) false s1)).1, none,
      (unsureCascade b (raiseFlag .trackerFull (num b) (num g.lot) false s1)).2⟩ := by
  unfold appendSource
  rw [gap]
  exact if_neg (Nat.not_lt.2 full)

end

/-- Settles O20: the feed actual against the threshold, and the youngest slug of the belt, decide. -/
theorem sourcesOpenAndClose : Obligations.SourcesOpenAndClose := by
  refine ⟨fun i d feed s => ⟨fun ref r source low record => ?closes, ?stays,
    fun g b rest source high working grain belts defined => readFeed_opens source high working grain belts defined⟩,
    fun b g s x r data record law => ⟨fun y youngest goes near few => ?joins, fun s1 youngest empty => ?appends⟩⟩
  case closes =>
    rw [readFeed_closes source low, closeSource_eq record]
    rfl
  case stays =>
    rintro (⟨opened, high⟩ | ⟨shut, quiet⟩)
    · obtain ⟨ref, source⟩ := Option.ne_none_iff_exists'.1 opened
      exact readFeed_flows source high
    · exact readFeed_quiet shut quiet
  case joins =>
    obtain ⟨_, places, _⟩ := law
    exact openSource_joins data record places youngest ((joins_iff s x r g y).2 ⟨goes, near, few⟩)
  case appends =>
    have other (y : Slug) (last : r.queue.getLast? = some y) : ¬ s.joins x r g y = true := by
      obtain ⟨unlike, _⟩ := youngest y last
      rw [joins_iff]
      rintro ⟨goes, near, few⟩
      exact unlike.elim (fun h => h goes) fun h => h.elim (fun far => far near) fun full => absurd few (Nat.not_lt.2 full)
    have gap : gapTest x r b g s = s1 := gapTest_eq (fun y last => (youngest y last).2) empty
    rw [openSource_appends data record other]
    refine ⟨fun room => ⟨freePlace r.queue, freePlace_free room, appendSource_room gap room⟩,
      fun full t upset cascade => ?_⟩
    rw [appendSource_full gap full, ← cascade]

end Sys2Proof.Machine
end

