-- ==== Sys2Proof/Proofs/BeltMarks.lean ====
section
/-!
PROOFS. What moves a belt: nothing that happens to the slugs of a belt changes its position, its last travel count
or its running indication (R77, R96).
-/

namespace Sys2Proof.Machine

/-- What a belt record knows of the belt itself: its position, its last travel count and whether it runs (R76). -/
def BeltRecord.marks (r : BeltRecord) : Mark × Option Word × Option Bool := (r.position, r.lastTravel, r.running)

/-- Every belt that is defined in one state is in the other, with the same marks. -/
def sameMarks (s t : State) : Prop :=
  ∀ c : BeltIx, (t.tracker.belts[c]).map BeltRecord.marks = (s.tracker.belts[c]).map BeltRecord.marks

theorem sameMarks_refl (s : State) : sameMarks s s := fun _ => rfl

theorem sameMarks_trans {s t u : State} (first : sameMarks s t) (second : sameMarks t u) : sameMarks s u :=
  fun c => (second c).trans (first c)

theorem sameMarks_of_tracker {s t : State} (same : t.tracker = s.tracker) : sameMarks s t :=
  fun c => by rw [same]

theorem sameMarks_setBelt {s : State} {b : BeltIx} {r x : BeltRecord} (record : s.tracker.belts[b] = some r)
    (same : x.marks = r.marks) : sameMarks s (s.setBelt b (some x)) := by
  intro c
  rw [State.setBelt_belts]
  by_cases own : c = b
  · subst own
    rw [put_get_same, record]
    exact congrArg some same
  · rw [put_get_other _ _ own]

/-! ### Sources and the UNSURE condition (R89, R96, R98) -/

theorem closeSource_marks (b : BeltIx) (p : Place) (s : State) : sameMarks s (closeSource b p s) := by
  unfold closeSource
  split
  · exact sameMarks_refl s
  next record => exact sameMarks_setBelt record rfl

theorem closeHandOver_marks (h : HandOver) (s : State) : sameMarks s (closeHandOver h s) := by
  cases h with
  | belt n p => exact closeSource_marks n p s
  | _ => exact sameMarks_refl s

theorem closeAll_marks : ∀ (q : List Slug) (s : State),
    sameMarks s (q.foldl (fun t y => closeHandOver y.handOver t) s)
  | [], s => sameMarks_refl s
  | y :: q, s => sameMarks_trans (closeHandOver_marks y.handOver s) (closeAll_marks q _)

theorem drop_marks (b : BeltIx) (s : State) : sameMarks s (dropSources b (closeDownstream b s)) := by
  refine sameMarks_trans (t := closeDownstream b s) ?_ fun c => ?_
  · unfold closeDownstream
    split
    · exact sameMarks_refl s
    · exact closeAll_marks _ s
  · unfold dropSources
    simp only [map_get, Option.map_map]
    rfl

theorem enterUnsure_marks (b : BeltIx) (s : State) : sameMarks s (enterUnsure b s) := by
  refine sameMarks_trans (drop_marks b s) ?_
  unfold enterUnsure
  dsimp only
  split
  · exact sameMarks_refl _
  next record => exact sameMarks_setBelt record rfl

theorem cascadeFrom_marks : ∀ (n : Nat) (b : BeltIx) (done : List BeltIx) (s : State),
    sameMarks s (cascadeFrom n b done s).1
  | 0, _, _, s => sameMarks_refl s
  | n + 1, b, done, s => by
    unfold cascadeFrom
    split
    · exact sameMarks_refl s
    split
    · exact sameMarks_refl s
    · exact sameMarks_trans (enterUnsure_marks _ s) (cascadeFrom_marks n _ _ _)

theorem unsureCascade_marks (b : BeltIx) (s : State) : sameMarks s (unsureCascade b s).1 :=
  sameMarks_trans (enterUnsure_marks b s) (cascadeFrom_marks _ _ _ _)

/-! ### Openings and hand-overs (R86 to R92) -/

theorem raiseBreach_tracker (b : Breach) (s : State) : (raiseBreach b s).tracker = s.tracker :=
  raiseBreach_sameBut b s .tracker (by decide)

theorem gapTest_tracker (d : BeltData) (r : BeltRecord) (b : BeltIx) (g : Grain) (s : State) :
    (gapTest d r b g s).tracker = s.tracker := by
  unfold gapTest
  split
  · exact raiseBreach_tracker _ s
  · rfl

theorem appendSource_marks {r : BeltRecord} {b : BeltIx} {s : State} (record : s.tracker.belts[b] = some r)
    (d : BeltData) (g : Grain) : sameMarks s (appendSource d r b g s).state := by
  have tested := sameMarks_of_tracker (gapTest_tracker d r b g s)
  unfold appendSource
  dsimp only
  split
  · refine sameMarks_trans tested (sameMarks_setBelt (r := r) ?_ rfl)
    rw [gapTest_tracker]
    exact record
  · exact sameMarks_trans tested (sameMarks_trans (sameMarks_of_tracker (raiseFlag_tracker _ _ _ _ _))
      (unsureCascade_marks b _))

theorem openSource_marks (b : BeltIx) (g : Grain) (s : State) : sameMarks s (openSource b g s).state := by
  unfold openSource
  split
  next record =>
    split
    · split
      · exact sameMarks_setBelt record rfl
      · exact appendSource_marks record _ g
    · exact appendSource_marks record _ g
  · exact sameMarks_refl s

theorem arriveAtBin_tracker (n : BinIx) (b : BeltIx) (via : Option DiverterIx) (g : Grain) (s : State) :
    (arriveAtBin n b via g s).tracker = s.tracker := by
  unfold arriveAtBin
  split
  · rfl
  dsimp only
  split
  · exact raiseBreach_tracker _ s
  split
  · rfl
  split
  · rfl
  · exact raiseBreach_tracker _ s

theorem strayed_tracker {s s1 : State} {c : Prop} [Decidable c] {x : Breach}
    (step : s1 = if c then s else raiseBreach x s) : s1.tracker = s.tracker := by
  rw [step]
  split
  · rfl
  · exact raiseBreach_tracker x s

theorem arriveAtDiverter_tracker (d : DiverterIx) (b : BeltIx) (g : Grain) (s : State) :
    (arriveAtDiverter d b g s).1.tracker = s.tracker := by
  cases data : s.diverterData d with
  | none => simp only [arriveAtDiverter, data, raiseBreach_tracker]
  | some e =>
    cases record : s.seg.diverters[d] with
    | none => simp only [arriveAtDiverter, data, record, raiseBreach_tracker]
    | some r =>
      cases position : r.position with
      | none => simp only [arriveAtDiverter, data, record, position, raiseBreach_tracker]
      | some p =>
        cases out : e.outlets[p.val]? with
        | none => simp only [arriveAtDiverter_outside data record position out, raiseBreach_tracker]
        | some out' =>
          cases out' with
          | bin m =>
            obtain ⟨s1, step⟩ : ∃ s1, s1 = if g.nextStep b = some (.bin m) then s
              else raiseBreach ⟨.divert, b, some d, some m, g.lot, .absent⟩ s := ⟨_, rfl⟩
            rw [arriveAtDiverter_bin data record position out step]
            split
            · exact (arriveAtBin_tracker m b (some d) g s1).trans (strayed_tracker step)
            · exact strayed_tracker step
          | belt k =>
            obtain ⟨s1, step⟩ : ∃ s1, s1 = if g.nextStep b = some (.belt k) then s
              else raiseBreach ⟨.divert, b, some d, none, g.lot, .absent⟩ s := ⟨_, rfl⟩
            rw [arriveAtDiverter_belt data record position out step]
            split <;> exact strayed_tracker step
          | diverter m =>
            simp only [arriveAtDiverter, data, record, position, DiverterData.outletAt, out]
            exact strayed_tracker rfl

theorem handToBelt_marks (n : BeltIx) (g : Grain) (s : State) : sameMarks s (handToBelt n g s).state := by
  unfold handToBelt
  split
  · exact openSource_marks n g s
  · exact sameMarks_refl s

theorem makeHandOver_marks (b : BeltIx) (d : BeltData) (g : Grain) (s : State) :
    sameMarks s (makeHandOver b d g s).state := by
  unfold makeHandOver
  split
  · exact handToBelt_marks _ g s
  · split
    · exact sameMarks_of_tracker (arriveAtBin_tracker _ _ _ _ s)
    · exact sameMarks_refl s
  next n _ =>
    have arrived := sameMarks_of_tracker (arriveAtDiverter_tracker n b g s)
    dsimp only
    split
    · exact sameMarks_trans arrived (handToBelt_marks _ g _)
    · exact arrived
    · exact arrived

/-! ### Re-evaluation (R81, R94, R95) -/

theorem mapSlugOn_marks (b : BeltIx) (p : Place) (f : Slug → Slug) (s : State) : sameMarks s (s.mapSlugOn b p f) := by
  unfold State.mapSlugOn
  split
  · exact sameMarks_refl s
  next record => exact sameMarks_setBelt record rfl

theorem retireIfDue_marks (b : BeltIx) (d : BeltData) (p : Place) (s : State) : sameMarks s (retireIfDue b d p s) := by
  unfold retireIfDue
  split
  · exact sameMarks_refl s
  next record =>
    split
    · exact sameMarks_refl s
    split
    · simp only [retire, record]
      refine sameMarks_trans ?_ (closeHandOver_marks _ _)
      exact sameMarks_setBelt record rfl
    · exact sameMarks_refl s

theorem reevaluateSlug_marks (b : BeltIx) (d : BeltData) (p : Place) (s : State) :
    sameMarks s (reevaluateSlug b d p s).1 := by
  unfold reevaluateSlug
  split
  · exact sameMarks_refl s
  split
  · exact sameMarks_refl s
  have staged (f : Slug → Slug) : sameMarks s (s.mapSlugOn b p f) := mapSlugOn_marks b p f s
  have plain (f : Slug → Slug) : sameMarks s (retireIfDue b d p (s.mapSlugOn b p f)) :=
    sameMarks_trans (staged f) (retireIfDue_marks b d p _)
  dsimp only
  split
  next g _ =>
    split
    · have handed (f : Slug → Slug) : sameMarks s (makeHandOver b d g (s.mapSlugOn b p f)).state :=
        sameMarks_trans (staged f) (makeHandOver_marks b d g _)
      split
      · exact handed _
      · exact sameMarks_trans (handed _) (sameMarks_trans (mapSlugOn_marks b p _ _) (retireIfDue_marks b d p _))
    · exact plain _
  · exact plain _

theorem reevaluateSlugs_marks (b : BeltIx) (d : BeltData) : ∀ (ps : List Place) (s : State),
    sameMarks s (reevaluateSlugs b d ps s).1
  | [], s => sameMarks_refl s
  | p :: ps, s => by
    have first := reevaluateSlug_marks b d p s
    unfold reevaluateSlugs
    split
    next t taken =>
      rw [taken] at first
      exact sameMarks_trans first (reevaluateSlugs_marks b d ps t)
    next t taken =>
      rw [taken] at first
      exact first

theorem reevaluate_marks (b : BeltIx) (s : State) : sameMarks s (reevaluate b s) := by
  unfold reevaluate
  split
  next d r _ _ =>
    have taken := reevaluateSlugs_marks b d (r.queue.map (·.place)) s
    dsimp only
    split
    · refine sameMarks_trans taken (sameMarks_of_tracker ?_)
      unfold reportHead
      split
      · split
        · exact headClearReport_sameBut _ _ .tracker (by decide)
        · rfl
      · rfl
    · exact taken
  · exact sameMarks_refl s

end Sys2Proof.Machine
end

