-- ==== Sys2Proof/Proofs/BeltSamples.lean ====
section
/-!
PROOFS. A BELT sample moves its belt and re-evaluates its slugs, or sends it UNSURE with a cascade (R77 to R100).
-/

namespace Sys2Proof.Machine

/-! ### The UNSURE condition (R96, R98) -/

/-- An UNKNOWN slug holds no source that another belt's entry into UNSURE could let go (R96). -/
theorem unknownSlug_released (position : Mark) (closed : Nat) (m : Mark) (b : BeltIx) :
    (unknownSlug position).released closed m b = unknownSlug position := by
  simp [Slug.released, unknownSlug]

/-- A belt that is UNSURE with nothing but its UNKNOWN slug stays so when another belt enters UNSURE (R96). -/
theorem enterUnsure_unknown {n b : BeltIx} (other : b ≠ n) {s : State} {r : BeltRecord} {m : Mark}
    (record : s.tracker.belts[b] = some r) (queue : r.queue = [unknownSlug m]) :
    (enterUnsure n s).tracker.belts[b] = some r := by
  have kept : (dropSources n (closeDownstream n s)).tracker.belts[b] = some r := by
    obtain ⟨_, belts⟩ := letsGo_drop n s
    rw [belts b other, record, Option.map_some, queue, List.map_singleton, unknownSlug_released, ← queue]
  unfold enterUnsure
  dsimp only
  split
  · exact kept
  · rw [State.setBelt_belts, put_get_other _ _ other]
    exact kept

theorem enterUnsures_unknown {b : BeltIx} {r : BeltRecord} {m : Mark} (queue : r.queue = [unknownSlug m]) :
    ∀ (l : List BeltIx) {s : State}, (∀ n ∈ l, n ≠ b) → s.tracker.belts[b] = some r →
      (l.foldl (fun t x => enterUnsure x t) s).tracker.belts[b] = some r
  | [], _, _, record => record
  | n :: l, _, others, record =>
    enterUnsures_unknown queue l (fun x listed => others x (List.mem_cons_of_mem n listed))
      (enterUnsure_unknown (others n List.mem_cons_self).symm record queue)

/-- A cascade leaves its first belt UNSURE with its UNKNOWN slug alone (R96, R98). -/
theorem unsureCascade_belt {b : BeltIx} {s : State} {r : BeltRecord} (record : s.tracker.belts[b] = some r) :
    (unsureCascade b s).1.tracker.belts[b] =
      some { r with condition := .unsure, queue := [unknownSlug r.position] } := by
  obtain ⟨_, _, unsure⟩ := enterUnsure_spec b s r record
  obtain ⟨more, last, _, _, others, _⟩ := cascadeFrom_spec 5 b [b] (enterUnsure b s)
  refine (congrArg (fun t : State => t.tracker.belts[b]) last).trans ?_
  exact enterUnsures_unknown (m := r.position) rfl more (fun n listed => mt List.mem_singleton.2 (others n listed)) unsure

/-- What a cascade follows does not depend on the belts it has sent UNSURE (R98). -/
theorem enterUnsure_flowsTo (b x y : BeltIx) (s : State) : (enterUnsure b s).flowsTo x y ↔ s.flowsTo x y := by
  rw [← cascadeNext_iff, ← cascadeNext_iff,
    cascadeNext_congr (s := s) (by rw [enterUnsure_frame]) (by rw [enterUnsure_frame])]

/-! ### Travel (R77, R78, R100) -/

section
variable {b : BeltIx} {s : State} {r : BeltRecord} (count : Word) (running : Bool)

theorem takeTravel_first (record : s.tracker.belts[b] = some r) (first : r.lastTravel = none) :
    takeTravel b count running s =
      reevaluate b (s.setBelt b (some { r with lastTravel := some count, running := some running })) := by
  simp only [takeTravel, record, first]

theorem takeTravel_next {last : Word} (record : s.tracker.belts[b] = some r) (known : r.lastTravel = some last) :
    takeTravel b count running s = if 30000 < (count - last).toNat then
        (unsureCascade b (s.setBelt b (some { r with lastTravel := some count, running := some running }))).1
      else reevaluate b (s.setBelt b (some { r with
        lastTravel := some count, running := some running
        position := r.position + BitVec.ofNat 32 (count - last).toNat })) := by
  simp only [takeTravel, record, known]
  rfl

theorem takeBeltReturn_eq (record : s.tracker.belts[b] = some r) : takeBeltReturn b count running s =
    (unsureCascade b (s.setBelt b (some { r with lastTravel := some count, running := some running }))).1 := by
  simp only [takeBeltReturn, record]

end

/-- A belt whose slugs are re-evaluated keeps its marks (R81). -/
theorem reevaluate_record {b : BeltIx} {s : State} {x : BeltRecord} (record : s.tracker.belts[b] = some x) :
    ∃ r, (reevaluate b s).tracker.belts[b] = some r ∧ r.lastTravel = x.lastTravel ∧ r.running = x.running
      ∧ r.position = x.position := by
  have same := reevaluate_marks b s b
  rw [record] at same
  obtain ⟨r, here, marks⟩ := Option.map_eq_some_iff.1 same
  simp only [BeltRecord.marks, Prod.mk.injEq] at marks
  obtain ⟨position, last, running⟩ := marks
  exact ⟨r, here, last, running, position⟩

/-- A BELT sample that is accepted is a return or a travel of its belt (R77, R100, R148). -/
theorem beltSample_taken {m : Message} {e : StationEntry} {w : WatchRecord} {s : State} {b : BeltIx} {d : BeltData}
    (hears : s.hears m e w) (other : w.lastSeq ≠ some m.seq) (words : 2 ≤ m.words.length) (kind : e.kind = .belt b d) :
    ∃ s1, s1.tracker = s.tracker ∧ exec (.beltSample m) s = .next (joinEgress (.forwarded (messageTelegram m .sample []))
      (if w.returnDue = true then takeBeltReturn b (m.words.getD 0 0) (m.words.getD 1 0 != 0) s1
      else takeTravel b (m.words.getD 0 0) (m.words.getD 1 0 != 0) s1)) := by
  have long : e.kind.wordsNeeded ≤ m.words.length := by
    rw [kind]
    exact words
  obtain ⟨back, stored⟩ : ∃ back : State, ∃ state timer, back = s.setWatch m.source (some
      { w with lastSeq := some m.seq, returnDue := false, state := state, timer := timer })
      ∧ state = (if w.returnDue = true ∧ w.state = .silent then .heard else w.state)
      ∧ timer = (if state = .heard then some e.silenceLimit else w.timer) := ⟨_, _, _, rfl, rfl, rfl⟩
  obtain ⟨_, taken, _⟩ := sampleAccepted m e w s hears other long back _ s stored rfl
  refine ⟨_, ?_, taken b d kind⟩
  obtain ⟨state, timer, rfl, _, _⟩ := stored
  split
  · rw [raiseFlag_tracker]
    rfl
  · rfl

/-! ### The head of a belt (R95) -/

theorem beltHeadClear_false {s : State} {b : BeltIx} :
    s.beltHeadClear b = false ↔ ∃ r ∈ s.tracker.belts[b], ∃ y ∈ r.queue, y.stage ≠ .travelling := by
  rw [Bool.eq_false_iff, ne_eq, beltHeadClear_iff]
  push Not
  rfl

theorem reportHead_unclear (out : Outlet) (before : Bool) (s : State) : reportHead out before false s = s := by
  unfold reportHead
  split
  · rw [Bool.and_false]
    rfl
  · rfl

section
variable {b : BeltIx} {s t : State} {d : BeltData} {r : BeltRecord}

theorem reevaluate_stopped (data : s.beltData b = some d) (record : s.tracker.belts[b] = some r)
    (taken : reevaluateSlugs b d (r.queue.map (·.place)) s = (t, false)) : reevaluate b s = t := by
  simp only [reevaluate, data, record, taken]
  rfl

theorem reevaluate_whole (data : s.beltData b = some d) (record : s.tracker.belts[b] = some r)
    (taken : reevaluateSlugs b d (r.queue.map (·.place)) s = (t, true)) :
    reevaluate b s = reportHead d.outlet (s.beltHeadClear b) (t.beltHeadClear b) t := by
  simp only [reevaluate, data, record, taken]
  rfl

end

theorem reevaluateSlugs_cons (b : BeltIx) (d : BeltData) (p : Place) (ps : List Place) (s : State) :
    reevaluateSlugs b d (p :: ps) s = if (reevaluateSlug b d p s).2 = true then
      reevaluateSlugs b d ps (reevaluateSlug b d p s).1 else reevaluateSlug b d p s := by
  rw [reevaluateSlugs]
  rcases reevaluateSlug b d p s with ⟨t, _ | _⟩ <;> rfl

/-! ### Hand-over (R90 to R92) -/

theorem handToBelt_eq {n : BeltIx} {g : Grain} {s u : State} {h : HandOver} {upset : List BeltIx}
    (goes : s.goesOnto n g u h upset) : handToBelt n g s = ⟨u, h, upset⟩ := by
  unfold State.goesOnto at goes
  unfold handToBelt
  by_cases defined : (s.beltStation n).isSome
  · rw [if_pos defined] at goes ⊢
    obtain ⟨rfl, rfl, rfl⟩ := goes
    rfl
  · rw [if_neg defined] at goes ⊢
    obtain ⟨rfl, rfl, rfl⟩ := goes
    rfl

/-- What a hand-over through a diverter comes to, by the outlet that its position gives (R91, R115). -/
def handedBy (g : Grain) (v : State) : Option Outlet → HandedOver
  | some (.belt m) => handToBelt m g v
  | some (.bin m) => ⟨v, .bin m, []⟩
  | _ => ⟨v, .nowhere, []⟩

section
variable {b : BeltIx} {d : BeltData} {g : Grain} {s : State}

theorem makeHandOver_belt {n : BeltIx} (out : d.outlet = .belt n) : makeHandOver b d g s = handToBelt n g s := by
  rw [makeHandOver, out]

theorem makeHandOver_bin {n : BinIx} (out : d.outlet = .bin n) : makeHandOver b d g s =
    if (s.tables.bins[n]).isSome then ⟨arriveAtBin n b none g s, .bin n, []⟩ else ⟨s, .nowhere, []⟩ := by
  rw [makeHandOver, out]

theorem makeHandOver_diverter {n : DiverterIx} (out : d.outlet = .diverter n) {v : State} {way : Option Outlet}
    (arrives : arriveAtDiverter n b g s = (v, way)) : makeHandOver b d g s = handedBy g v way := by
  have taken : makeHandOver b d g s = handedBy g (arriveAtDiverter n b g s).1 (arriveAtDiverter n b g s).2 := by
    rw [makeHandOver, out]
    rfl
  rw [taken, arrives]

end

/-! ### The re-evaluation of a slug (R80, R81, R94) -/

section
variable {b : BeltIx} {s : State} {d : BeltData} {r : BeltRecord} {y : Slug}

/-- A slug is handed over as it enters CROSSING, and while it is CROSSING without a hand-over and not due (R81). -/
theorem handsOver_iff : ((y.stageThere d r.position == .crossing && y.stage != .crossing)
      || (y.stage == .crossing && y.handOver == .absent && !dueToRetire d r y)) = true ↔
    y.stageThere d r.position = .crossing ∧ (y.stage ≠ .crossing ∨ y.handOver = .absent ∧ ¬ y.due d r.position) := by
  rw [← dueToRetire_iff]
  simp only [Bool.or_eq_true, Bool.and_eq_true, beq_iff_eq, bne_iff_ne, ne_eq, Bool.not_eq_true', Bool.not_eq_true]
  by_cases crossing : y.stage = .crossing
  · have stays : y.stageThere d r.position = .crossing := if_pos (.inl crossing)
    simp [crossing, stays]
  · simp [crossing]

section
variable {s1 : State} (record : s.tracker.belts[b] = some r) (places : (r.queue.map (·.place)).Nodup)
  (listed : y ∈ r.queue) (staged : s1 = s.setBelt b (some { r with queue := r.queue.map fun z =>
    if z.place = y.place then { z with stage := y.stageThere d r.position } else z }))
include record places listed staged

/-- A slug that is not handed over is only retired where it is due (R81). -/
theorem reevaluateSlug_plain (plain : ¬ (y.stageThere d r.position = .crossing
      ∧ (y.stage ≠ .crossing ∨ y.handOver = .absent ∧ ¬ y.due d r.position)) ∨ y.grain = none) :
    reevaluateSlug b d y.place s = (retireIfDue b d y.place s1, true) := by
  have moved := (mapSlugOn_eq s b r record y.place fun z =>
    { z with stage := y.stageThere d r.position }).trans staged.symm
  simp only [reevaluateSlug, record, slugAt_of_mem places listed, stage_max_eq, moved]
  cases grain : y.grain with
  | none => rfl
  | some g =>
    have stays := plain.resolve_right (by simp [grain])
    exact if_neg (mt handsOver_iff.1 stays)

/-- A slug that is handed over stays in its queue unless the hand-over has replaced it (R81, R93). -/
theorem reevaluateSlug_hands {g : Grain} (grain : y.grain = some g) (hands : y.stageThere d r.position = .crossing
      ∧ (y.stage ≠ .crossing ∨ y.handOver = .absent ∧ ¬ y.due d r.position))
    {u : State} {h : HandOver} {upset : List BeltIx} (made : makeHandOver b d g s1 = ⟨u, h, upset⟩) :
    reevaluateSlug b d y.place s = if b ∈ upset then (u, false)
      else (retireIfDue b d y.place (u.mapSlugOn b y.place fun z => { z with handOver := h }), true) := by
  have moved := (mapSlugOn_eq s b r record y.place fun z =>
    { z with stage := y.stageThere d r.position }).trans staged.symm
  simp only [reevaluateSlug, record, slugAt_of_mem places listed, stage_max_eq, moved, grain, made]
  refine (if_pos (handsOver_iff.2 hands)).trans ?_
  simp only [List.contains_iff_mem]

end

theorem retireIfDue_stays (record : s.tracker.belts[b] = some r) (places : (r.queue.map (·.place)).Nodup)
    (listed : y ∈ r.queue) (undue : ¬ y.due d r.position) : retireIfDue b d y.place s = s := by
  simp only [retireIfDue, record, slugAt_of_mem places listed]
  exact if_neg (mt (dueToRetire_iff y d r).1 undue)

/-- A slug that is due leaves its queue, and lets go of the source it holds downstream (R94, R99). -/
theorem retireIfDue_leaves (record : s.tracker.belts[b] = some r) (places : (r.queue.map (·.place)).Nodup)
    (listed : y ∈ r.queue) (due : y.due d r.position) {s1 : State}
    (left : s1 = s.setBelt b (some { r with
      queue := r.queue.filter fun z => z.place != y.place
      condition := if y.grain = none then .sure else r.condition })) :
    retireIfDue b d y.place s = closeHandOver y.handOver s1 := by
  simp only [retireIfDue, record, slugAt_of_mem places listed]
  refine (if_pos ((dueToRetire_iff y d r).2 due)).trans ?_
  simp only [retire, record, left, Option.isNone_iff_eq_none]

end

/-- The first belt of a cascade and those it goes on to, in their order (R98). -/
theorem unsureCascade_spec (b : BeltIx) (s : State) : ∃ belts : List BeltIx,
    (unsureCascade b s).1 = belts.foldl (fun t x => enterUnsure x t) s
      ∧ belts.head? = some b ∧ belts.Nodup ∧ belts.length ≤ 6
      ∧ (∀ x, x ∈ (unsureCascade b s).2 ↔ x ∈ belts)
      ∧ (∀ k x y, belts[k]? = some x → belts[k + 1]? = some y → s.flowsTo x y)
      ∧ ∀ x, belts.getLast? = some x → belts.length = 6 ∨ ∀ y, s.flowsTo x y → y ∈ belts := by
  obtain ⟨more, last, sent, short, others, once, along, ends⟩ := cascadeFrom_spec 5 b [b] (enterUnsure b s)
  refine ⟨b :: more, last, rfl, List.nodup_cons.2 ⟨fun again => others b again List.mem_cons_self, once⟩,
    Nat.succ_le_succ short, fun x => ?_, fun k x y hx hy => (enterUnsure_flowsTo b x y s).1 (along k x y hx hy),
    fun x hx => (ends x hx).imp (fun full => by simp [full]) fun closed y flows => ?_⟩
  · rw [show (unsureCascade b s).2 = _ from sent]
    simp [or_comm]
  · have listed := closed y ((enterUnsure_flowsTo b x y s).2 flows)
    simpa [or_comm] using listed

/-- Settles O21: a sample moves its belt or sends it UNSURE, and what follows has an equation for each case. -/
theorem beltSampleMovesBelt : Obligations.BeltSampleMovesBelt := by
  refine ⟨?sample, ?travel, ?queue, ?slug, ?retirement, ?unsure, unsureCascade_spec⟩
  case sample =>
    intro m e w s b d r hears other words kind record
    obtain ⟨s1, same, taken⟩ := beltSample_taken hears other words kind
    have record : s1.tracker.belts[b] = some r := by rw [same, record]
    have placed (x : BeltRecord) : (s1.setBelt b (some x)).tracker.belts[b] = some x := put_get_same _ _ _
    rw [taken]
    by_cases due : w.returnDue = true
    · refine ⟨_, { r with
          lastTravel := some (m.words.getD 0 0), running := some (m.words.getD 1 0 != 0)
          condition := .unsure, queue := [unknownSlug r.position] }, rfl, ?_, rfl, rfl, ?_, ?_, fun _ => ⟨rfl, rfl, rfl⟩⟩
      · rw [joinEgress_tracker, if_pos due, takeBeltReturn_eq _ _ record, unsureCascade_belt (placed _)]
      · exact fun _ undue => absurd (due.symm.trans undue) (by decide)
      · exact fun undue => absurd (due.symm.trans undue) (by decide)
    · cases known : r.lastTravel with
      | none =>
        obtain ⟨r', here, last, running, position⟩ := reevaluate_record (placed { r with
          lastTravel := some (m.words.getD 0 0), running := some (m.words.getD 1 0 != 0) })
        refine ⟨_, r', rfl, ?_, last, running, by simp, fun _ _ => position, ?_⟩
        · rw [joinEgress_tracker, if_neg due, takeTravel_first _ _ record known, here]
        · rintro (again | ⟨_, none_, _⟩)
          · exact absurd again due
          · cases none_
      | some last =>
        by_cases far : 30000 < (m.words.getD 0 0 - last).toNat
        · refine ⟨_, { r with
              lastTravel := some (m.words.getD 0 0), running := some (m.words.getD 1 0 != 0)
              condition := .unsure, queue := [unknownSlug r.position] }, rfl, ?_, rfl, rfl, ?_, by simp,
            fun _ => ⟨rfl, rfl, rfl⟩⟩
          · rw [joinEgress_tracker, if_neg due, takeTravel_next _ _ record known, if_pos far,
              unsureCascade_belt (placed _)]
          · rintro _ _ ⟨⟩ near
            exact absurd far (Nat.not_lt.2 near)
        · obtain ⟨r', here, lastTravel, running, position⟩ := reevaluate_record (placed { r with
            lastTravel := some (m.words.getD 0 0), running := some (m.words.getD 1 0 != 0)
            position := r.position + BitVec.ofNat 32 (m.words.getD 0 0 - last).toNat })
          refine ⟨_, r', rfl, ?_, lastTravel, running, ?_, by simp, ?_⟩
          · rw [joinEgress_tracker, if_neg due, takeTravel_next _ _ record known, if_neg far, here]
          · rintro _ _ ⟨⟩ _
            exact position
          · rintro (again | ⟨_, ⟨⟩, above⟩)
            · exact absurd again due
            · exact absurd above far
  case travel =>
    intro b count running s r r1 record hr
    subst hr
    refine ⟨fun first => takeTravel_first count running record first, fun last known near => ?_,
      fun last known far => ?_, takeBeltReturn_eq count running record⟩
    · rw [takeTravel_next count running record known, if_neg (Nat.not_lt.2 near)]
    · rw [takeTravel_next count running record known, if_pos far]
  case queue =>
    intro b s d r t whole data record taken
    have before : s.beltHeadClear b = true ↔ ∀ y ∈ r.queue, y.stage = .travelling := by
      rw [beltHeadClear_iff, record]
      simp
    refine ⟨fun stopped => ?_, fun n finished out unclear clear => ?_, fun finished quiet => ?_, rfl,
      fun p ps => reevaluateSlugs_cons b d p ps s⟩
    · exact reevaluate_stopped data record (stopped ▸ taken)
    · rw [reevaluate_whole data record (finished ▸ taken), (beltHeadClear_iff t b).2 clear,
        Bool.eq_false_iff.2 (mt before.1 (by push Not; exact unclear))]
      exact reportHead_now out t
    · rw [reevaluate_whole data record (finished ▸ taken)]
      rcases quiet with straight | was | still
      · exact reportHead_stays (.inl straight) _ t
      · exact reportHead_stays (.inr (before.2 was)) _ t
      · rw [beltHeadClear_false.2 still]
        exact reportHead_unclear _ _ t
  case slug =>
    intro b s d r y s1 hands data record places listed staged rule
    refine ⟨fun plain => reevaluateSlug_plain record places listed staged (plain.imp_left (mt rule.2)),
      fun g u h upset handed grain way => ?_⟩
    have made : makeHandOver b d g s1 = ⟨u, h, upset⟩ := by
      cases out : d.outlet with
      | belt n =>
        rw [out] at way
        exact (makeHandOver_belt out).trans (handToBelt_eq way)
      | bin n =>
        rw [out] at way
        have bins : s1.tables.bins[n] = s.tables.bins[n] := by rw [staged]; rfl
        obtain ⟨rfl, way⟩ := way
        rw [makeHandOver_bin out, bins]
        by_cases defined : (s.tables.bins[n]).isSome
        · rw [if_pos defined] at way ⊢
          obtain ⟨rfl, rfl⟩ := way
          rfl
        · rw [if_neg defined] at way ⊢
          obtain ⟨rfl, rfl⟩ := way
          rfl
      | diverter n =>
        rw [out] at way
        cases arrives : arriveAtDiverter n b g s1 with
        | mk v taken =>
          simp only [arrives] at way
          refine (makeHandOver_diverter out arrives).trans ?_
          split at way
          next v k same =>
            cases same
            exact handToBelt_eq way
          next v k same =>
            cases same
            obtain ⟨rfl, rfl, rfl⟩ := way
            rfl
          next v x notBelt notBin same =>
            cases same
            obtain ⟨rfl, rfl, rfl⟩ := way
            rcases taken with _ | k | k | k
            · rfl
            · exact absurd rfl (notBin k)
            · exact absurd rfl (notBelt k)
            · rfl
    have taken := reevaluateSlug_hands record places listed staged grain (rule.1 handed) made
    exact ⟨fun replaced => taken.trans (if_pos replaced), fun kept => taken.trans (if_neg kept)⟩
  case retirement =>
    intro b s d r y s1 record places listed left
    refine ⟨fun undue => retireIfDue_stays record places listed undue, fun due loose => ?_,
      fun n p r2 due held downstream => ?_⟩
    · rw [retireIfDue_leaves record places listed due left]
      cases held : y.handOver with
      | belt n p => exact closeSource_absent (loose n p held) p
      | _ => rfl
    · rw [retireIfDue_leaves record places listed due left, held]
      exact closeSource_eq downstream p
  case unsure =>
    intro b s r record
    obtain ⟨lets, _, unsure⟩ := enterUnsure_spec b s r record
    exact ⟨lets, sameBut_tracker (enterUnsure_frame b s), unsure⟩

end Sys2Proof.Machine
end

