-- ==== Sys2Proof/Proofs/AccountLines.lean ====
section
/-!
PROOFS. The line of a lot for a hold and a bin is found, created in the last block or in the lowest free block, or
has no place (R132, R133).
-/

namespace Sys2Proof.Machine

/-! ### The four situations of an account (R133) -/

/-- A chain holds a line for a hold's place and a bin (R133). -/
def State.lineFound (s : State) (chain : List BlockIx) (v n : Nat) (b : BinIx) : Prop :=
  ∃ z ∈ s.linesOf chain, z.vessel = v ∧ z.number = n ∧ z.bin = b

/-- The last block of a chain has room for a line (R133). -/
def State.lineRoom (s : State) (chain : List BlockIx) : Prop :=
  ∃ q, chain.getLast? = some q ∧ s.weighing.pool[q].length < 8

/-- What comes of seeking a line in a chain: the chain, the lines created, and whether there is a line (R133). -/
inductive LineOutcome (s : State) (old : List BlockIx) (v n : Nat) (b : BinIx) :
    List BlockIx → List Line → Bool → Prop
  | stands : s.lineFound old v n b → LineOutcome s old v n b old [] true
  | room : ¬ s.lineFound old v n b → s.lineRoom old → LineOutcome s old v n b old [⟨v, n, b, 0⟩] true
  | block (q : BlockIx) : ¬ s.lineFound old v n b → ¬ s.lineRoom old → s.blockFree q = true →
      (∀ p : BlockIx, p < q → s.blockFree p = false) →
      LineOutcome s old v n b (old ++ [q]) [⟨v, n, b, 0⟩] true
  | exhausted : ¬ s.lineFound old v n b → ¬ s.lineRoom old → (∀ q : BlockIx, s.blockFree q = false) →
      LineOutcome s old v n b old [] false

namespace LineOutcome

variable {s : State} {old chain : List BlockIx} {v n : Nat} {b : BinIx} {created : List Line} {ok : Bool}
  (outcome : LineOutcome s old v n b chain created ok)
include outcome

theorem of_found (found : s.lineFound old v n b) : chain = old ∧ created = [] ∧ ok = true := by
  cases outcome with
  | stands => exact ⟨rfl, rfl, rfl⟩
  | room missing => exact absurd found missing
  | block _ missing => exact absurd found missing
  | exhausted missing => exact absurd found missing

theorem of_room (missing : ¬ s.lineFound old v n b) (room : s.lineRoom old) :
    chain = old ∧ created = [⟨v, n, b, 0⟩] ∧ ok = true := by
  cases outcome with
  | stands found => exact absurd found missing
  | room => exact ⟨rfl, rfl, rfl⟩
  | block _ _ full => exact absurd room full
  | exhausted _ full => exact absurd room full

theorem of_block {q : BlockIx} (missing : ¬ s.lineFound old v n b) (full : ¬ s.lineRoom old)
    (free : s.blockFree q = true) (lowest : ∀ p : BlockIx, p < q → s.blockFree p = false) :
    chain = old ++ [q] ∧ created = [⟨v, n, b, 0⟩] ∧ ok = true := by
  cases outcome with
  | stands found => exact absurd found missing
  | room _ room => exact absurd room full
  | block p _ _ free' lowest' =>
    have same : p = q := by
      rcases lt_trichotomy p q with below | same | above
      · exact absurd (free'.symm.trans (lowest p below)) (by decide)
      · exact same
      · exact absurd (free.symm.trans (lowest' q above)) (by decide)
    subst same
    exact ⟨rfl, rfl, rfl⟩
  | exhausted _ _ none_ => exact absurd (free.symm.trans (none_ q)) (by decide)

theorem of_exhausted (missing : ¬ s.lineFound old v n b) (full : ¬ s.lineRoom old)
    (taken : ∀ q : BlockIx, s.blockFree q = false) : chain = old ∧ created = [] ∧ ok = false := by
  cases outcome with
  | stands found => exact absurd found missing
  | room _ room => exact absurd room full
  | block p _ _ free => exact absurd (free.symm.trans (taken p)) (by decide)
  | exhausted => exact ⟨rfl, rfl, rfl⟩

theorem placed (place : s.lineFound old v n b ∨ s.lineRoom old ∨ ∃ q : BlockIx, s.blockFree q = true) :
    ok = true := by
  cases outcome with
  | stands => rfl
  | room => rfl
  | block => rfl
  | exhausted missing full none_ =>
    rcases place with found | room | ⟨q, free⟩
    · exact absurd found missing
    · exact absurd room full
    · exact absurd (free.symm.trans (none_ q)) (by decide)

theorem created_kg : kgOf created = 0 := by
  cases outcome <;> rfl

end LineOutcome

/-! ### The search, case by case (R133) -/

theorem any_isFor_iff {s : State} {chain : List BlockIx} {v n : Nat} {b : BinIx} :
    ((s.linesOf chain).any fun x => x.isFor v n b) = true ↔ s.lineFound chain v n b := by
  simp only [List.any_eq_true, State.lineFound, isFor_iff, Line.key, Prod.mk.injEq]

theorem lastRoom_some {s : State} {chain : List BlockIx} {q : BlockIx} :
    (chain.getLast?.filter fun k => s.weighing.pool[k].length < Config.blockLines) = some q ↔
      chain.getLast? = some q ∧ s.weighing.pool[q].length < 8 := by
  rw [Option.filter_eq_some_iff, decide_eq_true_iff]
  rfl

theorem lastRoom_none {s : State} {chain : List BlockIx} (full : ¬ s.lineRoom chain) :
    (chain.getLast?.filter fun k => s.weighing.pool[k].length < Config.blockLines) = none :=
  Option.eq_none_iff_forall_ne_some.2 fun q some_ => full ⟨q, lastRoom_some.1 some_⟩

theorem freeBlock_some {s : State} {q : BlockIx} (first : s.freeBlock = some q) :
    s.blockFree q = true ∧ ∀ p : BlockIx, p < q → s.blockFree p = false := by
  obtain ⟨free, n, inside, at_, before⟩ := List.find?_eq_some_iff_getElem.1 first
  simp only [allIx, List.getElem_finRange, List.length_finRange] at inside at_ before
  refine ⟨free, fun p below => ?_⟩
  have earlier : p.val < n := by
    have place : q.val = n := by rw [← at_]; rfl
    have := Fin.lt_def.1 below
    omega
  simpa using before p.val earlier

theorem freeBlock_none {s : State} (none_ : s.freeBlock = none) (q : BlockIx) : s.blockFree q = false := by
  simpa using List.find?_eq_none.1 none_ q (mem_allIx q)

section
variable {s : State} {i : LotIx} {l : Lot} {v n : Nat} {b : BinIx} (entry : s.tables.lots[i] = some l)
include entry

theorem ensureLine_stands (found : s.lineFound l.chain v n b) : ensureLine i v n b s = (s, true) := by
  simp only [ensureLine, entry, if_pos (any_isFor_iff.2 found)]

theorem ensureLine_room {q : BlockIx} (missing : ¬ s.lineFound l.chain v n b)
    (room : l.chain.getLast? = some q ∧ s.weighing.pool[q].length < 8) :
    ensureLine i v n b s = (s.setBlock q (s.weighing.pool[q] ++ [⟨v, n, b, 0⟩]), true) := by
  simp only [ensureLine, entry, if_neg (mt any_isFor_iff.1 missing), lastRoom_some.2 room]

theorem ensureLine_block {q : BlockIx} (missing : ¬ s.lineFound l.chain v n b) (full : ¬ s.lineRoom l.chain)
    (free : s.freeBlock = some q) : ensureLine i v n b s =
      ((s.setLot i (some { l with chain := l.chain ++ [q] })).setBlock q [⟨v, n, b, 0⟩], true) := by
  simp only [ensureLine, entry, if_neg (mt any_isFor_iff.1 missing), lastRoom_none full, free]

theorem ensureLine_exhausted (missing : ¬ s.lineFound l.chain v n b) (full : ¬ s.lineRoom l.chain)
    (free : s.freeBlock = none) : ensureLine i v n b s =
      (raiseFlag .poolExhausted (num i) l.chain.length false s, false) := by
  simp only [ensureLine, entry, if_neg (mt any_isFor_iff.1 missing), lastRoom_none full, free]

end

/-! ### The lines of a chain that grows (R132) -/

/-- A line that joins the last block of a chain is the last of the chain (R133). -/
theorem linesOf_joined {s : State} {chain : List BlockIx} {q : BlockIx} (once : chain.Nodup)
    (last : chain.getLast? = some q) (x : Line) :
    (s.setBlock q (s.weighing.pool[q] ++ [x])).linesOf chain = s.linesOf chain ++ [x] := by
  obtain ⟨front, rfl⟩ := List.getLast?_eq_some_iff.1 last
  have apart : q ∉ front := fun again => (List.nodup_append.1 once).2.2 q again q (List.mem_singleton_self q) rfl
  have before : (s.setBlock q (s.weighing.pool[q] ++ [x])).linesOf front = s.linesOf front :=
    linesOf_congr fun j listed => pool_setBlock_other s _ fun same => apart (same ▸ listed)
  rw [linesOf_append, linesOf_append, linesOf_single, linesOf_single, pool_setBlock_same, before, List.append_assoc]

theorem linesOf_setBlock_other {s : State} {chain : List BlockIx} {q : BlockIx} (apart : q ∉ chain)
    (lines : List Line) : (s.setBlock q lines).linesOf chain = s.linesOf chain :=
  linesOf_congr fun _ listed => pool_setBlock_other s _ fun same => apart (same ▸ listed)

/-! ### What the search leaves behind (R133) -/

/-- The state after a line has been sought for a lot: its chain, its lines and those of the other lots, and what
the search leaves alone (R133). -/
structure LineSought (s : State) (i : LotIx) (l : Lot) (chain : List BlockIx) (created : List Line) (ok : Bool)
    (t : State) : Prop where
  tables : t.tables = { s.tables with lots := put s.tables.lots i (some { l with chain := chain }) }
  weighing : t.weighing = { s.weighing with pool := t.weighing.pool }
  shared : sameBut [.tables, .weighing, .notices, .path] s t
  quiet : ok = true → t.notices = s.notices
  exhausted : ok = false → t.notices = (raiseFlag .poolExhausted (num i) l.chain.length false s).notices
  lines : s.AccountLaw → t.linesOf chain = s.linesOf l.chain ++ created
  once : s.AccountLaw → chain.Nodup
  others : s.AccountLaw → ∀ j : LotIx, j ≠ i → ∀ z ∈ s.tables.lots[j],
    t.linesOf z.chain = s.linesOf z.chain ∧ ∀ q ∈ z.chain, q ∉ chain

theorem sameBut_block {s : State} (q : BlockIx) (lines : List Line) : sameBut [.weighing] s (s.setBlock q lines) := by
  intro p unlisted
  cases p with
  | weighing => simp at unlisted
  | _ => rfl

/-- A search for a line of a defined lot (R133). -/
theorem ensureLine_spec {s : State} {i : LotIx} {l : Lot} (entry : s.tables.lots[i] = some l) (v n : Nat) (b : BinIx) :
    ∃ chain created ok t, ensureLine i v n b s = (t, ok) ∧ LineOutcome s l.chain v n b chain created ok
      ∧ LineSought s i l chain created ok t := by
  have kept : s.tables = { s.tables with lots := put s.tables.lots i (some { l with chain := l.chain }) } := by
    have self : put s.tables.lots i (some l) = s.tables.lots := by rw [← entry]; exact put_self _ i
    rw [self]
  have apart (law : s.AccountLaw) (j : LotIx) (other : j ≠ i) (z : Lot) (hz : s.tables.lots[j] = some z) :
      ∀ q ∈ z.chain, q ∉ l.chain := law.2 j i z hz l entry other
  by_cases found : s.lineFound l.chain v n b
  · exact ⟨_, _, _, _, ensureLine_stands entry found, .stands found,
      { tables := kept, weighing := rfl, shared := sameBut_refl _ s, quiet := fun _ => rfl
        exhausted := fun no => absurd no (by decide), lines := fun _ => (List.append_nil _).symm
        once := fun law => (law.1 i l entry).2.2.1
        others := fun law j other z hz => ⟨rfl, apart law j other z hz⟩ }⟩
  by_cases room : s.lineRoom l.chain
  · obtain ⟨q, last, short⟩ := room
    have listed : q ∈ l.chain := List.mem_of_getLast? last
    exact ⟨_, _, _, _, ensureLine_room entry found ⟨last, short⟩, .room found ⟨q, last, short⟩,
      { tables := kept, weighing := rfl, shared := sameBut_mono (sameBut_block q _) (by simp), quiet := fun _ => rfl
        exhausted := fun no => absurd no (by decide)
        lines := fun law => linesOf_joined (law.1 i l entry).2.2.1 last _
        once := fun law => (law.1 i l entry).2.2.1
        others := fun law j other z hz => ⟨linesOf_setBlock_other (fun again => apart law j other z hz q again listed) _,
          apart law j other z hz⟩ }⟩
  cases free : s.freeBlock with
  | some q =>
    obtain ⟨vacant, lowest⟩ := freeBlock_some free
    have unused := blockFree_iff.1 vacant
    exact ⟨_, _, _, _, ensureLine_block entry found room free, .block q found room vacant lowest,
      { tables := rfl, weighing := rfl, quiet := fun _ => rfl
        shared := sameBut_trans (sameBut_mono (sameBut_tables _) (by simp))
          (sameBut_mono (sameBut_block q _) (by simp))
        exhausted := fun no => absurd no (by decide)
        lines := fun _ => by
          rw [linesOf_append, linesOf_single, pool_setBlock_same, linesOf_setBlock_other (unused i l entry)]
          rfl
        once := fun law => List.nodup_append.2 ⟨(law.1 i l entry).2.2.1, List.nodup_singleton q, fun x hx y hy same =>
          unused i l entry (List.mem_singleton.1 hy ▸ same ▸ hx)⟩
        others := fun law j other z hz => ⟨linesOf_setBlock_other (unused j z hz) _, fun x hx again =>
          (List.mem_append.1 again).elim (apart law j other z hz x hx) fun same =>
            unused j z hz (List.mem_singleton.1 same ▸ hx)⟩ }⟩
  | none =>
    have taken := raiseFlag_sameBut .poolExhausted (num i) l.chain.length false s
    exact ⟨_, _, _, _, ensureLine_exhausted entry found room free, .exhausted found room (freeBlock_none free),
      { tables := (raiseFlag_tables _ _ _ _ _).trans kept, shared := sameBut_mono taken (by simp)
        weighing := (raiseFlag_weighing _ _ _ _ _).trans (by rw [raiseFlag_weighing])
        quiet := fun no => absurd no (by decide), exhausted := fun _ => rfl
        lines := fun _ => by
          rw [List.append_nil]
          exact linesOf_congr fun j _ => by rw [raiseFlag_weighing]
        once := fun law => (law.1 i l entry).2.2.1
        others := fun law j other z hz => ⟨linesOf_congr fun j _ => by rw [raiseFlag_weighing],
          apart law j other z hz⟩ }⟩

end Sys2Proof.Machine
end

