-- ==== Sys2Proof/Proofs/Bookings.lean ====
section
/-!
PROOFS. Kilograms are booked to the lot's line or as unattributed, to the hold, the bin and the unloader, or to the
unassigned account (R18, R129, R130, R142).
-/

namespace Sys2Proof.Machine

/-! ### The parts of a booking (R129) -/

theorem growLine_nothing (v n : Nat) (b : BinIx) (lines : List Line) : growLine v n b 0 lines = lines := by
  simp [growLine]

/-- Lines that hold none for a place and a bin do not grow (R129). -/
theorem growLine_missing {v n : Nat} {b : BinIx} {lines : List Line}
    (missing : ¬ ∃ z ∈ lines, z.vessel = v ∧ z.number = n ∧ z.bin = b) (a : Nat) : growLine v n b a lines = lines := by
  unfold growLine
  refine (List.map_congr_left fun z listed => if_neg fun same => missing ⟨z, listed, ?_⟩).trans (List.map_id lines)
  simpa [Line.key] using (isFor_iff z v n b).1 same

theorem growLine_created {v n : Nat} {b : BinIx} {lines : List Line}
    (missing : ¬ ∃ z ∈ lines, z.vessel = v ∧ z.number = n ∧ z.bin = b) (a : Nat) :
    growLine v n b a (lines ++ [⟨v, n, b, 0⟩]) = lines ++ [⟨v, n, b, a⟩] := by
  have own : growLine v n b a [⟨v, n, b, 0⟩] = [⟨v, n, b, a⟩] := by simp [growLine, Line.isFor]
  rw [growLine, List.map_append]
  exact congrArg₂ (· ++ ·) (growLine_missing missing a) own

theorem growLine_eq (v n : Nat) (b : BinIx) (a : Nat) (lines : List Line) : growLine v n b a lines =
    lines.map fun z => if z.vessel = v ∧ z.number = n ∧ z.bin = b then { z with kg := z.kg + a } else z := by
  simp only [growLine, isFor_iff, Line.key, Prod.mk.injEq]

section
variable {s : State}

theorem sweepTest_eq (h : Hold) : h.sweepTest = { h with
    phase := if h.phase = .freeDig ∧ 0 < h.declared ∧ h.sweepPoint ≤ h.discharged then .sweep else h.phase } := by
  unfold Hold.sweepTest
  split <;> rfl

/-- A booking raises the discharged amount unless that stands at its maximum, and only then tests it (R18). -/
theorem bookHold_eq {n : HoldIx} {h : Hold} (entry : s.tables.holds[n] = some h) {k : Nat} (some_ : 0 < k) :
    bookHold n k s = s.setHold n (some { h with
      discharged := min (h.discharged + k) (2 ^ 48 - 1)
      phase := if h.phase = .freeDig ∧ 0 < h.declared
          ∧ h.declared * h.threshold / 1000 ≤ min (h.discharged + k) (2 ^ 48 - 1) ∧ h.discharged < 2 ^ 48 - 1
        then .sweep else h.phase }) := by
  have rises : h.discharged < min (h.discharged + k) (2 ^ 48 - 1) ↔ h.discharged < 2 ^ 48 - 1 := by omega
  simp only [bookHold, entry, addKg, show Config.maxKg = 2 ^ 48 - 1 from rfl, rises]
  by_cases below : h.discharged < 2 ^ 48 - 1
  · simp only [below, and_true, if_true, sweepTest_eq, Hold.sweepPoint]
    rfl
  · simp only [below, and_false, if_false]

theorem bookBin_eq {b : BinIx} {y : Bin} (entry : s.tables.bins[b] = some y) (k : Nat) :
    bookBin b k s = s.setBin b (some { y with fill := min (y.fill + k) (2 ^ 48 - 1) }) := by
  simp only [bookBin, entry]
  rfl

end

theorem put_put {α : Type} {n : Nat} (v : Vector α n) (i : Fin n) (x y : α) : put (put v i x) i y = put v i y := by
  simp [put]

theorem setLot_tables (s : State) (i : LotIx) (x : Option Lot) :
    (s.setLot i x).tables = { s.tables with lots := put s.tables.lots i x } := rfl

/-- Two accounts that differ in the pool alone still do with another pool. -/
theorem weighing_pool {x y : Weighing} (same : x = { y with pool := x.pool }) (p : Vector (List Line) 12) :
    { x with pool := p } = { y with pool := p } := by rw [same]

theorem weighing_weigher {x y : Weighing} (same : x = { y with pool := x.pool }) (i : UnloaderIx) (w : Weigher) :
    { x with weighers := put x.weighers i w } = { y with pool := x.pool, weighers := put y.weighers i w } := by
  have weighers : x.weighers = y.weighers := by rw [same]
  rw [weighers]
  conv_lhs => rw [same]

/-- The state after kilograms have been booked to a lot: its amounts, its lines and those of the other lots, and
what the booking leaves alone (R129). -/
structure LotBooked (s : State) (i : LotIx) (l : Lot) (v n : Nat) (b : BinIx) (share inLine : Nat)
    (chain : List BlockIx) (created : List Line) (ok : Bool) (u : State) : Prop where
  attributed : inLine = if ok then share else 0
  tables : u.tables = { s.tables with lots := put s.tables.lots i (some { l with
    chain := chain, total := l.total + share, unattributed := l.unattributed + (share - inLine) }) }
  weighing : u.weighing = { s.weighing with pool := u.weighing.pool }
  shared : sameBut [.tables, .weighing, .notices, .path] s u
  quiet : ok = true → u.notices = s.notices
  exhausted : ok = false → u.notices = (raiseFlag .poolExhausted (num i) l.chain.length false s).notices
  lines : u.linesOf chain = growLine v n b inLine (s.linesOf l.chain ++ created)
  kg : kgOf (u.linesOf chain) = kgOf (s.linesOf l.chain) + inLine
  others : ∀ j : LotIx, j ≠ i → ∀ z ∈ s.tables.lots[j], u.linesOf z.chain = s.linesOf z.chain

theorem bookLot_spec {s : State} {i : LotIx} {l : Lot} (entry : s.tables.lots[i] = some l) (law : s.AccountLaw)
    (v n : Nat) (b : BinIx) (k : Nat) : ∃ chain created ok inLine, LineOutcome s l.chain v n b chain created ok
      ∧ LotBooked s i l v n b (lotShare l k) inLine chain created ok (bookLot i v n b k s) := by
  obtain ⟨chain, created, ok, t, sought, outcome, left⟩ := ensureLine_spec entry v n b
  have lot : t.tables.lots[i] = some { l with chain := chain } := by
    rw [left.tables]
    exact put_get_same _ _ _
  have account : t.AccountLaw := by
    have := (ensureLine_accounts i v n b s).accounts law
    rwa [sought] at this
  obtain ⟨_, _, once, keys⟩ := account.1 i _ lot
  have kgCreated : kgOf (t.linesOf chain) = kgOf (s.linesOf l.chain) := by
    rw [left.lines law, kgOf_append, outcome.created_kg, Nat.add_zero]
  cases ok with
  | true =>
    have key : (v, n, b) ∈ (t.linesOf chain).map Line.key := by
      obtain ⟨m, hm, found⟩ := ensureLine_found i v n b s (by rw [sought])
      rw [sought, lot] at hm
      cases hm
      rwa [sought] at found
    have booked : bookLot i v n b k s = growChain chain v n b (lotShare l k)
        (t.setLot i (some { l with chain := chain, total := l.total + lotShare l k })) := by
      simp only [bookLot, sought, lot, if_true]
      rfl
    have grown (c : List BlockIx) : (t.setLot i (some { l with chain := chain, total := l.total + lotShare l k })).linesOf c
      = t.linesOf c := rfl
    refine ⟨chain, created, true, lotShare l k, outcome, rfl, ?_, ?_, ?_, fun _ => ?_, fun no => absurd no (by decide),
      ?_, ?_, fun j other z hz => ?_⟩
    · rw [booked, growChain_tables, Nat.sub_self, setLot_tables, left.tables, put_put]
      rfl
    · rw [booked, growChain_frame]
      exact weighing_pool left.weighing _
    · rw [booked, growChain_frame]
      exact sameBut_trans left.shared (sameBut_trans (sameBut_mono (sameBut_tables _) (by simp)) (by
        intro p unlisted
        cases p with
        | weighing => simp at unlisted
        | _ => rfl))
    · rw [booked, growChain_frame]
      exact left.quiet rfl
    · rw [booked, growChain_linesOf _ _ _ _ _ once, grown, left.lines law]
    · rw [booked, growChain_linesOf _ _ _ _ _ once, grown, kgOf_growLine _ keys key, kgCreated]
    · obtain ⟨same, apart⟩ := left.others law j other z hz
      rw [booked, growChain_linesOf_other _ _ _ _ _ once apart, grown, same]
  | false =>
    have booked : bookLot i v n b k s = t.setLot i (some { l with
        chain := chain, total := l.total + lotShare l k, unattributed := l.unattributed + lotShare l k }) := by
      simp only [bookLot, sought, lot]
      rfl
    rw [booked]
    refine ⟨chain, created, false, 0, outcome, rfl, ?_, left.weighing, ?_, fun no => absurd no (by decide),
      fun _ => left.exhausted rfl, ?_, kgCreated, fun j other z hz => (left.others law j other z hz).1⟩
    · rw [setLot_tables, left.tables, put_put]
      rfl
    · exact sameBut_trans left.shared (sameBut_mono (sameBut_tables _) (by simp))
    · rw [growLine_nothing]
      exact left.lines law

/-! ### A booking (R129, R130) -/

theorem book_idle {i : UnloaderIx} {s : State} (idle : s.legs[i].state = .idle) {k : Nat} (some_ : 0 < k) :
    book i k s = bookUnassigned i k s := by
  rw [book, if_neg (by omega), if_pos idle]

theorem book_leg {i : UnloaderIx} {s : State} (working : s.legs[i].state ≠ .idle) {k : Nat} (some_ : 0 < k)
    {lot : LotIx} {n : HoldIx} {b : BinIx} {h : Hold} (hlot : s.legs[i].lot = some lot)
    (hhold : s.legs[i].hold = some n) (hbin : s.legs[i].bin = some b) (entry : s.tables.holds[n] = some h) :
    book i k s = addTonnes i k (bookBin b k (bookHold n k (bookLot lot h.vessel h.number b k s))) := by
  rw [book, if_neg (by omega), if_neg working]
  simp only [bookLeg, hlot, hhold, hbin, entry]

/-- A hold and a bin are booked and the tonnes counted after the lot (R129). -/
theorem book_parts {i : UnloaderIx} {s u : State} {k : Nat} (some_ : 0 < k) {n : HoldIx} {b : BinIx} {h : Hold}
    {y : Bin} {x : Weigher} (hold : u.tables.holds[n] = some h) (bin : u.tables.bins[b] = some y)
    (weigher : u.weighing.weighers[i] = x) (booked : book i k s = addTonnes i k (bookBin b k (bookHold n k u))) :
    book i k s = { u with
      tables := { u.tables with
        holds := put u.tables.holds n (some { h with
          discharged := min (h.discharged + k) (2 ^ 48 - 1)
          phase := if h.phase = .freeDig ∧ 0 < h.declared
              ∧ h.declared * h.threshold / 1000 ≤ min (h.discharged + k) (2 ^ 48 - 1) ∧ h.discharged < 2 ^ 48 - 1
            then .sweep else h.phase })
        bins := put u.tables.bins b (some { y with fill := min (y.fill + k) (2 ^ 48 - 1) }) }
      weighing := { u.weighing with weighers := put u.weighing.weighers i { x with
        residue := (x.residue + k) % 1000
        pendingTonnes := min (x.pendingTonnes + (x.residue + k) / 1000) 999999999 } } } := by
  subst weigher
  rw [booked, bookHold_eq hold some_, bookBin_eq (s := u.setHold n _) bin]
  rfl

/-- Settles O18: the four situations of the account decide the line, and each part of the booking follows. -/
theorem kilogramsAreBooked : Obligations.KilogramsAreBooked := by
  intro i k s x some_ weigher
  refine ⟨fun idle => ?unassigned, fun lot n b l h y working law hlot hhold hbin lotEntry holdEntry binEntry => ?leg⟩
  case unassigned =>
    subst weigher
    rw [book_idle idle some_]
    rfl
  case leg =>
    have parts := book_leg working some_ hlot hhold hbin holdEntry
    obtain ⟨chain, created, ok, inLine, outcome, booked⟩ := bookLot_spec lotEntry law h.vessel h.number b k
    generalize bookLot lot h.vessel h.number b k s = u at booked parts
    have sameWeigher : u.weighing.weighers[i] = x := by
      rw [booked.weighing]
      exact weigher
    have final := book_parts some_ (by rw [booked.tables]; exact holdEntry) (by rw [booked.tables]; exact binEntry)
      sameWeigher parts
    have lines (c : List BlockIx) : (book i k s).linesOf c = u.linesOf c := by
      rw [final]
      rfl
    have notices : (book i k s).notices = u.notices := by rw [final]
    have flags : inLine ≠ lotShare l k → ok = false := fun apart => by
      cases ok with
      | false => rfl
      | true => exact absurd booked.attributed apart
    have attributed : ok = true → inLine = lotShare l k := fun yes => by rw [booked.attributed, if_pos yes]
    have unattributed : ok = false → inLine = 0 := fun no => by rw [booked.attributed, no]; rfl
    refine ⟨lotShare l k, chain, inLine, rfl, ?_, ?_, ?_, ?_, ?_, fun apart => ?_, fun j other => ⟨?_, fun z hz => ?_⟩,
      ?_, ?_, ?_, ?_, ?_, ?_⟩
    · rw [final]
      show u.tables.lots[lot] = _
      rw [booked.tables]
      exact put_get_same _ _ _
    · cases ok with
      | true => exact Nat.le_of_eq (attributed rfl)
      | false => exact (unattributed rfl).symm ▸ Nat.zero_le _
    · cases ok with
      | true => exact .inl (attributed rfl)
      | false => exact .inr (unattributed rfl)
    · rw [lines, booked.kg]
    · rintro found room _ rfl foundRule roomRule
      rw [lines, booked.lines, notices, foundRule, roomRule]
      refine ⟨fun here => ?_, fun missing place => ?_, fun q missing full free lowest => ?_, fun place => ?_,
        fun missing full taken => ?_⟩
      · obtain ⟨rfl, rfl, yes⟩ := outcome.of_found here
        refine ⟨rfl, attributed yes, ?_⟩
        rw [List.append_nil, growLine_eq, attributed yes]
      · obtain ⟨rfl, rfl, yes⟩ := outcome.of_room missing place
        refine ⟨rfl, attributed yes, ?_⟩
        rw [growLine_created missing, attributed yes]
      · obtain ⟨rfl, rfl, yes⟩ := outcome.of_block missing full free lowest
        refine ⟨rfl, attributed yes, ?_⟩
        rw [growLine_created missing, attributed yes]
      · exact booked.quiet (outcome.placed place)
      · obtain ⟨rfl, rfl, no⟩ := outcome.of_exhausted missing full taken
        refine ⟨rfl, unattributed no, ?_, booked.exhausted no⟩
        rw [List.append_nil, unattributed no, growLine_nothing]
    · rw [notices, booked.exhausted (flags apart)]
      exact raiseFlag_get_same _ _ _ _ _
    · rw [final]
      show u.tables.lots[j] = _
      rw [booked.tables]
      exact put_get_other _ _ other
    · rw [lines, booked.others j other z hz]
    · rw [final]
      show put u.tables.holds n _ = _
      rw [booked.tables]
    · rw [final]
      show put u.tables.bins b _ = _
      rw [booked.tables]
    · rw [final]
      dsimp only
      exact weighing_weigher booked.weighing i _
    · rw [final]
      show u.tables.stations = _
      rw [booked.tables]
    · rw [final]
      show u.tables.routes = _
      rw [booked.tables]
    · refine sameBut_trans booked.shared ?_
      rw [final]
      intro p unlisted
      cases p with
      | tables | weighing => simp at unlisted
      | _ => rfl

end Sys2Proof.Machine
end

