-- ==== Sys2Proof/Proofs/LegStarts.lean ====
section
/-!
PROOFS. An accepted LEG START: the leg's record, its route's user count, its account line, its filters, its grant
condition and the power recheck (R28 to R31, R65, R133).
-/

namespace Sys2Proof.Machine

/-! ### The checks pass (R28 to R30) -/

theorem yesNo_eq {w : Word} (small : w.toNat ≤ 1) : yesNo w = some (decide (w.toNat = 1)) := by
  obtain rfl | rfl : w = 0 ∨ w = 1 := by bv_omega
  · rfl
  · rfl

/-- ACTIVE legs that share a belt with the new one and merge cleanly with it leave no conflict (R30). -/
theorem placeRefusal_none {s : State} {lot : LotIx} {e : Route} {l : Lot} {b : Bin}
    (permitted : l.permitted.getLsbD e.bin.val = true) (isOpen : b.isOpen = true)
    (binLot : ∀ x ∈ b.lot, s.compatible x lot = true)
    (clean : ∀ j : UnloaderIx, s.legs[j].state = .active → sharesBelt e.belts s.legs[j].belts = true →
      (∃ x, s.legs[j].lot = some x ∧ s.compatible x lot = true) ∧ s.legs[j].bin = some e.bin
        ∧ sameFromFirstShared e.belts s.legs[j].belts = true
        ∧ settingsDiffer e.settings (s.legSettings s.legs[j]) = false) : s.placeRefusal lot e l b = none := by
  have noLot : ¬ (s.activeLegs.any fun j => s.lotConflict lot e s.legs[j]) = true := by
    rw [activeLegs_any_iff]
    rintro ⟨j, active, conflict⟩
    obtain ⟨shares, unlike⟩ := (lotConflict_iff s lot e s.legs[j]).1 conflict
    obtain ⟨⟨x, hx, same⟩, _⟩ := clean j active ((sharesBelt_iff _ _).2 shares)
    exact absurd same (by simp [unlike x hx])
  have noRoute : ¬ (s.activeLegs.any fun j => s.routeConflict e s.legs[j]) = true := by
    rw [activeLegs_any_iff]
    rintro ⟨j, active, conflict⟩
    rw [State.routeConflict, Bool.and_eq_true] at conflict
    obtain ⟨shares, conflict⟩ := conflict
    obtain ⟨_, bin, merges, settings⟩ := clean j active shares
    rw [bin, merges, settings] at conflict
    simp at conflict
  rw [placeRefusal_neighbours permitted isOpen binLot, if_neg noLot, if_neg noRoute]

/-- A LEG START that meets no refusal starts the leg and replies with its record (R31). -/
theorem legStart_accepted {port : Port} {m : Message} {s : State} {i : UnloaderIx} {n : HoldIx} {k : RouteIx}
    {h : Hold} {e : Route} {lot : LotIx} (serves : s.serves m 1 4) (leg : (paramAt m 0).toNat = num i)
    (hold : (paramAt m 1).toNat = num n) (route : (paramAt m 2).toNat = num k) (disable : (paramAt m 3).toNat ≤ 1)
    (passes : s.legStartRefusal i n k = none) (holdEntry : s.tables.holds[n] = some h)
    (routeEntry : s.tables.routes[k] = some e) (hlot : h.lot = some lot) {t : State}
    (started : startLeg ⟨i, n, k, decide ((paramAt m 3).toNat = 1)⟩ h lot e s = t) :
    exec (.legStart port m) s = .next (replied port m 5 0 (startWords t.legs[i]) t) := by
  have read : parseStart (requestTaken port m 5) = .ok ⟨i, n, k, decide ((paramAt m 3).toNat = 1)⟩ := by
    apply parseStart_ok <;> rw [params_taken]
    exacts [ixOf_num i leg, ixOf_num n hold, ixOf_num k route, yesNo_eq disable]
  show Host.Outcome.next (whenOn (requestArrives port m 5 (served takeLegStart)) s) = _
  refine next_congr ((served_own serves fun _ _ => rfl).trans ?_)
  rw [read]
  dsimp only
  unfold legStartInRange
  simp only [passes, holdEntry, routeEntry, hlot, started]
  rfl

/-! ### The power recheck (R65) -/

/-- What the power recheck leaves of a leg's grant (R62, R65). -/
def State.rechecked (s : State) (j : UnloaderIx) : Nat :=
  (scaleToPower s (Vector.ofFn fun j => if s.legs[j].state = .active then s.legs[j].g else 0))[j]

theorem rechecked_le {s : State} {j : UnloaderIx} (active : s.legs[j].state = .active) :
    s.rechecked j ≤ s.legs[j].g := by
  refine Nat.le_trans (scaleToPower_le s _ j) ?_
  rw [ofFn_get, if_pos active]

/-- An ACTIVE leg whose grant the recheck changes is published anew, and any other leg stays (R65, R66). -/
theorem powerRecheck_published (s : State) (j : UnloaderIx) : (powerRecheck s).legs[j] =
    if s.legs[j].state = .active ∧ s.rechecked j ≠ s.legs[j].g then s.legs[j].published (s.rechecked j)
    else s.legs[j] := by
  rw [powerRecheck_eq, publishPass_legs _ _ j _ _ (allIx_nodup 6)]
  by_cases active : s.legs[j].state = .active
  · have now : (Vector.ofFn fun j : UnloaderIx => if s.legs[j].state = .active then s.legs[j].g else 0)[j] =
        s.legs[j].g := by rw [ofFn_get, if_pos active]
    simp only [mem_allIx, true_and, now, decide_eq_true_eq]
    rfl
  · rw [if_neg fun c => active c.2.1, if_neg fun c => active c.1]

theorem powerRecheck_still {s : State} {j : UnloaderIx} (still : s.legs[j].state ≠ .active ∨ s.legs[j].g = 0) :
    (powerRecheck s).legs[j] = s.legs[j] := by
  rw [powerRecheck_published]
  refine if_neg ?_
  rintro ⟨active, changes⟩
  rcases still with inactive | none_
  · exact inactive active
  · have := rechecked_le active
    omega

/-! ### The parts of a start (R31) -/

theorem occupyRoute_eq {k : RouteIx} {s : State} {e : Route} (entry : s.tables.routes[k] = some e) :
    occupyRoute k s = s.setRoute k (some { e with users := e.users + 1 }) := by
  rw [occupyRoute, entry]

theorem clearFiltersOf_eq {i : UnloaderIx} {s : State} {a : Addr} {d : UnloaderData}
    (station : s.unloaderStation i = some (a, d)) :
    clearFiltersOf i s = s.setWatch a (s.watch[a].map WatchRecord.clearFilters) := by
  rw [clearFiltersOf, station]

theorem unloaderStation_congr {s t : State} (same : t.tables.stations = s.tables.stations) (i : UnloaderIx) :
    t.unloaderStation i = s.unloaderStation i := by
  unfold State.unloaderStation State.findStation
  rw [same]

/-- A grant condition does not read the conditions, the grants or the queues (R41). -/
theorem grantCondition_legs {s t : State} {i : UnloaderIx} {legs : Vector Leg 6} {path : Path}
    (frame : t = { s with legs := legs, path := path }) {c : Option GrantCondition}
    (leg : t.legs[i] = { s.legs[i] with condition := c }) : t.grantCondition i = s.grantCondition i := by
  unfold State.grantCondition
  rw [leg]
  subst frame
  rfl

/-- The notices after a cause depend on the notices alone (R194). -/
theorem raiseFlag_notices_congr {s t : State} (same : t.notices = s.notices) (f : Flag) (subject value : Nat)
    (disabled : Bool) :
    (raiseFlag f subject value disabled t).notices = (raiseFlag f subject value disabled s).notices := by
  cases set : s.notices.flags.get f with
  | true => rw [raiseFlag_set (s := t) (by rw [same, set]), raiseFlag_set set, same]
  | false => rw [raiseFlag_notices (s := t) (by rw [same, set]), raiseFlag_notices set, same]

/-- A leg of the start's own record, with its route occupied (R31). -/
def occupied (i : UnloaderIx) (k : RouteIx) (record : Leg) (e : Route) (s : State) : State :=
  (s.setLeg i record).setRoute k (some { e with users := e.users + 1 })

theorem occupied_sameBut (i : UnloaderIx) (k : RouteIx) (record : Leg) (e : Route) (s : State) :
    sameBut [.tables, .legs] s (occupied i k record e s) := by
  intro p unlisted
  cases p with
  | tables | legs => simp at unlisted
  | _ => rfl

/-- A start, step by step, once its account line has been sought (R31). -/
theorem startLeg_eq {x : StartOrder} {h : Hold} {lot : LotIx} {e : Route} {s u : State} {ok : Bool} {a : Addr}
    {d : UnloaderData} (entry : s.tables.routes[x.route] = some e)
    (sought : ensureLine lot h.vessel h.number e.bin (occupied x.leg x.route (s.legs[x.leg].started x e lot) e s) =
      (u, ok)) (station : u.unloaderStation x.leg = some (a, d)) :
    startLeg x h lot e s =
      powerRecheck (evaluateLeg x.leg (u.setWatch a (u.watch[a].map WatchRecord.clearFilters))) := by
  have first : occupyRoute x.route (s.setLeg x.leg (s.legs[x.leg].started x e lot)) =
      occupied x.leg x.route (s.legs[x.leg].started x e lot) e s := occupyRoute_eq (s := s.setLeg x.leg _) entry
  unfold startLeg
  rw [first]
  dsimp only
  rw [sought]
  dsimp only
  rw [clearFiltersOf_eq station]

/-- The account of a lot does not see the start's own record and route (R133). -/
theorem outcome_occupied {s : State} {i : UnloaderIx} {k : RouteIx} {record : Leg} {e : Route} {old chain : List BlockIx}
    {v n : Nat} {b : BinIx} {created : List Line} {ok : Bool}
    (outcome : LineOutcome (occupied i k record e s) old v n b chain created ok) :
    LineOutcome s old v n b chain created ok := by
  cases outcome with
  | stands found => exact .stands found
  | room missing room => exact .room missing room
  | block q missing full free lowest => exact .block q missing full free lowest
  | exhausted missing full taken => exact .exhausted missing full taken

/-- Settles O42: the checks pass, the account line is sought on the leg's own record, and the recheck can only cut the
other legs. -/
theorem legStartAccepted : Obligations.LegStartAccepted := by
  intro port m s i n k h e lot l b a d serves leg hold route disable idle station slot holdEntry hlot phase routeEntry
    own lotEntry binEntry permitted isOpen binLot clean
  have ready : s.ready i := ⟨idle, by simp [station], slot⟩
  have passes : s.legStartRefusal i n k = none :=
    (legStartRefusal_place ready holdEntry hlot phase routeEntry own lotEntry binEntry).trans
      (placeRefusal_none permitted isOpen binLot clean)
  obtain ⟨record, hrecord⟩ : ∃ record, record = s.legs[i].started ⟨i, n, k, decide ((paramAt m 3).toNat = 1)⟩ e lot :=
    ⟨_, rfl⟩
  obtain ⟨chain, created, ok, u, sought, outcome, left⟩ :=
    ensureLine_spec (s := occupied i k record e s) lotEntry h.vessel h.number e.bin
  have outcome := outcome_occupied outcome
  have stations : u.tables.stations = s.tables.stations := by rw [left.tables]; rfl
  have legs : u.legs = put s.legs i record := left.shared .legs (by decide)
  have watch : u.watch = s.watch := left.shared .watch (by decide)
  obtain ⟨v, hv⟩ : ∃ v, v = u.setWatch a (u.watch[a].map WatchRecord.clearFilters) := ⟨_, rfl⟩
  have vLegs : v.legs = put s.legs i record := by rw [hv]; exact legs
  obtain ⟨t, started⟩ : ∃ t, startLeg ⟨i, n, k, decide ((paramAt m 3).toNat = 1)⟩ h lot e s = t := ⟨_, rfl⟩
  have rechecked : t = powerRecheck (evaluateLeg i v) := by
    rw [← started, startLeg_eq routeEntry (by rw [← hrecord]; exact sought)
      ((unloaderStation_congr stations i).trans station), hv]
  have ownBefore : (evaluateLeg i v).legs[i] = { record with condition := some (v.grantCondition i) } := by
    refine (put_get_same _ _ _).trans ?_
    rw [vLegs, put_get_same]
  have otherBefore (j : UnloaderIx) (other : j ≠ i) : (evaluateLeg i v).legs[j] = s.legs[j] := by
    refine (put_get_other _ _ other).trans ?_
    rw [vLegs, put_get_other _ _ other]
  have ownLeg : t.legs[i] = { record with condition := some (v.grantCondition i) } := by
    rw [rechecked, powerRecheck_still (.inr (by rw [ownBefore, hrecord]; rfl)), ownBefore]
  have frame : t = { v with legs := t.legs, path := t.path } := by
    rw [rechecked]
    exact powerRecheck_frame (evaluateLeg i v)
  have condition : t.grantCondition i = v.grantCondition i :=
    grantCondition_legs frame (by rw [ownLeg, vLegs, put_get_same])
  have weighing : t.weighing = u.weighing := by rw [frame, hv]; rfl
  have notices : t.notices = u.notices := by rw [frame, hv]; rfl
  have tables : t.tables = u.tables := by rw [frame, hv]; rfl
  have lines (c : List BlockIx) : t.linesOf c = u.linesOf c := by
    unfold State.linesOf
    rw [weighing]
  refine ⟨t, (t.grantCondition i).code, chain, ?exec, ?leg, rfl, ?tables, ?line, ?weighing, fun law => ?law, ?watch,
    fun j other inactive => ?inactive, fun j other active => ?active, ?shared⟩
  case exec =>
    have words : startWords t.legs[i] = [word (num lot), word (num e.bin), word (s.legs[i].pendingFeed.getD 0),
        word (t.grantCondition i).code] := by
      rw [ownLeg, condition, hrecord]
      rfl
    rw [← words]
    exact legStart_accepted serves leg hold route disable passes holdEntry routeEntry hlot started
  case leg =>
    rw [ownLeg, condition, hrecord]
    rfl
  case tables =>
    rw [tables, left.tables]
    rfl
  case line =>
    cases ok with
    | true =>
      obtain ⟨l', entry, key⟩ := ensureLine_found lot h.vessel h.number e.bin (occupied i k record e s) (by rw [sought])
      rw [sought] at entry key
      have same : u.tables.lots[lot] = some { l with chain := chain } := by
        rw [left.tables]
        exact put_get_same _ _ _
      rw [same] at entry
      cases entry
      obtain ⟨y, listed, names⟩ := List.mem_map.1 key
      simp only [Line.key, Prod.mk.injEq] at names
      exact .inl ⟨y, by rwa [lines], names⟩
    | false =>
      right
      rw [notices, left.exhausted rfl]
      exact raiseFlag_get_same _ _ _ _ _
  case weighing =>
    rw [weighing]
    exact left.weighing
  case law =>
    rintro found room _ rfl foundRule roomRule
    have law : (occupied i k record e s).AccountLaw := law
    rw [lines, left.lines law, notices, foundRule, roomRule]
    refine ⟨fun here => ?_, fun missing place => ?_, fun q missing full free lowest => ?_, fun place => ?_,
      fun missing full taken => ?_, fun j other z hz => ?_⟩
    · obtain ⟨rfl, rfl, _⟩ := outcome.of_found here
      exact ⟨rfl, List.append_nil _⟩
    · obtain ⟨rfl, rfl, _⟩ := outcome.of_room missing place
      exact ⟨rfl, rfl⟩
    · obtain ⟨rfl, rfl, _⟩ := outcome.of_block missing full free lowest
      exact ⟨rfl, rfl⟩
    · exact left.quiet (outcome.placed place)
    · obtain ⟨rfl, rfl, no⟩ := outcome.of_exhausted missing full taken
      exact ⟨rfl, List.append_nil _, (left.exhausted no).trans (raiseFlag_notices_congr
        (s := s) (t := occupied i k record e s) rfl _ _ _ _)⟩
    · rw [lines]
      exact (left.others law j other z hz).1
  case watch =>
    rw [frame, hv]
    show put u.watch a (u.watch[a].map WatchRecord.clearFilters) = _
    rw [watch]
    rfl
  case inactive =>
    rw [rechecked, powerRecheck_still (.inl (by rw [otherBefore j other]; exact inactive)), otherBefore j other]
  case active =>
    have leg := powerRecheck_published (evaluateLeg i v) j
    rw [← rechecked, otherBefore j other] at leg
    have least := rechecked_le (s := evaluateLeg i v) (j := j) (by rw [otherBefore j other]; exact active)
    rw [otherBefore j other] at least
    by_cases changes : (evaluateLeg i v).rechecked j = s.legs[j].g
    · rw [if_neg (fun c => c.2 changes)] at leg
      rw [leg]
      exact ⟨rfl, Nat.le_refl _, fun other => absurd rfl other, fun _ => rfl⟩
    · rw [if_pos ⟨active, changes⟩] at leg
      rw [leg]
      exact ⟨rfl, least, fun _ => rfl, fun same => absurd same changes⟩
  case shared =>
    refine sameBut_trans (sameBut_mono (occupied_sameBut i k record e s) (by simp))
      (sameBut_trans (sameBut_mono left.shared (by simp)) (t := u) ?_)
    rw [frame, hv]
    intro p unlisted
    cases p with
    | tables | legs | weighing | watch | path | notices => simp at unlisted
    | _ => rfl

end Sys2Proof.Machine
end

