-- ==== Sys2Proof/Proofs/GrantConditions.lean ====
section
/-!
PROOFS. The grant condition of a leg: the first cause that holds (R41 to R44).
-/

namespace Sys2Proof.Machine

section
variable {s : State}

theorem silentAt_iff {a : Addr} : s.silentAt a = true ↔ ∃ w ∈ s.watch[a], w.state = .silent := by
  unfold State.silentAt
  cases s.watch[a] <;> simp

theorem choked_iff {i : UnloaderIx} : s.choked i = true ↔
    ∃ a d, s.unloaderStation i = some (a, d) ∧ ∃ w ∈ s.watch[a], w.choke.isSet = true := by
  unfold State.choked
  cases s.unloaderStation i with
  | none => simp
  | some x =>
    obtain ⟨a, d⟩ := x
    simp only [Option.some.injEq, Prod.mk.injEq]
    constructor
    · intro choked
      refine ⟨a, d, ⟨rfl, rfl⟩, ?_⟩
      split at choked
      next w record => exact ⟨w, record, choked⟩
      · cases choked
    · rintro ⟨_, _, ⟨rfl, rfl⟩, w, record, set⟩
      rw [show s.watch[a] = some w from record]
      exact set

/-- A belt that is defined holds its legs where it is UNSURE or SILENT, or holds an UNKNOWN slug (R42). -/
theorem beltWaits_iff {b : BeltIx} (station : (s.beltStation b).isSome) (record : (s.tracker.belts[b]).isSome) :
    s.beltWaits b = true ↔ ∃ r ∈ s.tracker.belts[b], ∃ a d, s.beltStation b = some (a, d)
      ∧ (r.condition = .unsure ∨ (∃ w ∈ s.watch[a], w.state = .silent) ∨ ∃ y ∈ r.queue, y.grain = none) := by
  obtain ⟨⟨a, d⟩, station⟩ := Option.isSome_iff_exists.1 station
  obtain ⟨r, record⟩ := Option.isSome_iff_exists.1 record
  have waits : s.beltWaits b = (r.condition == .unsure || s.silentAt a || r.queue.any fun y => y.grain.isNone) := by
    simp only [State.beltWaits, station, record]
  rw [waits, record, station]
  simp only [Bool.or_eq_true, beq_iff_eq, silentAt_iff, List.any_eq_true, Option.isNone_iff_eq_none, or_assoc]
  constructor
  · exact fun cause => ⟨r, rfl, a, d, rfl, cause⟩
  · rintro ⟨_, ⟨⟩, _, _, ⟨⟩, cause⟩
    exact cause

/-- A diverter that is defined holds its legs where it does not report the position, or is SILENT (R43). -/
theorem diverterWaits_iff {x : Setting} (station : (s.diverterStation x.diverter).isSome)
    (record : (s.seg.diverters[x.diverter]).isSome) : s.diverterWaits x = true ↔
      ∃ r ∈ s.seg.diverters[x.diverter], ∃ a e, s.diverterStation x.diverter = some (a, e)
        ∧ (r.position ≠ some x.position ∨ ∃ w ∈ s.watch[a], w.state = .silent) := by
  obtain ⟨⟨a, e⟩, station⟩ := Option.isSome_iff_exists.1 station
  obtain ⟨r, record⟩ := Option.isSome_iff_exists.1 record
  have waits : s.diverterWaits x = (r.position != some x.position || s.silentAt a) := by
    simp only [State.diverterWaits, station, record]
  rw [waits, record, station]
  simp only [Bool.or_eq_true, bne_iff_ne, silentAt_iff]
  constructor
  · exact fun cause => ⟨r, rfl, a, e, rfl, cause⟩
  · rintro ⟨_, ⟨⟩, _, _, ⟨⟩, cause⟩
    exact cause

theorem binFull_iff {l : Leg} {n : BinIx} {x : Bin} (bin : l.bin = some n) (entry : s.tables.bins[n] = some x) :
    s.binFull l = true ↔ x.capacity - x.margin ≤ x.fill := by
  simp only [State.binFull, bin, entry, Bin.full, decide_eq_true_eq]

theorem gapBlocker_iff {d : BeltData} {r : BeltRecord} {lot : LotIx} {bin : BinIx} :
    (s.gapBlocker d r lot bin).isSome = true ↔
      ∃ y ∈ r.queue.getLast?, ¬ s.goesWith y lot bin ∧ y.near d r.position := by
  unfold State.gapBlocker
  cases r.queue.getLast? with
  | none => simp
  | some y =>
    have blocks : (s.incompatibleSlug y lot bin && nearLoading d r y) = true ↔
        ¬ s.goesWith y lot bin ∧ y.near d r.position := by
      rw [Bool.and_eq_true, incompatibleSlug_iff, nearLoading_iff]
    simp only [Option.mem_def, Option.some.injEq, exists_eq_left', ← blocks]
    split
    next blocked => simp [blocked]
    next free => simp [free]

theorem gapWaits_iff {l : Leg} {lot : LotIx} {k : RouteIx} {bin : BinIx} (hlot : l.lot = some lot)
    (hroute : l.route = some k) (hbin : l.bin = some bin) : s.gapWaits l = true ↔
      ∃ b ∈ l.belts, ∃ r ∈ s.tracker.belts[b], ∃ d ∈ s.beltData b, ∃ y ∈ r.queue.getLast?,
        ¬ s.goesWith y lot bin ∧ y.near d r.position := by
  have grain : l.grain = some ⟨lot, k, l.belts, bin⟩ := by simp only [Leg.grain, hlot, hroute, hbin]
  simp only [State.gapWaits, grain, List.any_eq_true]
  refine exists_congr fun b => and_congr_right fun _ => ?_
  cases s.tracker.belts[b] with
  | none => simp
  | some r =>
    cases s.beltData b with
    | none => simp
    | some d => simp [gapBlocker_iff]

end

/-- The first cause that holds is the grant condition (R41). -/
theorem grantCondition_first {s : State} {i : UnloaderIx} {choked belt diverter full gap : Prop}
    (isChoked : s.choked i = true ↔ choked) (isBelt : (s.legs[i].belts.any s.beltWaits) = true ↔ belt)
    (isDiverter : ((s.legSettings s.legs[i]).any s.diverterWaits) = true ↔ diverter)
    (isFull : s.binFull s.legs[i] = true ↔ full) (isGap : s.gapWaits s.legs[i] = true ↔ gap) :
    (choked → s.grantCondition i = .choked)
    ∧ (¬ choked → belt → s.grantCondition i = .waitBelt)
    ∧ (¬ choked → ¬ belt → diverter → s.grantCondition i = .waitDiverter)
    ∧ (¬ choked → ¬ belt → ¬ diverter → full → s.grantCondition i = .binFull)
    ∧ (¬ choked → ¬ belt → ¬ diverter → ¬ full → gap → s.grantCondition i = .waitGap)
    ∧ (¬ choked → ¬ belt → ¬ diverter → ¬ full → ¬ gap → s.grantCondition i = .flowing) := by
  rw [← isChoked, ← isBelt, ← isDiverter, ← isFull, ← isGap]
  unfold State.grantCondition
  dsimp only
  refine ⟨fun h => ?_, fun h h' => ?_, fun h h' h'' => ?_, fun h h' h'' c => ?_, fun h h' h'' c c' => ?_,
    fun h h' h'' c c' => ?_⟩
  · rw [if_pos h]
  · rw [if_neg h, if_pos h']
  · rw [if_neg h, if_neg h', if_pos h'']
  · rw [if_neg h, if_neg h', if_neg h'', if_pos c]
  · rw [if_neg h, if_neg h', if_neg h'', if_neg c, if_pos c']
  · rw [if_neg h, if_neg h', if_neg h'', if_neg c, if_neg c']

end Sys2Proof.Machine
end

