-- ==== Sys2Proof/Proofs/PeriodExpiries.lean ====
section
/-!
PROOFS. An expiry of the allocation period timer: what each of the five stages makes of the ceiling of an ACTIVE
leg, and what the expiry leaves (O27; R52 to R66).
-/

namespace Sys2Proof.Machine

/-! ### What the stages read -/

theorem unloaderNumber_station {s : State} {i : UnloaderIx} {a : Addr} {d : UnloaderData}
    (station : s.unloaderStation i = some (a, d)) (f : UnloaderData → Nat) : s.unloaderNumber i f = f d := by
  simp only [State.unloaderNumber, State.unloaderData, station, Option.map_some]

theorem legDerated_iff {s : State} {l : Leg} : s.legDerated l = true ↔
    ∃ n ∈ l.hold, ∃ h ∈ s.tables.holds[n], h.phase = .sweep ∨ h.phase = .empty := by
  unfold State.legDerated
  cases l.hold with
  | none => simp
  | some n =>
    simp only [Option.mem_def, Option.some.injEq, exists_eq_left']
    cases s.tables.holds[n] <;> simp

/-- Two quantities that agree on the ACTIVE legs have one sum (R61). -/
theorem activeSum_congr {s : State} {x y : UnloaderIx → Nat}
    (agree : ∀ i : UnloaderIx, s.legs[i].state = .active → x i = y i) : s.activeSum x = s.activeSum y := by
  unfold State.activeSum
  refine congrArg List.sum (List.map_congr_left fun i _ => ?_)
  by_cases active : s.legs[i].state = .active
  · rw [if_pos active, if_pos active, agree i active]
  · rw [if_neg active, if_neg active]

/-- Two quantities that agree on the ACTIVE legs have one sum on a belt (R59). -/
theorem beltSum_congr {s : State} {b : BeltIx} {x y : UnloaderIx → Nat}
    (agree : ∀ i : UnloaderIx, s.legs[i].state = .active → x i = y i) : s.beltSum b x = s.beltSum b y := by
  unfold State.beltSum
  refine congrArg List.sum (List.map_congr_left fun i _ => ?_)
  by_cases crosses : s.crosses i b = true
  · rw [if_pos crosses, if_pos crosses, agree i (by
      simp only [State.crosses, Bool.and_eq_true, beq_iff_eq] at crosses; exact crosses.1)]
  · rw [if_neg crosses, if_neg crosses]

/-! ### The stages at an ACTIVE leg -/

section
variable {s : State} {i : UnloaderIx} {a : Addr} {d : UnloaderData}

/-- Stages 1 and 2 give an ACTIVE leg its effective cap and its requested feed where it is FLOWING, within a ramp
step above its grant (R56 to R58). -/
theorem stageRamp_active (active : s.legs[i].state = .active) (station : s.unloaderStation i = some (a, d)) :
    (stageRamp s (stageCeiling s))[i] = min (s.legs[i].g + d.rampStep)
      (if s.legs[i].condition = some .flowing then
        min (if s.legDerated s.legs[i] = true then d.ratedCap * d.sweepPercent / 100 else d.ratedCap) s.legs[i].r
      else 0) := by
  have cap : s.effectiveCap i = if s.legDerated s.legs[i] = true then d.ratedCap * d.sweepPercent / 100
      else d.ratedCap := unloaderNumber_station station _
  rw [stageRamp, ofFn_get, stageCeiling, ofFn_get, unloaderNumber_station station, cap, Nat.min_comm]
  simp only [active, true_and]

end

/-- One belt takes its share of the ceilings of the ACTIVE legs (R59). -/
theorem shareBelt_active {s : State} {v : Ceilings} {b : BeltIx} {x y : UnloaderIx → Nat}
    (before : ∀ i : UnloaderIx, s.legs[i].state = .active → v[i] = x i)
    (undefined : s.beltData b = none → y = x)
    (defined : ∀ d, s.beltData b = some d → ∀ i, y i =
      if d.capacity < s.beltSum b x ∧ s.legs[i].belts.contains b = true then x i * d.capacity / s.beltSum b x
      else x i) (i : UnloaderIx) (active : s.legs[i].state = .active) : (shareBelt s v b)[i] = y i := by
  cases data : s.beltData b with
  | none => rw [shareBelt, data, undefined data]; exact before i active
  | some d =>
    have crosses : s.crosses i b = s.legs[i].belts.contains b := by
      rw [State.crosses, active]; exact Bool.true_and _
    rw [defined d data]
    simp only [shareBelt, data, beltSum_congr before]
    by_cases beyond : d.capacity < s.beltSum b x
    · simp only [beyond, true_and, if_true, ofFn_get, crosses, before i active]
    · simp only [beyond, false_and, if_false, before i active]

/-- The ceilings after stage 3, belt by belt in index order (R59). -/
theorem foldl_shareBelt_active {s : State} {top : Nat → UnloaderIx → Nat}
    (undefined : ∀ b : BeltIx, s.beltData b = none → top (b.val + 1) = top b.val)
    (defined : ∀ b d, s.beltData b = some d → ∀ i : UnloaderIx, top (b.val + 1) i =
      if d.capacity < s.beltSum b (top b.val) ∧ s.legs[i].belts.contains b = true then
        top b.val i * d.capacity / s.beltSum b (top b.val)
      else top b.val i) : ∀ (l : List BeltIx) (n : Nat) (v : Ceilings), l.map Fin.val = List.range' n l.length →
    (∀ i : UnloaderIx, s.legs[i].state = .active → v[i] = top n i) →
    ∀ i : UnloaderIx, s.legs[i].state = .active → (l.foldl (shareBelt s) v)[i] = top (n + l.length) i
  | [], _, _, _, start => start
  | b :: l, n, v, order, start => by
    rw [List.map_cons, List.length_cons, List.range'_succ, List.cons.injEq] at order
    obtain ⟨rfl, later⟩ := order
    intro i active
    rw [List.foldl_cons, foldl_shareBelt_active undefined defined l (b.val + 1) _ later
      (shareBelt_active start (undefined b) (defined b)) i active, List.length_cons, Nat.add_right_comm,
      Nat.add_assoc]

theorem stageBelts_active {s : State} {top : Nat → UnloaderIx → Nat} {v : Ceilings}
    (undefined : ∀ b : BeltIx, s.beltData b = none → top (b.val + 1) = top b.val)
    (defined : ∀ b d, s.beltData b = some d → ∀ i : UnloaderIx, top (b.val + 1) i =
      if d.capacity < s.beltSum b (top b.val) ∧ s.legs[i].belts.contains b = true then
        top b.val i * d.capacity / s.beltSum b (top b.val)
      else top b.val i) (start : ∀ i : UnloaderIx, s.legs[i].state = .active → v[i] = top 0 i)
    (i : UnloaderIx) (active : s.legs[i].state = .active) : (stageBelts s v)[i] = top 8 i :=
  foldl_shareBelt_active undefined defined (allIx 8) 0 v (by decide) start i active

/-- Stage 4 gives nothing without headroom, all where the headroom suffices, and otherwise a share (R62, R63). -/
theorem scaleToPower_active {s : State} {v : Ceilings} {i : UnloaderIx} : (scaleToPower s v)[i] =
    if s.headroom ≤ 0 then 0 else if (s.demand fun j => v[j]) ≤ s.headroom.toNat then v[i]
      else v[i] * s.headroom.toNat / s.demand fun j => v[j] := by
  unfold scaleToPower
  dsimp only
  split
  · exact replicate_get _ _
  · split
    · rfl
    · exact ofFn_get _ _

theorem cutByPower_active {s : State} {v : Ceilings} {i : UnloaderIx} (active : s.legs[i].state = .active) :
    cutByPower s v i = decide (s.headroom ≤ 0 ∧ 0 < v[i]) := by
  rw [cutByPower, active, Bool.decide_and]
  simp

theorem cutByPower_rest {s : State} {v : Ceilings} {i : UnloaderIx} (rest : s.legs[i].state ≠ .active) :
    cutByPower s v i = false := by
  rw [cutByPower, beq_false_of_ne rest, Bool.and_false, Bool.false_and]

/-- The legs that the power cuts are counted over the ACTIVE legs (R64, R194). -/
theorem cutCount_eq {s : State} {v : Ceilings} {short : UnloaderIx → Bool}
    (cut : ∀ i : UnloaderIx, s.legs[i].state = .active → cutByPower s v i = short i) :
    ((allIx 6).countP fun i => cutByPower s v i) =
      ((allIx 6).map fun i => if s.legs[i].state = .active ∧ short i = true then 1 else 0).sum := by
  induction allIx 6 with
  | nil => rfl
  | cons i l ih =>
    rw [List.countP_cons, ih, List.map_cons, List.sum_cons, Nat.add_comm]
    by_cases active : s.legs[i].state = .active
    · simp only [cut i active, active, true_and]
    · simp only [cutByPower_rest active, active, false_and, if_false, Bool.false_eq_true]

/-! ### What an expiry leaves -/

/-- What joins the egress queue depends on the telegram path alone. -/
theorem raiseFlag_path_congr {s t : State} (notices : t.notices = s.notices) (path : t.path = s.path) (f : Flag)
    (subject value : Nat) (disabled : Bool) :
    (raiseFlag f subject value disabled t).path = (raiseFlag f subject value disabled s).path := by
  have joins : ∀ {u v : State} (q : Queued), u.path = v.path → (joinEgress q u).path = (joinEgress q v).path := by
    intro u v q same
    obtain place | full := Nat.lt_or_ge v.path.egressA.length 16
    · rw [joinEgress_place place, joinEgress_place (by rw [same]; exact place), same]
    · rw [joinEgress_full full, joinEgress_full (by rw [same]; exact full), same]
  cases set : s.notices.flags.get f with
  | true => rw [raiseFlag_set (s := t) (by rw [notices, set]), raiseFlag_set set, path]
  | false =>
    rw [raiseFlag_clear (s := t) (by rw [notices, set]), raiseFlag_clear set, notices]
    split
    · exact joins _ path
    · exact path

/-- No cause touches the guard orders that wait (R195). -/
theorem raiseFlag_guardB (f : Flag) (subject value : Nat) (disabled : Bool) (s : State) :
    (raiseFlag f subject value disabled s).path.guardB = s.path.guardB := by
  have joins : ∀ (q : Queued) (u : State), (joinEgress q u).path.guardB = u.path.guardB := by
    intro q u
    obtain place | full := Nat.lt_or_ge u.path.egressA.length 16
    · rw [joinEgress_place place]
    · rw [joinEgress_full full]
  cases set : s.notices.flags.get f with
  | true => rw [raiseFlag_set set]
  | false =>
    rw [raiseFlag_clear set]
    split
    · exact joins _ _
    · rfl

theorem markPowerShort_active {s : State} {v : Ceilings} {i : UnloaderIx} (active : s.legs[i].state = .active) :
    (markPowerShort v s).legs[i] = { s.legs[i] with powerShort := cutByPower s v i } := by
  rw [markPowerShort, ofFn_get, if_pos active]

theorem markPowerShort_rest {s : State} {v : Ceilings} {i : UnloaderIx} (rest : s.legs[i].state ≠ .active) :
    (markPowerShort v s).legs[i] = s.legs[i] := by
  rw [markPowerShort, ofFn_get, if_neg rest]

/-- The state in which the grants are published: the power-short marks and the flag (R64). -/
def State.shortMarked (s : State) : State :=
  raisePowerShort (ceilingsBeforePower s) (markPowerShort (ceilingsBeforePower s) s)

/-- The feed that the stages grant a leg (R56 to R63). -/
def State.stageGrant (s : State) (i : UnloaderIx) : Nat := (scaleToPower s (ceilingsBeforePower s))[i]

theorem stageGrant_le_requested (s : State) (i : UnloaderIx) : s.stageGrant i ≤ s.legs[i].r :=
  Nat.le_trans (scaleToPower_le s _ i) (ceilingsBeforePower_le_requested s i)

theorem runStages_eq (s : State) :
    runStages s = publishPass s.stageGrant (fun _ => true) (allIx 6) s.shortMarked := stagePublish_eq _ _

theorem shortMarked_legs (s : State) : s.shortMarked.legs = (markPowerShort (ceilingsBeforePower s) s).legs := by
  rw [State.shortMarked, raisePowerShort_frame]

/-- The headroom does not depend on the marks (R61). -/
theorem markPowerShort_headroom (v : Ceilings) (s : State) : (markPowerShort v s).headroom = s.headroom := by
  have sum : ∀ x, (markPowerShort v s).activeSum x = s.activeSum x := fun x => by
    unfold State.activeSum
    refine congrArg List.sum (List.map_congr_left fun i _ => ?_)
    obtain ⟨_, leg⟩ := markPowerShort_same v s i
    rw [leg]
  unfold State.headroom State.basePower
  rw [sum]
  rfl

theorem markPowerShort_cut (v : Ceilings) (s : State) (i : UnloaderIx) :
    cutByPower (markPowerShort v s) v i = cutByPower s v i := by
  obtain ⟨_, leg⟩ := markPowerShort_same v s i
  rw [cutByPower, cutByPower, markPowerShort_headroom, leg]

/-- The number of legs that the power cuts (R64). -/
def State.cutCount (s : State) : Nat := (allIx 6).countP fun i => cutByPower s (ceilingsBeforePower s) i

theorem shortMarked_eq (s : State) : s.shortMarked = if 0 < s.cutCount then
      raiseFlag .powerShort 0 s.cutCount false (markPowerShort (ceilingsBeforePower s) s)
    else markPowerShort (ceilingsBeforePower s) s := by
  simp only [State.shortMarked, raisePowerShort, markPowerShort_cut, State.cutCount]
  rfl

theorem shortMarked_notices (s : State) : s.shortMarked.notices = if 0 < s.cutCount then
    (raiseFlag .powerShort 0 s.cutCount false s).notices else s.notices := by
  rw [shortMarked_eq]
  split
  · exact raiseFlag_notices_congr (s := s) (t := markPowerShort _ s) rfl _ _ _ _
  · rfl

theorem shortMarked_path (s : State) : s.shortMarked.path = if 0 < s.cutCount then
    (raiseFlag .powerShort 0 s.cutCount false s).path else s.path := by
  rw [shortMarked_eq]
  split
  · exact raiseFlag_path_congr (s := s) (t := markPowerShort _ s) rfl rfl _ _ _ _
  · rfl

theorem shortMarked_setpoint (s : State) (i : UnloaderIx) : s.shortMarked.guardSetpoint i = s.guardSetpoint i := by
  unfold State.guardSetpoint
  rw [shortMarked_path]
  split
  · rw [raiseFlag_guardB]
  · rfl

theorem shortMarked_sameBut (s : State) : sameBut [.legs, .notices, .path] s s.shortMarked := by
  have marks : sameBut [.legs] s (markPowerShort (ceilingsBeforePower s) s) := by
    intro p unlisted
    cases p with
    | legs => simp at unlisted
    | _ => rfl
  rw [shortMarked_eq]
  split
  · exact sameBut_trans (sameBut_mono marks (by simp)) (sameBut_mono (raiseFlag_sameBut _ _ _ _ _) (by simp))
  · exact sameBut_mono marks (by simp)

theorem shortMarked_active {s : State} {i : UnloaderIx} (active : s.legs[i].state = .active) :
    s.shortMarked.legs[i] = { s.legs[i] with powerShort := cutByPower s (ceilingsBeforePower s) i } := by
  rw [shortMarked_legs, markPowerShort_active active]

theorem shortMarked_rest {s : State} {i : UnloaderIx} (rest : s.legs[i].state ≠ .active) :
    s.shortMarked.legs[i] = s.legs[i] := by
  rw [shortMarked_legs, markPowerShort_rest rest]

section
variable {s : State} {i : UnloaderIx}
  (defined : ∀ i : UnloaderIx, s.legs[i].state = .active → (s.unloaderStation i).isSome)
include defined

theorem shortMarked_defined (i : UnloaderIx) (marked : s.shortMarked.legs[i].state = .active) :
    (s.shortMarked.unloaderStation i).isSome := by
  rw [unloaderStation_congr (congrArg Tables.stations (shortMarked_sameBut s .tables (by simp)))]
  obtain ⟨_, same⟩ := markPowerShort_same (ceilingsBeforePower s) s i
  rw [shortMarked_legs, same] at marked
  exact defined i marked

/-- What the five stages leave: the grant of every ACTIVE leg, forwarded, with its guard order (R64, R66). -/
theorem runStages_active (active : s.legs[i].state = .active) :
    (runStages s).legs[i] = { s.legs[i] with
      g := s.stageGrant i, f := s.stageGrant i, powerShort := cutByPower s (ceilingsBeforePower s) i }
    ∧ (s.legs[i].f ≠ s.stageGrant i → (runStages s).guardSetpoint i = some (s.stageGrant i))
    ∧ (s.legs[i].f = s.stageGrant i →
      (runStages s).guardSetpoint i = (s.guardSetpoint i).map fun _ => s.stageGrant i) := by
  have least : min s.legs[i].r (s.stageGrant i) = s.stageGrant i := Nat.min_eq_right (stageGrant_le_requested s i)
  have leg := shortMarked_active active
  have here : i ∈ allIx 6 ∧ s.shortMarked.legs[i].state = .active ∧ true = true :=
    ⟨mem_allIx i, by rw [leg]; exact active, rfl⟩
  have guard := publishPass_setpoint s.stageGrant (fun _ => true) i (allIx 6) s.shortMarked (allIx_nodup 6)
    (shortMarked_defined defined)
  rw [← runStages_eq, if_pos here, leg, least, shortMarked_setpoint] at guard
  refine ⟨?_, fun changes => ?_, fun stays => ?_⟩
  · rw [runStages_eq, publishPass_legs _ _ i _ _ (allIx_nodup 6), if_pos here, leg, Leg.published, least]
  · rw [guard, if_pos (Ne.symm changes)]
  · rw [guard, if_neg (not_not_intro stays.symm)]

/-- The five stages leave a leg that is not ACTIVE alone (R55). -/
theorem runStages_rest (rest : s.legs[i].state ≠ .active) :
    (runStages s).legs[i] = s.legs[i] ∧ (runStages s).guardSetpoint i = s.guardSetpoint i := by
  have leg := shortMarked_rest rest
  have elsewhere : ¬ (i ∈ allIx 6 ∧ s.shortMarked.legs[i].state = .active ∧ true = true) := fun here =>
    rest (by rw [← leg]; exact here.2.1)
  constructor
  · rw [runStages_eq, publishPass_legs _ _ i _ _ (allIx_nodup 6), if_neg elsewhere, leg]
  · rw [runStages_eq, publishPass_setpoint _ _ i _ _ (allIx_nodup 6) (shortMarked_defined defined), if_neg elsewhere,
      shortMarked_setpoint]

end

theorem runStages_egressA (s : State) : (runStages s).path.egressA = s.shortMarked.path.egressA := by
  rw [runStages_eq, publishPass_egressA]

theorem runStages_notices (s : State) : (runStages s).notices = s.shortMarked.notices := by
  rw [runStages_eq, publishPass_frame]

/-- A state that is another with new legs and a new telegram path shares all else with it. -/
theorem sameBut_legs_path {s t : State} (frame : t = { s with legs := t.legs, path := t.path }) :
    sameBut [.legs, .path] s t := by
  intro p unlisted
  rw [frame]
  cases p with
  | legs | path => simp at unlisted
  | _ => rfl

theorem runStages_sameBut (s : State) : sameBut [.legs, .notices, .path] s (runStages s) := by
  rw [runStages_eq]
  exact sameBut_trans (shortMarked_sameBut s) (sameBut_mono (sameBut_legs_path (publishPass_frame _ _ _ _)) (by simp))

/-! ### The evaluated state (R52, R55) -/

/-- The state whose stages an expiry runs: what is set is taken up, and the grant conditions are evaluated. -/
def State.atExpiry (s : State) : State :=
  evaluateLegs { s with alloc := { s.alloc with
    budgetInUse := s.alloc.budgetSet, periodInUse := s.alloc.periodSet, timeLeft := s.alloc.periodSet } }

theorem takeExpiry_eq (s : State) : takeExpiry s = runStages s.atExpiry := rfl

theorem atExpiry_active {s : State} {i : UnloaderIx} (active : s.legs[i].state = .active) :
    s.atExpiry.legs[i] = { s.legs[i] with condition := some (s.grantCondition i) } :=
  evaluateLegs_active _ i active

theorem atExpiry_rest {s : State} {i : UnloaderIx} (rest : s.legs[i].state ≠ .active) :
    s.atExpiry.legs[i] = s.legs[i] := evaluateLegs_rest _ i rest

theorem atExpiry_state (s : State) (i : UnloaderIx) : s.atExpiry.legs[i].state = s.legs[i].state :=
  evaluateLegs_state _ i

theorem atExpiry_belts (s : State) (i : UnloaderIx) : s.atExpiry.legs[i].belts = s.legs[i].belts :=
  evaluateLegs_belts _ i

theorem atExpiry_sameBut (s : State) : sameBut [.legs, .alloc] s s.atExpiry := by
  intro p unlisted
  cases p with
  | legs | alloc => simp at unlisted
  | _ => rfl

/-- What stage 4 makes of the ceilings of the ACTIVE legs: their grants, and the legs that it cuts (R61 to R63). -/
theorem stageGrant_active {s : State} {ceiling : UnloaderIx → Nat}
    (before : ∀ i : UnloaderIx, s.legs[i].state = .active → (ceilingsBeforePower s)[i] = ceiling i)
    (i : UnloaderIx) (active : s.legs[i].state = .active) :
    s.stageGrant i = (if s.headroom ≤ 0 then 0 else if s.demand ceiling ≤ s.headroom.toNat then ceiling i
      else ceiling i * s.headroom.toNat / s.demand ceiling)
    ∧ cutByPower s (ceilingsBeforePower s) i = decide (s.headroom ≤ 0 ∧ 0 < ceiling i) := by
  have demand : (s.demand fun j => (ceilingsBeforePower s)[j]) = s.demand ceiling :=
    activeSum_congr fun j there => congrArg _ (before j there)
  rw [State.stageGrant, scaleToPower_active, demand, cutByPower_active active, before i active]
  exact ⟨rfl, rfl⟩

/-- Settles O27: a timer that runs does not expire; the stages are followed over the ACTIVE legs of the evaluated
state, stage 3 by induction on the belts; and the condition is the first cause that holds. -/
theorem periodExpiryGrants : Obligations.PeriodExpiryGrants := by
  refine ⟨fun s on runs => ?running, ?expiry, ?condition⟩
  case running =>
    refine next_congr ((whenOn_on on).trans ?_)
    rw [periodExpires, whenOut, State.periodOut, beq_false_of_ne runs]
    rfl
  case condition =>
    intro s i l lot k bin x choked belt diverter full gap hl hlot hroute hbin entry belts settings isChoked isBelt
      isDiverter isFull isGap
    subst hl
    refine grantCondition_first ?_ ?_ ?_ ?_ ?_
    · rw [choked_iff, isChoked]
    · rw [isBelt, List.any_eq_true]
      exact exists_congr fun b => and_congr_right fun here => beltWaits_iff (belts b here).1 (belts b here).2
    · rw [isDiverter, List.any_eq_true]
      exact exists_congr fun y => and_congr_right fun here => diverterWaits_iff (settings y here).1 (settings y here).2
    · rw [binFull_iff hbin entry, isFull]
    · rw [gapWaits_iff hlot hroute hbin, isGap]
  case expiry =>
    intro s a d derated total top headroom demand grant short on out stations isDerated isTotal top0 topNext
      isHeadroom isDemand isGrant isShort
    have expires : exec .allocationPeriodExpiry s = .next (runStages s.atExpiry) := by
      refine next_congr ((whenOn_on on).trans ?_)
      rw [periodExpires, whenOut, State.periodOut, out]
      rfl
    have isActive := atExpiry_state s
    have station : ∀ i : UnloaderIx, s.atExpiry.legs[i].state = .active →
        s.atExpiry.unloaderStation i = some (a i, d i) := fun i active =>
      (unloaderStation_congr rfl i).trans (stations i (by rw [← isActive]; exact active))
    have defined : ∀ i : UnloaderIx, s.atExpiry.legs[i].state = .active → (s.atExpiry.unloaderStation i).isSome :=
      fun i active => by rw [station i active]; rfl
    have overAll : ∀ x, total (fun _ => true) x = s.atExpiry.activeSum x := fun x => by
      simp only [isTotal, State.activeSum, isActive, and_true]
      rfl
    have overBelt : ∀ b x, total (fun j => s.legs[j].belts.contains b) x = s.atExpiry.beltSum b x := fun b x => by
      simp only [isTotal, State.beltSum, State.crosses, isActive, atExpiry_belts, Bool.and_eq_true, beq_iff_eq]
      rfl
    have ceilings : ∀ i : UnloaderIx, s.atExpiry.legs[i].state = .active →
        (ceilingsBeforePower s.atExpiry)[i] = top 8 i := by
      refine stageBelts_active (fun b undefined => ?_) (fun b x data i => ?_) fun i active => ?_
      · funext i
        rw [topNext, show s.beltData b = none from undefined]
      · rw [topNext, show s.beltData b = some x from data]
        simp only [overBelt, atExpiry_belts]
      · have derates : s.atExpiry.legDerated s.atExpiry.legs[i] = derated i := by
          rw [Bool.eq_iff_iff, legDerated_iff, isDerated, atExpiry_active (by rw [← isActive]; exact active)]
          rfl
        rw [stageRamp_active active (station i active), derates, top0,
          atExpiry_active (by rw [← isActive]; exact active)]
        simp only [Option.some.injEq]
    have power : s.atExpiry.headroom = headroom := by
      rw [isHeadroom, overAll, State.headroom, State.basePower,
        activeSum_congr fun i active => unloaderNumber_station (station i active) _]
      rfl
    have specific : s.atExpiry.demand (top 8) = demand := by
      rw [isDemand, overAll, State.demand]
      exact activeSum_congr fun i active => by rw [unloaderNumber_station (station i active)]
    have granted : ∀ i : UnloaderIx, s.legs[i].state = .active → s.atExpiry.stageGrant i = grant i
        ∧ cutByPower s.atExpiry (ceilingsBeforePower s.atExpiry) i = short i := fun i active => by
      have := stageGrant_active ceilings i (by rw [isActive]; exact active)
      rwa [power, specific, ← isGrant, ← isShort] at this
    have cut : s.atExpiry.cutCount = total short fun _ => 1 := by
      rw [State.cutCount, cutCount_eq fun i active => (granted i (by rw [← isActive]; exact active)).2, isTotal]
      simp only [isActive]
      rfl
    refine ⟨runStages s.atExpiry, expires, runStages_sameBut _ .alloc (by simp), ?_, fun i rest => ?_,
      fun i active => ?_, ?_, ?_⟩
    · exact sameBut_trans (sameBut_mono (atExpiry_sameBut s) (by simp)) (sameBut_mono (runStages_sameBut _) (by simp))
    · obtain ⟨leg, guard⟩ := runStages_rest defined (i := i) (by rw [isActive]; exact rest)
      exact ⟨leg.trans (atExpiry_rest rest), guard⟩
    · obtain ⟨leg, changes, stays⟩ := runStages_active defined (i := i) (by rw [isActive]; exact active)
      obtain ⟨grants, cuts⟩ := granted i active
      rw [atExpiry_active active, grants] at leg changes stays
      rw [cuts] at leg
      exact ⟨leg, changes, stays⟩
    · rw [runStages_egressA, shortMarked_path, cut]
      split
      · rw [raiseFlag_path_congr (s := s) (t := s.atExpiry) rfl rfl]
      · rfl
    · rw [runStages_notices, shortMarked_notices, cut, raiseFlag_notices_congr (s := s) (t := s.atExpiry) rfl]
      rfl

end Sys2Proof.Machine
end

