-- ==== Sys2Proof/Proofs/RestartBlocks.lean ====
section
/-!
PROOFS. What RESTART leaves of each block (R24, R49, R75, R103, R124, R146, R159, R185, R192, R199).
-/

namespace Sys2Proof.Machine

/-! ### The tracker (R103) -/

theorem enterUnsures_frame : ∀ (l : List BeltIx) (s : State),
    l.foldl (fun t b => enterUnsure b t) s = { s with tracker := (l.foldl (fun t b => enterUnsure b t) s).tracker }
  | [], _ => rfl
  | b :: l, s => by
    rw [List.foldl_cons, enterUnsures_frame l (enterUnsure b s), enterUnsure_frame]

theorem enterUnsures_marks : ∀ (l : List BeltIx) (s : State), sameMarks s (l.foldl (fun t b => enterUnsure b t) s)
  | [], s => sameMarks_refl s
  | b :: l, s => sameMarks_trans (enterUnsure_marks b s) (enterUnsures_marks l _)

/-- A belt record after its belt has entered UNSURE (R96). -/
def BeltRecord.unsure (r : BeltRecord) : BeltRecord :=
  { r with condition := .unsure, queue := [unknownSlug r.position] }

/-- A record that is UNSURE with its UNKNOWN slug is given by the marks of its belt. -/
theorem unsure_of_marks {r x : BeltRecord} (same : x.marks = r.marks) : x.unsure = r.unsure := by
  simp only [BeltRecord.marks, Prod.mk.injEq] at same
  obtain ⟨position, travel, running⟩ := same
  simp only [BeltRecord.unsure, position, travel, running]

/-- Every listed belt that is defined enters UNSURE with its UNKNOWN slug alone (R96, R103). -/
theorem enterUnsures_listed {b : BeltIx} {r : BeltRecord} {l : List BeltIx} {s : State} (once : l.Nodup)
    (listed : b ∈ l) (record : s.tracker.belts[b] = some r) :
    (l.foldl (fun t x => enterUnsure x t) s).tracker.belts[b] = some r.unsure := by
  induction l generalizing s r with
  | nil => cases listed
  | cons n l ih =>
    obtain ⟨notLater, once⟩ := List.nodup_cons.1 once
    by_cases own : b = n
    · subst own
      obtain ⟨_, _, unsure⟩ := enterUnsure_spec b s r record
      exact enterUnsures_unknown (m := r.position) rfl l (fun x later same => notLater (same ▸ later)) unsure
    · have marks := enterUnsure_marks n s b
      rw [record, Option.map_some, Option.map_eq_some_iff] at marks
      obtain ⟨x, found, same⟩ := marks
      rw [List.foldl_cons, ih once ((List.mem_cons.1 listed).resolve_left own) found, unsure_of_marks same]

theorem restartTracker_frame (s : State) : restartTracker s = { s with tracker := (restartTracker s).tracker } := by
  unfold restartTracker
  dsimp only
  rw [enterUnsures_frame]

/-- Every belt is UNSURE with its UNKNOWN slug alone, and has no last travel count (R103). -/
theorem restartTracker_belts (s : State) (b : BeltIx) : (restartTracker s).tracker.belts[b] =
    s.tracker.belts[b].map fun r => { r.unsure with lastTravel := none } := by
  unfold restartTracker
  dsimp only
  rw [map_get]
  cases record : s.tracker.belts[b] with
  | some r => rw [enterUnsures_listed (allIx_nodup 8) (mem_allIx b) record]; rfl
  | none =>
    have marks := enterUnsures_marks (allIx 8) s b
    rw [record, Option.map_none, Option.map_eq_none_iff] at marks
    rw [marks]
    rfl

theorem restartTracker_sources (s : State) (i : UnloaderIx) : (restartTracker s).tracker.sources[i] = none :=
  replicate_get _ i

/-! ### All blocks (R192) -/

/-- What RESTART leaves of a state once the telegrams of its path have been placed, block by block (R192). -/
theorem restartBlocks_spec (s : State) : ∃ v : Tracker, restartBlocks s = { s with
    legs := Vector.replicate 6 Leg.atRest
    tables := { s.tables with routes := s.tables.routes.map fun x => x.map fun e => { e with users := 0 } }
    tracker := v
    seg := ⟨s.seg.diverters.map fun x => x.map fun _ => ⟨none, none, none⟩, none, 0⟩
    weighing := { s.weighing with
      weighers := (s.weighing.weighers.map fun x => { x with lastCount := none }).map fun x => { x with glitches := 0 }
      snapshotNumber := 0, snapshot := none }
    watch := (Vector.ofFn fun a => s.watch[a].map fun w => w.restarted (s.limitAt a)).map
      fun x => x.map fun w => { w with duplicates := 0 }
    path := { s.path with checkErrorsA := 0, checkErrorsB := 0, dropsA := 0, dropsB := 0, misuse := 0 }
    mgmt := { s.mgmt with cursor := none }
    notices := { s.notices with flags := Flags.allClear } }
    ∧ (∀ b : BeltIx, v.belts[b] = s.tracker.belts[b].map fun r => { r.unsure with lastTravel := none })
    ∧ ∀ i : UnloaderIx, v.sources[i] = none := by
  refine ⟨(restartTracker (restartSegregation (legsAtRest s))).tracker, ?_, restartTracker_belts _,
    restartTracker_sources _⟩
  unfold restartBlocks
  rw [restartTracker_frame]
  rfl

end Sys2Proof.Machine
end

