-- ==== Sys2Proof/Proofs/Restarts.lean ====
section
/-!
PROOFS. RESTART: what its path holds, in which order, and its effect as a whole (O52; R24, R177, R192).
-/

namespace Sys2Proof.Machine

/-! ### The queues are emptied (R177, R191) -/

/-- The addresses of the last COMMISSION reply that is discarded come into force (R191). -/
theorem discardAll_eq : ∀ (l : List Queued) (s : State), discardAll l s = { s with mgmt := { s.mgmt with
    inForce := (l.filterMap Queued.takesForce).getLastD s.mgmt.inForce } }
  | [], _ => rfl
  | q :: l, s => by
    show discardAll l (s.takeForce q.takesForce) = _
    rw [discardAll_eq l, takeForce_eq]
    cases brings : q.takesForce with
    | none => rw [List.filterMap_cons_none brings]; rfl
    | some x => rw [List.filterMap_cons_some brings, List.getLastD_cons]; rfl

/-- The addresses in force once the waiting telegrams have been discarded (R191). -/
def State.forceLeft (s : State) : Addresses :=
  ((s.path.egressA ++ s.path.forwardB).filterMap Queued.takesForce).getLastD s.mgmt.inForce

theorem emptyQueues_eq (s : State) : emptyQueues s = { s with
    mgmt := { s.mgmt with inForce := s.forceLeft }
    path := { s.path with egressA := [], forwardB := [] } } := by
  have both : discardAll s.path.forwardB (discardAll s.path.egressA s) =
      discardAll (s.path.egressA ++ s.path.forwardB) s := (List.foldl_append ..).symm
  rw [emptyQueues, both, discardAll_eq]
  rfl

/-! ### The reply and the copy (R165, R178) -/

/-- The reply is the first of its port's queue, and the copy the first of the other one's (R177, R192). -/
theorem replyThenCopy (port : Port) (answer : Queued) (copy : Option Telegram) (s : State) :
    ∃ a b, forwardCopy port copy (joinPort port answer
        { s with path := { s.path with egressA := [], forwardB := [] } }) =
        { s with path := { s.path with egressA := a, forwardB := b } }
      ∧ (port = .a → a = [answer] ∧ b = copy.toList.map .forwarded)
      ∧ (port = .b → a = copy.toList.map .forwarded ∧ b = [answer]) := by
  cases port with
  | a =>
    refine ⟨[answer], copy.toList.map .forwarded, ?_, fun _ => ⟨rfl, rfl⟩, fun isB => nomatch isB⟩
    cases copy <;> rfl
  | b =>
    refine ⟨copy.toList.map .forwarded, [answer], ?_, fun isA => (nomatch isA), fun _ => ⟨rfl, rfl⟩⟩
    cases copy <;> rfl

/-! ### The guard orders (R49, R177) -/

theorem guardWaits_iff {q : List Guard} {i : UnloaderIx} :
    (q.any fun x => x.unloader == i) = true ↔ i ∈ q.map (·.unloader) := by
  simp only [List.any_eq_true, beq_iff_eq, List.mem_map]

/-- A guard order leaves the other unloaders' waiting or not (R172). -/
theorem guardsWith_waits {q : List Guard} {g : Guard} {i : UnloaderIx} (other : i ≠ g.unloader) :
    ((guardsWith q g).any fun x => x.unloader == i) = q.any fun x => x.unloader == i := by
  rw [Bool.eq_iff_iff, guardWaits_iff, guardWaits_iff, guardsWith_unloaders]
  split
  · rfl
  · simp only [List.mem_append, List.mem_singleton, other, or_false]

theorem handGuard_absent {i : UnloaderIx} {s : State} (station : s.unloaderStation i = none) (n : Nat) :
    handGuard i n s = s := by
  rw [handGuard, station]

/-- A guard order joins or replaces, and leaves a forward queue without FEED orders alone (R172). -/
theorem handGuard_noFeed {i : UnloaderIx} {s : State} {a : Addr} {d : UnloaderData}
    (station : s.unloaderStation i = some (a, d)) (noFeed : ∀ q ∈ s.path.forwardB, ∀ a, q.isFeedTo a = false)
    (n : Nat) : handGuard i n s =
      { s with path := { s.path with guardB := guardsWith s.path.guardB ⟨i, a, n⟩ } } := by
  have kept : (s.path.forwardB.filter fun q => !q.isFeedTo a) = s.path.forwardB :=
    List.filter_eq_self.2 fun q here => by rw [noFeed q here]; rfl
  rw [handGuard_found station, kept]

/-- An unloader is to be given a guard order of 0 of its own: its leg feeds, and none waits for it (R49). -/
def State.newZero (s t : State) (i : UnloaderIx) : Bool :=
  decide (0 < s.legs[i].f) && (t.unloaderStation i).isSome && !(t.path.guardB.any fun x => x.unloader == i)

/-- The guard orders of 0 join behind those that wait, and a forward queue without FEED orders stays (R49, R172). -/
theorem handZeros_spec (s : State) : ∀ (l : List UnloaderIx) (t : State), l.Nodup →
    (∀ q ∈ t.path.forwardB, ∀ a, q.isFeedTo a = false) →
    ∃ g, l.foldl (fun t i => if 0 < s.legs[i].f then handGuard i 0 t else t) t =
        { t with path := { t.path with guardB := g } }
      ∧ g.map (·.unloader) = t.path.guardB.map (·.unloader) ++ l.filter (s.newZero t)
  | [], t, _, _ => ⟨t.path.guardB, rfl, by simp⟩
  | i :: l, t, once, noFeed => by
    obtain ⟨notLater, once⟩ := List.nodup_cons.1 once
    rw [List.foldl_cons, List.filter_cons]
    by_cases feeding : 0 < s.legs[i].f
    case neg =>
      rw [if_neg feeding, if_neg (by rw [State.newZero, decide_eq_false feeding]; exact Bool.false_ne_true)]
      exact handZeros_spec s l t once noFeed
    rw [if_pos feeding]
    cases station : t.unloaderStation i with
    | none =>
      rw [handGuard_absent station, if_neg (by simp [State.newZero, station])]
      exact handZeros_spec s l t once noFeed
    | some x =>
      obtain ⟨a, d⟩ := x
      rw [handGuard_noFeed station noFeed]
      obtain ⟨g, frame, waits⟩ := handZeros_spec s l
        { t with path := { t.path with guardB := guardsWith t.path.guardB ⟨i, a, 0⟩ } } once noFeed
      refine ⟨g, frame, waits.trans ?_⟩
      have later : l.filter (s.newZero { t with path := { t.path with
          guardB := guardsWith t.path.guardB ⟨i, a, 0⟩ } }) = l.filter (s.newZero t) :=
        List.filter_congr fun j here => by
          have other : j ≠ i := fun same => notLater (same ▸ here)
          simp only [State.newZero, guardsWith_waits (g := ⟨i, a, 0⟩) other]
          rfl
      have own : s.newZero t i = !(t.path.guardB.any fun x => x.unloader == i) := by
        rw [State.newZero, station, decide_eq_true feeding]
        rfl
      rw [later, guardsWith_unloaders, own]
      cases t.path.guardB.any fun x => x.unloader == i
      · simp
      · simp

/-- What RESTART makes of the guard queue: those that wait in their places, the new ones behind, all of 0 (R177). -/
theorem guardZeros_spec {s : State} (noFeed : ∀ q ∈ s.path.forwardB, ∀ a, q.isFeedTo a = false) :
    ∃ g, guardZeros s = { s with path := { s.path with guardB := g } }
      ∧ g.map (·.unloader) = s.path.guardB.map (·.unloader) ++ (allIx 6).filter (s.newZero s)
      ∧ ∀ x ∈ g, x.setpoint = 0 := by
  obtain ⟨g, frame, waits⟩ := handZeros_spec s (allIx 6) s (allIx_nodup 6) noFeed
  refine ⟨g.map Guard.zeroed, ?_, ?_, fun x here => ?_⟩
  · rw [guardZeros, frame, zeroGuards]
  · rw [List.map_map, ← waits]
    rfl
  · obtain ⟨y, _, rfl⟩ := List.mem_map.1 here
    rfl

/-! ### The CANCELLED answers (R124) -/

/-- The CANCELLED answer for a diverter with a pending divert (R124). -/
def State.cancelled (s : State) (d : DiverterIx) : Option Queued :=
  (s.seg.diverters[d].bind (·.pending)).map fun x => answerTo x divertWord .cancelled x.divertPosition

/-- The answer for one diverter joins, where there is one. -/
def State.cancelOne (s t : State) (d : DiverterIx) : State := (s.cancelled d).elim t fun q => joinEgress q t

theorem cancelDiverts_eq (s : State) : cancelDiverts s = (allIx 8).foldl s.cancelOne s := by
  unfold cancelDiverts
  congr 1
  funext t d
  unfold State.cancelOne State.cancelled
  cases s.seg.diverters[d].bind (·.pending) <;> rfl

/-- The CANCELLED answers join in diverter order, where the egress queue has places for them (R124). -/
theorem cancelOnes_eq (s : State) : ∀ (l : List DiverterIx) (t : State), t.path.egressA.length + l.length ≤ 16 →
    l.foldl s.cancelOne t = { t with path := { t.path with egressA := t.path.egressA ++ l.filterMap s.cancelled } }
  | [], t, _ => by rw [List.filterMap_nil, List.append_nil]; rfl
  | d :: l, t, places => by
    rw [List.length_cons] at places
    rw [List.foldl_cons, State.cancelOne]
    cases answer : s.cancelled d with
    | none =>
      rw [List.filterMap_cons_none answer]
      exact cancelOnes_eq s l t (by omega)
    | some q =>
      rw [List.filterMap_cons_some answer, Option.elim_some, joinEgress_place (by omega), cancelOnes_eq s l]
      · simp only [List.append_assoc, List.singleton_append]
      · simp only [List.length_append, List.length_singleton]
        omega

theorem cancelDiverts_places {s : State} (places : s.path.egressA.length ≤ 8) : cancelDiverts s =
    { s with path := { s.path with egressA := s.path.egressA ++ (allIx 8).filterMap s.cancelled } } := by
  have eight : (allIx 8).length = 8 := by decide
  rw [cancelDiverts_eq, cancelOnes_eq s _ s (by omega)]

/-! ### The effect as a whole (R192) -/

/-- A RESTART from ring 0 restarts the part, for the part and broadcast alike (R165, R181). -/
theorem exec_restart {port : Port} {m : Message} {s : State} {copy : List Queued} (passes : s.passes 1 m)
    (ring : s.ringOfMessage m = 0) (dest : m.dest = s.mgmt.inForce.own ∧ copy = []
      ∨ m.dest ≠ s.mgmt.inForce.own ∧ m.dest = broadcast
        ∧ copy = [.forwarded (messageTelegram m .request [20])]) :
    ∃ t : Option Telegram, copy = t.toList.map .forwarded ∧ (∀ x ∈ t, x.kind = .request)
      ∧ exec (.restart port m) s = .next (restartPart (requestTaken port m 20) t s) := by
  have checks : refusal (requestTaken port m 20) 0 [] s = none := by
    rw [refusal, effectiveRing_taken, if_neg (by omega)]
    rfl
  have taken : ∀ t, takeRestart (requestTaken port m 20) t s = restartPart (requestTaken port m 20) t s := fun t => by
    rw [takeRestart, checks]
  obtain ⟨own, rfl⟩ | ⟨other, all, rfl⟩ := dest
  · refine ⟨none, rfl, fun x none => (nomatch none), next_congr ?_⟩
    rw [requestArrives_own ⟨passes, own⟩, taken]
  · refine ⟨some (messageTelegram m .request [20]), rfl, fun x here => ?_, next_congr ?_⟩
    · cases here
      rfl
    · rw [requestArrives_handled passes, handleRequest, if_neg (by exact other), if_pos (by exact all)]
      exact taken _

/-- The state of a RESTART once the telegrams of its path have been placed: the queues, and the addresses in force
(R177, R191). -/
theorem restart_placed (port : Port) (m : Message) (s : State) {t : Option Telegram}
    (request : ∀ x ∈ t, x.kind = .request) : ∃ a b g,
      restartPart (requestTaken port m 20) t s = restartBlocks { s with
        mgmt := { s.mgmt with inForce := s.forceLeft }
        path := { s.path with egressA := a ++ (allIx 8).filterMap s.cancelled, forwardB := b, guardB := g } }
      ∧ (port = .a → a = [replyWords m 20 0 []] ∧ b = t.toList.map .forwarded)
      ∧ (port = .b → a = t.toList.map .forwarded ∧ b = [replyWords m 20 0 []])
      ∧ g.map (·.unloader) = s.path.guardB.map (·.unloader) ++ (allIx 6).filter (s.newZero s)
      ∧ ∀ x ∈ g, x.setpoint = 0 := by
  obtain ⟨a, b, placed, onA, onB⟩ := replyThenCopy port (replyWords m 20 0 []) t
    { s with mgmt := { s.mgmt with inForce := s.forceLeft } }
  have copyRequest : ∀ q ∈ t.toList.map Queued.forwarded, ∀ x, q.isFeedTo x = false := fun q here x => by
    obtain ⟨y, isCopy, rfl⟩ := List.mem_map.1 here
    rw [Queued.isFeedTo, request y (by simpa using isCopy)]
    rfl
  have noFeed : ∀ q ∈ b, ∀ x, q.isFeedTo x = false := by
    cases port with
    | a =>
      obtain ⟨_, rfl⟩ := onA rfl
      exact copyRequest
    | b =>
      obtain ⟨_, rfl⟩ := onB rfl
      intro q here x
      rw [List.mem_singleton.1 here]
      rfl
  have few : a.length ≤ 8 := by
    have copies : (t.toList.map Queued.forwarded).length ≤ 1 := by cases t <;> simp
    cases port with
    | a =>
      obtain ⟨rfl, _⟩ := onA rfl
      simp
    | b =>
      obtain ⟨rfl, _⟩ := onB rfl
      omega
  obtain ⟨g, zeros, waits, allZero⟩ := guardZeros_spec (s := { s with
    mgmt := { s.mgmt with inForce := s.forceLeft }
    path := { s.path with egressA := a, forwardB := b } }) noFeed
  refine ⟨a, b, g, ?_, onA, onB, waits, allZero⟩
  rw [restartPart, emptyQueues_eq]
  refine (congrArg (fun x => restartBlocks (cancelDiverts (guardZeros x))) placed).trans ?_
  dsimp only
  rw [zeros, cancelDiverts_places few]
  rfl

/-- Where COMMISSION replies are discarded, the addresses of one of them are left in force (R191). -/
theorem forceLeft_dropped {s : State}
    (some_ : (s.path.egressA ++ s.path.forwardB).filterMap Queued.takesForce ≠ []) :
    s.forceLeft ∈ (s.path.egressA ++ s.path.forwardB).filterMap Queued.takesForce := by
  obtain ⟨x, l, dropped⟩ := List.exists_cons_of_ne_nil some_
  rw [State.forceLeft, dropped, List.getLastD_cons]
  exact List.getLastD_mem_cons

/-- The guard order that waits for an unloader carries 0 where all of them do (R177). -/
theorem guardSetpoint_zero {s : State} {i : UnloaderIx} (zero : ∀ x ∈ s.path.guardB, x.setpoint = 0)
    (waits : i ∈ s.path.guardB.map (·.unloader)) : s.guardSetpoint i = some 0 := by
  obtain ⟨y, here, own⟩ := List.mem_map.1 waits
  obtain ⟨x, found⟩ := Option.isSome_iff_exists.1
    (List.find?_isSome (p := fun x : Guard => x.unloader == i).2 ⟨y, here, beq_iff_eq.2 own⟩)
  rw [State.guardSetpoint, found, Option.map_some, zero x (List.mem_of_find?_eq_some found)]

/-- The CANCELLED answers in the words of R107. -/
theorem cancelled_words (s : State) (d : DiverterIx) : s.cancelled d = s.seg.diverters[d].bind fun r =>
    r.pending.map fun x => Queued.own x.source .answer [word x.dest.val, 2, 8, x.payload.getD 1 0] none := by
  unfold State.cancelled
  cases s.seg.diverters[d] <;> rfl

/-- Settles O52: the queues are placed first, and then the restart of each block is read off. -/
theorem restartGivesUpWhatIsInFlight : Obligations.RestartGivesUpWhatIsInFlight := by
  intro port m s copy passes ring dest
  obtain ⟨t, rfl, request, taken⟩ := exec_restart (port := port) passes ring dest
  obtain ⟨a, b, g, placed, onA, onB, waits, zero⟩ := restart_placed port m s request
  obtain ⟨v, blocks, belts, sources⟩ := restartBlocks_spec { s with
    mgmt := { s.mgmt with inForce := s.forceLeft }
    path := { s.path with egressA := a ++ (allIx 8).filterMap s.cancelled, forwardB := b, guardB := g } }
  refine ⟨_, taken.trans (congrArg _ (placed.trans blocks)), rfl, rfl, rfl, rfl, rfl, fun i => replicate_get _ i, rfl,
    fun k => map_get _ _ k, belts, sources, fun d => map_get _ _ d, rfl, rfl, rfl, fun i => ?weighers, fun x => ?watch,
    Flags.get_allClear, rfl, rfl, rfl, fun dropped isDropped => ?force, fun i feeds defined => ?guard, ?guards, zero,
    fun cancelled isCancelled => ?queues, rfl, rfl, rfl, rfl, rfl, rfl, rfl, rfl⟩
  case weighers =>
    dsimp only
    rw [map_get, map_get]
  case watch =>
    dsimp only
    rw [map_get, ofFn_get, Option.map_map]
    rfl
  case force =>
    subst isDropped
    refine ⟨fun none_ => ?_, forceLeft_dropped⟩
    show s.forceLeft = _
    rw [State.forceLeft, none_]
    rfl
  case guard =>
    refine guardSetpoint_zero zero (waits ▸ List.mem_append.2 ?_)
    by_cases already : (s.path.guardB.any fun x => x.unloader == i) = true
    · exact .inl (guardWaits_iff.1 already)
    · refine .inr (List.mem_filter.2 ⟨mem_allIx i, ?_⟩)
      rw [State.newZero, decide_eq_true feeds, defined, Bool.eq_false_iff.2 already]
      rfl
  case guards => exact waits
  case queues =>
    have same : (allIx 8).filterMap s.cancelled = cancelled := by
      rw [isCancelled]
      exact congrArg (List.filterMap · _) (funext (cancelled_words s))
    refine ⟨fun onPortA => ?_, fun onPortB => ?_⟩
    · obtain ⟨rfl, rfl⟩ := onA onPortA
      rw [← same]
      exact ⟨rfl, rfl⟩
    · obtain ⟨rfl, rfl⟩ := onB onPortB
      rw [← same]
      exact ⟨rfl, rfl⟩

end Sys2Proof.Machine
end
